-- ==== Sys2Proof/Word.lean ====
section
/-! DEFINITION. The two word types of the HZ2560: the 16-bit word of the register port (R185) and the
8-bit value of a link unit or FIFO entry (R67, R146). -/

namespace Sys2Proof

/-- One word of the local bus port: every access moves 16 bits (R185). -/
abbrev Word := BitVec 16

/-- One 8-bit value: a unit's value (R67), a status, an end character, a generation. -/
abbrev Byte := BitVec 8

end Sys2Proof
end

