-- ==== Sys2Proof/Config.lean ====
section
/-! DEFINITION. The sizes the spec fixes for the HZ2560. The spec calls no value undefined, so there is
no free value here. -/

namespace Sys2Proof.Config

/-- Slots of the Record Table (R1). -/
abbrev slotCount : Nat := 192

/-- Entries the tag directory can hold (R22). -/
abbrev directoryLimit : Nat := 256

/-- Entries each FIFO can hold (chapter 8). -/
abbrev fifoDepth : Nat := 32

/-- Handles the sink list can hold (R90). -/
abbrev sinkLimit : Nat := 16

/-- Tags a roster snapshot can hold (R127). -/
abbrev rosterLimit : Nat := 8

/-- Consecutive CLK periods after which an asserted RESET takes effect (R190). -/
abbrev resetPeriods : Nat := 16

/-- The greatest confirm window in milliseconds; a byte above it is stored as this value (R200). -/
abbrev maxConfirmWindow : Byte := 250#8

/-- The confirm window after power-on and soft reset (R102, R200). -/
abbrev resetConfirmWindow : Byte := 20#8

end Sys2Proof.Config
end

