-- ==== Sys2Proof/Syntax.lean ====
section
/-! DEFINITION. The commands of the HZ2560: one constructor of `Instr` for each row of the spec's table,
with the operands the event carries. The parameters of a request are no operands: the part takes them
from PARAM0 to PARAM3, which are state (R191). -/

namespace Sys2Proof

/-- The polarity of a poll assignment (R130). -/
inductive Polarity where
  | normal
  | inverted
  deriving DecidableEq, Repr

/-- A poll assignment: group 0-3, line 0-7 and polarity (R130). -/
structure PollAssignment where
  group : BitVec 2
  line : BitVec 3
  polarity : Polarity
  deriving DecidableEq, Repr

/-- The strobe of a DMA acknowledge cycle (R202). -/
inductive Strobe where
  | read
  | write
  deriving DecidableEq, Repr

/-- The commands: bus cycles, DMA cycles, link units and line changes, completions of directory
operations, and the ends of the two timers. -/
inductive Instr where
  /-- A REQUEST write with code 01H (R43, R191). -/
  | create
  /-- A REQUEST write with code 02H (R49 to R51). -/
  | retire
  /-- A REQUEST write with code 03H (R53). -/
  | retag
  /-- A REQUEST write with code 04H (R55). -/
  | setAlias
  /-- A REQUEST write with code 05H (R56). -/
  | clearAlias
  /-- A REQUEST write with code 06H (R57). -/
  | suspend
  /-- A REQUEST write with code 07H (R58). -/
  | resume
  /-- A REQUEST write with code 08H (R116). -/
  | setStatus
  /-- A REQUEST write with code 09H (R117). -/
  | call
  /-- A REQUEST write with code 0AH (R118). -/
  | withdraw
  /-- A REQUEST write with code 0BH (R137). -/
  | setPoll
  /-- A REQUEST write with code 0CH (R138). -/
  | clearPoll
  /-- A REQUEST write with code 0DH (R139). -/
  | setFlag
  /-- A REQUEST write with code 0EH (R103). -/
  | confirm
  /-- A REQUEST write with code 0FH (R39). -/
  | find
  /-- A REQUEST write with code 10H (R40). -/
  | setManagementTag
  /-- A REQUEST write with code 11H (R59). -/
  | setOptions
  /-- A REQUEST write of the word `w`, whose code is in no row of R194 (R192). -/
  | unknownRequestCode (w : Word)
  /-- A CONTROL write with code 01H (R190). -/
  | resetPart
  /-- A CONTROL write with code 02H (R88). -/
  | online
  /-- A CONTROL write with code 03H (R87). -/
  | offline
  /-- A CONTROL write with code 04H (R183). -/
  | arm
  /-- A CONTROL write with code 05H (R155). -/
  | resumeInbound
  /-- A CONTROL write with code 06H (R157). -/
  | flushInbound
  /-- A CONTROL write of the word `w`, whose code is no command (R189). -/
  | unassignedControlCode (w : Word)
  /-- A read of ATTENTION (R173). -/
  | attentionRead
  /-- A read of DEVNOTICE (R177). -/
  | devnoticeRead
  /-- A read of INDATA (R156). -/
  | indataRead
  /-- A write of OUTDATA (R146). -/
  | outdata (w : Word)
  /-- A write of OUTDATA-END (R146). -/
  | outdataEnd (w : Word)
  /-- A read of WINDATA, with the selection in WINSEL and WINFIELD (R186, R197). -/
  | windataRead
  /-- A write of CONFIG (R200). -/
  | configWrite (w : Word)
  /-- A write of INTCTL (R179). -/
  | intctlWrite (w : Word)
  /-- A write of DEVNOTICE-ENABLE (R178). -/
  | devnoticeEnableWrite (w : Word)
  /-- A write of `w` to the word location `loc` (A1 to A5, byte offset 2 × `loc`) (R185). -/
  | registerWrite (loc : BitVec 5) (w : Word)
  /-- The RESET input, asserted for `periods` consecutive periods of CLK so far (R190). -/
  | resetInput (periods : Nat)
  /-- The release of the RESET input (R190). -/
  | resetRelease
  /-- An acknowledge cycle on the inbound pair, with its strobe and the TC input (R165, R167, R202). -/
  | dackIn (strobe : Strobe) (tc : Bool)
  /-- An acknowledge cycle on the outbound pair, with its strobe, the TC input and D15-D0 (R166, R167, R202). -/
  | dackOut (strobe : Strobe) (tc : Bool) (w : Word)
  /-- The director offers control unit 00H-0FH (R112). -/
  | signal (c : BitVec 4)
  /-- The director offers control unit 10H (R79). -/
  | nameSource
  /-- The director offers control unit 11H (R79). -/
  | nameSink
  /-- The director offers control unit 12H (R79). -/
  | linkRetag
  /-- The director offers a control unit of value `v` as TAG-HI (R79). -/
  | tagHi (v : Byte)
  /-- The director offers a control unit of value `v` as TAG-LO (R79). -/
  | tagLo (v : Byte)
  /-- The director offers control unit 18H (R98). -/
  | dropSource
  /-- The director offers control unit 19H (R99). -/
  | dropSinks
  /-- The director offers control unit 20H (R75, R151). -/
  | go
  /-- The director offers control unit 21H (R119). -/
  | query
  /-- The director offers control unit 28H-2BH (R78). -/
  | groupPoll (g : BitVec 2)
  /-- The director offers control unit 40H-7FH, which carries `a` (R134). -/
  | assignPoll (a : PollAssignment)
  /-- The director offers control unit 3CH (R135). -/
  | releasePoll
  /-- The director offers a control unit with an unassigned code (R77). -/
  | unassignedLinkCode (v : Byte)
  /-- A control unit of value `v`, which the part does not hold, is taken on the link (R72, R74). -/
  | controlUnitInDataPhase (v : Byte)
  /-- A data unit, which the part does not hold, is taken on the link in COMMAND phase (R72). -/
  | dataUnitInCommandPhase (v : Byte) (endFlag : Bool)
  /-- A data unit, which the part does not hold, is taken on the link in DATA phase (R72). -/
  | dataUnitSeen (v : Byte) (endFlag : Bool)
  /-- Another station offers a data unit (R68, R153). -/
  | inboundUnitOffer (v : Byte) (endFlag : Bool)
  /-- A held data unit is taken by the part (R153). -/
  | inboundUnitTake
  /-- The part offers the head outbound entry; `otherHold`: a foreign receiver holds the unit (R147, R160). -/
  | outboundUnitOffer (otherHold : Bool)
  /-- The other stations' HOLD on the offered outbound unit is released (R71, R148). -/
  | outboundUnitTaken
  /-- The part offers the status unit; `otherHold` as for the outbound unit (R122). -/
  | statusUnitOffer (otherHold : Bool)
  /-- The other stations' HOLD on the offered status unit is released (R122). -/
  | statusUnitTaken
  /-- The part offers the condition unit; `otherHold` as for the outbound unit (R123). -/
  | conditionUnitOffer (otherHold : Bool)
  /-- The other stations' HOLD on the offered condition unit is released (R124). -/
  | conditionUnitTaken
  /-- The part offers the next roster unit; `otherHold` as for the outbound unit (R128). -/
  | rosterUnitOffer (otherHold : Bool)
  /-- The other stations' HOLD on the offered roster unit is released (R128). -/
  | rosterUnitTaken
  /-- The other sender withdraws OFFER (R70). -/
  | offerWithdrawn
  /-- The director asserts PLQ (R141). -/
  | plqAsserted
  /-- The director releases PLQ (R82). -/
  | plqReleased
  /-- The director asserts STOP (R83). -/
  | stopAsserted
  /-- The director releases STOP (R84). -/
  | stopReleased
  /-- The director asserts CLEAR (R85). -/
  | clearAsserted
  /-- The director releases CLEAR (R86). -/
  | clearReleased
  /-- The link lookup of a NAME-SOURCE completes (R96). -/
  | nameSourceLookupComplete
  /-- The link lookup of a NAME-SINK completes (R97). -/
  | nameSinkLookupComplete
  /-- The link replace of a director RETAG completes (R111). -/
  | linkRetagReplaceComplete
  /-- The insert of a CREATE completes (R45, R46). -/
  | createInsertComplete
  /-- The remove of a RETIRE completes (R51). -/
  | retireRemoveComplete
  /-- The replace of a host RETAG completes (R53). -/
  | retagReplaceComplete
  /-- The insert or replace of a SET-ALIAS completes (R55). -/
  | setAliasComplete
  /-- The remove of a CLEAR-ALIAS completes (R56). -/
  | clearAliasComplete
  /-- The lookup of a FIND completes (R39). -/
  | findLookupComplete
  /-- The operation of a SET-MANAGEMENT-TAG completes (R40). -/
  | setManagementTagComplete
  /-- The confirm timer expires (R106). -/
  | confirmTimerExpiry
  /-- The four CLK periods of an INT pulse have passed (R182). -/
  | intPulseEnd
  deriving DecidableEq, Repr

end Sys2Proof
end

