-- ==== Sys2Proof/WellFormed.lean ====
section
/-! DEFINITION. Which terms of `Instr` are commands of the table: the four rows whose operand is a code or
a location that must lie outside the codes and locations of the other rows. -/

namespace Sys2Proof

/-- A request code of R194: 01H to 11H. -/
def isRequestCode (c : Byte) : Bool := 0x01#8 ≤ c && c ≤ 0x11#8

/-- A CONTROL command code of R189: 01H to 06H. -/
def isControlCode (c : Byte) : Bool := 0x01#8 ≤ c && c ≤ 0x06#8

/-- An unassigned control unit code of the table of section 4.4: 13H-17H, 1AH-1FH, 22H-27H, 2CH-3BH,
3DH-3FH, 80H-FFH. -/
def isUnassignedUnit (c : Byte) : Bool :=
  (0x13#8 ≤ c && c ≤ 0x17#8) || (0x1A#8 ≤ c && c ≤ 0x1F#8) || (0x22#8 ≤ c && c ≤ 0x27#8) ||
  (0x2C#8 ≤ c && c ≤ 0x3B#8) || (0x3D#8 ≤ c && c ≤ 0x3F#8) || 0x80#8 ≤ c

/-- A location of R185 whose write has a row of its own: CONTROL 02H, REQUEST 04H, DEVNOTICE-ENABLE 14H,
INTCTL 16H, CONFIG 1AH, OUTDATA 2AH, OUTDATA-END 2CH (byte offsets; the location is half of each). -/
def hasOwnWriteRow (loc : BitVec 5) : Bool :=
  loc == 0x01#5 || loc == 0x02#5 || loc == 0x0A#5 || loc == 0x0B#5 || loc == 0x0D#5 ||
  loc == 0x15#5 || loc == 0x16#5

/-- The well-formed commands: an unknown request code is in no row of R194, an unassigned CONTROL code is in
no row of R189, an unassigned unit code is in the table's last row, and a register write is to a location
that no other row writes. Every other term is a command. -/
def WellFormed : Instr → Bool
  | .unknownRequestCode w => !isRequestCode (w.setWidth 8)
  | .unassignedControlCode w => !isControlCode (w.setWidth 8)
  | .unassignedLinkCode v => isUnassignedUnit v
  | .registerWrite loc _ => !hasOwnWriteRow loc
  | .create | .retire | .retag | .setAlias | .clearAlias | .suspend | .resume | .setStatus | .call
  | .withdraw | .setPoll | .clearPoll | .setFlag | .confirm | .find | .setManagementTag | .setOptions
  | .resetPart | .online | .offline | .arm | .resumeInbound | .flushInbound | .attentionRead
  | .devnoticeRead | .indataRead | .outdata _ | .outdataEnd _ | .windataRead | .configWrite _
  | .intctlWrite _ | .devnoticeEnableWrite _ | .resetInput _ | .resetRelease | .dackIn _ _
  | .dackOut _ _ _ | .signal _ | .nameSource | .nameSink | .linkRetag | .tagHi _ | .tagLo _ | .dropSource
  | .dropSinks | .go | .query | .groupPoll _ | .assignPoll _ | .releasePoll | .controlUnitInDataPhase _
  | .dataUnitInCommandPhase _ _ | .dataUnitSeen _ _ | .inboundUnitOffer _ _ | .inboundUnitTake
  | .outboundUnitOffer _ | .outboundUnitTaken | .statusUnitOffer _ | .statusUnitTaken
  | .conditionUnitOffer _ | .conditionUnitTaken | .rosterUnitOffer _ | .rosterUnitTaken | .offerWithdrawn
  | .plqAsserted | .plqReleased | .stopAsserted | .stopReleased | .clearAsserted | .clearReleased
  | .nameSourceLookupComplete | .nameSinkLookupComplete | .linkRetagReplaceComplete
  | .createInsertComplete | .retireRemoveComplete | .retagReplaceComplete | .setAliasComplete
  | .clearAliasComplete | .findLookupComplete | .setManagementTagComplete | .confirmTimerExpiry
  | .intPulseEnd => true

end Sys2Proof
end

