-- ==== Sys2Proof/Decode.lean ====
section
/-! DEFINITION. The codes the part decodes: request codes (R194), CONTROL codes (R189), register locations
(R185) and control unit codes (section 4.4), each with its encoder where the meanings or statements use one;
and `decodeTableWord`, which answers none because no row of the table gives bits. -/

namespace Sys2Proof

/-- The high byte of a word. -/
def hiByte (w : Word) : Byte := w.extractLsb' 8 8

/-- The low byte of a word. -/
def loByte (w : Word) : Byte := w.setWidth 8

/-- The word with high byte `h` and low byte `l`: a tag from TAG-HI and TAG-LO (R79). -/
def wordOf (h l : Byte) : Word := h ++ l

/-- The requests of R194. -/
inductive RequestCode where
  | create | retire | retag | setAlias | clearAlias | suspend | resume | setStatus | call | withdraw
  | setPoll | clearPoll | setFlag | confirm | find | setManagementTag | setOptions
  deriving DecidableEq, Repr

/-- The code of each request (R194). -/
def RequestCode.code : RequestCode → Byte
  | .create => 0x01#8
  | .retire => 0x02#8
  | .retag => 0x03#8
  | .setAlias => 0x04#8
  | .clearAlias => 0x05#8
  | .suspend => 0x06#8
  | .resume => 0x07#8
  | .setStatus => 0x08#8
  | .call => 0x09#8
  | .withdraw => 0x0A#8
  | .setPoll => 0x0B#8
  | .clearPoll => 0x0C#8
  | .setFlag => 0x0D#8
  | .confirm => 0x0E#8
  | .find => 0x0F#8
  | .setManagementTag => 0x10#8
  | .setOptions => 0x11#8

/-- The request a code names, if any (R191, R194). -/
def decodeRequest (c : Byte) : Option RequestCode :=
  match c.toNat with
  | 0x01 => some .create
  | 0x02 => some .retire
  | 0x03 => some .retag
  | 0x04 => some .setAlias
  | 0x05 => some .clearAlias
  | 0x06 => some .suspend
  | 0x07 => some .resume
  | 0x08 => some .setStatus
  | 0x09 => some .call
  | 0x0A => some .withdraw
  | 0x0B => some .setPoll
  | 0x0C => some .clearPoll
  | 0x0D => some .setFlag
  | 0x0E => some .confirm
  | 0x0F => some .find
  | 0x10 => some .setManagementTag
  | 0x11 => some .setOptions
  | _ => none

/-- The CONTROL commands of R189. -/
inductive ControlCode where
  | resetPart | online | offline | arm | resumeInbound | flushInbound
  deriving DecidableEq, Repr

/-- The CONTROL command a code names, if any: 00H and 07H-FFH name none (R189). -/
def decodeControl (c : Byte) : Option ControlCode :=
  match c.toNat with
  | 0x01 => some .resetPart
  | 0x02 => some .online
  | 0x03 => some .offline
  | 0x04 => some .arm
  | 0x05 => some .resumeInbound
  | 0x06 => some .flushInbound
  | _ => none

/-- What a register location is (R185). -/
inductive Location where
  | status | control | request | result | resultValue
  | param (n : Fin 4)
  | devnotice | devnoticeEnable | intctl | noticeMask | config | attention | attnKinds | attnSignals
  | winsel | winfield | windata | indata | outdata | outdataEnd | source | lead | incount | outcount
  | unassigned
  deriving DecidableEq, Repr

/-- The register at a word location; its byte offset is twice the location (R185). -/
def decodeLocation (loc : BitVec 5) : Location :=
  match 2 * loc.toNat with
  | 0x00 => .status
  | 0x02 => .control
  | 0x04 => .request
  | 0x06 => .result
  | 0x08 => .resultValue
  | 0x0A => .param 0
  | 0x0C => .param 1
  | 0x0E => .param 2
  | 0x10 => .param 3
  | 0x12 => .devnotice
  | 0x14 => .devnoticeEnable
  | 0x16 => .intctl
  | 0x18 => .noticeMask
  | 0x1A => .config
  | 0x1C => .attention
  | 0x1E => .attnKinds
  | 0x20 => .attnSignals
  | 0x22 => .winsel
  | 0x24 => .winfield
  | 0x26 => .windata
  | 0x28 => .indata
  | 0x2A => .outdata
  | 0x2C => .outdataEnd
  | 0x2E => .source
  | 0x30 => .lead
  | 0x32 => .incount
  | 0x34 => .outcount
  | _ => .unassigned

/-- The control units of the table of section 4.4. -/
inductive ControlUnit where
  | signal (c : BitVec 4)
  | nameSource | nameSink | retag | dropSource | dropSinks | go | query
  | groupPoll (g : BitVec 2)
  | releasePoll
  | assignPoll (a : PollAssignment)
  | unassigned
  deriving DecidableEq, Repr

/-- Polarity as one bit: 0 for NORMAL, 1 for INVERTED (R193). -/
def Polarity.toBit : Polarity → BitVec 1
  | .normal => 0#1
  | .inverted => 1#1

/-- The polarity a bit stands for (R193). -/
def Polarity.ofBit (b : BitVec 1) : Polarity := if b = 0#1 then .normal else .inverted

/-- The poll byte of an assignment: 40H + group × 16 + polarity × 8 + line (section 4.4, R193). -/
def PollAssignment.toByte (a : PollAssignment) : Byte :=
  0x40#8 + (a.group.setWidth 8 <<< 4) + (a.polarity.toBit.setWidth 8 <<< 3) + a.line.setWidth 8

/-- The assignment in the low six bits of a poll byte (R78, R193). -/
def PollAssignment.ofByte (b : Byte) : PollAssignment :=
  { group := b.extractLsb' 4 2, line := b.extractLsb' 0 3, polarity := .ofBit (b.extractLsb' 3 1) }

/-- The control unit a value stands for when it is decoded (R77, section 4.4). -/
def decodeUnit (v : Byte) : ControlUnit :=
  if v ≤ 0x0F#8 then .signal (v.setWidth 4)
  else if v = 0x10#8 then .nameSource
  else if v = 0x11#8 then .nameSink
  else if v = 0x12#8 then .retag
  else if v = 0x18#8 then .dropSource
  else if v = 0x19#8 then .dropSinks
  else if v = 0x20#8 then .go
  else if v = 0x21#8 then .query
  else if 0x28#8 ≤ v ∧ v ≤ 0x2B#8 then .groupPoll ((v - 0x28#8).setWidth 2)
  else if v = 0x3C#8 then .releasePoll
  else if 0x40#8 ≤ v ∧ v ≤ 0x7F#8 then .assignPoll (.ofByte v)
  else .unassigned

/-- The value of a control unit with an assigned code (section 4.4); an unassigned one has no single value. -/
def encodeUnit : ControlUnit → Option Byte
  | .signal c => some (c.setWidth 8)
  | .nameSource => some 0x10#8
  | .nameSink => some 0x11#8
  | .retag => some 0x12#8
  | .dropSource => some 0x18#8
  | .dropSinks => some 0x19#8
  | .go => some 0x20#8
  | .query => some 0x21#8
  | .groupPoll g => some (0x28#8 + g.setWidth 8)
  | .releasePoll => some 0x3C#8
  | .assignPoll a => some a.toByte
  | .unassigned => none

/-- The command a table word spells: no row of the table gives bits, so no word spells one. -/
def decodeTableWord (_nbits _w : Nat) : Option Instr := none

end Sys2Proof
end

