-- ==== Sys2Proof/Machine/State.lean ====
section
/-! DEFINITION. The state of the HZ2560 as plain data, one structure for each block of the spec, and the
state right after reset. What the spec gives as a function of other state (the link role, SVC, INT, DREQ,
the poll lines, the sessions' STATUS bits) is computed in Machine/Views.lean and stored nowhere twice. -/

namespace Sys2Proof.Machine

/-! ### Record Table (chapter 1) -/

/-- A slot of the Record Table, 0-191 (R1). -/
abbrev Slot := Fin Config.slotCount

/-- A handle: one record lifetime, its slot and the slot's generation (R9). -/
structure Handle where
  slot : Slot
  gen : Byte
  deriving DecidableEq, Repr

/-- The five slot states (R1, R6). -/
inductive SlotState where
  | free | pending | active | suspended | retiring
  deriving DecidableEq, Repr

/-- The call state of a record (R2). -/
inductive CallState where
  | quiet | calling
  deriving DecidableEq, Repr

/-- The seven options (R3). -/
inductive RecordOption where
  | confirmNaming | remoteRetag | remotePoll | flagFromCall | endSend | endMark | endPause
  deriving DecidableEq, Repr

/-- The eight record notice kinds (R2, R169). -/
inductive NoticeKind where
  | namedSource | namedSink | unnamed | confirmWanted | signalled | answered | retagged | pollChanged
  deriving DecidableEq, Repr

/-- The fields of one slot (R1, R2). The link role is computed from the naming state (R17). -/
structure Record where
  state : SlotState
  generation : Byte
  primaryTag : Word
  aliasTag : Option Word
  /-- The option set, one bit per option in the order of R193. -/
  options : BitVec 7
  endChar : Option Byte
  status : Byte
  call : CallState
  hostFlag : Bool
  poll : Option PollAssignment
  /-- The notice set in the layout of R201. -/
  notices : BitVec 8
  /-- The signal set: bit c for code c (R201). -/
  signals : BitVec 16
  deriving DecidableEq, Repr

/-- The fields of a FREE slot of generation `g` (R16). -/
def Record.cleared (g : Byte) : Record :=
  { state := .free, generation := g, primaryTag := 0#16, aliasTag := none, options := 0#7, endChar := none,
    status := 0#8, call := .quiet, hostFlag := false, poll := none, notices := 0#8, signals := 0#16 }

/-! ### Tag Directory and Directory Engine (chapter 2) -/

/-- Whose tag an entry carries: the entry kind, with the slot where there is one (R22). -/
inductive Owner where
  | primary (slot : Slot)
  | aliasOf (slot : Slot)
  | management
  deriving DecidableEq, Repr

/-- One directory entry (R22). -/
structure Entry where
  tag : Word
  owner : Owner
  deriving DecidableEq, Repr

/-- What a remove takes out (R29). -/
inductive Designation where
  | slotEntries (slot : Slot)
  | aliasEntry (slot : Slot)
  | managementEntry
  deriving DecidableEq, Repr

/-- A directory operation (R27 to R30). -/
inductive Operation where
  | lookup (tag : Word)
  | insert (entries : List Entry)
  | remove (what : Designation)
  | replace (target : Owner) (tag : Word)
  deriving DecidableEq, Repr

/-- The role a naming asks for (R90). -/
inductive Role where
  | source | sink
  deriving DecidableEq, Repr

/-- The link claim: the lookup of a naming, or the replace of a director RETAG (R32). -/
inductive LinkClaim where
  | lookup (role : Role) (tag : Word)
  | replace (slot : Slot) (tag : Word)
  deriving DecidableEq, Repr

/-- The operation in flight with its claimant; a link operation carries whether its result is
discarded (R26, R35). -/
inductive Flight where
  | link (claim : LinkClaim) (discarded : Bool)
  | request (op : Operation)
  deriving DecidableEq, Repr

/-- The Directory Engine: free when nothing is in flight, and the two waiting claims (R26, R32). -/
structure Engine where
  flight : Option Flight
  linkClaim : Option LinkClaim
  requestClaim : Option Operation
  deriving DecidableEq, Repr

/-! ### Request Engine (chapter 10) -/

/-- A request that waits for its directory operation, with the slot it works on. -/
inductive DirectoryRequest where
  | create (slot : Slot)
  | retire (slot : Slot)
  | retag (slot : Slot)
  | setAlias (slot : Slot)
  | clearAlias (slot : Slot)
  | find
  | setManagementTag
  deriving DecidableEq, Repr

/-- The request in flight with its copies of PARAM0 to PARAM3 (R191). -/
structure Request where
  kind : DirectoryRequest
  params : Vector Word 4
  deriving DecidableEq, Repr

/-! ### Link Responder (chapters 4 and 5) -/

/-- The part's copy of the link phase (R73). -/
inductive Phase where
  | command | data
  deriving DecidableEq, Repr

/-- The codes that open a control sequence (R79). -/
inductive Opening where
  | nameSource | nameSink | retag
  deriving DecidableEq, Repr

/-- The control sequence (R79). -/
inductive Sequence where
  | none
  | awaitHi (opening : Opening)
  | awaitLo (opening : Opening) (hi : Byte)
  deriving DecidableEq, Repr

/-- The KIND of a unit (R67). -/
inductive UnitKind where
  | control | data
  deriving DecidableEq, Repr

/-- A unit as the part reads it at its offer (R67). -/
structure LinkUnit where
  kind : UnitKind
  value : Byte
  endFlag : Bool
  deriving DecidableEq, Repr

/-- Why the part holds a unit (R69). -/
inductive HoldCause where
  | lookup | confirm | replace | drain | room | pause
  deriving DecidableEq, Repr

/-- The held unit with its cause (R69). -/
structure Held where
  unit : LinkUnit
  cause : HoldCause
  deriving DecidableEq, Repr

/-- What the part's offered unit is: an outbound entry (`backed` while the entry stands in the FIFO, R61),
a unit of a status answer, or a unit of a roster (R71). -/
inductive OfferKind where
  | outbound (backed : Bool)
  | status
  | condition
  | roster
  deriving DecidableEq, Repr

/-- The unit the part offers; `otherHold` while a foreign receiver holds it (R71, R160). -/
structure Offered where
  kind : OfferKind
  value : Byte
  endFlag : Bool
  otherHold : Bool
  deriving DecidableEq, Repr

/-- The part source (R90). -/
inductive Source where
  | none
  | record (h : Handle)
  | management
  deriving DecidableEq, Repr

/-- The pending confirm; `timer` is the window it was loaded with, 0 for no limit (R90, R102). -/
structure Confirm where
  handle : Handle
  role : Role
  timer : Byte
  deriving DecidableEq, Repr

/-- The Link Responder. `sending` is what the take of GO settled: the part sends outbound entries in this
DATA phase (R75, R147). -/
structure LinkResponder where
  online : Bool
  phase : Phase
  sequence : Sequence
  held : Option Held
  offered : Option Offered
  pollGroup : BitVec 2
  clearSeen : Bool
  reject : Bool
  source : Source
  sinks : List Handle
  queryArmed : Bool
  confirm : Option Confirm
  sending : Bool
  deriving DecidableEq, Repr

/-! ### Call Unit (chapter 6) -/

/-- The next unit of a status answer (R121, R122). -/
inductive AnswerUnit where
  | status | condition
  deriving DecidableEq, Repr

/-- The answer in progress; a roster answer holds its snapshot and the position of the next unit (R127). -/
inductive Answer where
  | none
  | status (h : Handle) (next : AnswerUnit)
  | roster (tags : List Word) (position : Nat)
  deriving DecidableEq, Repr

/-- The Call Unit (chapter 6). -/
structure CallUnit where
  queue : List Handle
  answer : Answer
  deriving DecidableEq, Repr

/-! ### Data Channels (chapter 8) -/

/-- An outbound entry (R146). -/
structure OutEntry where
  value : Byte
  endMark : Bool
  deriving DecidableEq, Repr

/-- An inbound entry (R153). -/
structure InEntry where
  value : Byte
  byLine : Bool
  byChar : Bool
  deriving DecidableEq, Repr

/-- The lead mode of an inbound session (R150). -/
inductive LeadMode where
  | none | mark | pause
  deriving DecidableEq, Repr

/-- The copies an open inbound session holds (R150). -/
structure InboundSession where
  lead : Handle
  mode : LeadMode
  endChar : Option Byte
  deriving DecidableEq, Repr

/-- The Data Channels (chapter 8); the outbound session is open exactly while the source is a record (R145). -/
structure DataChannels where
  outFifo : List OutEntry
  session : Option InboundSession
  inFifo : List InEntry
  paused : Bool
  deriving DecidableEq, Repr

/-! ### Notice Unit (chapter 9) -/

/-- The thirteen device notices (chapter 9). -/
inductive DeviceNotice where
  | linkCleared | stopped | confirmExpired | confirmAbandoned | requestDone | inboundReady | inboundSession
  | inboundPaused | phaseEnd | outboundEmpty | outboundRefused | terminalCount | startRefused
  deriving DecidableEq, Repr

/-- The mode of the interrupt output (R179). -/
inductive IntMode where
  | level | pulse
  deriving DecidableEq, Repr

/-- The Notice Unit (chapter 9); the record notice and signal sets stand in the records. -/
structure NoticeUnit where
  attention : List Handle
  attnKinds : BitVec 8
  attnSignals : BitVec 16
  noticeMask : BitVec 8
  devnotice : BitVec 13
  devnoticeEnable : BitVec 13
  masterEnable : Bool
  mode : IntMode
  attentionEnable : Bool
  armed : Bool
  /-- A pulse on INT is in progress (R182). -/
  pulse : Bool
  deriving DecidableEq, Repr

/-! ### Local Bus Port (chapter 10) -/

/-- A selection of the indirect window: WINSEL and WINFIELD (R197). -/
structure Selection where
  winsel : Word
  winfield : Byte
  deriving DecidableEq, Repr

/-- The Local Bus Port. `readData` is the model's own: the word last presented on D0-D15. -/
structure BusPort where
  params : Vector Word 4
  result : Word
  resultValue : Word
  select : Selection
  confirmWindow : Byte
  dmaIn : Bool
  dmaOut : Bool
  endOnTc : Bool
  readData : Word
  /-- The selection of the WINDATA read that WAIT stretches (R186). -/
  stretched : Option Selection
  /-- RESET has taken effect and stays asserted (R190). -/
  resetHeld : Bool
  deriving DecidableEq, Repr

/-! ### Lines of the link that the part watches (R66) -/

/-- How the part stands to another sender's OFFER: the offer waits for the part to attend to it (R82, R84); the part
has attended to it, and sees its take (R67, R72); the part never attends to it, and its take has no effect (R87,
R88); or its unit has been taken on the link, and only the withdrawal is left (R70). -/
inductive Standing where
  | waiting | attended | ignored | over
  deriving DecidableEq, Repr

/-- Another sender's OFFER standing on the link. -/
structure ForeignOffer where
  unit : LinkUnit
  standing : Standing
  deriving DecidableEq, Repr

/-- The director's lines and the standing offer of another sender. -/
structure LinkLines where
  plq : Bool
  stop : Bool
  clear : Bool
  foreign : Option ForeignOffer
  deriving DecidableEq, Repr

/-- The whole part, with the queue of commands that wait. -/
structure State where
  records : Vector Record Config.slotCount
  freeList : List Slot
  directory : List Entry
  managementTag : Option Word
  engine : Engine
  request : Option Request
  link : LinkResponder
  calls : CallUnit
  /-- The assertion counters; group g and line l stand at 8 × g + l (R133). -/
  counters : Vector Nat 32
  data : DataChannels
  notice : NoticeUnit
  port : BusPort
  lines : LinkLines
  pending : List Instr
  deriving DecidableEq, Repr

/-- Why the part stops with a fault: it never does. The spec gives no behaviour that stops the part; errors
are results, REJECT and device notices. No constructor, so nobody raises one (safe). -/
inductive Fault : Type where
  deriving DecidableEq, Repr

/-- Why a command has no meaning. -/
inductive Refusal where
  /-- Raised by an arm of `exec` whose command has no meaning in the model yet (safe). No arm does. -/
  | notModelled (mnemonic : String)
  deriving DecidableEq, Repr

/-- The part right after reset (R18, R25, R36, R89, R133, R164, R184, R185, R190), with the lines of the link
released and nothing in the queue. -/
def State.reset : State :=
  { records := Vector.replicate Config.slotCount (Record.cleared 0#8)
    freeList := List.finRange Config.slotCount
    directory := []
    managementTag := none
    engine := { flight := none, linkClaim := none, requestClaim := none }
    request := none
    link :=
      { online := false, phase := .command, sequence := .none, held := none, offered := none, pollGroup := 0#2,
        clearSeen := false, reject := false, source := .none, sinks := [], queryArmed := false, confirm := none,
        sending := false }
    calls := { queue := [], answer := .none }
    counters := Vector.replicate 32 0
    data := { outFifo := [], session := none, inFifo := [], paused := false }
    notice :=
      { attention := [], attnKinds := 0#8, attnSignals := 0#16, noticeMask := 0xFF#8, devnotice := 0#13,
        devnoticeEnable := 0#13, masterEnable := false, mode := .level, attentionEnable := false, armed := true,
        pulse := false }
    port :=
      { params := Vector.replicate 4 0#16, result := 0#16, resultValue := 0#16,
        select := { winsel := 0#16, winfield := 0#8 }, confirmWindow := Config.resetConfirmWindow,
        dmaIn := false, dmaOut := false, endOnTc := false, readData := 0#16, stretched := none,
        resetHeld := false }
    lines := { plq := false, stop := false, clear := false, foreign := none }
    pending := [] }

end Sys2Proof.Machine
end

