-- ==== Sys2Proof/Machine/Operands.lean ====
section
/-! DEFINITION. How words of the port carry their contents: handles (R9), parameters (R193), option bits and
poll bytes, and the layouts of CONFIG, INTCTL, INDATA and the outbound data (R200, R201). -/

namespace Sys2Proof.Machine

/-! ### Handles -/

/-- The word FFFFH: "none" in a handle register (R9). -/
def noneWord : Word := 0xFFFF#16

/-- The word FFFEH: the management station (R9). -/
def managementWord : Word := 0xFFFE#16

/-- A handle as one word: generation × 256 + slot (R9). -/
def Handle.word (h : Handle) : Word := wordOf h.gen (BitVec.ofNat 8 h.slot.val)

/-- The slot of an index below 192, if it is one (R1). -/
def slotOfNat (n : Nat) : Option Slot := if h : n < Config.slotCount then some ⟨n, h⟩ else none

/-- The slot part of a handle word: 192 or greater names none (R10). -/
def slotPart (w : Word) : Option Slot := slotOfNat (loByte w).toNat

/-! ### Options and the end character -/

/-- The bit of each option (R193). -/
def RecordOption.bit : RecordOption → Nat
  | .confirmNaming => 0
  | .remoteRetag => 1
  | .remotePoll => 2
  | .flagFromCall => 3
  | .endSend => 4
  | .endMark => 5
  | .endPause => 6

/-- Whether an option set holds an option (R3). -/
def hasOption (os : BitVec 7) (o : RecordOption) : Bool := os.getLsbD o.bit

/-- The option set of an option word; bit 7 set is a value outside the seven options (R193). -/
def optionsOf (w : Word) : Option (BitVec 7) := if w.getLsbD 7 then none else some (w.setWidth 7)

/-- The end character stored with an option set: the value carried when an end option is set, else absent (R4). -/
def endCharOf (os : BitVec 7) (c : Byte) : Option Byte :=
  if hasOption os .endSend || hasOption os .endMark || hasOption os .endPause then some c else none

/-! ### Poll assignments -/

/-- The poll assignment byte of CREATE: 00H none, 40H-7FH an assignment, every other value out of range (R193). -/
def pollByteOf (b : Byte) : Option (Option PollAssignment) :=
  if b = 0x00#8 then some none
  else if 0x40#8 ≤ b ∧ b ≤ 0x7F#8 then some (some (.ofByte b))
  else none

/-- The group, line and polarity words of SET-POLL, checked against their ranges (R137, R193). -/
def pollOfWords (group line polarity : Word) : Option PollAssignment :=
  if group.toNat < 4 ∧ line.toNat < 8 ∧ polarity.toNat < 2 then
    some { group := group.setWidth 2, line := line.setWidth 3, polarity := .ofBit (polarity.setWidth 1) }
  else none

/-- A word that must be 0 or 1 (R193). -/
def zeroOrOne (w : Word) : Option Bool :=
  if w = 0#16 then some false else if w = 1#16 then some true else none

/-! ### Register layouts -/

/-- The confirm window a CONFIG byte stores: 251 to 255 is stored as 250 (R200). -/
def storedWindow (b : Byte) : Byte := if Config.maxConfirmWindow < b then Config.maxConfirmWindow else b

/-- CONFIG as read (R200). -/
def BusPort.configWord (p : BusPort) : Word :=
  (0#5 ++ BitVec.ofBool p.endOnTc ++ BitVec.ofBool p.dmaOut ++ BitVec.ofBool p.dmaIn) ++ p.confirmWindow

/-- INTCTL as read (R201). -/
def NoticeUnit.intctlWord (n : NoticeUnit) : Word :=
  0#12 ++ BitVec.ofBool n.armed ++ BitVec.ofBool n.attentionEnable ++ BitVec.ofBool (n.mode == .pulse)
    ++ BitVec.ofBool n.masterEnable

/-- An inbound entry as an INDATA word, with its valid bit (R201). -/
def InEntry.word (e : InEntry) : Word :=
  (1#1 ++ 0#5 ++ BitVec.ofBool e.byChar ++ BitVec.ofBool e.byLine) ++ e.value

/-- Slot states as the STATE field shows them (R198). -/
def SlotState.code : SlotState → Word
  | .free => 0#16
  | .pending => 1#16
  | .active => 2#16
  | .suspended => 3#16
  | .retiring => 4#16

/-- The POLL field: 00H when absent, else the poll byte (R198). -/
def pollWord : Option PollAssignment → Word
  | none => 0#16
  | some a => a.toByte.setWidth 16

/-- The KIND field of a directory entry (R199). -/
def Owner.code : Owner → Word
  | .primary _ => 1#16
  | .aliasOf _ => 2#16
  | .management => 3#16

/-- A Bool as a word. -/
def boolWord (b : Bool) : Word := if b then 1#16 else 0#16

/-! ### Results -/

/-- The eleven results (R195). -/
inductive ResultCode where
  | ok | noSlot | directoryFull | tagTaken | badTag | stale | wrongState | named | late | notFound | badRequest
  deriving DecidableEq, Repr

/-- The code of each result (R195). -/
def ResultCode.word : ResultCode → Word
  | .ok => 0x01#16
  | .noSlot => 0x02#16
  | .directoryFull => 0x03#16
  | .tagTaken => 0x04#16
  | .badTag => 0x05#16
  | .stale => 0x06#16
  | .wrongState => 0x07#16
  | .named => 0x08#16
  | .late => 0x09#16
  | .notFound => 0x0A#16
  | .badRequest => 0x0B#16

end Sys2Proof.Machine
end

