-- ==== Sys2Proof/Machine/Flags.lean ====
section
/-! DEFINITION. Every flag the spec computes: notice bits (R201), the poll flag and the drive of a record
(R131, R132), the drive update of the assertion counters (R132), the interrupt condition and the start of
a pulse (R180, R182), and the posting of a device notice (R176). -/

namespace Sys2Proof.Machine

/-! ### Notice bits -/

/-- The bit of each record notice kind (R201). -/
def NoticeKind.bit : NoticeKind → BitVec 8
  | .namedSource => 0x01#8
  | .namedSink => 0x02#8
  | .unnamed => 0x04#8
  | .confirmWanted => 0x08#8
  | .signalled => 0x10#8
  | .answered => 0x20#8
  | .retagged => 0x40#8
  | .pollChanged => 0x80#8

/-- The bit of each device notice (R201). -/
def DeviceNotice.bit : DeviceNotice → BitVec 13
  | .linkCleared => 0x0001#13
  | .stopped => 0x0002#13
  | .confirmExpired => 0x0004#13
  | .confirmAbandoned => 0x0008#13
  | .requestDone => 0x0010#13
  | .inboundReady => 0x0020#13
  | .inboundSession => 0x0040#13
  | .inboundPaused => 0x0080#13
  | .phaseEnd => 0x0100#13
  | .outboundEmpty => 0x0200#13
  | .outboundRefused => 0x0400#13
  | .terminalCount => 0x0800#13
  | .startRefused => 0x1000#13

/-- The bit of a signal code (R201). -/
def signalBit (c : BitVec 4) : BitVec 16 := 1#16 <<< c.toNat

/-- Posting a device notice latches it in DEVNOTICE, whatever the enables hold (R176). -/
def postDevice (n : DeviceNotice) (s : State) : State :=
  { s with notice.devnotice := s.notice.devnotice ||| n.bit }

/-! ### The poll flag and the drive -/

/-- The poll flag: the call state under FLAG-FROM-CALL, the host flag otherwise (R131). -/
def Record.pollFlag (r : Record) : Bool :=
  if hasOption r.options .flagFromCall then r.call == .calling else r.hostFlag

/-- A counter's place: group and line as one number, 8 × group + line (R133). -/
abbrev PollPoint := BitVec 5

/-- The place of an assignment. -/
def pollPoint (a : PollAssignment) : PollPoint := a.group ++ a.line

/-- Where a record drives, if it does: ACTIVE, with an assignment, flag and polarity agreeing (R132). -/
def Record.drive (r : Record) : Option PollPoint :=
  match r.poll with
  | none => none
  | some a =>
    if r.state = .active ∧ (r.pollFlag = true ↔ a.polarity = .normal) then some (pollPoint a) else none

/-- The 32 assertion counters (R133). -/
abbrev Counters := Vector Nat 32

/-- One counter. -/
def Counters.at (c : Counters) (p : PollPoint) : Nat := c.get p.toFin

/-- The counters with one of them changed. -/
def Counters.put (c : Counters) (p : PollPoint) (n : Nat) : Counters := c.set p.toNat n p.isLt

/-- The counter of a place gains one; no place, no change. -/
def Counters.incr (c : Counters) : Option PollPoint → Counters
  | none => c
  | some p => c.put p (c.at p + 1)

/-- The counter of a place loses one; no place, no change. -/
def Counters.decr (c : Counters) : Option PollPoint → Counters
  | none => c
  | some p => c.put p (c.at p - 1)

/-- The drive update: from the drive before a change to the drive after it (table of R132). -/
def driveUpdate (before after : Option PollPoint) (c : Counters) : Counters :=
  if before = after then c else (c.decr before).incr after

/-! ### The interrupt -/

/-- The interrupt condition (R180). -/
def interruptCondition (s : State) : Bool :=
  s.notice.masterEnable &&
    ((s.notice.attentionEnable && !s.notice.attention.isEmpty) ||
      (s.notice.devnotice &&& s.notice.devnoticeEnable != 0#13))

/-- In PULSE mode, armed, with the condition true and no pulse in progress, a pulse starts and the unit
disarms (R182). -/
def startPulse (s : State) : State :=
  if s.notice.mode = .pulse ∧ s.notice.armed = true ∧ s.notice.pulse = false ∧ interruptCondition s = true then
    { s with notice.armed := false, notice.pulse := true }
  else s

/-- The end of a command's step: the interrupt condition is evaluated anew (R180, R182). -/
def done (s : State) : Host.Outcome State Fault Refusal := .next (startPulse s)

end Sys2Proof.Machine
end

