-- ==== Sys2Proof/Machine/Ops.lean ====
section
/-! DEFINITION. The named operations over the tables: reading and changing a record with its drive update
(R132), posting record notices (R169), handles (R9, R10), ending a request (R192), sending and taking
claims (R32, R33), withdrawing the link claim (R34, R35), and how a bus access meets RESET (R190). -/

namespace Sys2Proof.Machine

/-! ### Records -/

/-- The record in a slot. -/
def State.record (s : State) (i : Slot) : Record := s.records.get i

/-- A slot's fields replaced, with the drive update of R132 made in the same step. -/
def State.setRecord (s : State) (i : Slot) (r : Record) : State :=
  { s with
    records := s.records.set i.val r i.isLt
    counters := driveUpdate (s.record i).drive r.drive s.counters }

/-- A change to a slot's fields, with its drive update (R132). -/
def State.updRecord (s : State) (i : Slot) (f : Record → Record) : State := s.setRecord i (f (s.record i))

/-- The handle of the record now in a slot (R9). -/
def State.handleOf (s : State) (i : Slot) : Handle := { slot := i, gen := (s.record i).generation }

/-- Whether the record in a slot is ACTIVE or SUSPENDED. -/
def Record.inService (r : Record) : Bool := r.state == .active || r.state == .suspended

/-- The slot a handle word names, if it is not stale (R10). -/
def State.slotOf (s : State) (w : Word) : Option Slot :=
  match slotPart w with
  | none => none
  | some i => if (s.record i).state = .free ∨ (s.record i).generation ≠ hiByte w then none else some i

/-! ### Notices -/

/-- Posting a record notice: subject to NOTICE-MASK and the record's state; a record whose set was empty
joins the attention list at the tail (R169). -/
def postRecord (k : NoticeKind) (i : Slot) (s : State) : State :=
  if s.notice.noticeMask &&& k.bit = 0#8 ∨ (s.record i).inService = false then s
  else
    let t := s.updRecord i fun r => { r with notices := r.notices ||| k.bit }
    if (s.record i).notices = 0#8 then { t with notice.attention := t.notice.attention ++ [s.handleOf i] } else t

/-! ### Results of requests -/

/-- A request ends: RESULT and RESULT-VALUE are written, BUSY clears and REQUEST-DONE is posted (R192). -/
def endRequest (r : ResultCode) (value : Word) (s : State) : State :=
  postDevice .requestDone { s with request := none, port.result := r.word, port.resultValue := value }

/-- A request ends with a result other than OK, and RESULT-VALUE FFFFH (R194). -/
def failRequest (r : ResultCode) (s : State) : State := endRequest r noneWord s

/-! ### Claims -/

/-- The engine takes the next claim at a completion: the link claim before the request claim, or it becomes
free (R33). -/
def Engine.takeNext (e : Engine) : Engine :=
  match e.linkClaim, e.requestClaim with
  | some c, r => { flight := some (.link c false), linkClaim := none, requestClaim := r }
  | none, some op => { flight := some (.request op), linkClaim := none, requestClaim := none }
  | none, none => { flight := none, linkClaim := none, requestClaim := none }

/-- The link claim is sent: taken at once by a free engine, else it waits (R33). -/
def sendLinkClaim (c : LinkClaim) (s : State) : State :=
  match s.engine.flight with
  | none => { s with engine.flight := some (.link c false) }
  | some _ => { s with engine.linkClaim := some c }

/-- The request claim is sent: taken at once by a free engine, else it waits (R33). -/
def sendRequestClaim (op : Operation) (s : State) : State :=
  match s.engine.flight with
  | none => { s with engine.flight := some (.request op) }
  | some _ => { s with engine.requestClaim := some op }

/-- A link operation in flight whose unit has vanished: its result will be discarded (R35). -/
def Flight.discard : Flight → Flight
  | .link c _ => .link c true
  | .request op => .request op

/-- STOP, CLEAR or OFFLINE withdraws a waiting link claim (R34) and lets a taken one run on with its result
discarded (R35). -/
def withdrawLinkClaim (s : State) : State :=
  { s with engine.linkClaim := none, engine.flight := s.engine.flight.map Flight.discard }

/-! ### Bus accesses -/

/-- A read presents a word on the data bus. -/
def present (w : Word) (s : State) : State := { s with port.readData := w }

/-- A write access with an effect: disregarded while RESET is held (R190). -/
def busWrite (f : State → State) (s : State) : Host.Outcome State Fault Refusal :=
  if s.port.resetHeld then .next s else done (f s)

/-- A read access with an effect: answered with 0000H while RESET is held (R190). -/
def busRead (f : State → State) (s : State) : Host.Outcome State Fault Refusal :=
  if s.port.resetHeld then .next (present 0#16 s) else done (f s)

/-- A REQUEST write by the state of the Request Engine: run when idle, START-REFUSED when it holds a
request (R191). -/
def startRequest (body : State → State) (s : State) : State :=
  if s.request.isSome then postDevice .startRefused s else body s

/-- A register of PARAM0 to PARAM3 as it stands. -/
def State.param (s : State) (n : Fin 4) : Word := s.port.params.get n

/-- The record the handle in PARAM0 names, or STALE (R10). -/
def onRecord (body : Slot → State → State) (s : State) : State :=
  match s.slotOf (s.param 0) with
  | none => failRequest .stale s
  | some i => body i s

/-- A request ends with OK and the handle given (R42, R194). -/
def okHandle (s : State) : State := endRequest .ok (s.param 0) s

/-- A request goes on to its directory stage: it is held with its parameters and its claim is sent (R42). -/
def startStage (kind : DirectoryRequest) (op : Operation) (s : State) : State :=
  sendRequestClaim op { s with request := some { kind := kind, params := s.port.params } }

end Sys2Proof.Machine
end

