-- ==== Sys2Proof/Machine/Directory.lean ====
section
/-! DEFINITION. The tag directory: order of entries (R22, R23) and the four operations decided at their
completion (R27 to R30). -/

namespace Sys2Proof.Machine

/-- What a directory change comes to at its completion: the new directory, or the failure (R28, R30). -/
inductive Change where
  | made (d : List Entry)
  | failed (r : ResultCode)
  deriving DecidableEq, Repr

/-- Whether any entry holds a tag. -/
def holdsTag (t : Word) (d : List Entry) : Bool := d.any fun e => e.tag == t

/-- The owner of the entry holding a tag, if any (R27). -/
def lookupTag (t : Word) : List Entry → Option Owner
  | [] => none
  | e :: d => if e.tag = t then some e.owner else lookupTag t d

/-- An entry placed at the position its tag requires (R28). -/
def placeEntry (e : Entry) : List Entry → List Entry
  | [] => [e]
  | x :: d => if e.tag < x.tag then e :: x :: d else x :: placeEntry e d

/-- Entries placed one after the other. -/
def placeEntries : List Entry → List Entry → List Entry
  | [], d => d
  | e :: es, d => placeEntries es (placeEntry e d)

/-- The insert of R28: TAG-TAKEN, else DIRECTORY-FULL, else every entry placed. -/
def insertEntries (es : List Entry) (d : List Entry) : Change :=
  if es.any (fun e => holdsTag e.tag d) then .failed .tagTaken
  else if Config.directoryLimit < d.length + es.length then .failed .directoryFull
  else .made (placeEntries es d)

/-- Whether a designation takes an owner's entry out (R29). -/
def Designation.takes : Designation → Owner → Bool
  | .slotEntries i, .primary j => i == j
  | .slotEntries i, .aliasOf j => i == j
  | .aliasEntry i, .aliasOf j => i == j
  | .managementEntry, .management => true
  | _, _ => false

/-- The remove of R29. -/
def removeEntries (what : Designation) (d : List Entry) : List Entry :=
  d.filter fun e => !what.takes e.owner

/-- The replace of R30: TAG-TAKEN when any entry holds the new tag, else the target's entry under its new
tag at its new position. -/
def replaceEntry (target : Owner) (t : Word) (d : List Entry) : Change :=
  if holdsTag t d then .failed .tagTaken
  else if d.any (fun e => e.owner == target) then
    .made (placeEntry { tag := t, owner := target } (d.filter fun e => e.owner != target))
  else .made d

/-- The slot of an owner, absent for the management station (R22). -/
def Owner.slot : Owner → Option Slot
  | .primary i => some i
  | .aliasOf i => some i
  | .management => none

end Sys2Proof.Machine
end

