-- ==== Sys2Proof/Machine/Views.lean ====
section
/-! DEFINITION. What the host and the link see of the state: the registers read without effect (R185, R188,
R91, R150), the indirect window (R197 to R199), the output pins (R66, R115, R140, R165, R166, R181, R182),
and the link role (R17). None of these changes the state. -/

namespace Sys2Proof.Machine

/-! ### Naming state -/

/-- The link role of a record (R17). -/
inductive LinkRole where
  | none | source
  | sink (position : Nat)
  deriving DecidableEq, Repr

/-- The link role of the record in a slot, which mirrors the naming state at all times (R17). -/
def State.role (s : State) (i : Slot) : LinkRole :=
  if s.link.source = .record (s.handleOf i) then .source
  else match s.link.sinks.idxOf? (s.handleOf i) with
    | some p => .sink p
    | none => .none

/-- The outbound session is open exactly while the part source is a record (R145). -/
def State.outSessionOpen (s : State) : Bool :=
  match s.link.source with
  | .record _ => true
  | .none | .management => false

/-- SOURCE (R91). -/
def State.sourceWord (s : State) : Word :=
  match s.link.source with
  | .none => noneWord
  | .record h => h.word
  | .management => managementWord

/-- LEAD (R150). -/
def State.leadWord (s : State) : Word :=
  match s.data.session with
  | none => noneWord
  | some x => x.lead.word

/-! ### Output pins -/

/-- SVC is driven exactly when the part is ONLINE and the call queue is not empty (R114). -/
def State.svc (s : State) : Bool := s.link.online && !s.calls.queue.isEmpty

/-- The part answers a group poll (R81). -/
def State.answersPoll (s : State) : Bool :=
  s.lines.plq && s.link.phase == .command && s.link.online && s.link.offered.isNone

/-- The DATA lines the part asserts for the poll: line l as bit l (R140). -/
def State.pollLines (s : State) : Byte :=
  if s.answersPoll then
    (List.range 8).foldl
      (fun v l => if Counters.at s.counters (s.link.pollGroup ++ BitVec.ofNat 3 l) = 0 then v else v ||| 1#8 <<< l) 0#8
  else 0#8

/-- HOLD is driven while the part holds a unit (R66, R68). -/
def State.drivesHold (s : State) : Bool := s.link.held.isSome

/-- OFFER is driven while the part offers a unit (R66). -/
def State.drivesOffer (s : State) : Bool := s.link.offered.isSome

/-- DREQ-IN (R165). -/
def State.dreqIn (s : State) : Bool := s.port.dmaIn && !s.data.inFifo.isEmpty

/-- DREQ-OUT (R166). -/
def State.dreqOut (s : State) : Bool :=
  s.port.dmaOut && s.outSessionOpen && decide (s.data.outFifo.length < Config.fifoDepth)

/-- INT: the condition in LEVEL mode (R181), the pulse in PULSE mode (R182). -/
def State.int (s : State) : Bool :=
  match s.notice.mode with
  | .level => interruptCondition s
  | .pulse => s.notice.pulse

/-- WAIT stretches the present cycle (R186). -/
def State.wait (s : State) : Bool := s.port.stretched.isSome

/-! ### STATUS -/

/-- STATUS (R188). -/
def State.statusWord (s : State) : Word :=
  0#6 ++ BitVec.ofBool s.lines.plq ++ BitVec.ofBool s.link.clearSeen ++ BitVec.ofBool s.data.session.isSome
    ++ BitVec.ofBool s.outSessionOpen ++ BitVec.ofBool s.data.paused ++ BitVec.ofBool s.link.confirm.isSome
    ++ BitVec.ofBool s.engine.flight.isSome ++ BitVec.ofBool s.request.isSome
    ++ BitVec.ofBool (s.link.phase == .data) ++ BitVec.ofBool s.link.online

/-! ### The indirect window -/

/-- The fields of the record-slot object (R198). -/
def State.recordField (s : State) (i : Slot) (field : Byte) : Word :=
  let r := s.record i
  match field.toNat with
  | 0 => r.state.code
  | 1 => r.generation.setWidth 16
  | 2 => (s.handleOf i).word
  | 3 => r.primaryTag
  | 4 => r.aliasTag.getD 0#16
  | 5 => r.options.setWidth 16
  | 6 => (r.endChar.getD 0#8).setWidth 16
  | 7 => r.status.setWidth 16
  | 8 => boolWord (r.call == .calling)
  | 9 => boolWord r.hostFlag
  | 10 => pollWord r.poll
  | 11 =>
    match s.role i with
    | .none => 0x0000#16
    | .source => 0x0001#16
    | .sink p => 0x0100#16 + BitVec.ofNat 16 p
  | 12 => r.notices.setWidth 16
  | 13 => r.signals
  | _ => 0#16

/-- The HANDLE of a directory entry, computed from the slot's present generation (R38, R199). -/
def State.ownerWord (s : State) : Owner → Word
  | .primary i => (s.handleOf i).word
  | .aliasOf i => (s.handleOf i).word
  | .management => managementWord

/-- The fields of the directory-position object (R199). -/
def State.entryField (s : State) (e : Entry) (field : Byte) : Word :=
  match field.toNat with
  | 0 => 1#16
  | 1 => e.tag
  | 2 => e.owner.code
  | 3 => s.ownerWord e.owner
  | _ => 0#16

/-- The fields of a list object: VALID and the value (R199). -/
def listField (w : Word) (field : Byte) : Word :=
  match field.toNat with
  | 0 => 1#16
  | 1 => w
  | _ => 0#16

/-- WINDATA: the selected field of the selected element, 0000H outside (R197). -/
def State.window (s : State) (x : Selection) : Word :=
  let index := (loByte x.winsel).toNat
  match (hiByte x.winsel).toNat with
  | 1 => ((slotOfNat index).map fun i => s.recordField i x.winfield).getD 0#16
  | 2 => (s.directory[index]?.map fun e => s.entryField e x.winfield).getD 0#16
  | 3 => (s.freeList[index]?.map fun i => listField (BitVec.ofNat 16 i.val) x.winfield).getD 0#16
  | 4 => (s.link.sinks[index]?.map fun h => listField h.word x.winfield).getD 0#16
  | 5 => (s.calls.queue[index]?.map fun h => listField h.word x.winfield).getD 0#16
  | 6 => (s.notice.attention[index]?.map fun h => listField h.word x.winfield).getD 0#16
  | _ => 0#16

/-- The selections that wait while an operation is in flight (R37, R186). -/
def Selection.waits (x : Selection) : Bool :=
  match (hiByte x.winsel).toNat with
  | 1 => x.winfield == 0#8 || x.winfield == 2#8 || x.winfield == 3#8 || x.winfield == 4#8
  | 2 => x.winfield.toNat < 4
  | 3 => x.winfield.toNat < 2
  | _ => false

/-! ### Reads without effect -/

/-- What a read of a location presents, where the read has no effect; the registers with an effect show what
their read would present (R185). While RESET is held every read is answered with 0000H (R190). -/
def State.readLocation (s : State) (loc : BitVec 5) : Word :=
  if s.port.resetHeld then 0#16 else
  match decodeLocation loc with
  | .status => s.statusWord
  | .control | .request | .outdata | .outdataEnd | .unassigned => 0#16
  | .result => s.port.result
  | .resultValue => s.port.resultValue
  | .param n => s.param n
  | .devnotice => s.notice.devnotice.setWidth 16
  | .devnoticeEnable => s.notice.devnoticeEnable.setWidth 16
  | .intctl => s.notice.intctlWord
  | .noticeMask => s.notice.noticeMask.setWidth 16
  | .config => s.port.configWord
  | .attention => (s.notice.attention.head?.map Handle.word).getD noneWord
  | .attnKinds => s.notice.attnKinds.setWidth 16
  | .attnSignals => s.notice.attnSignals
  | .winsel => s.port.select.winsel
  | .winfield => s.port.select.winfield.setWidth 16
  | .windata => s.window s.port.select
  | .indata => (s.data.inFifo.head?.map InEntry.word).getD 0#16
  | .source => s.sourceWord
  | .lead => s.leadWord
  | .incount => BitVec.ofNat 16 s.data.inFifo.length
  | .outcount => BitVec.ofNat 16 s.data.outFifo.length

end Sys2Proof.Machine
end

