-- ==== Sys2Proof/Machine/Naming.lean ====
section
/-! DEFINITION. The naming state: un-naming and applying a naming (R92 to R94), confirms (R101, R104, R105),
the resolution of a naming lookup (R96, R97), director RETAG (R110), and the two parts of a detachment
(R47, R48). -/

namespace Sys2Proof.Machine

/-! ### The held control unit -/

/-- The part takes the held unit: it releases HOLD without REJECT, and clear-seen clears (R68, R86). -/
def takeHeld (s : State) : State := { s with link.held := none, link.clearSeen := false }

/-- The part refuses the held unit: REJECT, then the release of HOLD; the unit is taken with reject (R70). -/
def refuseHeld (s : State) : State :=
  { s with link.held := none, link.clearSeen := false, link.reject := true }

/-! ### The part source -/

/-- A status answer whose next unit is not on the link ends when its record leaves the source role (R122). -/
def answerAfterRelease (offered : Option Offered) : Answer → Answer
  | .status h next => if offered.isSome then .status h next else .none
  | .roster tags p => .roster tags p
  | .none => .none

/-- An offered outbound unit whose entry is flushed stays offered with nothing behind it (R61). -/
def Offered.unbacked (o : Offered) : Offered :=
  match o.kind with
  | .outbound _ => { o with kind := .outbound false }
  | .status | .condition | .roster => o

/-- A record's source role ends: no source, query-armed clear, the outbound session closed and its FIFO
flushed without OUTBOUND-EMPTY (R47, R92, R94, R145), and a status answer not on the link ended (R122). -/
def releaseSource (s : State) : State :=
  { s with
    link.source := .none
    link.queryArmed := false
    link.offered := s.link.offered.map Offered.unbacked
    calls.answer := answerAfterRelease s.link.offered s.calls.answer
    data.outFifo := [] }

/-- Un-naming the part source (R92). -/
def unnameSource (s : State) : State :=
  match s.link.source with
  | .none => s
  | .record h => postRecord .unnamed h.slot (releaseSource s)
  | .management => { s with link.source := .none, link.queryArmed := false }

/-- Applying a source naming to the ACTIVE record in a slot (R93). -/
def applySource (i : Slot) (s : State) : State :=
  postRecord .namedSource i
    { s with
      link.sinks := s.link.sinks.filter (· ≠ s.handleOf i)
      link.source := .record (s.handleOf i)
      link.queryArmed := false }

/-- A source that is named sink first loses its source role, without UNNAMED (R94). -/
def releaseIfSource (h : Handle) (s : State) : State :=
  if s.link.source = .record h then releaseSource s else s

/-- Applying a sink naming to the ACTIVE record in a slot (R94). -/
def applySink (i : Slot) (s : State) : State :=
  let t := releaseIfSource (s.handleOf i) s
  postRecord .namedSink i { t with link.sinks := t.link.sinks ++ [s.handleOf i] }

/-! ### Confirms -/

/-- A confirm opens for the record in a slot; the TAG-LO stays held for it (R101, R102). -/
def openConfirm (role : Role) (i : Slot) (s : State) : State :=
  postRecord .confirmWanted i
    { s with
      link.confirm := some { handle := s.handleOf i, role := role, timer := s.port.confirmWindow }
      link.held := s.link.held.map fun h => { h with cause := .confirm } }

/-- The pending confirm ends with REJECT (R105, R106, R108). -/
def refuseConfirm (s : State) : State := refuseHeld { s with link.confirm := none }

/-- The naming a confirm was pending for. -/
def applyNaming (role : Role) (i : Slot) (s : State) : State :=
  match role with
  | .source => applySource i s
  | .sink => applySink i s

/-- The pending confirm ends by an accept (R104). -/
def acceptConfirm (c : Confirm) (s : State) : State :=
  takeHeld (applyNaming c.role c.handle.slot { s with link.confirm := none })

/-! ### Resolving a naming lookup -/

/-- Whether a lookup's result is the part's current source (R96). -/
def isCurrentSource (s : State) : Option Owner → Bool
  | none => false
  | some .management => s.link.source == .management
  | some (.primary i) => s.link.source == .record (s.handleOf i)
  | some (.aliasOf i) => s.link.source == .record (s.handleOf i)

/-- Step 2 of R96 for an entry of the record in a slot; `current`: it is the current source. -/
def sourceOutcome (current : Bool) (i : Slot) (s : State) : State :=
  match (s.record i).state with
  | .free | .pending | .retiring => takeHeld s
  | .suspended => refuseHeld s
  | .active =>
    if current then takeHeld s
    else if hasOption (s.record i).options .confirmNaming then openConfirm .source i s
    else takeHeld (applySource i s)

/-- The resolution of a NAME-SOURCE: un-naming, then the outcome (R96, R100). -/
def resolveSource (found : Option Owner) (s : State) : State :=
  let current := isCurrentSource s found
  let t := if current then s else unnameSource s
  match found with
  | none => takeHeld t
  | some .management => takeHeld { t with link.source := .management }
  | some (.primary i) => sourceOutcome current i t
  | some (.aliasOf i) => sourceOutcome current i t

/-- The rows of R97 for an entry of the record in a slot. -/
def sinkOutcome (i : Slot) (s : State) : State :=
  match (s.record i).state with
  | .free | .pending | .retiring => takeHeld s
  | .suspended => refuseHeld s
  | .active =>
    if s.handleOf i ∈ s.link.sinks then takeHeld s
    else if Config.sinkLimit ≤ s.link.sinks.length then refuseHeld s
    else if hasOption (s.record i).options .confirmNaming then openConfirm .sink i s
    else takeHeld (applySink i s)

/-- The resolution of a NAME-SINK (R97). -/
def resolveSink (found : Option Owner) (s : State) : State :=
  match found with
  | none => takeHeld s
  | some .management => refuseHeld s
  | some (.primary i) => sinkOutcome i s
  | some (.aliasOf i) => sinkOutcome i s

/-! ### Director RETAG -/

/-- The resolution of a director RETAG at its TAG-LO, which the part holds (R110). -/
def resolveRetag (tag : Word) (s : State) : State :=
  match s.link.source with
  | .none => takeHeld s
  | .management => refuseHeld s
  | .record h =>
    let r := s.record h.slot
    if tag = r.primaryTag then takeHeld s
    else if !hasOption r.options .remoteRetag || tag == 0#16 || r.aliasTag == some tag then refuseHeld s
    else sendLinkClaim (.replace h.slot tag) s

/-! ### Detachment -/

/-- A record is named when it is the part source, a sink, or the record of a pending confirm (R49). -/
def State.isNamed (s : State) (i : Slot) : Bool :=
  s.link.source == .record (s.handleOf i) || decide (s.handleOf i ∈ s.link.sinks) ||
    (s.link.confirm.map Confirm.handle == some (s.handleOf i))

/-- A confirm pending for a handle is refused (R47, R108). -/
def refuseConfirmOf (h : Handle) (s : State) : State :=
  if s.link.confirm.map Confirm.handle = some h then refuseConfirm s else s

/-- The link part of a detachment (R47). -/
def detachLink (i : Slot) (s : State) : State :=
  let h := s.handleOf i
  let t := releaseIfSource h s
  refuseConfirmOf h { t with link.sinks := t.link.sinks.filter (· ≠ h) }

/-- The call and poll part of a detachment, with the change of state that ends the drive (R48). -/
def detachCalls (i : Slot) (leaves : SlotState) (s : State) : State :=
  { s.updRecord i (fun r => { r with state := leaves, call := .quiet }) with
    calls.queue := s.calls.queue.filter (· ≠ s.handleOf i) }

/-- Detachment: both parts in one step, and the record in its new state (R47, R48). -/
def detach (i : Slot) (leaves : SlotState) (s : State) : State := detachCalls i leaves (detachLink i s)

end Sys2Proof.Machine
end

