-- ==== Sys2Proof/Machine/DataPath.lean ====
section
/-! DEFINITION. The data path: the end of a DATA phase (R76, R158), the take of GO (R75, R152), the part's
take of a held data unit (R153, R154), its offers (R71, R159) and their link take (R148, R122, R124, R128),
and the two FIFOs as the host and DMA reach them (R146, R156, R157). -/

namespace Sys2Proof.Machine

/-! ### Phases -/

/-- The end of a DATA phase by a data unit with END: COMMAND phase, and an open inbound session closes with
PHASE-END (R73, R76, R158). -/
def endPhase (s : State) : State :=
  let t := { s with link.phase := .command, link.sending := false }
  match s.data.session with
  | none => t
  | some _ => postDevice .phaseEnd { t with data.session := none, data.paused := false }

/-- The lead mode of a lead sink: PAUSE wins over MARK (R3, R150). -/
def leadModeOf (r : Record) : LeadMode :=
  if hasOption r.options .endPause then .pause
  else if hasOption r.options .endMark then .mark
  else .none

/-- The inbound session opens with copies of the lead's settings (R150, R152). -/
def openSession (lead : Handle) (s : State) : State :=
  let r := s.record lead.slot
  postDevice .inboundSession
    { s with
      data.session :=
        some { lead := lead, mode := leadModeOf r,
               endChar := if leadModeOf r = .none then none else r.endChar }
      data.paused := false }

/-- The roster snapshot: the primary tags of the first eight callers (R127). -/
def rosterSnapshot (s : State) : List Word :=
  (s.calls.queue.take Config.rosterLimit).map fun h => (s.record h.slot).primaryTag

/-- What the Call Unit begins at the take of GO (R75, R121, R127). -/
def answerAtGo (s : State) : Answer :=
  match s.link.source with
  | .none => .none
  | .record h => if s.link.queryArmed then .status h .status else .none
  | .management => .roster (rosterSnapshot s) 0

/-- Whether the part sends outbound entries in the phase GO begins (R75, R147). -/
def sendsEntriesAtGo (s : State) : Bool :=
  match s.link.source with
  | .record _ => !s.link.queryArmed
  | .none | .management => false

/-- The take of GO: the DATA phase begins, and what the part sends and receives is settled (R75, R152, R64). -/
def takeGo (s : State) : State :=
  let t :=
    { takeHeld s with
      link.phase := .data
      link.sending := sendsEntriesAtGo s
      calls.answer := answerAtGo s }
  match s.link.sinks with
  | [] => t
  | lead :: _ => openSession lead t

/-- GO is held for drain while the sink list and the inbound FIFO are both not empty (R151). -/
def receiveGo (u : LinkUnit) (s : State) : State :=
  if s.link.sinks ≠ [] ∧ s.data.inFifo ≠ [] then { s with link.held := some { unit := u, cause := .drain } }
  else takeGo s

/-! ### The link take of an offered unit -/

/-- The call answered at the take of a marked condition unit (step 2 of R124): the record of that handle, if
it is CALLING. -/
def answerCall (h : Handle) (s : State) : State :=
  if s.handleOf h.slot = h ∧ (s.record h.slot).call = .calling then
    postRecord .answered h.slot
      { s.updRecord h.slot (fun r => { r with call := .quiet }) with
        calls.queue := s.calls.queue.filter (· ≠ h) }
  else s

/-- The head outbound entry is removed; OUTBOUND-EMPTY when that empties the FIFO (R148). A unit whose entry
was flushed removes nothing and posts nothing (R61). -/
def removeOutHead (backed : Bool) (s : State) : State :=
  if backed then
    match s.data.outFifo with
    | [] => s
    | [_] => postDevice .outboundEmpty { s with data.outFifo := [] }
    | _ :: rest => { s with data.outFifo := rest }
  else s

/-- The status answer after the take of its status unit: CONDITION next, or no answer when the record is no
longer source (R122). -/
def afterStatusUnit (s : State) : Answer :=
  match s.calls.answer with
  | .status h _ => if s.link.source = .record h then .status h .condition else .none
  | .roster tags p => .roster tags p
  | .none => .none

/-- The take of the condition unit (steps 1 and 2 of R124). -/
def takeCondition (value : Byte) (s : State) : State :=
  let t := { s with link.queryArmed := false, calls.answer := .none }
  match s.calls.answer with
  | .status h _ => if value.getLsbD 0 then answerCall h t else t
  | .roster _ _ => t
  | .none => t

/-- The roster after the take of one unit: the next position, or none after the unit with END (R128). -/
def afterRosterUnit (endFlag : Bool) : Answer → Answer
  | .roster tags p => if endFlag then .none else .roster tags (p + 1)
  | .status h next => .status h next
  | .none => .none

/-- What the owning block does at the take of its unit (R71). -/
def ownerTake (o : Offered) (s : State) : State :=
  match o.kind with
  | .outbound backed => removeOutHead backed s
  | .status => { s with calls.answer := afterStatusUnit s }
  | .condition => takeCondition o.value s
  | .roster => { s with calls.answer := afterRosterUnit o.endFlag s.calls.answer }

/-- The link take of the part's offered unit: OFFER is withdrawn, the owning block acts, and END ends the
phase (R71, R73). -/
def linkTake (o : Offered) (s : State) : State :=
  let t := ownerTake o { s with link.offered := none }
  if o.endFlag then endPhase t else t

/-- The offered unit is taken when no receiver holds it, neither the part nor a foreign station (R71, R159). -/
def takeIfUnheld (s : State) : State :=
  match s.link.offered with
  | none => s
  | some o => if s.link.held.isNone ∧ o.otherHold = false then linkTake o s else s

/-! ### The part as receiver -/

/-- The inbound entry of a unit under the session's copies (R153). -/
def entryOf (x : InboundSession) (u : LinkUnit) : InEntry :=
  { value := u.value, byLine := u.endFlag,
    byChar := x.mode ≠ .none && x.endChar == some u.value }

/-- The append of an inbound entry, with INBOUND-READY when the FIFO was empty (R153). -/
def appendIn (e : InEntry) (s : State) : State :=
  let t := { s with data.inFifo := s.data.inFifo ++ [e] }
  if s.data.inFifo = [] then postDevice .inboundReady t else t

/-- A pause comes into effect (R154). -/
def beginPause (s : State) : State := postDevice .inboundPaused { s with data.paused := true }

/-- The part's take of a data unit in an open inbound session (R153, R154, R158). -/
def takeData (x : InboundSession) (u : LinkUnit) (s : State) : State :=
  let e := entryOf x u
  let t := appendIn e (takeHeld s)
  if u.endFlag then endPhase t
  else if x.mode = .pause ∧ e.byChar = true then beginPause t
  else t

/-- A held data unit is taken at the first moment at which the FIFO has room and no pause is in effect; until
then it is held for pause or for room (R153). When the unit is the part's own offer and no foreign station
holds it, its link take is the same moment (R159). -/
def serveHeldData (s : State) : State :=
  match s.link.held, s.data.session with
  | some h, some x =>
    if h.cause = .room ∨ h.cause = .pause then
      if s.data.paused then { s with link.held := some { h with cause := .pause } }
      else if s.data.inFifo.length < Config.fifoDepth then takeIfUnheld (takeData x h.unit s)
      else { s with link.held := some { h with cause := .room } }
    else s
  | _, _ => s

/-- The part holds a data unit of an open session from its offer, and takes it as soon as it may (R68, R153). -/
def receiveData (u : LinkUnit) (s : State) : State :=
  serveHeldData { s with link.held := some { unit := u, cause := if s.data.paused then .pause else .room } }

/-- The hold of a GO held for drain ends when the inbound FIFO is empty (R151). -/
def serveHeldGo (s : State) : State :=
  match s.link.held with
  | some h => if h.cause = .drain ∧ s.data.inFifo = [] then takeGo s else s
  | none => s

/-- The consequences of entries leaving the inbound FIFO: a unit held for room is taken, and a GO held for
drain when the FIFO is empty (R156, R157). -/
def afterDrain (s : State) : State :=
  match s.link.held with
  | some h => if h.cause = .drain then serveHeldGo s else serveHeldData s
  | none => s

/-! ### The part as sender -/

/-- The part may begin an offer: ONLINE, DATA phase, none of PLQ, STOP and CLEAR asserted, and no offer on the
link (R71, R82, R84, R86). -/
def State.mayOffer (s : State) : Bool :=
  s.link.online && s.link.phase == .data && !s.lines.plq && !s.lines.stop && !s.lines.clear &&
    s.link.offered.isNone && s.link.held.isNone && s.lines.foreign.isNone

/-- The part offers a unit. It holds it too while an inbound session is open (R159), and the unit is taken at
once when nobody holds it (R71). -/
def offerUnit (o : Offered) (s : State) : State :=
  let t := { s with link.offered := some o }
  match s.data.session with
  | some _ => receiveData { kind := .data, value := o.value, endFlag := o.endFlag } t
  | none => takeIfUnheld t

/-- The END of an outbound unit: the entry's mark, or END-SEND and the end character (R147). -/
def outboundEnd (r : Record) (e : OutEntry) : Bool :=
  e.endMark || (hasOption r.options .endSend && r.endChar == some e.value)

/-- The outbound unit due, if any (R147). -/
def outboundDue (s : State) : Option (Byte × Bool) :=
  match s.link.sending, s.link.source, s.data.outFifo with
  | true, .record h, e :: _ => some (e.value, outboundEnd (s.record h.slot) e)
  | _, _, _ => none

/-- The value of the condition unit: the calling mark 01H and the poll flag 02H (section 6.4, R123). -/
def conditionValue (r : Record) : Byte :=
  (if r.call = .calling then 0x01#8 else 0x00#8) ||| (if r.pollFlag then 0x02#8 else 0x00#8)

/-- The units of a roster: the count, then each tag's high and low byte (section 6.5). -/
def rosterUnits (tags : List Word) : List Byte :=
  BitVec.ofNat 8 tags.length :: tags.flatMap fun t => [hiByte t, loByte t]

/-- The roster unit due at a position, with END on the last (R128). -/
def rosterDue (tags : List Word) (p : Nat) : Option (Byte × Bool) :=
  (rosterUnits tags)[p]?.map fun v => (v, p + 1 == (rosterUnits tags).length)

/-! ### The FIFOs from the host's side -/

/-- A write of one outbound entry: appended, or discarded with OUTBOUND-REFUSED (R146). -/
def writeOut (value : Byte) (endMark : Bool) (s : State) : State :=
  if s.outSessionOpen = true ∧ s.data.outFifo.length < Config.fifoDepth then
    { s with data.outFifo := s.data.outFifo ++ [{ value := value, endMark := endMark }] }
  else postDevice .outboundRefused s

/-- The take of the head inbound entry, presented with its consequences; an empty FIFO presents 0000H (R156). -/
def readIn (s : State) : State :=
  match s.data.inFifo with
  | [] => present 0#16 s
  | e :: rest => afterDrain (present e.word { s with data.inFifo := rest })

end Sys2Proof.Machine
end

