-- ==== Sys2Proof/Machine/LinkOps.lean ====
section
/-! DEFINITION. The Link Responder's shared operations: what a control unit does at its take (R77, R79, R98,
R99, R112, R119, R134, R135), how an offer or a link take by other stations reaches the part (R68, R72, R82,
R84, R88), and what STOP, CLEAR, OFFLINE, ONLINE and reset do (R83, R85, R87 to R89, R162, R163). -/

namespace Sys2Proof.Machine

/-! ### Effects of control units -/

/-- SIGNAL c: the code joins each sink's signal set and SIGNALLED is posted, in list order (R112, R171). -/
def signalSinks (c : BitVec 4) (s : State) : State :=
  s.link.sinks.foldl
    (fun t h => postRecord .signalled h.slot
      (t.updRecord h.slot fun r => { r with signals := r.signals ||| signalBit c })) s

/-- DROP-SINKS: the list becomes empty, and UNNAMED is posted to each record that was in it, in list
order (R99). -/
def dropSinkList (s : State) : State :=
  s.link.sinks.foldl (fun t h => postRecord .unnamed h.slot t) { s with link.sinks := [] }

/-- QUERY arms the query when a record is part source (R119). -/
def armQuery (s : State) : State :=
  match s.link.source with
  | .record _ => { s with link.queryArmed := true }
  | .none | .management => s

/-- ASSIGN-POLL for one sink (R134). -/
def assignSink (a : PollAssignment) (i : Slot) (s : State) : State :=
  if hasOption (s.record i).options .remotePoll = true ∧ (s.record i).poll ≠ some a then
    postRecord .pollChanged i (s.updRecord i fun r => { r with poll := some a })
  else s

/-- RELEASE-POLL for one sink (R135). -/
def releaseSink (i : Slot) (s : State) : State :=
  if hasOption (s.record i).options .remotePoll = true ∧ (s.record i).poll ≠ none then
    postRecord .pollChanged i (s.updRecord i fun r => { r with poll := none })
  else s

/-- ASSIGN-POLL for the sink list in list order (R134). -/
def assignSinks (a : PollAssignment) (s : State) : State :=
  s.link.sinks.foldl (fun t h => assignSink a h.slot t) s

/-- RELEASE-POLL for the sink list in list order (R135). -/
def releaseSinks (s : State) : State := s.link.sinks.foldl (fun t h => releaseSink h.slot t) s

/-- A control sequence opens (R79). -/
def openSequence (o : Opening) (s : State) : State := { s with link.sequence := .awaitHi o }

/-- A control unit taken with no sequence in progress is decoded by its code (R77); all but a GO held for
drain are taken at once. -/
def decodeTake (u : LinkUnit) (s : State) : State :=
  match decodeUnit u.value with
  | .signal c => signalSinks c (takeHeld s)
  | .nameSource => openSequence .nameSource (takeHeld s)
  | .nameSink => openSequence .nameSink (takeHeld s)
  | .retag => openSequence .retag (takeHeld s)
  | .dropSource => unnameSource (takeHeld s)
  | .dropSinks => dropSinkList (takeHeld s)
  | .go => receiveGo u s
  | .query => armQuery (takeHeld s)
  | .groupPoll g => { takeHeld s with link.pollGroup := g }
  | .releasePoll => releaseSinks (takeHeld s)
  | .assignPoll a => assignSinks a (takeHeld s)
  | .unassigned => takeHeld s

/-- The part holds a unit for a cause (R69). -/
def holdUnit (u : LinkUnit) (c : HoldCause) (s : State) : State :=
  { s with link.held := some { unit := u, cause := c } }

/-- A complete control sequence is handed to its resolution, its TAG-LO held (R79, R95, R110). -/
def resolveSequence (o : Opening) (tag : Word) (u : LinkUnit) (s : State) : State :=
  match o with
  | .nameSource => sendLinkClaim (.lookup .source tag) (holdUnit u .lookup s)
  | .nameSink => sendLinkClaim (.lookup .sink tag) (holdUnit u .lookup s)
  | .retag => resolveRetag tag (holdUnit u .replace s)

/-- A control unit received in COMMAND phase: decoded, or a tag unit of the sequence in progress (R79). -/
def receiveControl (u : LinkUnit) (s : State) : State :=
  match s.link.sequence with
  | .none => decodeTake u s
  | .awaitHi o => takeHeld { s with link.sequence := .awaitLo o u.value }
  | .awaitLo o hi => resolveSequence o (wordOf hi u.value) u { s with link.sequence := .none }

/-! ### Offers and takes of other stations -/

/-- The part attends to offers: ONLINE, and none of PLQ, STOP and CLEAR asserted (R68, R82, R84, R86). -/
def State.attends (s : State) : Bool :=
  s.link.online && !s.lines.plq && !s.lines.stop && !s.lines.clear

/-- The link carries a unit that the part holds or offers, so no other unit can be offered (R69). -/
def State.occupied (s : State) : Bool := s.link.held.isSome || s.link.offered.isSome

/-- The other sender's OFFER is withdrawn, and the part drops REJECT (R70). -/
def withdrawForeign (s : State) : State := { s with lines.foreign := none, link.reject := false }

/-- A unit the part attends to, at its offer: control units of COMMAND phase and data units of an open inbound
session are held and read; the part takes no part in any other (R68). -/
def attendOffer (u : LinkUnit) (s : State) : State :=
  match u.kind, s.link.phase with
  | .control, .command => receiveControl u s
  | .data, .data => if s.data.session.isSome then receiveData u s else s
  | .control, .data => s
  | .data, .command => s

/-- Another station offers a unit; its earlier offer, if any, is withdrawn by then. An offer the part cannot
attend to stands until PLQ, STOP and CLEAR are released (R82, R84); one made while OFFLINE is never attended
to (R87, R88). -/
def foreignOffer (u : LinkUnit) (s : State) : State :=
  let t := withdrawForeign s
  if s.attends then attendOffer u { t with lines.foreign := some { unit := u, standing := .attended } }
  else { t with lines.foreign := some { unit := u, standing := if s.link.online then .waiting else .ignored } }

/-- How the part stands to the offer of a unit whose take is reported, if that offer already stands on the link; else
the unit is offered and taken in one step. -/
def State.standingOf (u : LinkUnit) (s : State) : Option Standing :=
  match s.lines.foreign with
  | some f => if f.unit = u ∧ f.standing ≠ .over then some f.standing else none
  | none => none

/-- Whether the part sees the take of a unit: of an offer it attended to, whatever PLQ has done since; of no offer
made while PLQ is asserted (R82), and of none it never attends to (R88); and of a unit offered with its take, when
the part attends at that moment. -/
def State.seesTake (u : LinkUnit) (s : State) : Bool :=
  match s.standingOf u with
  | some .attended => true
  | some .waiting | some .ignored | some .over => false
  | none => s.attends

/-- The lines at a link take: the unit is over; a unit offered with its take ends the earlier offer (R70). -/
def takeOffer (u : LinkUnit) (s : State) : State :=
  match s.standingOf u with
  | some _ => { s with lines.foreign := some { unit := u, standing := .over } }
  | none => { withdrawForeign s with lines.foreign := some { unit := u, standing := .over } }

/-- The part takes a unit that it does not hold when it sees it taken (R68, R72): a data unit of COMMAND phase
discards a control sequence, a data unit of DATA phase with END ends the phase, and a control unit of DATA phase is
not decoded; clear-seen clears at each of these takes (R86). The part holds every control unit of COMMAND phase and
every data unit of an open session that it attends to (R68), and makes its effects at its own take: the link take
of such a unit adds nothing. -/
def seeTake (u : LinkUnit) (s : State) : State :=
  match u.kind, s.link.phase with
  | .data, .command => takeHeld { s with link.sequence := .none }
  | .data, .data =>
    if s.data.session.isSome then s
    else if u.endFlag then endPhase (takeHeld s)
    else takeHeld s
  | .control, .data => takeHeld s
  | .control, .command => s

/-- A unit that the part does not hold is taken on the link (R72, R82, R88). -/
def foreignTake (u : LinkUnit) (s : State) : State :=
  if s.seesTake u then seeTake u (takeOffer u s) else takeOffer u s

/-- The command that offers a unit: it cannot be offered on an occupied link. -/
def offerCommand (u : LinkUnit) (s : State) : Host.Outcome State Fault Refusal :=
  if s.occupied then .next s else done (foreignOffer u s)

/-- The command that reports the link take of a unit the part does not hold. -/
def takeCommand (u : LinkUnit) (s : State) : Host.Outcome State Fault Refusal :=
  if s.occupied then .next s else done (foreignTake u s)

/-- A control unit of a value. -/
def controlUnit (v : Byte) : LinkUnit := { kind := .control, value := v, endFlag := false }

/-- A data unit of a value and END. -/
def dataUnit (v : Byte) (e : Bool) : LinkUnit := { kind := .data, value := v, endFlag := e }

/-- After the release of PLQ, STOP or CLEAR an offer that waits is treated as offered at that moment, if the
part now attends (R82, R84, R86). -/
def attendStanding (s : State) : State :=
  match s.lines.foreign with
  | some f =>
    if f.standing = .waiting ∧ s.attends = true then
      attendOffer f.unit { s with lines.foreign := some { f with standing := .attended } }
    else s
  | none => s

/-! ### STOP, CLEAR, OFFLINE, ONLINE -/

/-- What STOP, CLEAR and OFFLINE all do: COMMAND phase, the sequence discarded, the offered unit withdrawn, the
held unit released without REJECT and not taken, a pending confirm abandoned, the link claim withdrawn or its
result discarded, the answer in progress ended, and the inbound session closed with its pause (R83, R85, R87,
R107, R125, R129, R162, R163). -/
def abandonLink (s : State) : State :=
  let t := withdrawLinkClaim
    { s with
      link.phase := .command
      link.sending := false
      link.sequence := .none
      link.held := none
      link.offered := none
      link.reject := false
      link.confirm := none
      calls.answer := .none
      data.session := none
      data.paused := false }
  if s.link.confirm.isSome then postDevice .confirmAbandoned t else t

/-- STOP posts STOPPED when it closes an open inbound session (R162). -/
def postStopped (open_ : Bool) (s : State) : State := if open_ then postDevice .stopped s else s

/-- STOP while ONLINE (R83, R162). -/
def stopLink (s : State) : State := postStopped s.data.session.isSome (abandonLink s)

/-- CLEAR and OFFLINE empty the naming state, select group 0 and flush the outbound FIFO (R85, R163). -/
def emptyNaming (s : State) : State :=
  { s with
    link.source := .none
    link.sinks := []
    link.queryArmed := false
    link.pollGroup := 0#2
    data.outFifo := [] }

/-- CLEAR while ONLINE (R85). -/
def clearLink (s : State) : State :=
  postDevice .linkCleared { emptyNaming (abandonLink s) with link.clearSeen := true }

/-- An offer of another sender that stands while the part is absent from the link: its take has no effect (R88); a
unit already taken is over. -/
def ForeignOffer.ignored (f : ForeignOffer) : ForeignOffer :=
  { f with standing := if f.standing = .over then .over else .ignored }

/-- OFFLINE while ONLINE (R87). -/
def goOffline (s : State) : State :=
  { emptyNaming (abandonLink s) with
    link.clearSeen := false
    link.online := false
    lines.foreign := s.lines.foreign.map ForeignOffer.ignored }

/-- ONLINE while OFFLINE (R88). -/
def goOnline (s : State) : State :=
  { s with
    link.online := true
    link.phase := .command
    link.sending := false
    link.sequence := .none
    link.held := none
    link.offered := none
    lines.foreign := s.lines.foreign.map ForeignOffer.ignored }

/-! ### Reset -/

/-- Power-on and soft reset: every block takes its reset values (R190). The lines that others drive stand as
they are, and so does the queue. -/
def resetPart (held : Bool) (s : State) : State :=
  { State.reset with
    port.resetHeld := held
    lines := { s.lines with foreign := s.lines.foreign.map ForeignOffer.ignored }
    pending := s.pending }

end Sys2Proof.Machine
end

