-- ==== Sys2Proof/Machine/Lifecycle.lean ====
section
/-! DEFINITION. The requests of the record lifecycle and of the directory (chapters 2 and 3): CREATE, RETIRE,
RETAG, SET-ALIAS, CLEAR-ALIAS, SUSPEND, RESUME, SET-OPTIONS, FIND and SET-MANAGEMENT-TAG, each as the body
the Request Engine runs, and each as the meaning of its command. -/

namespace Sys2Proof.Machine

/-! ### CREATE -/

/-- The fields of the PENDING record (R44). -/
def pendingRecord (g : Byte) (tag : Word) (second : Option Word) (os : BitVec 7) (endChar : Byte) (status : Byte)
    (poll : Option PollAssignment) : Record :=
  { Record.cleared g with
    state := .pending
    primaryTag := tag
    aliasTag := second
    options := os
    endChar := endCharOf os endChar
    status := status
    poll := poll }

/-- The tag a word carries where 0 means none: the alias of CREATE, the tag of SET-MANAGEMENT-TAG (R193). -/
def tagOrNone (w : Word) : Option Word := if w = 0#16 then none else some w

/-- The entries a CREATE inserts (R44). -/
def createEntries (i : Slot) (tag : Word) (second : Option Word) : List Entry :=
  { tag := tag, owner := .primary i } ::
    (match second with
     | none => []
     | some a => [{ tag := a, owner := .aliasOf i }])

/-- The first two stages of an accepted CREATE: the head slot becomes PENDING and the insert claim is sent
(R13, R44). -/
def startCreate (i : Slot) (rest : List Slot) (os : BitVec 7) (poll : Option PollAssignment) (s : State) : State :=
  let second := tagOrNone (s.param 1)
  let r := pendingRecord (s.record i).generation (s.param 0) second os (hiByte (s.param 2)) (loByte (s.param 3)) poll
  startStage (.create i) (.insert (createEntries i (s.param 0) second)) ({ s with freeList := rest }.setRecord i r)

/-- CREATE(tag, alias or 0, options and end character, status and poll byte) (R43, R44). -/
def runCreate (s : State) : State :=
  if s.param 0 = 0#16 then failRequest .badRequest s
  else if s.param 1 ≠ 0#16 ∧ s.param 1 = s.param 0 then failRequest .badRequest s
  else
    match optionsOf (s.param 2), pollByteOf (hiByte (s.param 3)) with
    | some os, some poll =>
      match s.freeList with
      | [] => failRequest .noSlot s
      | i :: rest => startCreate i rest os poll s
    | _, _ => failRequest .badRequest s

/-! ### RETIRE -/

/-- The record leaves the attention list and its sets are emptied (step 3 of R50). -/
def dropNotices (i : Slot) (s : State) : State :=
  { s.updRecord i (fun r => { r with notices := 0#8, signals := 0#16 }) with
    notice.attention := s.notice.attention.filter (· ≠ s.handleOf i) }

/-- RETIRE(handle, force): the first stage is one step (R49 to R51). -/
def runRetire (s : State) : State :=
  onRecord
    (fun i s =>
      if s.param 1 = 0#16 ∧ s.isNamed i = true then failRequest .named s
      else startStage (.retire i) (.remove (.slotEntries i)) (detach i .retiring (dropNotices i s))) s

/-! ### Tags -/

/-- RETAG(handle, new tag) (R53). -/
def runRetag (s : State) : State :=
  onRecord
    (fun i s =>
      let tag := s.param 1
      if (s.record i).inService = false then failRequest .wrongState s
      else if tag = 0#16 ∨ (s.record i).aliasTag = some tag then failRequest .badRequest s
      else if tag = (s.record i).primaryTag then okHandle s
      else startStage (.retag i) (.replace (.primary i) tag) s) s

/-- The operation of a SET-ALIAS: an insert for a record without an alias, else a replace (R55). -/
def aliasOperation (i : Slot) (tag : Word) : Option Word → Operation
  | none => .insert [{ tag := tag, owner := .aliasOf i }]
  | some _ => .replace (.aliasOf i) tag

/-- SET-ALIAS(handle, tag) (R55). -/
def runSetAlias (s : State) : State :=
  onRecord
    (fun i s =>
      let tag := s.param 1
      if (s.record i).inService = false then failRequest .wrongState s
      else if tag = 0#16 then failRequest .badRequest s
      else if (s.record i).aliasTag = some tag then okHandle s
      else startStage (.setAlias i) (aliasOperation i tag (s.record i).aliasTag) s) s

/-- CLEAR-ALIAS(handle) (R56). -/
def runClearAlias (s : State) : State :=
  onRecord
    (fun i s =>
      if (s.record i).inService = false ∨ (s.record i).aliasTag = none then failRequest .wrongState s
      else startStage (.clearAlias i) (.remove (.aliasEntry i)) s) s

/-! ### SUSPEND, RESUME, SET-OPTIONS -/

/-- SUSPEND(handle, force) (R57). -/
def runSuspend (s : State) : State :=
  onRecord
    (fun i s =>
      if (s.record i).state ≠ .active then failRequest .wrongState s
      else if s.param 1 = 0#16 ∧ s.isNamed i = true then failRequest .named s
      else okHandle (detach i .suspended s)) s

/-- RESUME(handle) (R58). -/
def runResume (s : State) : State :=
  onRecord
    (fun i s =>
      if (s.record i).state ≠ .suspended then failRequest .wrongState s
      else okHandle (s.updRecord i fun r => { r with state := .active, call := .quiet })) s

/-- SET-OPTIONS(handle, options and end character) (R59, R60). -/
def runSetOptions (s : State) : State :=
  onRecord
    (fun i s =>
      if (s.record i).inService = false then failRequest .wrongState s
      else
        match optionsOf (s.param 1) with
        | none => failRequest .badRequest s
        | some os =>
          okHandle (s.updRecord i fun r => { r with options := os, endChar := endCharOf os (hiByte (s.param 1)) })) s

/-! ### FIND and SET-MANAGEMENT-TAG -/

/-- FIND(tag) (R39). -/
def runFind (s : State) : State :=
  if s.param 0 = 0#16 then failRequest .badTag s else startStage .find (.lookup (s.param 0)) s

/-- RESULT-VALUE of a SET-MANAGEMENT-TAG that ends OK (R40). -/
def managementValue (t : Option Word) : Word := if t.isSome then managementWord else noneWord

/-- The operation that brings the management tag from one value to another (R40). -/
def managementOperation (now given : Option Word) : Operation :=
  match now, given with
  | none, some t => .insert [{ tag := t, owner := .management }]
  | some _, some t => .replace .management t
  | _, none => .remove .managementEntry

/-- SET-MANAGEMENT-TAG(tag or 0) (R40). -/
def runSetManagementTag (s : State) : State :=
  let given := tagOrNone (s.param 0)
  if given = s.managementTag then endRequest .ok (managementValue s.managementTag) s
  else if s.link.source = .management then failRequest .named s
  else startStage .setManagementTag (managementOperation s.managementTag given) s

/-! ### The meanings -/

/-- CREATE (R43, R44, R191). -/
def execCreate (s : State) : Host.Outcome State Fault Refusal := busWrite (startRequest runCreate) s

/-- RETIRE (R49 to R51, R191). -/
def execRetire (s : State) : Host.Outcome State Fault Refusal := busWrite (startRequest runRetire) s

/-- RETAG by the host (R53, R191). -/
def execRetag (s : State) : Host.Outcome State Fault Refusal := busWrite (startRequest runRetag) s

/-- SET-ALIAS (R55, R191). -/
def execSetAlias (s : State) : Host.Outcome State Fault Refusal := busWrite (startRequest runSetAlias) s

/-- CLEAR-ALIAS (R56, R191). -/
def execClearAlias (s : State) : Host.Outcome State Fault Refusal := busWrite (startRequest runClearAlias) s

/-- SUSPEND (R57, R191). -/
def execSuspend (s : State) : Host.Outcome State Fault Refusal := busWrite (startRequest runSuspend) s

/-- RESUME (R58, R191). -/
def execResume (s : State) : Host.Outcome State Fault Refusal := busWrite (startRequest runResume) s

/-- SET-OPTIONS (R59, R60, R191). -/
def execSetOptions (s : State) : Host.Outcome State Fault Refusal := busWrite (startRequest runSetOptions) s

/-- FIND (R39, R191). -/
def execFind (s : State) : Host.Outcome State Fault Refusal := busWrite (startRequest runFind) s

/-- SET-MANAGEMENT-TAG (R40, R191). -/
def execSetManagementTag (s : State) : Host.Outcome State Fault Refusal :=
  busWrite (startRequest runSetManagementTag) s

end Sys2Proof.Machine
end

