-- ==== Sys2Proof/Machine/RecordRequests.lean ====
section
/-! DEFINITION. The requests that work on records alone: SET-STATUS, CALL and WITHDRAW (chapter 6), SET-POLL,
CLEAR-POLL and SET-FLAG (chapter 7), CONFIRM (chapter 5), and a REQUEST write whose code is in no row of the
request table (R192). -/

namespace Sys2Proof.Machine

/-- SET-STATUS(handle, value) (R116). -/
def runSetStatus (s : State) : State :=
  onRecord
    (fun i s =>
      if (s.record i).inService = false then failRequest .wrongState s
      else okHandle (s.updRecord i fun r => { r with status := loByte (s.param 1) })) s

/-- A QUIET record becomes CALLING and joins the call queue at the tail (R114, R117). -/
def joinQueue (i : Slot) (s : State) : State :=
  { s.updRecord i (fun r => { r with call := .calling }) with calls.queue := s.calls.queue ++ [s.handleOf i] }

/-- A record becomes QUIET and leaves the call queue (R114, R118). -/
def leaveQueue (i : Slot) (s : State) : State :=
  { s.updRecord i (fun r => { r with call := .quiet }) with
    calls.queue := s.calls.queue.filter (· ≠ s.handleOf i) }

/-- CALL(handle, value) (R117). -/
def runCall (s : State) : State :=
  onRecord
    (fun i s =>
      if (s.record i).state ≠ .active then failRequest .wrongState s
      else
        let t := s.updRecord i fun r => { r with status := loByte (s.param 1) }
        if (s.record i).call = .quiet then okHandle (joinQueue i t) else okHandle t) s

/-- WITHDRAW(handle) (R118). -/
def runWithdraw (s : State) : State :=
  onRecord
    (fun i s =>
      if (s.record i).call = .quiet then failRequest .wrongState s else okHandle (leaveQueue i s)) s

/-- SET-POLL(handle, group, line, polarity) (R137). -/
def runSetPoll (s : State) : State :=
  onRecord
    (fun i s =>
      if (s.record i).inService = false then failRequest .wrongState s
      else
        match pollOfWords (s.param 1) (s.param 2) (s.param 3) with
        | none => failRequest .badRequest s
        | some a => okHandle (s.updRecord i fun r => { r with poll := some a })) s

/-- CLEAR-POLL(handle) (R138). -/
def runClearPoll (s : State) : State :=
  onRecord
    (fun i s =>
      if (s.record i).inService = false ∨ (s.record i).poll = none then failRequest .wrongState s
      else okHandle (s.updRecord i fun r => { r with poll := none })) s

/-- SET-FLAG(handle, value) (R139). -/
def runSetFlag (s : State) : State :=
  onRecord
    (fun i s =>
      if (s.record i).inService = false then failRequest .wrongState s
      else
        match zeroOrOne (s.param 1) with
        | none => failRequest .badRequest s
        | some b =>
          if hasOption (s.record i).options .flagFromCall then failRequest .wrongState s
          else okHandle (s.updRecord i fun r => { r with hostFlag := b })) s

/-- CONFIRM(handle, decision) (R103 to R105). -/
def runConfirm (s : State) : State :=
  onRecord
    (fun i s =>
      match zeroOrOne (s.param 1) with
      | none => failRequest .badRequest s
      | some accept =>
        match s.link.confirm with
        | none => failRequest .late s
        | some c =>
          if c.handle = s.handleOf i then
            if accept then okHandle (acceptConfirm c s) else okHandle (refuseConfirm s)
          else failRequest .late s) s

/-- The body of each request of R194. -/
def runRequest : RequestCode → State → State
  | .create => runCreate
  | .retire => runRetire
  | .retag => runRetag
  | .setAlias => runSetAlias
  | .clearAlias => runClearAlias
  | .suspend => runSuspend
  | .resume => runResume
  | .setStatus => runSetStatus
  | .call => runCall
  | .withdraw => runWithdraw
  | .setPoll => runSetPoll
  | .clearPoll => runClearPoll
  | .setFlag => runSetFlag
  | .confirm => runConfirm
  | .find => runFind
  | .setManagementTag => runSetManagementTag
  | .setOptions => runSetOptions

/-- A request by its code: an unknown code ends at once with BAD-REQUEST and RESULT-VALUE FFFFH (R192). -/
def runRequestByte (c : Byte) (s : State) : State :=
  match decodeRequest c with
  | some q => runRequest q s
  | none => failRequest .badRequest s

/-! ### The meanings -/

/-- SET-STATUS (R116, R191). -/
def execSetStatus (s : State) : Host.Outcome State Fault Refusal := busWrite (startRequest runSetStatus) s

/-- CALL (R117, R191). -/
def execCall (s : State) : Host.Outcome State Fault Refusal := busWrite (startRequest runCall) s

/-- WITHDRAW (R118, R191). -/
def execWithdraw (s : State) : Host.Outcome State Fault Refusal := busWrite (startRequest runWithdraw) s

/-- SET-POLL (R137, R191). -/
def execSetPoll (s : State) : Host.Outcome State Fault Refusal := busWrite (startRequest runSetPoll) s

/-- CLEAR-POLL (R138, R191). -/
def execClearPoll (s : State) : Host.Outcome State Fault Refusal := busWrite (startRequest runClearPoll) s

/-- SET-FLAG (R139, R191). -/
def execSetFlag (s : State) : Host.Outcome State Fault Refusal := busWrite (startRequest runSetFlag) s

/-- CONFIRM (R103, R191). -/
def execConfirm (s : State) : Host.Outcome State Fault Refusal := busWrite (startRequest runConfirm) s

/-- A REQUEST write of a word with no request code (R192); the code is the low byte, the high byte is
disregarded (R191). -/
def execUnknownRequestCode (w : Word) (s : State) : Host.Outcome State Fault Refusal :=
  busWrite (startRequest (runRequestByte (loByte w))) s

end Sys2Proof.Machine
end

