-- ==== Sys2Proof/Machine/Control.lean ====
section
/-! DEFINITION. The CONTROL commands (R189), and the RESET input (R190). -/

namespace Sys2Proof.Machine

/-- RESET-PART: the effect of power-on in every block (R190). -/
def execResetPart (s : State) : Host.Outcome State Fault Refusal :=
  if s.port.resetHeld then .next s else .next (resetPart false s)

/-- ONLINE: nothing changes when already ONLINE (R88). -/
def execOnline (s : State) : Host.Outcome State Fault Refusal :=
  if s.link.online then .next s else busWrite goOnline s

/-- OFFLINE: nothing changes when already OFFLINE (R87). -/
def execOffline (s : State) : Host.Outcome State Fault Refusal :=
  if s.link.online then busWrite goOffline s else .next s

/-- ARM: the unit is armed, and in PULSE mode a pulse follows at once when the condition is true (R183). -/
def execArm (s : State) : Host.Outcome State Fault Refusal :=
  busWrite (fun s => { s with notice.armed := true }) s

/-- RESUME-INBOUND: ends a pause, and a unit held for it is taken when the FIFO has room; without a pause
nothing changes (R155). -/
def execResumeInbound (s : State) : Host.Outcome State Fault Refusal :=
  if s.data.paused then busWrite (fun s => serveHeldData { s with data.paused := false }) s else .next s

/-- FLUSH-INBOUND: discards the inbound entries, with the consequences of a read that empties the FIFO; an
empty FIFO leaves nothing to do (R157). -/
def execFlushInbound (s : State) : Host.Outcome State Fault Refusal :=
  match s.data.inFifo with
  | [] => .next s
  | _ :: _ => busWrite (fun s => afterDrain { s with data.inFifo := [] }) s

/-- A CONTROL command by its code; 00H and 07H-FFH have no effect (R189). -/
def execControlByte (c : Byte) (s : State) : Host.Outcome State Fault Refusal :=
  match decodeControl c with
  | some .resetPart => execResetPart s
  | some .online => execOnline s
  | some .offline => execOffline s
  | some .arm => execArm s
  | some .resumeInbound => execResumeInbound s
  | some .flushInbound => execFlushInbound s
  | none => .next s

/-- A CONTROL write of a word with no command code; the code is the low byte (R189). -/
def execUnassignedControlCode (w : Word) (s : State) : Host.Outcome State Fault Refusal :=
  execControlByte (loByte w) s

/-- The RESET input: it takes effect once asserted for 16 periods of CLK, and holds the part in its reset
values; a shorter assertion is disregarded (R190). -/
def execResetInput (periods : Nat) (s : State) : Host.Outcome State Fault Refusal :=
  if Config.resetPeriods ≤ periods then .next (resetPart true s) else .next s

/-- The release of RESET: the part serves cycles again, OFFLINE (R190). -/
def execResetRelease (s : State) : Host.Outcome State Fault Refusal :=
  .next { s with port.resetHeld := false }

end Sys2Proof.Machine
end

