-- ==== Sys2Proof/Machine/BusPort.lean ====
section
/-! DEFINITION. The reads with an effect (R187), the writes of the port's registers (R185, R200, R201), the
read of the window with its wait (R186), and the DMA acknowledge cycles (R165 to R167, R202). -/

namespace Sys2Proof.Machine

/-! ### Reads with an effect -/

/-- The take of the head of the attention list (R173). -/
def takeAttention (s : State) : State :=
  match s.notice.attention with
  | [] => present noneWord { s with notice.attnKinds := 0#8, notice.attnSignals := 0#16 }
  | h :: rest =>
    present h.word
      { s.updRecord h.slot (fun r => { r with notices := 0#8, signals := 0#16 }) with
        notice.attention := rest
        notice.attnKinds := (s.record h.slot).notices
        notice.attnSignals := (s.record h.slot).signals }

/-- The read-and-clear of DEVNOTICE (R177). -/
def takeDevnotice (s : State) : State :=
  present (s.notice.devnotice.setWidth 16) { s with notice.devnotice := 0#13 }

/-- The read of WINDATA: stretched while the selection waits and an operation is in flight, else answered at
once (R186, R197). -/
def readWindow (s : State) : State :=
  if s.port.select.waits = true ∧ s.engine.flight.isSome = true then
    { s with port.stretched := some s.port.select }
  else present (s.window s.port.select) s

/-! ### Writes -/

/-- The write of CONFIG (R200). -/
def writeConfig (w : Word) (s : State) : State :=
  { s with
    port.confirmWindow := storedWindow (loByte w)
    port.dmaIn := w.getLsbD 8
    port.dmaOut := w.getLsbD 9
    port.endOnTc := w.getLsbD 10 }

/-- The mode bit of INTCTL (R201). -/
def modeOf (w : Word) : IntMode := if w.getLsbD 1 then .pulse else .level

/-- The write of INTCTL: the three settings; the arm state stays, and selecting LEVEL ends a pulse (R179,
R182, R201). -/
def writeIntctl (w : Word) (s : State) : State :=
  { s with
    notice.masterEnable := w.getLsbD 0
    notice.mode := modeOf w
    notice.attentionEnable := w.getLsbD 2
    notice.pulse := s.notice.pulse && w.getLsbD 1 }

/-- The write of DEVNOTICE-ENABLE (R178, R201). -/
def writeDevnoticeEnable (w : Word) (s : State) : State := { s with notice.devnoticeEnable := w.setWidth 13 }

/-- The write of one of PARAM0 to PARAM3 (R191). -/
def writeParam (n : Fin 4) (w : Word) (s : State) : State :=
  { s with port.params := s.port.params.set n.val w n.isLt }

/-- The write of NOTICE-MASK (R170, R201). -/
def writeNoticeMask (w : Word) (s : State) : State := { s with notice.noticeMask := loByte w }

/-- The write of WINSEL (R197). -/
def writeWinsel (w : Word) (s : State) : State := { s with port.select.winsel := w }

/-- The write of WINFIELD: the high byte is disregarded (R197). -/
def writeWinfield (w : Word) (s : State) : State := { s with port.select.winfield := loByte w }

/-! ### DMA -/

/-- TC with an acknowledge (R167). -/
def postTerminalCount (tc : Bool) (s : State) : State := if tc then postDevice .terminalCount s else s

/-! ### The meanings -/

/-- A read of ATTENTION (R173). -/
def execAttentionRead (s : State) : Host.Outcome State Fault Refusal := busRead takeAttention s

/-- A read of DEVNOTICE (R177). -/
def execDevnoticeRead (s : State) : Host.Outcome State Fault Refusal := busRead takeDevnotice s

/-- A read of INDATA (R156). -/
def execIndataRead (s : State) : Host.Outcome State Fault Refusal := busRead readIn s

/-- A write of OUTDATA: bits 15 to 8 are disregarded (R146, R201). -/
def execOutdata (w : Word) (s : State) : Host.Outcome State Fault Refusal := busWrite (writeOut (loByte w) false) s

/-- A write of OUTDATA-END (R146, R201). -/
def execOutdataEnd (w : Word) (s : State) : Host.Outcome State Fault Refusal := busWrite (writeOut (loByte w) true) s

/-- A read of WINDATA (R186, R197). -/
def execWindataRead (s : State) : Host.Outcome State Fault Refusal := busRead readWindow s

/-- A write of CONFIG (R200). -/
def execConfigWrite (w : Word) (s : State) : Host.Outcome State Fault Refusal := busWrite (writeConfig w) s

/-- A write of INTCTL (R179). -/
def execIntctlWrite (w : Word) (s : State) : Host.Outcome State Fault Refusal := busWrite (writeIntctl w) s

/-- A write of DEVNOTICE-ENABLE (R178). -/
def execDevnoticeEnableWrite (w : Word) (s : State) : Host.Outcome State Fault Refusal :=
  busWrite (writeDevnoticeEnable w) s

/-- A write to a word location (R185): a read/write register stores; a read, read-to-clear or read-to-take
register and an unassigned location disregard it; the locations whose write has a row of its own act as that
row does. -/
def execRegisterWrite (loc : BitVec 5) (w : Word) (s : State) : Host.Outcome State Fault Refusal :=
  match decodeLocation loc with
  | .param n => busWrite (writeParam n w) s
  | .noticeMask => busWrite (writeNoticeMask w) s
  | .winsel => busWrite (writeWinsel w) s
  | .winfield => busWrite (writeWinfield w) s
  | .control => execControlByte (loByte w) s
  | .request => busWrite (startRequest (runRequestByte (loByte w))) s
  | .devnoticeEnable => busWrite (writeDevnoticeEnable w) s
  | .intctl => busWrite (writeIntctl w) s
  | .config => busWrite (writeConfig w) s
  | .outdata => busWrite (writeOut (loByte w) false) s
  | .outdataEnd => busWrite (writeOut (loByte w) true) s
  | .status | .result | .resultValue | .devnotice | .attention | .attnKinds | .attnSignals | .windata | .indata
  | .source | .lead | .incount | .outcount | .unassigned => .next s

/-- An acknowledge on the inbound pair: with a read strobe the head entry is taken as by an INDATA read, and TC
posts TERMINAL-COUNT; with a write strobe nothing happens (R165, R167, R202). During RESET the acknowledge is
disregarded (R202). -/
def execDackIn (strobe : Strobe) (tc : Bool) (s : State) : Host.Outcome State Fault Refusal :=
  if s.port.resetHeld then .next s
  else
    match strobe with
    | .read => done (postTerminalCount tc (readIn s))
    | .write => .next s

/-- An acknowledge on the outbound pair: with a write strobe an entry is written as by OUTDATA, its END mark
set under END-ON-TC with TC, and TC posts TERMINAL-COUNT; with a read strobe 0000H is presented and TC is
disregarded (R166, R167, R202). During RESET the acknowledge is disregarded (R202). -/
def execDackOut (strobe : Strobe) (tc : Bool) (w : Word) (s : State) : Host.Outcome State Fault Refusal :=
  if s.port.resetHeld then .next s
  else
    match strobe with
    | .write => done (postTerminalCount tc (writeOut (loByte w) (s.port.endOnTc && tc) s))
    | .read => .next (present 0#16 s)

end Sys2Proof.Machine
end

