-- ==== Sys2Proof/Machine/LinkUnits.lean ====
section
/-! DEFINITION. The commands that are units of the station link: control units the director offers (sections
4.4 and 4.5), units the part sees taken (R72, R74), data units it receives (R153), and data units it offers and
sees taken (R71, R147, R148, R122 to R124, R128). -/

namespace Sys2Proof.Machine

/-! ### Control units -/

/-- SIGNAL c, code 00H-0FH (R112). -/
def execSignal (c : BitVec 4) (s : State) : Host.Outcome State Fault Refusal :=
  offerCommand (controlUnit (c.setWidth 8)) s

/-- NAME-SOURCE, code 10H (R79). -/
def execNameSource (s : State) : Host.Outcome State Fault Refusal := offerCommand (controlUnit 0x10#8) s

/-- NAME-SINK, code 11H (R79). -/
def execNameSink (s : State) : Host.Outcome State Fault Refusal := offerCommand (controlUnit 0x11#8) s

/-- RETAG, code 12H (R79). -/
def execLinkRetag (s : State) : Host.Outcome State Fault Refusal := offerCommand (controlUnit 0x12#8) s

/-- A control unit sent as TAG-HI: any value (R79). -/
def execTagHi (v : Byte) (s : State) : Host.Outcome State Fault Refusal := offerCommand (controlUnit v) s

/-- A control unit sent as TAG-LO: any value (R79). -/
def execTagLo (v : Byte) (s : State) : Host.Outcome State Fault Refusal := offerCommand (controlUnit v) s

/-- DROP-SOURCE, code 18H (R98). -/
def execDropSource (s : State) : Host.Outcome State Fault Refusal := offerCommand (controlUnit 0x18#8) s

/-- DROP-SINKS, code 19H (R99). -/
def execDropSinks (s : State) : Host.Outcome State Fault Refusal := offerCommand (controlUnit 0x19#8) s

/-- GO, code 20H (R75, R151). -/
def execGo (s : State) : Host.Outcome State Fault Refusal := offerCommand (controlUnit 0x20#8) s

/-- QUERY, code 21H (R119). -/
def execQuery (s : State) : Host.Outcome State Fault Refusal := offerCommand (controlUnit 0x21#8) s

/-- GROUP-POLL g, code 28H + g (R78). -/
def execGroupPoll (g : BitVec 2) (s : State) : Host.Outcome State Fault Refusal :=
  offerCommand (controlUnit (0x28#8 + g.setWidth 8)) s

/-- ASSIGN-POLL, code 40H + group × 16 + polarity × 8 + line (R134). -/
def execAssignPoll (a : PollAssignment) (s : State) : Host.Outcome State Fault Refusal :=
  offerCommand (controlUnit a.toByte) s

/-- RELEASE-POLL, code 3CH (R135). -/
def execReleasePoll (s : State) : Host.Outcome State Fault Refusal := offerCommand (controlUnit 0x3C#8) s

/-- A control unit with an unassigned code (R77). -/
def execUnassignedLinkCode (v : Byte) (s : State) : Host.Outcome State Fault Refusal :=
  offerCommand (controlUnit v) s

/-! ### Units the part only sees -/

/-- A control unit the part does not hold is taken on the link (R72, R74). -/
def execControlUnitInDataPhase (v : Byte) (s : State) : Host.Outcome State Fault Refusal :=
  takeCommand (controlUnit v) s

/-- A data unit is taken on the link in COMMAND phase (R72, R74, R80). -/
def execDataUnitInCommandPhase (v : Byte) (e : Bool) (s : State) : Host.Outcome State Fault Refusal :=
  takeCommand (dataUnit v e) s

/-- A data unit is taken on the link in DATA phase with no inbound session open (R72, R73). -/
def execDataUnitSeen (v : Byte) (e : Bool) (s : State) : Host.Outcome State Fault Refusal :=
  takeCommand (dataUnit v e) s

/-! ### Units the part receives -/

/-- Another station offers a data unit; in an open inbound session the part holds it from its offer, and takes
it at once when it may (R68, R153). -/
def execInboundUnitOffer (v : Byte) (e : Bool) (s : State) : Host.Outcome State Fault Refusal :=
  offerCommand (dataUnit v e) s

/-- The take of a held data unit, when the inbound FIFO has room and no pause is in effect (R153). -/
def execInboundUnitTake (s : State) : Host.Outcome State Fault Refusal := done (serveHeldData s)

/-! ### Units the part sends -/

/-- The part offers the unit that is due, if one is due and the link lets it (R71). -/
def offerDue (kind : OfferKind) (due : Option (Byte × Bool)) (otherHold : Bool) (s : State) :
    Host.Outcome State Fault Refusal :=
  match due with
  | none => .next s
  | some (v, e) =>
    if s.mayOffer then done (offerUnit { kind := kind, value := v, endFlag := e, otherHold := otherHold } s)
    else .next s

/-- The status unit due (R122). -/
def statusDue (s : State) : Option (Byte × Bool) :=
  match s.calls.answer with
  | .status h .status => some ((s.record h.slot).status, false)
  | _ => none

/-- The condition unit due (R123). -/
def conditionDue (s : State) : Option (Byte × Bool) :=
  match s.calls.answer with
  | .status h .condition => some (conditionValue (s.record h.slot), true)
  | _ => none

/-- The roster unit due (R128). -/
def rosterUnitDue (s : State) : Option (Byte × Bool) :=
  match s.calls.answer with
  | .roster tags p => rosterDue tags p
  | _ => none

/-- The other stations release HOLD on the part's offered unit: it is taken unless the part holds it too
(R71, R160). -/
def releaseOthers (o : Offered) (s : State) : State :=
  takeIfUnheld { s with link.offered := some { o with otherHold := false } }

/-- The command that releases the other stations' HOLD on an offered unit of the kinds given. -/
def takenCommand (isKind : OfferKind → Bool) (s : State) : Host.Outcome State Fault Refusal :=
  match s.link.offered with
  | none => .next s
  | some o => if isKind o.kind then done (releaseOthers o s) else .next s

/-- An offered unit is an outbound entry. -/
def OfferKind.isOutbound : OfferKind → Bool
  | .outbound _ => true
  | .status | .condition | .roster => false

/-- The part offers the head outbound entry (R147). -/
def execOutboundUnitOffer (otherHold : Bool) (s : State) : Host.Outcome State Fault Refusal :=
  offerDue (.outbound true) (outboundDue s) otherHold s

/-- The take of an offered outbound unit (R148, R160). -/
def execOutboundUnitTaken (s : State) : Host.Outcome State Fault Refusal := takenCommand OfferKind.isOutbound s

/-- The part offers the status unit (R122). -/
def execStatusUnitOffer (otherHold : Bool) (s : State) : Host.Outcome State Fault Refusal :=
  offerDue .status (statusDue s) otherHold s

/-- The take of the status unit (R122). -/
def execStatusUnitTaken (s : State) : Host.Outcome State Fault Refusal := takenCommand (· == .status) s

/-- The part offers the condition unit (R123). -/
def execConditionUnitOffer (otherHold : Bool) (s : State) : Host.Outcome State Fault Refusal :=
  offerDue .condition (conditionDue s) otherHold s

/-- The take of the condition unit (R124). -/
def execConditionUnitTaken (s : State) : Host.Outcome State Fault Refusal := takenCommand (· == .condition) s

/-- The part offers the next roster unit (R128). -/
def execRosterUnitOffer (otherHold : Bool) (s : State) : Host.Outcome State Fault Refusal :=
  offerDue .roster (rosterUnitDue s) otherHold s

/-- The take of a roster unit (R128). -/
def execRosterUnitTaken (s : State) : Host.Outcome State Fault Refusal := takenCommand (· == .roster) s

end Sys2Proof.Machine
end

