-- ==== Sys2Proof/Machine/LinkLines.lean ====
section
/-! DEFINITION. The commands that are changes of link lines: the withdrawal of OFFER (R70), and PLQ, STOP and
CLEAR (R81 to R86, R141). The poll answer itself is the view `State.pollLines`. -/

namespace Sys2Proof.Machine

/-- The sender withdraws OFFER, and the part drops REJECT (R70). A sender does not withdraw a unit the part
still holds. -/
def execOfferWithdrawn (s : State) : Host.Outcome State Fault Refusal :=
  if s.link.held.isSome then .next s else done (withdrawForeign s)

/-- The director asserts PLQ: a unit already held stays held (R82); the poll answer follows the line (R141). -/
def execPlqAsserted (s : State) : Host.Outcome State Fault Refusal := done { s with lines.plq := true }

/-- The director releases PLQ: an offer that stands is treated as offered at that moment (R82). -/
def execPlqReleased (s : State) : Host.Outcome State Fault Refusal :=
  done (attendStanding { s with lines.plq := false })

/-- The assertion of STOP or CLEAR ends the unit on the link (R67). -/
def endLinkUnit (s : State) : State := { s with lines.foreign := none }

/-- The director asserts STOP: watched only while ONLINE (R83, R84). -/
def execStopAsserted (s : State) : Host.Outcome State Fault Refusal :=
  let t := if s.link.online then stopLink s else s
  done (endLinkUnit { t with lines.stop := true })

/-- The director releases STOP (R84). -/
def execStopReleased (s : State) : Host.Outcome State Fault Refusal :=
  done (attendStanding { s with lines.stop := false })

/-- The director asserts CLEAR: watched only while ONLINE (R85, R86). -/
def execClearAsserted (s : State) : Host.Outcome State Fault Refusal :=
  let t := if s.link.online then clearLink s else s
  done (endLinkUnit { t with lines.clear := true })

/-- The director releases CLEAR (R86). -/
def execClearReleased (s : State) : Host.Outcome State Fault Refusal :=
  done (attendStanding { s with lines.clear := false })

end Sys2Proof.Machine
end

