-- ==== Sys2Proof/Machine/Completions.lean ====
section
/-! DEFINITION. The completions of directory operations (R31): the link's lookups and replace (R96, R97, R111)
and the last stage of each request (R39, R40, R45, R46, R51, R53, R55, R56), each followed by the answer to a
stretched read (R37) and the take of the next claim (R33). -/

namespace Sys2Proof.Machine

/-! ### Every completion -/

/-- What an operation makes of the directory at its completion (R27 to R30). -/
def Operation.change (op : Operation) (d : List Entry) : Change :=
  match op with
  | .lookup _ => .made d
  | .insert es => insertEntries es d
  | .remove what => .made (removeEntries what d)
  | .replace target tag => replaceEntry target tag d

/-- A read stretched by the operation is answered from the state after its completion, and WAIT is released
(R37, R186). -/
def answerStretched (s : State) : State :=
  match s.port.stretched with
  | none => s
  | some x => present (s.window x) { s with port.stretched := none }

/-- The end of every completion: the stretched read is answered and the engine takes the next claim or becomes
free (R33, R37). -/
def finishOperation (s : State) : State :=
  let t := answerStretched s
  { t with engine := t.engine.takeNext }

/-! ### Link operations -/

/-- The completion of the replace of a director RETAG; a discarded result is handed to no one, and the change
of a discarded replace stands (R35, R111). -/
def completeLinkReplace (i : Slot) (tag : Word) (discarded : Bool) (s : State) : State :=
  match replaceEntry (.primary i) tag s.directory with
  | .made d =>
    let t := postRecord .retagged i ({ s with directory := d }.updRecord i fun r => { r with primaryTag := tag })
    if discarded then t else takeHeld t
  | .failed _ => if discarded then s else refuseHeld s

/-- The lookup of a NAME-SOURCE completes (R96, R35). -/
def execNameSourceLookupComplete (s : State) : Host.Outcome State Fault Refusal :=
  match s.engine.flight with
  | some (.link (.lookup .source tag) discarded) =>
    done (finishOperation (if discarded then s else resolveSource (lookupTag tag s.directory) s))
  | _ => .next s

/-- The lookup of a NAME-SINK completes (R97, R35). -/
def execNameSinkLookupComplete (s : State) : Host.Outcome State Fault Refusal :=
  match s.engine.flight with
  | some (.link (.lookup .sink tag) discarded) =>
    done (finishOperation (if discarded then s else resolveSink (lookupTag tag s.directory) s))
  | _ => .next s

/-- The replace of a director RETAG completes (R111, R35). -/
def execLinkRetagReplaceComplete (s : State) : Host.Outcome State Fault Refusal :=
  match s.engine.flight with
  | some (.link (.replace i tag) discarded) => done (finishOperation (completeLinkReplace i tag discarded s))
  | _ => .next s

/-! ### Requests -/

/-- The completion of the operation of the request in flight, when that request is of the kind picked. -/
def completeRequest {α : Type} (pick : DirectoryRequest → Option α)
    (body : α → Vector Word 4 → Operation → State → State) (s : State) : Host.Outcome State Fault Refusal :=
  match s.request, s.engine.flight with
  | some q, some (.request op) =>
    match pick q.kind with
    | some a => done (finishOperation (body a q.params op s))
    | none => .next s
  | _, _ => .next s

/-- The request's change to the directory is made and its record changes follow, or it fails and the request
ends with the failure (R28, R30, R31). -/
def changeDirectory (op : Operation) (made : State → State) (failed : ResultCode → State → State) (s : State) :
    State :=
  match op.change s.directory with
  | .made d => made { s with directory := d }
  | .failed r => failed r s

/-- The record becomes ACTIVE, and the request ends with its handle (R45). -/
def createMade (i : Slot) (s : State) : State :=
  endRequest .ok (s.handleOf i).word (s.updRecord i fun r => { r with state := .active })

/-- The slot returns FREE to the head of the free list, its generation unchanged (R14, R46). -/
def createFailed (i : Slot) (r : ResultCode) (s : State) : State :=
  failRequest r ({ s with freeList := i :: s.freeList }.updRecord i fun x => Record.cleared x.generation)

/-- The slot becomes FREE at the next generation and joins the free list at the tail (R11, R15, R51). -/
def retireMade (i : Slot) (params : Vector Word 4) (s : State) : State :=
  endRequest .ok (params.get 0)
    ({ s with freeList := s.freeList ++ [i] }.updRecord i fun x => Record.cleared (x.generation + 1#8))

/-- The primary tag becomes the new tag and RETAGGED is posted (R53). -/
def retagMade (i : Slot) (params : Vector Word 4) (s : State) : State :=
  endRequest .ok (params.get 0)
    (postRecord .retagged i (s.updRecord i fun r => { r with primaryTag := params.get 1 }))

/-- The alias becomes the tag given (R55). -/
def setAliasMade (i : Slot) (params : Vector Word 4) (s : State) : State :=
  endRequest .ok (params.get 0) (s.updRecord i fun r => { r with aliasTag := some (params.get 1) })

/-- The alias becomes absent (R56). -/
def clearAliasMade (i : Slot) (params : Vector Word 4) (s : State) : State :=
  endRequest .ok (params.get 0) (s.updRecord i fun r => { r with aliasTag := none })

/-- The result of a FIND (R39). -/
def findMade (op : Operation) (s : State) : State :=
  match op with
  | .lookup tag =>
    match lookupTag tag s.directory with
    | some o => endRequest .ok (s.ownerWord o) s
    | none => failRequest .notFound s
  | .insert _ | .remove _ | .replace _ _ => s

/-- The management tag becomes the value given, or absent (R40). -/
def managementMade (params : Vector Word 4) (s : State) : State :=
  let given := tagOrNone (params.get 0)
  endRequest .ok (managementValue given) { s with managementTag := given }

/-- The slot of a CREATE in flight. -/
def DirectoryRequest.createSlot : DirectoryRequest → Option Slot
  | .create i => some i
  | _ => none

/-- The slot of a RETIRE in flight. -/
def DirectoryRequest.retireSlot : DirectoryRequest → Option Slot
  | .retire i => some i
  | _ => none

/-- The slot of a RETAG in flight. -/
def DirectoryRequest.retagSlot : DirectoryRequest → Option Slot
  | .retag i => some i
  | _ => none

/-- The slot of a SET-ALIAS in flight. -/
def DirectoryRequest.setAliasSlot : DirectoryRequest → Option Slot
  | .setAlias i => some i
  | _ => none

/-- The slot of a CLEAR-ALIAS in flight. -/
def DirectoryRequest.clearAliasSlot : DirectoryRequest → Option Slot
  | .clearAlias i => some i
  | _ => none

/-- A FIND in flight. -/
def DirectoryRequest.isFind : DirectoryRequest → Option Unit
  | .find => some ()
  | _ => none

/-- A SET-MANAGEMENT-TAG in flight. -/
def DirectoryRequest.isSetManagementTag : DirectoryRequest → Option Unit
  | .setManagementTag => some ()
  | _ => none

/-- The insert of a CREATE completes (R45, R46). -/
def execCreateInsertComplete (s : State) : Host.Outcome State Fault Refusal :=
  completeRequest DirectoryRequest.createSlot
    (fun i _ op => changeDirectory op (createMade i) (createFailed i)) s

/-- The remove of a RETIRE completes (R51). -/
def execRetireRemoveComplete (s : State) : Host.Outcome State Fault Refusal :=
  completeRequest DirectoryRequest.retireSlot
    (fun i params op => changeDirectory op (retireMade i params) failRequest) s

/-- The replace of a host RETAG completes (R53). -/
def execRetagReplaceComplete (s : State) : Host.Outcome State Fault Refusal :=
  completeRequest DirectoryRequest.retagSlot
    (fun i params op => changeDirectory op (retagMade i params) failRequest) s

/-- The insert or replace of a SET-ALIAS completes (R55). -/
def execSetAliasComplete (s : State) : Host.Outcome State Fault Refusal :=
  completeRequest DirectoryRequest.setAliasSlot
    (fun i params op => changeDirectory op (setAliasMade i params) failRequest) s

/-- The remove of a CLEAR-ALIAS completes (R56). -/
def execClearAliasComplete (s : State) : Host.Outcome State Fault Refusal :=
  completeRequest DirectoryRequest.clearAliasSlot
    (fun i params op => changeDirectory op (clearAliasMade i params) failRequest) s

/-- The lookup of a FIND completes (R39). -/
def execFindLookupComplete (s : State) : Host.Outcome State Fault Refusal :=
  completeRequest DirectoryRequest.isFind (fun _ _ op => findMade op) s

/-- The operation of a SET-MANAGEMENT-TAG completes (R40). -/
def execSetManagementTagComplete (s : State) : Host.Outcome State Fault Refusal :=
  completeRequest DirectoryRequest.isSetManagementTag
    (fun _ params op => changeDirectory op (managementMade params) failRequest) s

end Sys2Proof.Machine
end

