-- ==== Sys2Proof/Machine/Timers.lean ====
section
/-! DEFINITION. The ends of the part's two timers: the confirm timer (R102, R106) and the INT pulse (R182). -/

namespace Sys2Proof.Machine

/-- The confirm timer expires: the pending confirm ends with REJECT and CONFIRM-EXPIRED (R106). A window of 0
does not run, and a timer stopped at its confirm's ending does not expire (R102). -/
def execConfirmTimerExpiry (s : State) : Host.Outcome State Fault Refusal :=
  match s.link.confirm with
  | none => .next s
  | some c => if c.timer = 0#8 then .next s else done (postDevice .confirmExpired (refuseConfirm s))

/-- The INT pulse ends after four periods of CLK; a unit armed meanwhile pulses again when the condition is
true (R182). -/
def execIntPulseEnd (s : State) : Host.Outcome State Fault Refusal :=
  if s.notice.pulse then done { s with notice.pulse := false } else .next s

end Sys2Proof.Machine
end

