-- ==== Sys2Proof/Machine/Dispatch.lean ====
section
/-! DEFINITION. The meaning of each command: one arm per constructor of `Instr`, in the table's order. -/

namespace Sys2Proof.Machine

/-- The effect of a command on everything but the queue. -/
def exec (i : Instr) (s : State) : Host.Outcome State Fault Refusal :=
  match i with
  | .create => Sys2Proof.Machine.execCreate s
  | .retire => Sys2Proof.Machine.execRetire s
  | .retag => Sys2Proof.Machine.execRetag s
  | .setAlias => Sys2Proof.Machine.execSetAlias s
  | .clearAlias => Sys2Proof.Machine.execClearAlias s
  | .suspend => Sys2Proof.Machine.execSuspend s
  | .resume => Sys2Proof.Machine.execResume s
  | .setStatus => Sys2Proof.Machine.execSetStatus s
  | .call => Sys2Proof.Machine.execCall s
  | .withdraw => Sys2Proof.Machine.execWithdraw s
  | .setPoll => Sys2Proof.Machine.execSetPoll s
  | .clearPoll => Sys2Proof.Machine.execClearPoll s
  | .setFlag => Sys2Proof.Machine.execSetFlag s
  | .confirm => Sys2Proof.Machine.execConfirm s
  | .find => Sys2Proof.Machine.execFind s
  | .setManagementTag => Sys2Proof.Machine.execSetManagementTag s
  | .setOptions => Sys2Proof.Machine.execSetOptions s
  | .unknownRequestCode w => Sys2Proof.Machine.execUnknownRequestCode w s
  | .resetPart => Sys2Proof.Machine.execResetPart s
  | .online => Sys2Proof.Machine.execOnline s
  | .offline => Sys2Proof.Machine.execOffline s
  | .arm => Sys2Proof.Machine.execArm s
  | .resumeInbound => Sys2Proof.Machine.execResumeInbound s
  | .flushInbound => Sys2Proof.Machine.execFlushInbound s
  | .unassignedControlCode w => Sys2Proof.Machine.execUnassignedControlCode w s
  | .attentionRead => Sys2Proof.Machine.execAttentionRead s
  | .devnoticeRead => Sys2Proof.Machine.execDevnoticeRead s
  | .indataRead => Sys2Proof.Machine.execIndataRead s
  | .outdata w => Sys2Proof.Machine.execOutdata w s
  | .outdataEnd w => Sys2Proof.Machine.execOutdataEnd w s
  | .windataRead => Sys2Proof.Machine.execWindataRead s
  | .configWrite w => Sys2Proof.Machine.execConfigWrite w s
  | .intctlWrite w => Sys2Proof.Machine.execIntctlWrite w s
  | .devnoticeEnableWrite w => Sys2Proof.Machine.execDevnoticeEnableWrite w s
  | .registerWrite loc w => Sys2Proof.Machine.execRegisterWrite loc w s
  | .resetInput periods => Sys2Proof.Machine.execResetInput periods s
  | .resetRelease => Sys2Proof.Machine.execResetRelease s
  | .dackIn strobe tc => Sys2Proof.Machine.execDackIn strobe tc s
  | .dackOut strobe tc w => Sys2Proof.Machine.execDackOut strobe tc w s
  | .signal c => Sys2Proof.Machine.execSignal c s
  | .nameSource => Sys2Proof.Machine.execNameSource s
  | .nameSink => Sys2Proof.Machine.execNameSink s
  | .linkRetag => Sys2Proof.Machine.execLinkRetag s
  | .tagHi v => Sys2Proof.Machine.execTagHi v s
  | .tagLo v => Sys2Proof.Machine.execTagLo v s
  | .dropSource => Sys2Proof.Machine.execDropSource s
  | .dropSinks => Sys2Proof.Machine.execDropSinks s
  | .go => Sys2Proof.Machine.execGo s
  | .query => Sys2Proof.Machine.execQuery s
  | .groupPoll g => Sys2Proof.Machine.execGroupPoll g s
  | .assignPoll a => Sys2Proof.Machine.execAssignPoll a s
  | .releasePoll => Sys2Proof.Machine.execReleasePoll s
  | .unassignedLinkCode v => Sys2Proof.Machine.execUnassignedLinkCode v s
  | .controlUnitInDataPhase v => Sys2Proof.Machine.execControlUnitInDataPhase v s
  | .dataUnitInCommandPhase v endFlag => Sys2Proof.Machine.execDataUnitInCommandPhase v endFlag s
  | .dataUnitSeen v endFlag => Sys2Proof.Machine.execDataUnitSeen v endFlag s
  | .inboundUnitOffer v endFlag => Sys2Proof.Machine.execInboundUnitOffer v endFlag s
  | .inboundUnitTake => Sys2Proof.Machine.execInboundUnitTake s
  | .outboundUnitOffer otherHold => Sys2Proof.Machine.execOutboundUnitOffer otherHold s
  | .outboundUnitTaken => Sys2Proof.Machine.execOutboundUnitTaken s
  | .statusUnitOffer otherHold => Sys2Proof.Machine.execStatusUnitOffer otherHold s
  | .statusUnitTaken => Sys2Proof.Machine.execStatusUnitTaken s
  | .conditionUnitOffer otherHold => Sys2Proof.Machine.execConditionUnitOffer otherHold s
  | .conditionUnitTaken => Sys2Proof.Machine.execConditionUnitTaken s
  | .rosterUnitOffer otherHold => Sys2Proof.Machine.execRosterUnitOffer otherHold s
  | .rosterUnitTaken => Sys2Proof.Machine.execRosterUnitTaken s
  | .offerWithdrawn => Sys2Proof.Machine.execOfferWithdrawn s
  | .plqAsserted => Sys2Proof.Machine.execPlqAsserted s
  | .plqReleased => Sys2Proof.Machine.execPlqReleased s
  | .stopAsserted => Sys2Proof.Machine.execStopAsserted s
  | .stopReleased => Sys2Proof.Machine.execStopReleased s
  | .clearAsserted => Sys2Proof.Machine.execClearAsserted s
  | .clearReleased => Sys2Proof.Machine.execClearReleased s
  | .nameSourceLookupComplete => Sys2Proof.Machine.execNameSourceLookupComplete s
  | .nameSinkLookupComplete => Sys2Proof.Machine.execNameSinkLookupComplete s
  | .linkRetagReplaceComplete => Sys2Proof.Machine.execLinkRetagReplaceComplete s
  | .createInsertComplete => Sys2Proof.Machine.execCreateInsertComplete s
  | .retireRemoveComplete => Sys2Proof.Machine.execRetireRemoveComplete s
  | .retagReplaceComplete => Sys2Proof.Machine.execRetagReplaceComplete s
  | .setAliasComplete => Sys2Proof.Machine.execSetAliasComplete s
  | .clearAliasComplete => Sys2Proof.Machine.execClearAliasComplete s
  | .findLookupComplete => Sys2Proof.Machine.execFindLookupComplete s
  | .setManagementTagComplete => Sys2Proof.Machine.execSetManagementTagComplete s
  | .confirmTimerExpiry => Sys2Proof.Machine.execConfirmTimerExpiry s
  | .intPulseEnd => Sys2Proof.Machine.execIntPulseEnd s

end Sys2Proof.Machine
end

