-- ==== Sys2Proof/Safety.lean ====
section
/-! DEFINITION. What the statements say about every state a run reaches: the part never stops, and the
conditions the spec gives its tables, each as a predicate on one state. `Coherent` joins those that hold only
together. -/

namespace Sys2Proof.Machine

/-! ### Steps -/

/-- A command is answered with a next state. -/
def Completes (c : Instr) (s : State) : Prop := ∃ t, exec c s = .next t

/-! ### Records -/

/-- The tags of the record in a slot stand in the directory: ACTIVE, SUSPENDED or RETIRING (R6). -/
def Record.live (r : Record) : Bool := r.inService || r.state == .retiring

/-- The fields of a record are bound to its state (R4, R5, R16). -/
structure Record.Fits (r : Record) : Prop where
  free : r.state = .free → r = Record.cleared r.generation
  sets : r.inService = false → r.notices = 0#8 ∧ r.signals = 0#16
  quiet : r.state ≠ .active → r.call = .quiet
  endChar : r.endChar.isSome = (hasOption r.options .endSend || hasOption r.options .endMark ||
    hasOption r.options .endPause)

/-- Every slot's fields are bound to its state (R5). -/
def State.RecordsFit (s : State) : Prop := ∀ i, (s.record i).Fits

/-- The kind of the request in flight, if any. -/
def State.requestKind (s : State) : Option DirectoryRequest := s.request.map Request.kind

/-- A slot is PENDING exactly while its CREATE is in flight and RETIRING exactly while its RETIRE is (R8), and the
record of any other request in flight is ACTIVE or SUSPENDED. -/
structure State.SlotsFit (s : State) : Prop where
  pending : ∀ i, (s.record i).state = .pending ↔ s.requestKind = some (.create i)
  retiring : ∀ i, (s.record i).state = .retiring ↔ s.requestKind = some (.retire i)
  retag : ∀ i, s.requestKind = some (.retag i) → (s.record i).inService = true
  setAlias : ∀ i, s.requestKind = some (.setAlias i) → (s.record i).inService = true
  clearAlias : ∀ i, s.requestKind = some (.clearAlias i) → (s.record i).inService = true

/-- The free list holds every FREE slot once and no other (R12). -/
structure State.FreeListFits (s : State) : Prop where
  once : s.freeList.Nodup
  free : ∀ i, i ∈ s.freeList ↔ (s.record i).state = .free

/-! ### Lists of handles -/

/-- A handle names the record now in its slot (R10). -/
def State.current (s : State) (h : Handle) : Prop := s.handleOf h.slot = h

/-- The call queue holds exactly the CALLING records, each once (R114). -/
structure State.QueueFits (s : State) : Prop where
  once : s.calls.queue.Nodup
  calling : ∀ h, h ∈ s.calls.queue ↔ s.current h ∧ (s.record h.slot).call = .calling

/-- The attention list holds exactly the records whose notice set is not empty, each once (R172). -/
structure State.AttentionFits (s : State) : Prop where
  once : s.notice.attention.Nodup
  noticed : ∀ h, h ∈ s.notice.attention ↔ s.current h ∧ (s.record h.slot).notices ≠ 0#8

/-- A handle of an ACTIVE record (R90). -/
def State.active (s : State) (h : Handle) : Prop := s.current h ∧ (s.record h.slot).state = .active

/-- The naming state (R90): the source and the sinks are ACTIVE records, the source is no sink, and no sink stands
twice among at most 16; a pending confirm is for an ACTIVE record, with room in the list for a sink. -/
structure State.NamingFits (s : State) : Prop where
  source : ∀ h, s.link.source = .record h → s.active h ∧ h ∉ s.link.sinks
  sinks : ∀ h ∈ s.link.sinks, s.active h
  once : s.link.sinks.Nodup
  limit : s.link.sinks.length ≤ Config.sinkLimit
  confirm : ∀ c, s.link.confirm = some c → s.active c.handle
  confirmSource : ∀ c, s.link.confirm = some c → c.role = .source → s.link.source = .none
  confirmSink : ∀ c, s.link.confirm = some c → c.role = .sink →
    c.handle ∉ s.link.sinks ∧ s.link.sinks.length < Config.sinkLimit
  armed : s.link.queryArmed = true → ∃ h, s.link.source = .record h

/-- The cause of the hold, if the part holds a unit (R69). -/
def State.holdCause (s : State) : Option HoldCause := s.link.held.map Held.cause

/-- A lookup that will be resolved is claimed or in flight (R32). -/
def State.lookupDue (s : State) : Prop :=
  (∃ r t, s.engine.flight = some (.link (.lookup r t) false)) ∨ ∃ r t, s.engine.linkClaim = some (.lookup r t)

/-- A replace of a director RETAG that will be handed back is claimed or in flight (R32). -/
def State.replaceDue (s : State) : Prop :=
  (∃ i t, s.engine.flight = some (.link (.replace i t) false)) ∨ ∃ i t, s.engine.linkClaim = some (.replace i t)

/-- The held unit and what it waits for (R32, R69, R101); while the part holds a unit no other offer waits (R69), and
OFFLINE it holds none (R87). -/
structure State.HoldFits (s : State) : Prop where
  confirm : s.link.confirm.isSome = true ↔ s.holdCause = some .confirm
  lookup : s.lookupDue ↔ s.holdCause = some .lookup
  replace : s.replaceDue ↔ s.holdCause = some .replace
  single : ∀ c, s.engine.flight = some (.link c false) → s.engine.linkClaim = none
  standing : ∀ f, s.lines.foreign = some f → f.standing = .waiting → s.link.held = none
  offline : s.link.online = false → s.link.held = none

/-! ### Directory -/

/-- The tag an owner holds, if it holds one (R24). -/
def State.tagOf (s : State) : Owner → Option Word
  | .primary i => if (s.record i).live then some (s.record i).primaryTag else none
  | .aliasOf i => if (s.record i).live then (s.record i).aliasTag else none
  | .management => s.managementTag

/-- The directory is in strictly ascending order of tag, holds no tag 0000H and at most 256 entries (R23). -/
structure State.DirectoryOrdered (s : State) : Prop where
  sorted : s.directory.Pairwise fun a b => a.tag < b.tag
  valid : ∀ e ∈ s.directory, e.tag ≠ 0#16
  limit : s.directory.length ≤ Config.directoryLimit

/-- The directory and the Record Table agree: an entry stands in the directory exactly when its owner holds its
tag (R24). -/
def State.DirectoryAgrees (s : State) : Prop :=
  ∀ tag owner, { tag := tag, owner := owner : Entry } ∈ s.directory ↔ s.tagOf owner = some tag

/-- The operation a request in flight waits for (R39, R40, R44, R51, R53, R55, R56). -/
def State.awaits (s : State) (q : Request) (op : Operation) : Prop :=
  match q.kind with
  | .create i =>
    op = .insert (createEntries i (s.record i).primaryTag (s.record i).aliasTag) ∧
      (s.record i).primaryTag ≠ 0#16 ∧ (s.record i).aliasTag ≠ some 0#16 ∧
      (s.record i).aliasTag ≠ some (s.record i).primaryTag
  | .retire i => op = .remove (.slotEntries i)
  | .retag i => op = .replace (.primary i) (q.params.get 1) ∧ q.params.get 1 ≠ 0#16
  | .setAlias i => op = aliasOperation i (q.params.get 1) (s.record i).aliasTag ∧ q.params.get 1 ≠ 0#16
  | .clearAlias i => op = .remove (.aliasEntry i) ∧ (s.record i).aliasTag ≠ none
  | .find => ∃ t, op = .lookup t
  | .setManagementTag => op = managementOperation s.managementTag (tagOrNone (q.params.get 0))

/-- A replace of a director RETAG: its tag is no null tag, its record is live, and no RETIRE of the record runs
before it (R34, R51, R110). -/
structure State.ReplaceFits (s : State) (i : Slot) (t : Word) : Prop where
  tag : t ≠ 0#16
  live : (s.record i).live = true

/-- The Directory Engine and its claims (R26, R32, R33): nothing waits for a free engine; the request in flight has
its one operation claimed or in flight; a director's replace is of a live record. -/
structure State.EngineFits (s : State) : Prop where
  free : s.engine.flight = none → s.engine.linkClaim = none ∧ s.engine.requestClaim = none
  idle : s.request = none → s.engine.requestClaim = none ∧ ∀ op, s.engine.flight ≠ some (.request op)
  flight : ∀ q op, s.request = some q → s.engine.flight = some (.request op) →
    s.awaits q op ∧ s.engine.requestClaim = none
  claim : ∀ q op, s.request = some q → s.engine.requestClaim = some op → s.awaits q op
  one : ∀ q, s.request = some q →
    (∃ op, s.engine.flight = some (.request op)) ∨ ∃ op, s.engine.requestClaim = some op
  replace : ∀ i t d, s.engine.flight = some (.link (.replace i t) d) → s.ReplaceFits i t
  replaceClaim : ∀ i t, s.engine.linkClaim = some (.replace i t) →
    s.ReplaceFits i t ∧ ∀ op, s.engine.flight = some (.request op) → s.requestKind ≠ some (.retire i)

/-! ### Counters, FIFOs, interrupt -/

/-- How many records drive on a place (R132). -/
def State.driving (s : State) (p : PollPoint) : Nat :=
  (List.finRange Config.slotCount).countP fun i => (s.record i).drive = some p

/-- Every assertion counter equals the number of records that drive there (R133). -/
def State.CountersFit (s : State) : Prop := ∀ p, Counters.at s.counters p = s.driving p

/-- Neither FIFO holds more than 32 entries (chapter 8). -/
def State.FifosFit (s : State) : Prop :=
  s.data.outFifo.length ≤ Config.fifoDepth ∧ s.data.inFifo.length ≤ Config.fifoDepth

/-- The sessions fit the source, the phase and the link (chapter 8): the outbound FIFO is empty while no outbound
session is open (R145), the inbound session is open only ONLINE in DATA phase (R150, R163), and a pause is in effect
only in an open session (R154). -/
structure State.SessionsFit (s : State) : Prop where
  outbound : s.data.outFifo ≠ [] → ∃ h, s.link.source = .record h
  session : s.data.session.isSome = true → s.link.online = true ∧ s.link.phase = .data
  paused : s.data.paused = true → s.data.session.isSome = true

/-- What the Data Channels hold the link for (R69, R151, R153): nothing while OFFLINE; a unit for room only while the
FIFO is full and no pause is in effect, and for pause only during one, so that no take is due; a GO for drain only
while the FIFO is not empty. -/
structure State.HoldsDue (s : State) : Prop where
  offline : s.link.online = false → s.link.held = none
  room : s.holdCause = some .room →
    s.data.session.isSome = true ∧ s.data.paused = false ∧ Config.fifoDepth ≤ s.data.inFifo.length
  pause : s.holdCause = some .pause → s.data.paused = true
  drain : s.holdCause = some .drain → s.data.inFifo ≠ []

/-- The sessions and the holds of the Data Channels. -/
structure State.ChannelsFit (s : State) : Prop where
  sessions : s.SessionsFit
  holds : s.HoldsDue

/-- No pulse is due: an armed unit in PULSE mode with a true condition has a pulse in progress (R182, R183). -/
def State.PulseSettled (s : State) : Prop :=
  s.notice.mode = .pulse → s.notice.armed = true → interruptCondition s = true → s.notice.pulse = true

/-- While RESET stays asserted the part holds its reset values (R190): all of the state but the lines that others
drive, the word last presented and the queue. -/
def State.HeldInReset (s : State) : Prop :=
  s = { State.reset with
        port.resetHeld := true
        port.readData := s.port.readData
        lines := s.lines
        pending := s.pending }

/-! ### The conditions together -/

/-- The conditions on the Record Table, the lists and the directory. -/
structure State.TablesFit (s : State) : Prop where
  records : s.RecordsFit
  freeList : s.FreeListFits
  queue : s.QueueFits
  attention : s.AttentionFits
  naming : s.NamingFits
  ordered : s.DirectoryOrdered
  agrees : s.DirectoryAgrees

/-- The conditions that hold only together: the tables, the request in flight, the engine and the held unit. -/
structure State.Coherent (s : State) : Prop where
  tables : s.TablesFit
  slots : s.SlotsFit
  engine : s.EngineFits
  hold : s.HoldFits

end Sys2Proof.Machine
end

