-- ==== Sys2Proof/Certificates/Slice0/Obligations.lean ====
section
/-! DEFINITION. The statements about the part, for the provers. First the words they are written in, each
written from the rules it names; then the statements, block by block. -/

namespace Sys2Proof.Claims

open Sys2Proof.Machine

/-! ### Completion -/

/-- Command `c` completes on `s`; its effect is `u`, and the interrupt condition is evaluated on `u` (R180,
R182, stated by `Obligations.InterruptOutput`). -/
def Answers (c : Instr) (s u : State) : Prop := exec c s = .next (startPulse u)

/-- Bus cycles are served (R190) and the Request Engine is idle (R191). -/
def Ready (s : State) : Prop := s.port.resetHeld = false ∧ s.request = none

/-! ### Requests -/

/-- The requests whose PARAM0 is a handle (R194). -/
def handleRequests : List Instr :=
  [.retire, .retag, .setAlias, .clearAlias, .suspend, .resume, .setStatus, .call, .withdraw, .setPoll,
   .clearPoll, .setFlag, .confirm, .setOptions]

/-- The seventeen requests of R194. -/
def requests : List Instr := handleRequests ++ [.create, .find, .setManagementTag]

/-- The record in a slot is ACTIVE or SUSPENDED. -/
def InService (s : State) (i : Slot) : Prop := (s.record i).state = .active ∨ (s.record i).state = .suspended

/-- The record in a slot is named: part source, sink, or record of the pending confirm (R49). -/
def Named (s : State) (i : Slot) : Prop :=
  s.link.source = .record (s.handleOf i) ∨ s.handleOf i ∈ s.link.sinks ∨
    ∃ c, s.link.confirm = some c ∧ c.handle = s.handleOf i

/-- The result a request on the record in slot `i` is turned away with by its own checks, in the order of its
rule: `TurnedAway s i c r`. -/
inductive TurnedAway (s : State) (i : Slot) : Instr → ResultCode → Prop where
  /-- R49, check 2. -/
  | retireNamed : s.param 1 = 0#16 → Named s i → TurnedAway s i .retire .named
  /-- R53, check 2. -/
  | retagState : ¬InService s i → TurnedAway s i .retag .wrongState
  /-- R53, check 3. -/
  | retagTag : InService s i → s.param 1 = 0#16 ∨ (s.record i).aliasTag = some (s.param 1) →
      TurnedAway s i .retag .badRequest
  /-- R55, check 2. -/
  | setAliasState : ¬InService s i → TurnedAway s i .setAlias .wrongState
  /-- R55, check 3. -/
  | setAliasTag : InService s i → s.param 1 = 0#16 → TurnedAway s i .setAlias .badRequest
  /-- R56, check 2. -/
  | clearAliasState : ¬InService s i → TurnedAway s i .clearAlias .wrongState
  /-- R56, check 3. -/
  | clearAliasNone : InService s i → (s.record i).aliasTag = none → TurnedAway s i .clearAlias .wrongState
  /-- R57, check 2. -/
  | suspendState : (s.record i).state ≠ .active → TurnedAway s i .suspend .wrongState
  /-- R57, check 3. -/
  | suspendNamed : (s.record i).state = .active → s.param 1 = 0#16 → Named s i → TurnedAway s i .suspend .named
  /-- R58, check 2. -/
  | resumeState : (s.record i).state ≠ .suspended → TurnedAway s i .resume .wrongState
  /-- R59, check 2. -/
  | setOptionsState : ¬InService s i → TurnedAway s i .setOptions .wrongState
  /-- R59, check 3. -/
  | setOptionsRange : InService s i → (s.param 1).getLsbD 7 = true → TurnedAway s i .setOptions .badRequest
  /-- R116, check 2. -/
  | setStatusState : ¬InService s i → TurnedAway s i .setStatus .wrongState
  /-- R117, check 2. -/
  | callState : (s.record i).state ≠ .active → TurnedAway s i .call .wrongState
  /-- R118, check 2. -/
  | withdrawQuiet : (s.record i).call = .quiet → TurnedAway s i .withdraw .wrongState
  /-- R137, check 2. -/
  | setPollState : ¬InService s i → TurnedAway s i .setPoll .wrongState
  /-- R137, check 3. -/
  | setPollRange : InService s i → 4 ≤ (s.param 1).toNat ∨ 8 ≤ (s.param 2).toNat ∨ 2 ≤ (s.param 3).toNat →
      TurnedAway s i .setPoll .badRequest
  /-- R138, check 2. -/
  | clearPollState : ¬InService s i → TurnedAway s i .clearPoll .wrongState
  /-- R138, check 3. -/
  | clearPollNone : InService s i → (s.record i).poll = none → TurnedAway s i .clearPoll .wrongState
  /-- R139, check 2. -/
  | setFlagState : ¬InService s i → TurnedAway s i .setFlag .wrongState
  /-- R139, check 3. -/
  | setFlagRange : InService s i → 2 ≤ (s.param 1).toNat → TurnedAway s i .setFlag .badRequest
  /-- R139, check 4. -/
  | setFlagFromCall : InService s i → (s.param 1).toNat < 2 → (s.record i).options.getLsbD 3 = true →
      TurnedAway s i .setFlag .wrongState
  /-- R103, check 2. -/
  | confirmRange : 2 ≤ (s.param 1).toNat → TurnedAway s i .confirm .badRequest
  /-- R103, check 3. -/
  | confirmLate : (s.param 1).toNat < 2 → (∀ c, s.link.confirm = some c → c.handle ≠ s.handleOf i) →
      TurnedAway s i .confirm .late

/-- A word of CREATE is outside its range (R43, checks 1 to 3, with the layouts of R193). -/
def CreateOutOfRange (s : State) : Prop :=
  s.param 0 = 0#16 ∨ (s.param 1 ≠ 0#16 ∧ s.param 1 = s.param 0) ∨ (s.param 2).getLsbD 7 = true ∨
    ¬(hiByte (s.param 3) = 0x00#8 ∨ (0x40#8 ≤ hiByte (s.param 3) ∧ hiByte (s.param 3) ≤ 0x7F#8))

/-- The tag a word carries where 0 means none (R193). -/
def tagIn (w : Word) : Option Word := if w = 0#16 then none else some w

/-- An option set holds one of END-SEND, END-MARK and END-PAUSE (R4, R193). -/
def hasEndOption (os : BitVec 7) : Bool := os.getLsbD 4 || os.getLsbD 5 || os.getLsbD 6

/-- The PENDING record of an accepted CREATE on a slot of generation `g` (R44, R193). -/
def createdRecord (s : State) (g : Byte) : Record :=
  { state := .pending
    generation := g
    primaryTag := s.param 0
    aliasTag := tagIn (s.param 1)
    options := (s.param 2).setWidth 7
    endChar := if hasEndOption ((s.param 2).setWidth 7) then some (hiByte (s.param 2)) else none
    status := loByte (s.param 3)
    call := .quiet
    hostFlag := false
    poll := if hiByte (s.param 3) = 0x00#8 then none else some (.ofByte (hiByte (s.param 3)))
    notices := 0#8
    signals := 0#16 }

/-- The entries the insert of a CREATE carries (R44). -/
def createdEntries (s : State) (i : Slot) : List Entry :=
  if s.param 1 = 0#16 then [{ tag := s.param 0, owner := .primary i }]
  else [{ tag := s.param 0, owner := .primary i }, { tag := s.param 1, owner := .aliasOf i }]

/-- A request goes on with its claim: BUSY with its copies of the parameters (R42, R191), and the claim sent
(R33, stated by `Obligations.ClaimsAreTakenInOrder`). -/
def staged (kind : DirectoryRequest) (op : Operation) (s : State) : State :=
  sendRequestClaim op { s with request := some { kind := kind, params := s.port.params } }

/-! ### Naming state -/

/-- A unit of the part that stays offered after its entry was flushed (R61). -/
def unbackedOffer : Offered → Offered
  | ⟨.outbound _, v, e, o⟩ => ⟨.outbound false, v, e, o⟩
  | o => o

/-- The answer in progress after its record left the source role: none, unless a unit of it is offered
(R62, R122). -/
def answerLeft (s : State) : Answer :=
  match s.calls.answer with
  | .status h next => if s.link.offered = none then .none else .status h next
  | a => a

/-- A record's source role ends (R47, R92, R94): no source, query-armed clear, the outbound FIFO flushed. -/
def sourceReleased (s : State) : State :=
  { s with
    link.source := .none
    link.queryArmed := false
    link.offered := s.link.offered.map unbackedOffer
    calls.answer := answerLeft s
    data.outFifo := [] }

/-- Un-naming the part source (R92). -/
def sourceUnnamed (s : State) : State :=
  match s.link.source with
  | .none => s
  | .record h => postRecord .unnamed h.slot (sourceReleased s)
  | .management => { s with link.source := .none, link.queryArmed := false }

/-- A confirm is pending for the handle `h`. -/
def confirmFor (s : State) (h : Handle) : Bool := s.link.confirm.map Confirm.handle == some h

/-- The link part of a detachment (R47): the source role, the sink position and the pending confirm of the
record in slot `i` end; a refused confirm takes the held unit with REJECT. -/
def detachedFromLink (i : Slot) (s : State) : State :=
  let h := s.handleOf i
  let t := if s.link.source = .record h then sourceReleased s else s
  { t with
    link.sinks := s.link.sinks.filter (· ≠ h)
    link.confirm := if confirmFor s h then none else s.link.confirm
    link.held := if confirmFor s h then none else s.link.held
    link.reject := if confirmFor s h then true else s.link.reject
    link.clearSeen := if confirmFor s h then false else s.link.clearSeen }

/-- A detachment (R47, R48): the link part, and the record leaves ACTIVE QUIET, outside the call queue, with its
drive update. -/
def detached (i : Slot) (leaves : SlotState) (s : State) : State :=
  { (detachedFromLink i s).updRecord i (fun r => { r with state := leaves, call := .quiet }) with
    calls.queue := s.calls.queue.filter (· ≠ s.handleOf i) }

/-- The part takes the unit it holds (R68); clear-seen clears (R86). -/
def taken (s : State) : State := { s with link.held := none, link.clearSeen := false }

/-- The part takes the unit it holds with REJECT (R70). -/
def refused (s : State) : State := { s with link.held := none, link.clearSeen := false, link.reject := true }

/-- A source naming is applied to the record in slot `i` (R93). -/
def namedSource (i : Slot) (s : State) : State :=
  postRecord .namedSource i
    { s with
      link.sinks := s.link.sinks.filter (· ≠ s.handleOf i)
      link.source := .record (s.handleOf i)
      link.queryArmed := false }

/-- A sink naming is applied to the record in slot `i` (R94). -/
def namedSink (i : Slot) (s : State) : State :=
  let t := if s.link.source = .record (s.handleOf i) then sourceReleased s else s
  postRecord .namedSink i { t with link.sinks := s.link.sinks ++ [s.handleOf i] }

/-- A confirm opens (R101, R102): the held TAG-LO stays held for it. -/
def confirmOpened (role : Role) (i : Slot) (s : State) : State :=
  postRecord .confirmWanted i
    { s with
      link.confirm := some { handle := s.handleOf i, role := role, timer := s.port.confirmWindow }
      link.held := s.link.held.map fun h => { h with cause := .confirm } }

/-- The slot of an entry's record. -/
def ownerSlot : Owner → Option Slot
  | .primary i => some i
  | .aliasOf i => some i
  | .management => none

/-- The lookup's result is the part's current source (R96, step 1). -/
def IsCurrentSource (s : State) (found : Option Owner) : Prop :=
  match found with
  | none => False
  | some o =>
    match ownerSlot o with
    | none => s.link.source = .management
    | some i => s.link.source = .record (s.handleOf i)

/-- A row of the table of R96, on the state `t` after its step 1: `SourceRow s t found u`, where `u` is what the
row leaves. -/
inductive SourceRow (s t : State) : Option Owner → State → Prop where
  | noEntry : SourceRow s t none (taken t)
  | retiring (o : Owner) (i : Slot) : ownerSlot o = some i → (t.record i).state = .retiring →
      SourceRow s t (some o) (taken t)
  | management : SourceRow s t (some .management) (taken { t with link.source := .management })
  | suspended (o : Owner) (i : Slot) : ownerSlot o = some i → (t.record i).state = .suspended →
      SourceRow s t (some o) (refused t)
  | current (o : Owner) (i : Slot) : ownerSlot o = some i → (t.record i).state = .active →
      IsCurrentSource s (some o) → SourceRow s t (some o) (taken t)
  | confirm (o : Owner) (i : Slot) : ownerSlot o = some i → (t.record i).state = .active →
      ¬IsCurrentSource s (some o) → (t.record i).options.getLsbD 0 = true →
      SourceRow s t (some o) (confirmOpened .source i t)
  | applied (o : Owner) (i : Slot) : ownerSlot o = some i → (t.record i).state = .active →
      ¬IsCurrentSource s (some o) → (t.record i).options.getLsbD 0 = false →
      SourceRow s t (some o) (taken (namedSource i t))

/-- A row of the table of R97. -/
inductive SinkRow (s : State) : Option Owner → State → Prop where
  | noEntry : SinkRow s none (taken s)
  | retiring (o : Owner) (i : Slot) : ownerSlot o = some i → (s.record i).state = .retiring →
      SinkRow s (some o) (taken s)
  | management : SinkRow s (some .management) (refused s)
  | suspended (o : Owner) (i : Slot) : ownerSlot o = some i → (s.record i).state = .suspended →
      SinkRow s (some o) (refused s)
  | already (o : Owner) (i : Slot) : ownerSlot o = some i → (s.record i).state = .active →
      s.handleOf i ∈ s.link.sinks → SinkRow s (some o) (taken s)
  | full (o : Owner) (i : Slot) : ownerSlot o = some i → (s.record i).state = .active →
      s.handleOf i ∉ s.link.sinks → 16 ≤ s.link.sinks.length → SinkRow s (some o) (refused s)
  | confirm (o : Owner) (i : Slot) : ownerSlot o = some i → (s.record i).state = .active →
      s.handleOf i ∉ s.link.sinks → s.link.sinks.length < 16 → (s.record i).options.getLsbD 0 = true →
      SinkRow s (some o) (confirmOpened .sink i s)
  | applied (o : Owner) (i : Slot) : ownerSlot o = some i → (s.record i).state = .active →
      s.handleOf i ∉ s.link.sinks → s.link.sinks.length < 16 → (s.record i).options.getLsbD 0 = false →
      SinkRow s (some o) (taken (namedSink i s))

/-- A row of the table of R110 for the tag `tag`, on the state `s` that holds the TAG-LO. -/
inductive RetagRow (s : State) (tag : Word) : State → Prop where
  | noSource : s.link.source = .none → RetagRow s tag (taken s)
  | management : s.link.source = .management → RetagRow s tag (refused s)
  | same (h : Handle) : s.link.source = .record h → tag = (s.record h.slot).primaryTag → RetagRow s tag (taken s)
  | forbidden (h : Handle) : s.link.source = .record h → tag ≠ (s.record h.slot).primaryTag →
      (s.record h.slot).options.getLsbD 1 = false ∨ tag = 0#16 ∨ (s.record h.slot).aliasTag = some tag →
      RetagRow s tag (refused s)
  | replace (h : Handle) : s.link.source = .record h → tag ≠ (s.record h.slot).primaryTag →
      (s.record h.slot).options.getLsbD 1 = true → tag ≠ 0#16 → (s.record h.slot).aliasTag ≠ some tag →
      RetagRow s tag (sendLinkClaim (.replace h.slot tag) s)

/-! ### Units of the link -/

/-- The link is free of units of the part: it holds none and offers none (R69). -/
def Unoccupied (s : State) : Prop := s.link.held = none ∧ s.link.offered = none

/-- The part attends to offers: ONLINE, with PLQ, STOP and CLEAR released (R68, R82, R84, R86). -/
def Attends (s : State) : Prop :=
  s.link.online = true ∧ s.lines.plq = false ∧ s.lines.stop = false ∧ s.lines.clear = false

/-- A control unit offered now is decoded: the part attends to it in COMMAND phase, no unit stands on the link,
and no control sequence is in progress (R77). -/
def Decodes (s : State) : Prop :=
  Unoccupied s ∧ Attends s ∧ s.link.phase = .command ∧ s.link.sequence = .none

/-- Another sender offers a unit: its OFFER stands, and the REJECT kept for the earlier sender is dropped (R67,
R70). -/
def offeredBy (u : LinkUnit) (s : State) : State :=
  { s with lines.foreign := some { unit := u, standing := .attended }, link.reject := false }

/-- A control unit that the part takes at once (R77). -/
def unitTaken (v : Byte) (s : State) : State := taken (offeredBy (controlUnit v) s)

/-- A change to the records of the sink list, made record by record in list order from the lead sink. -/
def overSinks (f : Slot → State → State) (s : State) : State := s.link.sinks.foldl (fun t h => f h.slot t) s

/-- SIGNAL c at one sink (R112). -/
def signalled (c : BitVec 4) (i : Slot) (s : State) : State :=
  postRecord .signalled i (s.updRecord i fun r => { r with signals := r.signals ||| (1#16 <<< c.toNat) })

/-- ASSIGN-POLL at one sink (R134). -/
def assigned (a : PollAssignment) (i : Slot) (s : State) : State :=
  if (s.record i).options.getLsbD 2 = true ∧ (s.record i).poll ≠ some a then
    postRecord .pollChanged i (s.updRecord i fun r => { r with poll := some a })
  else s

/-- RELEASE-POLL at one sink (R135). -/
def released (i : Slot) (s : State) : State :=
  if (s.record i).options.getLsbD 2 = true ∧ (s.record i).poll ≠ none then
    postRecord .pollChanged i (s.updRecord i fun r => { r with poll := none })
  else s

/-! ### Data phases -/

/-- What the Call Unit begins at the take of GO (R75, R121, R127). -/
def answerBegun (s : State) : Answer :=
  match s.link.source with
  | .none => .none
  | .record h => if s.link.queryArmed then .status h .status else .none
  | .management => .roster ((s.calls.queue.take 8).map fun h => (s.record h.slot).primaryTag) 0

/-- The session the Data Channels open for the lead sink `h` (R150). -/
def sessionFor (s : State) (h : Handle) : InboundSession :=
  let r := s.record h.slot
  let mode := if r.options.getLsbD 6 then LeadMode.pause else if r.options.getLsbD 5 then .mark else .none
  { lead := h, mode := mode, endChar := if mode = .none then none else r.endChar }

/-- The take of GO (R75, R152): DATA phase, the answer begun, the sending settled, and the inbound session opened
with INBOUND-SESSION when the sink list is not empty. -/
def goTaken (s : State) : State :=
  let t :=
    { taken s with
      link.phase := .data
      link.sending := (match s.link.source with | .record _ => !s.link.queryArmed | _ => false)
      calls.answer := answerBegun s }
  match s.link.sinks with
  | [] => t
  | h :: _ =>
    { t with
      data.session := some (sessionFor s h)
      data.paused := false
      notice.devnotice := s.notice.devnotice ||| 0x0040#13 }

/-- The end of a DATA phase by a unit with END (R76, R158): COMMAND phase, and an open inbound session closes with
PHASE-END. -/
def phaseEnded (s : State) : State :=
  match s.data.session with
  | none => { s with link.phase := .command, link.sending := false }
  | some _ =>
    { s with
      link.phase := .command
      link.sending := false
      data.session := none
      data.paused := false
      notice.devnotice := s.notice.devnotice ||| 0x0100#13 }

/-- The inbound entry of a unit under the copies of the session (R153). -/
def inboundEntry (x : InboundSession) (u : LinkUnit) : InEntry :=
  { value := u.value, byLine := u.endFlag, byChar := decide (x.mode ≠ .none ∧ x.endChar = some u.value) }

/-- The take of a data unit by the part in the session `x` (R153, R154, R158): the entry appended, INBOUND-READY
when the FIFO was empty, then the end of the phase, or a pause. -/
def received (x : InboundSession) (u : LinkUnit) (s : State) : State :=
  let e := inboundEntry x u
  let t :=
    { taken s with
      data.inFifo := s.data.inFifo ++ [e]
      notice.devnotice := if s.data.inFifo = [] then s.notice.devnotice ||| 0x0020#13 else s.notice.devnotice }
  if u.endFlag then phaseEnded t
  else if x.mode = .pause ∧ e.byChar = true then
    { t with data.paused := true, notice.devnotice := t.notice.devnotice ||| 0x0080#13 }
  else t

/-- The part holds a unit for a cause (R69). -/
def holding (u : LinkUnit) (c : HoldCause) (s : State) : State :=
  { s with link.held := some { unit := u, cause := c } }

/-- The part may offer (R71, R82, R84, R86): DATA phase, it attends, and no offer stands on the link. -/
def MayOffer (s : State) : Prop :=
  Attends s ∧ s.link.phase = .data ∧ Unoccupied s ∧ s.lines.foreign = none

/-- OFFER is withdrawn at the link take, and END ends the phase (R71, R73), after the owning block's own part `f`. -/
def linkTake (e : Bool) (f : State → State) (s : State) : State :=
  let t := f { s with link.offered := none }
  if e then phaseEnded t else t

/-- The head outbound entry is removed, with OUTBOUND-EMPTY when that empties the FIFO (R148). -/
def headRemoved (s : State) : State :=
  match s.data.outFifo with
  | [] => s
  | [_] => { s with data.outFifo := [], notice.devnotice := s.notice.devnotice ||| 0x0200#13 }
  | _ :: rest => { s with data.outFifo := rest }

/-- The take of the condition unit of the record `h`, with or without the calling mark (R124, steps 1 and 2). -/
def conditionTaken (h : Handle) (mark : Bool) (s : State) : State :=
  let t := { s with link.queryArmed := false, calls.answer := .none }
  if mark = true ∧ s.handleOf h.slot = h ∧ (s.record h.slot).call = .calling then
    postRecord .answered h.slot
      { t.updRecord h.slot (fun r => { r with call := .quiet }) with
        calls.queue := s.calls.queue.filter (· ≠ h) }
  else t

/-- What the block that owns a unit of the part does at its link take: the head entry removed (R148) unless it was
flushed (R61), the condition unit next (R122), the call answered (R124), the roster advanced or ended (R128). -/
def ownerEffect (o : Offered) (s : State) : State :=
  match o.kind, s.calls.answer with
  | .outbound true, _ => headRemoved s
  | .status, .status h _ =>
    { s with calls.answer := if s.link.source = .record h then .status h .condition else .none }
  | .condition, .status h _ => conditionTaken h (o.value.getLsbD 0) s
  | .condition, _ => { s with link.queryArmed := false, calls.answer := .none }
  | .roster, .roster tags p => { s with calls.answer := if o.endFlag then .none else .roster tags (p + 1) }
  | _, _ => s

/-- The link take of a unit of the part (R71, R73). -/
def ownTaken (o : Offered) (s : State) : State := linkTake o.endFlag (ownerEffect o) s

/-- The part's take of a data unit in the session `x`. A unit that it offers itself is taken on the link at the same
moment, unless another station still holds it (R159, R160). -/
def partTakes (x : InboundSession) (u : LinkUnit) (s : State) : State :=
  match s.link.offered with
  | none => received x u s
  | some o => if o.otherHold then received x u s else ownTaken o (received x u s)

/-- The part offers the unit `o` (R71): it stands while another station holds it, and is taken at once when nobody
does; in an open inbound session the part holds it too (R159), takes it when the FIFO has room and no pause is in
effect, and else holds it for pause or room (R161). -/
inductive OwnOffered (s : State) (o : Offered) : State → Prop
  | stands : s.data.session = none → o.otherHold = true → OwnOffered s o { s with link.offered := some o }
  | taken : s.data.session = none → o.otherHold = false → OwnOffered s o (ownTaken o s)
  | delivered (x : InboundSession) : s.data.session = some x → s.data.paused = false → s.data.inFifo.length < 32 →
      OwnOffered s o (partTakes x (dataUnit o.value o.endFlag) { s with link.offered := some o })
  | paused (x : InboundSession) : s.data.session = some x → s.data.paused = true →
      OwnOffered s o (holding (dataUnit o.value o.endFlag) .pause { s with link.offered := some o })
  | full (x : InboundSession) : s.data.session = some x → s.data.paused = false → 32 ≤ s.data.inFifo.length →
      OwnOffered s o (holding (dataUnit o.value o.endFlag) .room { s with link.offered := some o })

/-- A unit of the part, with whether another station holds it. -/
def ownUnit (kind : OfferKind) (v : Byte) (e otherHold : Bool) : Offered :=
  { kind := kind, value := v, endFlag := e, otherHold := otherHold }

/-- A hold that the Data Channels do not end: a TAG-LO held for lookup, confirm or replace (R69). -/
def HeldForNaming (c : HoldCause) : Prop := c = .lookup ∨ c = .confirm ∨ c = .replace

/-! ### Offers and takes of other stations -/

/-- The unit that a command of another sender offers (section 4.4, R79, R153). -/
def offers : Instr → Option LinkUnit
  | .signal c => some (controlUnit (c.setWidth 8))
  | .nameSource => some (controlUnit 0x10#8)
  | .nameSink => some (controlUnit 0x11#8)
  | .linkRetag => some (controlUnit 0x12#8)
  | .tagHi v => some (controlUnit v)
  | .tagLo v => some (controlUnit v)
  | .dropSource => some (controlUnit 0x18#8)
  | .dropSinks => some (controlUnit 0x19#8)
  | .go => some (controlUnit 0x20#8)
  | .query => some (controlUnit 0x21#8)
  | .groupPoll g => some (controlUnit (0x28#8 + g.setWidth 8))
  | .assignPoll a =>
    some (controlUnit
      (0x40#8 + a.group.setWidth 8 * 16#8 + (if a.polarity = .inverted then 8#8 else 0#8) + a.line.setWidth 8))
  | .releasePoll => some (controlUnit 0x3C#8)
  | .unassignedLinkCode v => some (controlUnit v)
  | .inboundUnitOffer v e => some (dataUnit v e)
  | _ => none

/-- The commands that report the link take of a unit the part does not hold (R72). -/
def takes : Instr → Option LinkUnit
  | .controlUnitInDataPhase v => some (controlUnit v)
  | .dataUnitInCommandPhase v e => some (dataUnit v e)
  | .dataUnitSeen v e => some (dataUnit v e)
  | _ => none

/-- The unit `u` stands offered and has not been taken. -/
def StandsOffered (s : State) (u : LinkUnit) (d : Standing) : Prop :=
  s.lines.foreign = some { unit := u, standing := d } ∧ d ≠ .over

/-- A unit that is not yet offered is offered with its take. -/
def OfferedWithTake (s : State) (u : LinkUnit) : Prop := ∀ d, ¬StandsOffered s u d

/-- The lines after the link take of `u`: its OFFER is over. -/
def linkTaken (u : LinkUnit) (s : State) : State := { s with lines.foreign := some { unit := u, standing := .over } }

/-- The part sees the take of `u`, with the lines it leaves: of an offer that it attended to, whatever PLQ has done
since (R82 speaks of offers made while PLQ is asserted), or of a unit offered with its take while the part attends. -/
inductive TakeSeen (s : State) (u : LinkUnit) : State → Prop
  | attended : StandsOffered s u .attended → TakeSeen s u (linkTaken u s)
  | atOnce : OfferedWithTake s u → Attends s → TakeSeen s u { linkTaken u s with link.reject := false }

/-- The part does not see the take of `u`: of an offer that still waits for it (R82, R84), of one that it never
attends to (R88), or of a unit offered with its take while the part does not attend. -/
inductive TakeUnseen (s : State) (u : LinkUnit) : State → Prop
  | waiting : StandsOffered s u .waiting → TakeUnseen s u (linkTaken u s)
  | ignored : StandsOffered s u .ignored → TakeUnseen s u (linkTaken u s)
  | atOnce : OfferedWithTake s u → ¬Attends s → TakeUnseen s u { linkTaken u s with link.reject := false }

/-- The END of an outbound unit at its offer (R147). -/
def outboundEndFlag (r : Record) (e : OutEntry) : Bool :=
  e.endMark || (r.options.getLsbD 4 && r.endChar == some e.value)

/-- The value of a condition unit (section 6.4, R123): 01H for CALLING, 02H for a poll flag of 1. -/
def conditionByte (r : Record) : Byte :=
  (if r.call = .calling then 0x01#8 else 0x00#8) ||| (if r.pollFlag then 0x02#8 else 0x00#8)

/-- The units of a roster (section 6.5): the count, then each tag's high byte and low byte. -/
def rosterBytes (tags : List Word) : List Byte :=
  BitVec.ofNat 8 tags.length :: tags.flatMap fun t => [hiByte t, loByte t]

/-! ### STOP, CLEAR, OFFLINE -/

/-- What STOP, CLEAR and OFFLINE do alike (R83, R85, R87, with R34, R35, R107, R125, R129, R162, R163). -/
def linkAbandoned (s : State) : State :=
  { s with
    link.phase := .command
    link.sending := false
    link.sequence := .none
    link.held := none
    link.offered := none
    link.reject := false
    link.confirm := none
    calls.answer := .none
    data.session := none
    data.paused := false
    engine.linkClaim := none
    engine.flight :=
      (match s.engine.flight with
       | some (.link c _) => some (.link c true)
       | f => f)
    notice.devnotice := if s.link.confirm.isSome then s.notice.devnotice ||| 0x0008#13 else s.notice.devnotice }

/-- CLEAR and OFFLINE also empty the naming state, select group 0 and flush the outbound FIFO (R85, R87, R163). -/
def namingEmptied (s : State) : State :=
  { s with
    link.source := .none
    link.sinks := []
    link.queryArmed := false
    link.pollGroup := 0#2
    data.outFifo := [] }

/-- An offer of another sender that the part never attends to (R88); a unit already taken on the link is over. -/
def neverAttended (s : State) : Option ForeignOffer :=
  s.lines.foreign.map fun f => { f with standing := if f.standing = .over then .over else .ignored }

/-! ### Registers -/

/-- The word a register reads after reset (R185); the offset is twice the location. -/
def resetWord (loc : BitVec 5) : Word :=
  if loc = 0x0B#5 then 0x0008#16
  else if loc = 0x0C#5 then 0x00FF#16
  else if loc = 0x0D#5 then 0x0014#16
  else if loc = 0x0E#5 ∨ loc = 0x17#5 ∨ loc = 0x18#5 then 0xFFFF#16
  else 0x0000#16

/-- The word of an inbound entry (R201): value, END-by-line as bit 8, END-by-char as bit 9, valid as bit 15. -/
def indataWord (e : InEntry) : Word :=
  e.value.setWidth 16 ||| (if e.byLine then 0x0100#16 else 0x0000#16) |||
    (if e.byChar then 0x0200#16 else 0x0000#16) ||| 0x8000#16

/-- The state after the write commands of the bus that RESET disregards (R190). -/
def busWrites : List Instr :=
  requests ++ [.resetPart, .online, .offline, .arm, .resumeInbound, .flushInbound]

end Sys2Proof.Claims

section
open Sys2Proof Sys2Proof.Machine Sys2Proof.Claims

/-! ### Steps and reset -/

/-- A step with a command at the front of the queue is the command's meaning on the state with the queue's rest. -/
def Obligations.StepRunsFrontCommand : Prop :=
  ∀ (c : Instr) (rest : List Instr) (s : State), s.pending = c :: rest → step s = exec c { s with pending := rest }

/-- A step on an empty queue leaves the state as it is (the model's choice, log entry 6). -/
def Obligations.EmptyQueueIdles : Prop := ∀ s : State, s.pending = [] → step s = .next s

/-- Every command completes on every state, and leaves the queue as it is (log entries 1 and 15: an event that
cannot occur changes nothing; the part has no fault). -/
def Obligations.EveryCommandCompletesAndKeepsQueue : Prop :=
  ∀ (c : Instr) (s : State), ∃ t, exec c s = .next t ∧ t.pending = s.pending

/-- What the spec gives for power-on and soft reset, block by block (R18, R25, R36, R89, R114, R133, R164, R170, R172,
R175, R177 to R179, R185, R190). R185 gives STATUS as 0000H with PLQ as the line: that location 0 reads 0000H here,
bit 9 clear, rests on the model's choice of PLQ released in State.reset (log entry 13). -/
def Obligations.ResetLeavesTheSpecValues : Prop :=
  (∀ i, State.reset.record i =
    { state := .free, generation := 0#8, primaryTag := 0#16, aliasTag := none, options := 0#7, endChar := none,
      status := 0#8, call := .quiet, hostFlag := false, poll := none, notices := 0#8, signals := 0#16 }) ∧
  State.reset.freeList.map (fun i : Slot => i.val) = List.range 192 ∧
  State.reset.directory = [] ∧ State.reset.managementTag = none ∧
  State.reset.engine = { flight := none, linkClaim := none, requestClaim := none } ∧ State.reset.request = none ∧
  State.reset.link.online = false ∧ State.reset.link.phase = .command ∧ State.reset.link.sequence = .none ∧
  State.reset.link.held = none ∧ State.reset.link.offered = none ∧ State.reset.link.pollGroup = 0#2 ∧
  State.reset.link.clearSeen = false ∧ State.reset.link.source = .none ∧ State.reset.link.sinks = [] ∧
  State.reset.link.queryArmed = false ∧ State.reset.link.confirm = none ∧
  State.reset.calls = { queue := [], answer := .none } ∧
  (∀ p, Counters.at State.reset.counters p = 0) ∧
  State.reset.data = { outFifo := [], session := none, inFifo := [], paused := false } ∧
  State.reset.notice.attention = [] ∧ State.reset.int = false ∧ State.reset.dreqIn = false ∧
  State.reset.dreqOut = false ∧ State.reset.svc = false ∧ State.reset.pollLines = 0#8 ∧
  (∀ loc, State.reset.readLocation loc = resetWord loc)

/-- RESET-PART and a RESET input of 16 periods give every block its reset values; a shorter assertion changes
nothing; the release serves cycles again (R190). That the lines others drive and the queue stand as they are is the
model's reading (log entries 13 and 14). -/
def Obligations.ResetReachesEveryBlock : Prop :=
  (∀ s : State, s.port.resetHeld = false →
    exec .resetPart s =
      .next { State.reset with lines := { s.lines with foreign := neverAttended s }, pending := s.pending }) ∧
  (∀ (s : State) (n : Nat), 16 ≤ n →
    exec (.resetInput n) s =
      .next { State.reset with
              port.resetHeld := true
              lines := { s.lines with foreign := neverAttended s }
              pending := s.pending }) ∧
  (∀ (s : State) (n : Nat), n < 16 → exec (.resetInput n) s = .next s) ∧
  (∀ s : State, exec .resetRelease s = .next { s with port.resetHeld := false })

/-- While RESET stays asserted (R190, R202): reads present 0000H, and writes and acknowledges are disregarded; the part
holds its reset values through every step until the release, drives no line of the link and releases INT, DREQ-IN,
DREQ-OUT and WAIT. -/
def Obligations.PartHeldInResetWhileAsserted : Prop :=
  (∀ s : State, s.port.resetHeld = true →
    (∀ c ∈ busWrites, exec c s = .next s) ∧
    (∀ w, exec (.unknownRequestCode w) s = .next s ∧ exec (.unassignedControlCode w) s = .next s ∧
      exec (.outdata w) s = .next s ∧ exec (.outdataEnd w) s = .next s ∧ exec (.configWrite w) s = .next s ∧
      exec (.intctlWrite w) s = .next s ∧ exec (.devnoticeEnableWrite w) s = .next s) ∧
    (∀ loc w, exec (.registerWrite loc w) s = .next s) ∧
    (∀ c ∈ [Instr.attentionRead, .devnoticeRead, .indataRead, .windataRead],
      exec c s = .next { s with port.readData := 0#16 }) ∧
    (∀ loc, s.readLocation loc = 0#16) ∧
    (∀ strobe tc w, exec (.dackIn strobe tc) s = .next s ∧ exec (.dackOut strobe tc w) s = .next s)) ∧
  (∀ (s t : State) (n : Nat), 16 ≤ n → exec (.resetInput n) s = .next t → t.HeldInReset) ∧
  (∀ s t : State, s.HeldInReset → step s = .next t → t.HeldInReset ∨ t.port.resetHeld = false) ∧
  (∀ s : State, s.HeldInReset →
    s.int = false ∧ s.dreqIn = false ∧ s.dreqOut = false ∧ s.wait = false ∧ s.svc = false ∧ s.pollLines = 0#8 ∧
      s.drivesHold = false ∧ s.drivesOffer = false ∧ s.link.reject = false)

/-! ### Operations that the commands share -/

/-- The word of a handle, and when a handle word is stale (R9, R10). -/
def Obligations.StaleHandleWords : Prop :=
  (∀ h : Handle, h.word.toNat = h.gen.toNat * 256 + h.slot.val) ∧
  (∀ (s : State) (w : Word),
    s.slotOf w = none ↔
      192 ≤ (loByte w).toNat ∨
        ∃ i : Slot, i.val = (loByte w).toNat ∧
          ((s.record i).state = .free ∨ (s.record i).generation ≠ hiByte w)) ∧
  (∀ (s : State) (w : Word) (i : Slot), s.slotOf w = some i → w = (s.handleOf i).word)

/-- The poll flag (R131), when a record drives and where, and the drive update made with every change of a record
(R132): the record changes, no other does, and the counters follow the table of R132. -/
def Obligations.DriveUpdateFollowsTable : Prop :=
  (∀ r : Record, r.pollFlag = if r.options.getLsbD 3 then decide (r.call = .calling) else r.hostFlag) ∧
  (∀ (r : Record) (p : PollPoint),
    r.drive = some p ↔
      r.state = .active ∧ ∃ a, r.poll = some a ∧ p = a.group ++ a.line ∧
        (r.pollFlag = true ∧ a.polarity = .normal ∨ r.pollFlag = false ∧ a.polarity = .inverted)) ∧
  (∀ (c : Counters) (before after : Option PollPoint) (p : PollPoint),
    Counters.at (driveUpdate before after c) p =
      if before = after then Counters.at c p
      else (Counters.at c p - if before = some p then 1 else 0) + if after = some p then 1 else 0) ∧
  (∀ (s : State) (i : Slot) (f : Record → Record),
    (s.updRecord i f).record i = f (s.record i) ∧
    (∀ j, j ≠ i → (s.updRecord i f).record j = s.record j) ∧
    (s.updRecord i f).counters = driveUpdate (s.record i).drive (f (s.record i)).drive s.counters ∧
    { s.updRecord i f with records := s.records, counters := s.counters } = s)

/-- The handling of a posting by the Notice Unit: steps 1 to 3 of R169, with the bits of R201. -/
def Obligations.PostingRecordNotice : Prop :=
  ([.namedSource, .namedSink, .unnamed, .confirmWanted, .signalled, .answered, .retagged, .pollChanged].map
      NoticeKind.bit =
    [0x01#8, 0x02#8, 0x04#8, 0x08#8, 0x10#8, 0x20#8, 0x40#8, 0x80#8]) ∧
  (∀ (k : NoticeKind) (i : Slot) (s : State),
    (s.notice.noticeMask &&& k.bit = 0#8 → postRecord k i s = s) ∧
    (¬InService s i → postRecord k i s = s) ∧
    (s.notice.noticeMask &&& k.bit ≠ 0#8 → InService s i →
      (postRecord k i s).record i = { s.record i with notices := (s.record i).notices ||| k.bit } ∧
      (∀ j, j ≠ i → (postRecord k i s).record j = s.record j) ∧
      (postRecord k i s).notice.attention =
        (if (s.record i).notices = 0#8 then s.notice.attention ++ [s.handleOf i] else s.notice.attention) ∧
      { postRecord k i s with records := s.records, notice.attention := s.notice.attention } = s))

/-- The end of a request: RESULT, RESULT-VALUE, BUSY and REQUEST-DONE, and nothing else, with the codes of RESULT
(R192, R195). -/
def Obligations.RequestEndWritesResult : Prop :=
  (∀ (r : ResultCode) (v : Word) (s : State),
    endRequest r v s =
      { s with
        request := none
        port.result := r.word
        port.resultValue := v
        notice.devnotice := s.notice.devnotice ||| 0x0010#13 }) ∧
  ([.ok, .noSlot, .directoryFull, .tagTaken, .badTag, .stale, .wrongState, .named, .late, .notFound, .badRequest].map
      ResultCode.word =
    [0x01#16, 0x02#16, 0x03#16, 0x04#16, 0x05#16, 0x06#16, 0x07#16, 0x08#16, 0x09#16, 0x0A#16, 0x0B#16])

/-- The four directory operations on an ordered directory (R27 to R30). -/
def Obligations.DirectoryOperationsOnOrderedDirectory : Prop :=
  ∀ d : List Entry, d.Pairwise (fun a b => a.tag < b.tag) →
    (∀ t o, lookupTag t d = some o ↔ { tag := t, owner := o } ∈ d) ∧
    (∀ es : List Entry, es.Pairwise (fun a b => a.tag ≠ b.tag) →
      ((∃ e ∈ es, ∃ x ∈ d, x.tag = e.tag) → insertEntries es d = .failed .tagTaken) ∧
      ((∀ e ∈ es, ∀ x ∈ d, x.tag ≠ e.tag) → 256 < d.length + es.length →
        insertEntries es d = .failed .directoryFull) ∧
      ((∀ e ∈ es, ∀ x ∈ d, x.tag ≠ e.tag) → d.length + es.length ≤ 256 →
        ∃ d', insertEntries es d = .made d' ∧ d'.Pairwise (fun a b => a.tag < b.tag) ∧
          (∀ x, x ∈ d' ↔ x ∈ es ∨ x ∈ d) ∧ d'.length = d.length + es.length)) ∧
    (∀ what, (removeEntries what d).Pairwise (fun a b => a.tag < b.tag)) ∧
    (∀ i x, x ∈ removeEntries (.slotEntries i) d ↔ x ∈ d ∧ x.owner ≠ .primary i ∧ x.owner ≠ .aliasOf i) ∧
    (∀ i x, x ∈ removeEntries (.aliasEntry i) d ↔ x ∈ d ∧ x.owner ≠ .aliasOf i) ∧
    (∀ x, x ∈ removeEntries .managementEntry d ↔ x ∈ d ∧ x.owner ≠ .management) ∧
    (∀ target t, (∃ x ∈ d, x.tag = t) → replaceEntry target t d = .failed .tagTaken) ∧
    (∀ target t, (∀ x ∈ d, x.tag ≠ t) → d.countP (fun x => x.owner = target) = 1 →
      ∃ d', replaceEntry target t d = .made d' ∧ d'.Pairwise (fun a b => a.tag < b.tag) ∧
        (∀ x, x ∈ d' ↔ x = { tag := t, owner := target } ∨ (x ∈ d ∧ x.owner ≠ target)) ∧ d'.length = d.length)

/-- The engine's claims: taken at once by a free engine, else waiting; at a completion the link claim before the
request claim (R33); the stretched read is answered from the state after the completion (R37, R186). -/
def Obligations.ClaimsAreTakenInOrder : Prop :=
  (∀ (s : State) (c : LinkClaim),
    (s.engine.flight = none → sendLinkClaim c s = { s with engine.flight := some (.link c false) }) ∧
    (s.engine.flight ≠ none → sendLinkClaim c s = { s with engine.linkClaim := some c })) ∧
  (∀ (s : State) (op : Operation),
    (s.engine.flight = none → sendRequestClaim op s = { s with engine.flight := some (.request op) }) ∧
    (s.engine.flight ≠ none → sendRequestClaim op s = { s with engine.requestClaim := some op })) ∧
  (∀ (e : Engine) (c : LinkClaim), e.linkClaim = some c →
    e.takeNext = { flight := some (.link c false), linkClaim := none, requestClaim := e.requestClaim }) ∧
  (∀ (e : Engine) (op : Operation), e.linkClaim = none → e.requestClaim = some op →
    e.takeNext = { flight := some (.request op), linkClaim := none, requestClaim := none }) ∧
  (∀ e : Engine, e.linkClaim = none → e.requestClaim = none →
    e.takeNext = { flight := none, linkClaim := none, requestClaim := none }) ∧
  (∀ s : State, s.port.stretched = none → finishOperation s = { s with engine := s.engine.takeNext }) ∧
  (∀ (s : State) (x : Selection), s.port.stretched = some x →
    finishOperation s =
      { s with port.readData := s.window x, port.stretched := none, engine := s.engine.takeNext })

/-! ### Requests -/

/-- A REQUEST write while a request is in flight is discarded, and START-REFUSED is posted (R191). -/
def Obligations.RequestWhileBusyIsRefused : Prop :=
  ∀ s : State, s.port.resetHeld = false → s.request ≠ none →
    (∀ c ∈ requests, Answers c s { s with notice.devnotice := s.notice.devnotice ||| 0x1000#13 }) ∧
    (∀ w, Answers (.unknownRequestCode w) s { s with notice.devnotice := s.notice.devnotice ||| 0x1000#13 })

/-- A request code outside R194 ends at once with BAD-REQUEST and RESULT-VALUE FFFFH (R192). -/
def Obligations.UnknownRequestCodeEndsAtOnce : Prop :=
  ∀ (s : State) (w : Word), Ready s → WellFormed (.unknownRequestCode w) = true →
    Answers (.unknownRequestCode w) s (endRequest .badRequest 0xFFFF#16 s)

/-- A stale handle ends every request that names a record with STALE and RESULT-VALUE FFFFH (R10, R42). -/
def Obligations.StaleHandleEndsRequest : Prop :=
  ∀ s : State, ∀ c ∈ handleRequests, Ready s → s.slotOf (s.param 0) = none →
    Answers c s (endRequest .stale 0xFFFF#16 s)

/-- The acceptance checks of every request: the first that fails ends the request with its result and FFFFH in
RESULT-VALUE (R39, R40, R42, R43, R49, R53, R55 to R59, R103, R116 to R118, R137 to R139). -/
def Obligations.AcceptanceChecksEndRequests : Prop :=
  (∀ (s : State) (i : Slot) (c : Instr) (r : ResultCode), Ready s → s.slotOf (s.param 0) = some i → TurnedAway s i c r →
    Answers c s (endRequest r 0xFFFF#16 s)) ∧
  (∀ s : State, Ready s → CreateOutOfRange s → Answers .create s (endRequest .badRequest 0xFFFF#16 s)) ∧
  (∀ s : State, Ready s → ¬CreateOutOfRange s → s.freeList = [] → Answers .create s (endRequest .noSlot 0xFFFF#16 s)) ∧
  (∀ s : State, Ready s → s.param 0 = 0#16 → Answers .find s (endRequest .badTag 0xFFFF#16 s)) ∧
  (∀ s : State, Ready s → tagIn (s.param 0) ≠ s.managementTag → s.link.source = .management →
    Answers .setManagementTag s (endRequest .named 0xFFFF#16 s))

/-- An accepted CREATE: the head slot of the free list becomes PENDING with the fields given, and the insert of its
entries is claimed (R13, R44). -/
def Obligations.CreateTakesHeadSlot : Prop :=
  ∀ (s : State) (i : Slot) (rest : List Slot), Ready s → ¬CreateOutOfRange s → s.freeList = i :: rest →
    Answers .create s
      (staged (.create i) (.insert (createdEntries s i))
        ({ s with freeList := rest }.updRecord i fun _ => createdRecord s (s.record i).generation))

/-- An accepted RETIRE detaches the record, makes it RETIRING, takes it off the attention list with its sets
emptied, and claims the remove of its entries (R47, R48, R50, R51); an accepted SUSPEND detaches it, makes it
SUSPENDED and ends with OK (R57). -/
def Obligations.RetireAndSuspendDetach : Prop :=
  ∀ (s : State) (i : Slot), Ready s → s.slotOf (s.param 0) = some i →
    ((∀ r, ¬TurnedAway s i .retire r) →
      Answers .retire s
        (staged (.retire i) (.remove (.slotEntries i))
          ((detached i .retiring { s with notice.attention := s.notice.attention.filter (· ≠ s.handleOf i) }).updRecord i
            fun r => { r with notices := 0#8, signals := 0#16 }))) ∧
    ((∀ r, ¬TurnedAway s i .suspend r) →
      Answers .suspend s (endRequest .ok (s.param 0) (detached i .suspended s)))

/-- RESUME and SET-OPTIONS end with OK, their one record changed with its drive update (R4, R58, R59). -/
def Obligations.ResumeAndSetOptionsChangeRecord : Prop :=
  ∀ (s : State) (i : Slot), Ready s → s.slotOf (s.param 0) = some i →
    ((s.record i).state = .suspended →
      Answers .resume s
        (endRequest .ok (s.param 0) (s.updRecord i fun r => { r with state := .active, call := .quiet }))) ∧
    (InService s i → (s.param 1).getLsbD 7 = false →
      Answers .setOptions s
        (endRequest .ok (s.param 0)
          (s.updRecord i fun r =>
            { r with
              options := (s.param 1).setWidth 7
              endChar := if hasEndOption ((s.param 1).setWidth 7) then some (hiByte (s.param 1)) else none })))

/-- RETAG, SET-ALIAS and CLEAR-ALIAS past their checks: at once with OK where the tag stays, else the claim of R53,
R55 and R56. -/
def Obligations.TagRequestsClaimTheirOperation : Prop :=
  ∀ (s : State) (i : Slot), Ready s → s.slotOf (s.param 0) = some i → InService s i →
    ((∀ r, ¬TurnedAway s i .retag r) →
      (s.param 1 = (s.record i).primaryTag → Answers .retag s (endRequest .ok (s.param 0) s)) ∧
      (s.param 1 ≠ (s.record i).primaryTag →
        Answers .retag s (staged (.retag i) (.replace (.primary i) (s.param 1)) s))) ∧
    (s.param 1 ≠ 0#16 →
      ((s.record i).aliasTag = some (s.param 1) → Answers .setAlias s (endRequest .ok (s.param 0) s)) ∧
      ((s.record i).aliasTag = none →
        Answers .setAlias s (staged (.setAlias i) (.insert [{ tag := s.param 1, owner := .aliasOf i }]) s)) ∧
      (∀ t, (s.record i).aliasTag = some t → t ≠ s.param 1 →
        Answers .setAlias s (staged (.setAlias i) (.replace (.aliasOf i) (s.param 1)) s))) ∧
    ((s.record i).aliasTag ≠ none →
      Answers .clearAlias s (staged (.clearAlias i) (.remove (.aliasEntry i)) s))

/-- FIND claims a lookup (R39); SET-MANAGEMENT-TAG ends at once where the tag stays, else claims the insert, replace
or remove of the table of R40. -/
def Obligations.FindAndManagementTagClaims : Prop :=
  ∀ s : State, Ready s →
    (s.param 0 ≠ 0#16 → Answers .find s (staged .find (.lookup (s.param 0)) s)) ∧
    (tagIn (s.param 0) = s.managementTag →
      Answers .setManagementTag s
        (endRequest .ok (if s.managementTag = none then 0xFFFF#16 else 0xFFFE#16) s)) ∧
    (s.link.source ≠ .management →
      (s.managementTag = none → s.param 0 ≠ 0#16 →
        Answers .setManagementTag s
          (staged .setManagementTag (.insert [{ tag := s.param 0, owner := .management }]) s)) ∧
      (∀ t, s.managementTag = some t → s.param 0 ≠ 0#16 → s.param 0 ≠ t →
        Answers .setManagementTag s (staged .setManagementTag (.replace .management (s.param 0)) s)) ∧
      (s.managementTag ≠ none → s.param 0 = 0#16 →
        Answers .setManagementTag s (staged .setManagementTag (.remove .managementEntry) s)))

/-- SET-STATUS, CALL and WITHDRAW past their checks (R116 to R118). -/
def Obligations.StatusCallWithdraw : Prop :=
  ∀ (s : State) (i : Slot), Ready s → s.slotOf (s.param 0) = some i →
    (InService s i →
      Answers .setStatus s
        (endRequest .ok (s.param 0) (s.updRecord i fun r => { r with status := loByte (s.param 1) }))) ∧
    ((s.record i).state = .active → (s.record i).call = .quiet →
      Answers .call s
        (endRequest .ok (s.param 0)
          { s.updRecord i (fun r => { r with status := loByte (s.param 1), call := .calling }) with
            calls.queue := s.calls.queue ++ [s.handleOf i] })) ∧
    ((s.record i).state = .active → (s.record i).call = .calling →
      Answers .call s
        (endRequest .ok (s.param 0) (s.updRecord i fun r => { r with status := loByte (s.param 1) }))) ∧
    ((s.record i).call = .calling →
      Answers .withdraw s
        (endRequest .ok (s.param 0)
          { s.updRecord i (fun r => { r with call := .quiet }) with
            calls.queue := s.calls.queue.filter (· ≠ s.handleOf i) }))

/-- SET-POLL and SET-FLAG past their checks (R137, R139, with the words of R193). -/
def Obligations.SetPollAndSetFlag : Prop :=
  ∀ (s : State) (i : Slot), Ready s → s.slotOf (s.param 0) = some i → InService s i →
    (∀ (g : BitVec 2) (l : BitVec 3) (p : Polarity),
      s.param 1 = g.setWidth 16 → s.param 2 = l.setWidth 16 →
      s.param 3 = (match p with | .normal => 0#16 | .inverted => 1#16) →
      Answers .setPoll s
        (endRequest .ok (s.param 0)
          (s.updRecord i fun r => { r with poll := some { group := g, line := l, polarity := p } }))) ∧
    (∀ b : Bool, s.param 1 = (if b then 1#16 else 0#16) → (s.record i).options.getLsbD 3 = false →
      Answers .setFlag s (endRequest .ok (s.param 0) (s.updRecord i fun r => { r with hostFlag := b })))

/-- CLEAR-POLL whole: its three checks in order, and the accepted request (R138, with the drive of R132 and the end of
R192 and R194). That the interrupt condition is evaluated at the end of the command is the model's choice (log entry
16). -/
def Obligations.ClearPollRemovesAssignment : Prop :=
  ∀ s : State, Ready s →
    (s.slotOf (s.param 0) = none → Answers .clearPoll s (endRequest .stale 0xFFFF#16 s)) ∧
    (∀ i, s.slotOf (s.param 0) = some i →
      (¬InService s i → Answers .clearPoll s (endRequest .wrongState 0xFFFF#16 s)) ∧
      (InService s i → (s.record i).poll = none → Answers .clearPoll s (endRequest .wrongState 0xFFFF#16 s)) ∧
      (InService s i → (s.record i).poll ≠ none →
        ∃ u, Answers .clearPoll s (endRequest .ok (s.param 0) u) ∧
          u.record i = { s.record i with poll := none } ∧
          (∀ j, j ≠ i → u.record j = s.record j) ∧
          (∀ p, Counters.at u.counters p =
            if (s.record i).drive = some p then Counters.at s.counters p - 1 else Counters.at s.counters p) ∧
          { u with records := s.records, counters := s.counters } = s))

/-- A CONFIRM that accepts ends the pending confirm, applies the naming to the state as it stands, and takes the
TAG-LO without REJECT (R103, R104, with R93 and R94). -/
def Obligations.ConfirmAcceptAppliesNaming : Prop :=
  ∀ (s : State) (i : Slot) (c : Confirm), Ready s → s.slotOf (s.param 0) = some i → s.link.confirm = some c →
    c.handle = s.handleOf i → s.param 1 = 1#16 →
    (c.role = .source →
      Answers .confirm s
        (endRequest .ok (s.param 0) (taken (namedSource i { s with link.confirm := none })))) ∧
    (c.role = .sink →
      Answers .confirm s
        (endRequest .ok (s.param 0) (taken (namedSink i { s with link.confirm := none }))))

/-- A CONFIRM that refuses, and the expiry of the confirm timer: the confirm ends, the TAG-LO is taken with REJECT,
and the naming state stays; only the expiry posts CONFIRM-EXPIRED (R105, R106). A timer loaded with a window of 0
does not run (R102), and its expiry changes nothing. -/
def Obligations.ConfirmRefusalAndExpiryReject : Prop :=
  (∀ (s : State) (i : Slot) (c : Confirm), Ready s → s.slotOf (s.param 0) = some i → s.link.confirm = some c →
    c.handle = s.handleOf i → s.param 1 = 0#16 →
    Answers .confirm s (endRequest .ok (s.param 0) (refused { s with link.confirm := none }))) ∧
  (∀ (s : State) (c : Confirm), s.link.confirm = some c → c.timer ≠ 0#8 →
    Answers .confirmTimerExpiry s
      { refused { s with link.confirm := none } with
        notice.devnotice := s.notice.devnotice ||| 0x0004#13 }) ∧
  (∀ s : State, s.link.confirm = none ∨ (∃ c, s.link.confirm = some c ∧ c.timer = 0#8) →
    exec .confirmTimerExpiry s = .next s)

/-! ### CONTROL commands -/

/-- ONLINE and OFFLINE (R87, R88), whole blocks of state; written in the state they lead to, they change nothing. -/
def Obligations.OnlineAndOffline : Prop :=
  ∀ s : State, s.port.resetHeld = false →
    (s.link.online = false →
      Answers .online s
        { s with
          link.online := true
          link.phase := .command
          link.sending := false
          link.sequence := .none
          link.held := none
          link.offered := none
          lines.foreign := neverAttended s }) ∧
    (s.link.online = true → exec .online s = .next s) ∧
    (s.link.online = true →
      Answers .offline s
        { namingEmptied (linkAbandoned s) with
          link.online := false
          link.clearSeen := false
          lines.foreign := neverAttended s }) ∧
    (s.link.online = false → exec .offline s = .next s)

/-- ARM (R183), RESUME-INBOUND (R155), FLUSH-INBOUND (R157), and a code that is no command (R189). A unit held for
room or pause is taken when the FIFO has room and no pause is in effect, the part's own offer included (R161); a GO
held for drain is taken when the FIFO is empty; any other hold stays. -/
def Obligations.ArmResumeAndFlush : Prop :=
  ∀ s : State, s.port.resetHeld = false →
    Answers .arm s { s with notice.armed := true } ∧
    (s.data.paused = false → exec .resumeInbound s = .next s) ∧
    (s.data.paused = true → s.link.held = none →
      Answers .resumeInbound s { s with data.paused := false }) ∧
    (∀ h, s.data.paused = true → s.link.held = some h → HeldForNaming h.cause ∨ h.cause = .drain →
      Answers .resumeInbound s { s with data.paused := false }) ∧
    (∀ h x, s.data.paused = true → s.link.held = some h → h.cause = .pause → s.data.session = some x →
      (s.data.inFifo.length < 32 →
        Answers .resumeInbound s (partTakes x h.unit { s with data.paused := false })) ∧
      (32 ≤ s.data.inFifo.length →
        Answers .resumeInbound s (holding h.unit .room { s with data.paused := false }))) ∧
    (s.data.inFifo = [] → exec .flushInbound s = .next s) ∧
    (s.data.inFifo ≠ [] → s.link.held = none → Answers .flushInbound s { s with data.inFifo := [] }) ∧
    (∀ h x, s.data.inFifo ≠ [] → s.link.held = some h → h.cause = .room → s.data.session = some x →
      s.data.paused = false →
      Answers .flushInbound s (partTakes x h.unit { s with data.inFifo := [] })) ∧
    (∀ h, s.data.inFifo ≠ [] → s.link.held = some h → h.cause = .drain →
      Answers .flushInbound s (goTaken { s with data.inFifo := [] })) ∧
    (∀ h, s.data.inFifo ≠ [] → s.link.held = some h →
      HeldForNaming h.cause ∨ h.cause = .pause ∧ s.data.paused = true →
      Answers .flushInbound s { s with data.inFifo := [] }) ∧
    (∀ w, WellFormed (.unassignedControlCode w) = true → exec (.unassignedControlCode w) s = .next s)

/-! ### Reads and writes of the port -/

/-- The reads of ATTENTION and DEVNOTICE (R173, R177). That the interrupt condition is evaluated at the end of the
command is the model's choice (log entry 16). -/
def Obligations.AttentionAndDevnoticeReads : Prop :=
  ∀ s : State, s.port.resetHeld = false →
    (∀ h rest, s.notice.attention = h :: rest →
      Answers .attentionRead s
        { s.updRecord h.slot (fun r => { r with notices := 0#8, signals := 0#16 }) with
          notice.attention := rest
          notice.attnKinds := (s.record h.slot).notices
          notice.attnSignals := (s.record h.slot).signals
          port.readData := h.word }) ∧
    (s.notice.attention = [] →
      Answers .attentionRead s
        { s with notice.attnKinds := 0#8, notice.attnSignals := 0#16, port.readData := 0xFFFF#16 }) ∧
    Answers .devnoticeRead s
      { s with notice.devnotice := 0#13, port.readData := s.notice.devnotice.setWidth 16 }

/-- The take of the head inbound entry by a read of INDATA and by an acknowledge on the inbound pair (R156, R165), with
its consequences: a unit held for room is taken, the part's own offer included (R161), a GO held for drain is taken
when the FIFO becomes empty (R151), and any other hold stays. TC posts TERMINAL-COUNT (R167); the other strobe has no
effect (R202). -/
def Obligations.InboundEntriesAreTaken : Prop :=
  ∀ s u : State, s.port.resetHeld = false →
    ((s.data.inFifo = [] ∧ u = { s with port.readData := 0#16 }) ∨
      ∃ e rest, s.data.inFifo = e :: rest ∧
        (let t := { s with data.inFifo := rest, port.readData := indataWord e }
        (s.link.held = none ∧ u = t) ∨
          ∃ h, s.link.held = some h ∧
            ((∃ x, h.cause = .room ∧ s.data.session = some x ∧ s.data.paused = false ∧ rest.length < 32 ∧
                u = partTakes x h.unit t) ∨
              (h.cause = .drain ∧ rest = [] ∧ u = goTaken t) ∨
              (h.cause = .drain ∧ rest ≠ [] ∧ u = t) ∨
              (h.cause = .pause ∧ s.data.paused = true ∧ u = t) ∨
              (HeldForNaming h.cause ∧ u = t)))) →
    Answers .indataRead s u ∧
    Answers (.dackIn .read false) s u ∧
    Answers (.dackIn .read true) s { u with notice.devnotice := u.notice.devnotice ||| 0x0800#13 } ∧
    (∀ tc, exec (.dackIn .write tc) s = .next s)

/-- The writes of outbound entries by OUTDATA, OUTDATA-END and an acknowledge on the outbound pair (R146, R166): an
entry appended, or OUTBOUND-REFUSED; END-ON-TC marks the entry of an acknowledge with TC (R167); the other strobe
presents 0000H (R202). -/
def Obligations.OutboundEntriesAreWritten : Prop :=
  ∀ (s : State) (w : Word), s.port.resetHeld = false →
    (∀ h, s.link.source = .record h → s.data.outFifo.length < 32 →
      (let append := fun (mark : Bool) =>
        { s with data.outFifo := s.data.outFifo ++ [{ value := loByte w, endMark := mark }] }
      Answers (.outdata w) s (append false) ∧ Answers (.outdataEnd w) s (append true) ∧
      Answers (.dackOut .write false w) s (append false) ∧
      Answers (.dackOut .write true w) s
        { append s.port.endOnTc with notice.devnotice := s.notice.devnotice ||| 0x0800#13 })) ∧
    ((∀ h, s.link.source ≠ .record h) ∨ 32 ≤ s.data.outFifo.length →
      (let lost := { s with notice.devnotice := s.notice.devnotice ||| 0x0400#13 }
      Answers (.outdata w) s lost ∧ Answers (.outdataEnd w) s lost ∧ Answers (.dackOut .write false w) s lost ∧
      Answers (.dackOut .write true w) s { s with notice.devnotice := s.notice.devnotice ||| 0x0400#13 ||| 0x0800#13 })) ∧
    (∀ tc, exec (.dackOut .read tc w) s = .next { s with port.readData := 0#16 })

/-- A read of WINDATA is stretched exactly when its selection waits and an operation is in flight, else answered at
once; the selections that wait are those of R186. -/
def Obligations.WindataReadWaitsForTheEngine : Prop :=
  (∀ s : State, s.port.resetHeld = false →
    (s.port.select.waits = true → s.engine.flight ≠ none →
      Answers .windataRead s { s with port.stretched := some s.port.select }) ∧
    (s.port.select.waits = false ∨ s.engine.flight = none →
      Answers .windataRead s { s with port.readData := s.window s.port.select })) ∧
  (∀ x : Selection,
    (hiByte x.winsel = 0x01#8 → (x.waits = true ↔ x.winfield ∈ [0#8, 2#8, 3#8, 4#8])) ∧
    (hiByte x.winsel = 0x02#8 → (x.waits = true ↔ x.winfield ∈ [0#8, 1#8, 2#8, 3#8])) ∧
    (hiByte x.winsel = 0x03#8 → (x.waits = true ↔ x.winfield ∈ [0#8, 1#8])) ∧
    (hiByte x.winsel = 0x00#8 ∨ 0x04#8 ≤ hiByte x.winsel → x.waits = false))

/-- The writes of the port's read/write registers (R170, R178, R179, R182, R185, R191, R197, R200, R201); what their
reads present is `Obligations.RegistersAndLinesShowTheState`. A write to a register of another type or to an
unassigned location is disregarded (R185). -/
def Obligations.RegisterWritesStore : Prop :=
  ∀ (s : State) (w : Word), s.port.resetHeld = false →
    Answers (.configWrite w) s
      { s with
        port.confirmWindow := (if 250#8 < loByte w then 250#8 else loByte w)
        port.dmaIn := w.getLsbD 8
        port.dmaOut := w.getLsbD 9
        port.endOnTc := w.getLsbD 10 } ∧
    Answers (.intctlWrite w) s
      { s with
        notice.masterEnable := w.getLsbD 0
        notice.mode := (if w.getLsbD 1 then .pulse else .level)
        notice.attentionEnable := w.getLsbD 2
        notice.pulse := s.notice.pulse && w.getLsbD 1 } ∧
    Answers (.devnoticeEnableWrite w) s { s with notice.devnoticeEnable := w.setWidth 13 } ∧
    Answers (.registerWrite 0x05#5 w) s { s with port.params := s.port.params.set 0 w } ∧
    Answers (.registerWrite 0x06#5 w) s { s with port.params := s.port.params.set 1 w } ∧
    Answers (.registerWrite 0x07#5 w) s { s with port.params := s.port.params.set 2 w } ∧
    Answers (.registerWrite 0x08#5 w) s { s with port.params := s.port.params.set 3 w } ∧
    Answers (.registerWrite 0x0C#5 w) s { s with notice.noticeMask := loByte w } ∧
    Answers (.registerWrite 0x11#5 w) s { s with port.select.winsel := w } ∧
    Answers (.registerWrite 0x12#5 w) s { s with port.select.winfield := loByte w } ∧
    (∀ loc ∈ [0x00#5, 0x03#5, 0x04#5, 0x09#5, 0x0E#5, 0x0F#5, 0x10#5, 0x13#5, 0x14#5, 0x17#5, 0x18#5, 0x19#5,
        0x1A#5, 0x1B#5, 0x1C#5, 0x1D#5, 0x1E#5, 0x1F#5],
      exec (.registerWrite loc w) s = .next s)

/-! ### Control units -/

/-- The control units that the part takes at once and that open no sequence: SIGNAL, QUERY, GROUP-POLL, DROP-SOURCE,
DROP-SINKS, ASSIGN-POLL, RELEASE-POLL and the unassigned codes (R77, R78, R98, R99, R112, R119, R134, R135). -/
def Obligations.ControlUnitsTakenAtOnce : Prop :=
  ∀ s : State, Decodes s →
    (∀ c, Answers (.signal c) s (overSinks (signalled c) (unitTaken (c.setWidth 8) s))) ∧
    (∀ h, s.link.source = .record h → Answers .query s { unitTaken 0x21#8 s with link.queryArmed := true }) ∧
    ((∀ h, s.link.source ≠ .record h) → Answers .query s (unitTaken 0x21#8 s)) ∧
    (∀ g, Answers (.groupPoll g) s { unitTaken (0x28#8 + g.setWidth 8) s with link.pollGroup := g }) ∧
    Answers .dropSource s (sourceUnnamed (unitTaken 0x18#8 s)) ∧
    Answers .dropSinks s
      (s.link.sinks.foldl (fun t h => postRecord .unnamed h.slot t) { unitTaken 0x19#8 s with link.sinks := [] }) ∧
    (∀ a, Answers (.assignPoll a) s
      (overSinks (assigned a)
        (unitTaken (0x40#8 + a.group.setWidth 8 * 16#8 + (if a.polarity = .inverted then 8#8 else 0#8) + a.line.setWidth 8) s))) ∧
    Answers .releasePoll s (overSinks released (unitTaken 0x3C#8 s)) ∧
    (∀ v, WellFormed (.unassignedLinkCode v) = true → Answers (.unassignedLinkCode v) s (unitTaken v s))

/-- The control sequence (R79): an opening unit and a TAG-HI are taken at once; the TAG-LO of a naming is held for its
lookup claim (R95); that of a RETAG is resolved by the first row of R110 that applies. A tag unit is no control code. -/
def Obligations.ControlSequencesAdvance : Prop :=
  (∀ s : State, Decodes s →
    Answers .nameSource s { unitTaken 0x10#8 s with link.sequence := .awaitHi .nameSource } ∧
    Answers .nameSink s { unitTaken 0x11#8 s with link.sequence := .awaitHi .nameSink } ∧
    Answers .linkRetag s { unitTaken 0x12#8 s with link.sequence := .awaitHi .retag }) ∧
  (∀ (s : State) (v : Byte), Unoccupied s → Attends s → s.link.phase = .command →
    (∀ o, s.link.sequence = .awaitHi o →
      Answers (.tagHi v) s { unitTaken v s with link.sequence := .awaitLo o v }) ∧
    (∀ hi, s.link.sequence = .awaitLo .nameSource hi →
      Answers (.tagLo v) s
        (sendLinkClaim (.lookup .source (hi ++ v))
          (holding (controlUnit v) .lookup { offeredBy (controlUnit v) s with link.sequence := .none }))) ∧
    (∀ hi, s.link.sequence = .awaitLo .nameSink hi →
      Answers (.tagLo v) s
        (sendLinkClaim (.lookup .sink (hi ++ v))
          (holding (controlUnit v) .lookup { offeredBy (controlUnit v) s with link.sequence := .none }))) ∧
    (∀ hi u, s.link.sequence = .awaitLo .retag hi →
      RetagRow (holding (controlUnit v) .replace { offeredBy (controlUnit v) s with link.sequence := .none })
        (hi ++ v) u →
      Answers (.tagLo v) s u))

/-- GO in COMMAND phase (R75, R151, R152): held for drain while the sink list and the inbound FIFO are both not empty,
else taken with everything that begins at its take. -/
def Obligations.GoBeginsDataPhase : Prop :=
  ∀ s : State, Decodes s →
    (s.link.sinks = [] ∨ s.data.inFifo = [] → Answers .go s (goTaken (offeredBy (controlUnit 0x20#8) s))) ∧
    (s.link.sinks ≠ [] → s.data.inFifo ≠ [] →
      Answers .go s (holding (controlUnit 0x20#8) .drain (offeredBy (controlUnit 0x20#8) s)))

/-- The offers of other senders, and the takes of units that the part does not hold. An offer on a link that carries a
unit of the part is not made (log entry 2). One that the part does not attend to waits while it is ONLINE, and is
never attended to while it is OFFLINE (R82, R84, R86 to R88). The part takes no part in a control unit of DATA phase
and in a data unit outside an inbound session (R68). When it sees such a unit taken (R72, R73), a control unit is not
decoded, a data unit of COMMAND phase discards a control sequence (R80), one of DATA phase with END ends the phase,
and clear-seen clears (R86, log entry 23). A take that it does not see changes the lines alone. -/
def Obligations.OffersAndTakesOfOtherStations : Prop :=
  (∀ (s : State) (c : Instr) (u : LinkUnit), offers c = some u →
    (¬Unoccupied s → exec c s = .next s) ∧
    (Unoccupied s → ¬Attends s →
      Answers c s
        { s with
          lines.foreign := some { unit := u, standing := if s.link.online then .waiting else .ignored }
          link.reject := false }) ∧
    (Unoccupied s → Attends s →
      (u.kind = .control ∧ s.link.phase = .data) ∨
        (u.kind = .data ∧ (s.link.phase = .command ∨ s.data.session = none)) →
      Answers c s (offeredBy u s))) ∧
  (∀ (s : State) (c : Instr) (u : LinkUnit), takes c = some u →
    (¬Unoccupied s → exec c s = .next s) ∧
    (Unoccupied s → ∀ t, TakeUnseen s u t → Answers c s t) ∧
    (Unoccupied s → ∀ t, TakeSeen s u t →
      (u.kind = .control → s.link.phase = .data → Answers c s { t with link.clearSeen := false }) ∧
      (u.kind = .control → s.link.phase = .command → Answers c s t) ∧
      (u.kind = .data → s.link.phase = .command →
        Answers c s { t with link.sequence := .none, link.clearSeen := false }) ∧
      (u.kind = .data → s.link.phase = .data → s.data.session = none →
        Answers c s
          (if u.endFlag then
            { t with link.phase := .command, link.sending := false, link.clearSeen := false }
          else { t with link.clearSeen := false })) ∧
      (u.kind = .data → s.link.phase = .data → s.data.session ≠ none → Answers c s t)))

/-! ### Data units -/

/-- A data unit of an open inbound session: taken at its offer when the FIFO has room and no pause is in effect, else
held for pause or room (R153, R154, R158); a held unit is taken when both hold, and with it the part's own offer
(R159). The take is made in the command that makes both hold, so that none is due in a state that a run reaches (log
entry 4; `Obligations.StepsKeepDataChannels`). The offer of a unit outside a session is
`Obligations.OffersAndTakesOfOtherStations`. -/
def Obligations.InboundUnitsAreTaken : Prop :=
  (∀ (s : State) (x : InboundSession) (v : Byte) (e : Bool), Unoccupied s → Attends s → s.link.phase = .data →
    s.data.session = some x →
    (s.data.paused = false → s.data.inFifo.length < 32 →
      Answers (.inboundUnitOffer v e) s (received x (dataUnit v e) (offeredBy (dataUnit v e) s))) ∧
    (s.data.paused = false → 32 ≤ s.data.inFifo.length →
      Answers (.inboundUnitOffer v e) s (holding (dataUnit v e) .room (offeredBy (dataUnit v e) s))) ∧
    (s.data.paused = true →
      Answers (.inboundUnitOffer v e) s (holding (dataUnit v e) .pause (offeredBy (dataUnit v e) s)))) ∧
  (∀ (s : State) (x : InboundSession) (h : Held), s.link.held = some h → h.cause = .room ∨ h.cause = .pause →
    s.data.session = some x → s.data.paused = false → s.data.inFifo.length < 32 →
    Answers .inboundUnitTake s (partTakes x h.unit s)) ∧
  (∀ s : State, s.ChannelsFit → Answers .inboundUnitTake s s)

/-- The part offers its head outbound entry (R71, R147): with another receiver holding it, it stands offered; with no
receiver, it is taken at once (R148); in an open inbound session the part receives it too (R159, R161). -/
def Obligations.OutboundUnitsAreOffered : Prop :=
  ∀ (s u : State) (h : Handle) (e : OutEntry) (rest : List OutEntry) (b : Bool), MayOffer s → s.link.sending = true →
    s.link.source = .record h → s.data.outFifo = e :: rest →
    OwnOffered s (ownUnit (.outbound true) e.value (outboundEndFlag (s.record h.slot) e) b) u →
    Answers (.outboundUnitOffer b) s u

/-- The link take of an offered outbound unit at the release of the other stations' HOLD (R71, R148, R160); one whose
entry was flushed removes nothing (R61); while the part holds it itself the take waits (R161). -/
def Obligations.OutboundUnitsAreTaken : Prop :=
  ∀ (s : State) (o : Offered), s.link.offered = some o →
    (s.link.held = none → o.kind = .outbound true →
      Answers .outboundUnitTaken s (linkTake o.endFlag headRemoved s)) ∧
    (s.link.held = none → o.kind = .outbound false → Answers .outboundUnitTaken s (linkTake o.endFlag id s)) ∧
    (∀ b, s.link.held ≠ none → o.kind = .outbound b →
      Answers .outboundUnitTaken s { s with link.offered := some { o with otherHold := false } })

/-- The two units of a status answer, offered (R122, R123) in or out of an inbound session (R159), and taken (R122,
R124); while the part holds such a unit itself, the take waits for its own (R161). -/
def Obligations.StatusAnswerUnits : Prop :=
  (∀ (s u : State) (h : Handle) (b : Bool), MayOffer s → s.calls.answer = .status h .status →
    OwnOffered s (ownUnit .status (s.record h.slot).status false b) u → Answers (.statusUnitOffer b) s u) ∧
  (∀ (s u : State) (h : Handle) (b : Bool), MayOffer s → s.calls.answer = .status h .condition →
    OwnOffered s (ownUnit .condition (conditionByte (s.record h.slot)) true b) u →
    Answers (.conditionUnitOffer b) s u) ∧
  (∀ (s : State) (o : Offered) (h : Handle), s.link.offered = some o → s.link.held = none →
    (o.kind = .status → o.endFlag = false → (∃ next, s.calls.answer = .status h next) →
      Answers .statusUnitTaken s
        { s with
          link.offered := none
          calls.answer := if s.link.source = .record h then .status h .condition else .none }) ∧
    (o.kind = .condition → o.endFlag = true → (∃ next, s.calls.answer = .status h next) →
      Answers .conditionUnitTaken s (linkTake true (conditionTaken h (o.value.getLsbD 0)) s))) ∧
  (∀ (s : State) (o : Offered), s.link.offered = some o → s.link.held ≠ none →
    (o.kind = .status → Answers .statusUnitTaken s { s with link.offered := some { o with otherHold := false } }) ∧
    (o.kind = .condition →
      Answers .conditionUnitTaken s { s with link.offered := some { o with otherHold := false } }))

/-- The units of a roster answer, offered in or out of an inbound session (R159) and taken: the unit at the position,
END on the last, and the answer ends with the take of the unit with END (R127, R128); while the part holds such a
unit itself, the take waits for its own (R161). -/
def Obligations.RosterAnswerUnits : Prop :=
  (∀ (s u : State) (tags : List Word) (p : Nat) (v : Byte) (b : Bool), MayOffer s → s.calls.answer = .roster tags p →
    (rosterBytes tags)[p]? = some v → OwnOffered s (ownUnit .roster v (decide (p + 1 = 1 + 2 * tags.length)) b) u →
    Answers (.rosterUnitOffer b) s u) ∧
  (∀ (s : State) (o : Offered) (tags : List Word) (p : Nat), s.link.offered = some o → s.link.held = none →
    o.kind = .roster → s.calls.answer = .roster tags p →
    Answers .rosterUnitTaken s
      (linkTake o.endFlag (fun t => { t with calls.answer := if o.endFlag then .none else .roster tags (p + 1) }) s)) ∧
  (∀ (s : State) (o : Offered), s.link.offered = some o → s.link.held ≠ none → o.kind = .roster →
    Answers .rosterUnitTaken s { s with link.offered := some { o with otherHold := false } })

/-! ### Lines of the link -/

/-- The withdrawal of OFFER drops REJECT (R70), unless the part still holds the unit (log entry 29); PLQ is asserted
(R82); and the release of PLQ, STOP or CLEAR: with an offer that waits, and the part attending again, the unit is
treated as offered at that moment; otherwise the line alone changes (R82, R84, R86). -/
def Obligations.WithdrawalsAndReleases : Prop :=
  (∀ s : State, s.link.held = none →
    Answers .offerWithdrawn s { s with lines.foreign := none, link.reject := false }) ∧
  (∀ s : State, s.link.held ≠ none → exec .offerWithdrawn s = .next s) ∧
  (∀ s : State, Answers .plqAsserted s { s with lines.plq := true }) ∧
  (∀ s : State,
    ((∀ f, s.lines.foreign = some f → f.standing ≠ .waiting) ∨ ¬Attends { s with lines.plq := false } →
      Answers .plqReleased s { s with lines.plq := false }) ∧
    ((∀ f, s.lines.foreign = some f → f.standing ≠ .waiting) ∨ ¬Attends { s with lines.stop := false } →
      Answers .stopReleased s { s with lines.stop := false }) ∧
    ((∀ f, s.lines.foreign = some f → f.standing ≠ .waiting) ∨ ¬Attends { s with lines.clear := false } →
      Answers .clearReleased s { s with lines.clear := false })) ∧
  (∀ (s : State) (c : Instr) (u : LinkUnit), offers c = some u → Unoccupied s → s.link.reject = false →
    s.lines.foreign = some { unit := u, standing := .waiting } →
    (Attends { s with lines.plq := false } → exec .plqReleased s = exec c { s with lines.plq := false }) ∧
    (Attends { s with lines.stop := false } → exec .stopReleased s = exec c { s with lines.stop := false }) ∧
    (Attends { s with lines.clear := false } → exec .clearReleased s = exec c { s with lines.clear := false }))

/-- STOP and CLEAR asserted while ONLINE (R83, R85, R107, R125, R129, R162, R163), and while OFFLINE (R84, R86). -/
def Obligations.StopAndClear : Prop :=
  ∀ s : State,
    (s.link.online = true →
      Answers .stopAsserted s
        { linkAbandoned s with
          lines.stop := true
          lines.foreign := none
          notice.devnotice :=
            if s.data.session.isSome then (linkAbandoned s).notice.devnotice ||| 0x0002#13
            else (linkAbandoned s).notice.devnotice } ∧
      Answers .clearAsserted s
        { namingEmptied (linkAbandoned s) with
          lines.clear := true
          lines.foreign := none
          link.clearSeen := true
          notice.devnotice := (linkAbandoned s).notice.devnotice ||| 0x0001#13 }) ∧
    (s.link.online = false →
      Answers .stopAsserted s { s with lines.stop := true, lines.foreign := none } ∧
      Answers .clearAsserted s { s with lines.clear := true, lines.foreign := none })

/-! ### Completions of directory operations -/

/-- The lookup of a NAME-SOURCE completes (R96): step 1 un-names the source unless the result is the current source,
then the first row that applies; a discarded result is handed to no one (R35). -/
def Obligations.NameSourceIsResolved : Prop :=
  ∀ (s : State) (tag : Word),
    (s.engine.flight = some (.link (.lookup .source tag) false) →
      (∀ u, IsCurrentSource s (lookupTag tag s.directory) → SourceRow s s (lookupTag tag s.directory) u →
        Answers .nameSourceLookupComplete s (finishOperation u)) ∧
      (∀ u, ¬IsCurrentSource s (lookupTag tag s.directory) →
        SourceRow s (sourceUnnamed s) (lookupTag tag s.directory) u →
        Answers .nameSourceLookupComplete s (finishOperation u))) ∧
    (s.engine.flight = some (.link (.lookup .source tag) true) →
      Answers .nameSourceLookupComplete s (finishOperation s))

/-- The lookup of a NAME-SINK completes (R97); a discarded result is handed to no one (R35). -/
def Obligations.NameSinkIsResolved : Prop :=
  ∀ (s : State) (tag : Word),
    (s.engine.flight = some (.link (.lookup .sink tag) false) →
      ∀ u, SinkRow s (lookupTag tag s.directory) u → Answers .nameSinkLookupComplete s (finishOperation u)) ∧
    (s.engine.flight = some (.link (.lookup .sink tag) true) →
      Answers .nameSinkLookupComplete s (finishOperation s))

/-- The replace of a director RETAG completes (R111): the tag changes in the record and in the entry with RETAGGED, or
the unit is refused; a discarded replace stands, and takes or refuses nothing (R35). -/
def Obligations.LinkRetagReplaceCompletes : Prop :=
  ∀ (s : State) (i : Slot) (tag : Word) (d : List Entry) (discarded : Bool),
    s.engine.flight = some (.link (.replace i tag) discarded) →
    (replaceEntry (.primary i) tag s.directory = .made d →
      (let t := postRecord .retagged i ({ s with directory := d }.updRecord i fun r => { r with primaryTag := tag })
      Answers .linkRetagReplaceComplete s (finishOperation (if discarded then t else taken t)))) ∧
    (replaceEntry (.primary i) tag s.directory = .failed .tagTaken →
      Answers .linkRetagReplaceComplete s (finishOperation (if discarded then s else refused s)))

/-- The insert of a CREATE completes (R14, R45, R46), and the remove of a RETIRE (R11, R15, R51). -/
def Obligations.CreateAndRetireComplete : Prop :=
  (∀ (s : State) (i : Slot) (params : Vector Word 4) (es : List Entry),
    s.request = some { kind := .create i, params := params } → s.engine.flight = some (.request (.insert es)) →
    (∀ d, insertEntries es s.directory = .made d →
      Answers .createInsertComplete s
        (finishOperation
          (endRequest .ok (s.handleOf i).word
            ({ s with directory := d }.updRecord i fun r => { r with state := .active })))) ∧
    (∀ r, insertEntries es s.directory = .failed r →
      Answers .createInsertComplete s
        (finishOperation
          (endRequest r 0xFFFF#16
            ({ s with freeList := i :: s.freeList }.updRecord i fun x => Record.cleared x.generation))))) ∧
  (∀ (s : State) (i : Slot) (params : Vector Word 4) (what : Designation),
    s.request = some { kind := .retire i, params := params } → s.engine.flight = some (.request (.remove what)) →
    Answers .retireRemoveComplete s
      (finishOperation
        (endRequest .ok (params.get 0)
          ({ s with
             directory := removeEntries what s.directory
             freeList := s.freeList ++ [i] }.updRecord i fun x => Record.cleared (x.generation + 1#8)))))

/-- The completions of a host RETAG (R53), a SET-ALIAS (R55) and a CLEAR-ALIAS (R56): the record's tag with the
directory, or the request's failure with both as they were. -/
def Obligations.TagRequestsComplete : Prop :=
  ∀ (s : State) (i : Slot) (params : Vector Word 4),
    (∀ tag, s.request = some { kind := .retag i, params := params } →
      s.engine.flight = some (.request (.replace (.primary i) tag)) →
      (∀ d, replaceEntry (.primary i) tag s.directory = .made d →
        Answers .retagReplaceComplete s
          (finishOperation
            (endRequest .ok (params.get 0)
              (postRecord .retagged i
                ({ s with directory := d }.updRecord i fun r => { r with primaryTag := params.get 1 }))))) ∧
      (∀ r, replaceEntry (.primary i) tag s.directory = .failed r →
        Answers .retagReplaceComplete s (finishOperation (endRequest r 0xFFFF#16 s)))) ∧
    (∀ op, s.request = some { kind := .setAlias i, params := params } → s.engine.flight = some (.request op) →
      (∀ d, (∃ es, op = .insert es ∧ insertEntries es s.directory = .made d) ∨
          (∃ tag, op = .replace (.aliasOf i) tag ∧ replaceEntry (.aliasOf i) tag s.directory = .made d) →
        Answers .setAliasComplete s
          (finishOperation
            (endRequest .ok (params.get 0)
              ({ s with directory := d }.updRecord i fun r => { r with aliasTag := some (params.get 1) })))) ∧
      (∀ r, (∃ es, op = .insert es ∧ insertEntries es s.directory = .failed r) ∨
          (∃ tag, op = .replace (.aliasOf i) tag ∧ replaceEntry (.aliasOf i) tag s.directory = .failed r) →
        Answers .setAliasComplete s (finishOperation (endRequest r 0xFFFF#16 s)))) ∧
    (∀ what, s.request = some { kind := .clearAlias i, params := params } →
      s.engine.flight = some (.request (.remove what)) →
      Answers .clearAliasComplete s
        (finishOperation
          (endRequest .ok (params.get 0)
            ({ s with directory := removeEntries what s.directory }.updRecord i fun r =>
              { r with aliasTag := none }))))

/-- The completions of a FIND (R39) and a SET-MANAGEMENT-TAG (R40). -/
def Obligations.FindAndManagementTagComplete : Prop :=
  ∀ (s : State) (params : Vector Word 4),
    (∀ tag, s.request = some { kind := .find, params := params } →
      s.engine.flight = some (.request (.lookup tag)) →
      (∀ i, lookupTag tag s.directory = some (.primary i) ∨ lookupTag tag s.directory = some (.aliasOf i) →
        Answers .findLookupComplete s (finishOperation (endRequest .ok (s.handleOf i).word s))) ∧
      (lookupTag tag s.directory = some .management →
        Answers .findLookupComplete s (finishOperation (endRequest .ok 0xFFFE#16 s))) ∧
      (lookupTag tag s.directory = none →
        Answers .findLookupComplete s (finishOperation (endRequest .notFound 0xFFFF#16 s)))) ∧
    (∀ op, s.request = some { kind := .setManagementTag, params := params } →
      s.engine.flight = some (.request op) →
      (∀ d, (∃ es, op = .insert es ∧ insertEntries es s.directory = .made d) ∨
          (∃ tag, op = .replace .management tag ∧ replaceEntry .management tag s.directory = .made d) ∨
          (op = .remove .managementEntry ∧ removeEntries .managementEntry s.directory = d) →
        Answers .setManagementTagComplete s
          (finishOperation
            (endRequest .ok (if params.get 0 = 0#16 then 0xFFFF#16 else 0xFFFE#16)
              { s with directory := d, managementTag := tagIn (params.get 0) }))) ∧
      (∀ r, (∃ es, op = .insert es ∧ insertEntries es s.directory = .failed r) ∨
          (∃ tag, op = .replace .management tag ∧ replaceEntry .management tag s.directory = .failed r) →
        Answers .setManagementTagComplete s (finishOperation (endRequest r 0xFFFF#16 s))))

/-! ### What the host and the link see -/

/-- The interrupt condition (R180), INT in LEVEL mode (R181) and in PULSE mode (R182): an armed unit with a true
condition and no pulse in progress starts one and disarms; a pulse ends, and the end starts the next when due. That a
pulse ends as a command is the model's choice (log entry 7), that the command changes nothing with no pulse in progress
too (log entry 1), and that the condition is evaluated at the end of a command (log entry 16). -/
def Obligations.InterruptOutput : Prop :=
  (∀ s : State,
    interruptCondition s = true ↔
      s.notice.masterEnable = true ∧
        ((s.notice.attentionEnable = true ∧ s.notice.attention ≠ []) ∨
          s.notice.devnotice &&& s.notice.devnoticeEnable ≠ 0#13)) ∧
  (∀ s : State, s.notice.mode = .level → s.int = interruptCondition s ∧ startPulse s = s) ∧
  (∀ s : State, s.notice.mode = .pulse → s.int = s.notice.pulse) ∧
  (∀ s : State, s.notice.mode = .pulse → s.notice.armed = true → s.notice.pulse = false →
    interruptCondition s = true → startPulse s = { s with notice.armed := false, notice.pulse := true }) ∧
  (∀ s : State, s.notice.armed = false ∨ s.notice.pulse = true ∨ interruptCondition s = false → startPulse s = s) ∧
  (∀ s : State, s.notice.pulse = true → Answers .intPulseEnd s { s with notice.pulse := false }) ∧
  (∀ s : State, s.notice.pulse = false → exec .intPulseEnd s = .next s)

/-- STATUS, bit by bit (R188). -/
def Obligations.StatusShowsTenConditions : Prop :=
  (∀ s : State, s.port.resetHeld = false → s.readLocation 0x00#5 = s.statusWord) ∧
  (∀ s : State,
    (s.statusWord.getLsbD 0 = true ↔ s.link.online = true) ∧
    (s.statusWord.getLsbD 1 = true ↔ s.link.phase = .data) ∧
    (s.statusWord.getLsbD 2 = true ↔ s.request ≠ none) ∧
    (s.statusWord.getLsbD 3 = true ↔ s.engine.flight ≠ none) ∧
    (s.statusWord.getLsbD 4 = true ↔ s.link.confirm ≠ none) ∧
    (s.statusWord.getLsbD 5 = true ↔ s.data.paused = true) ∧
    (s.statusWord.getLsbD 6 = true ↔ ∃ h, s.link.source = .record h) ∧
    (s.statusWord.getLsbD 7 = true ↔ s.data.session ≠ none) ∧
    (s.statusWord.getLsbD 8 = true ↔ s.link.clearSeen = true) ∧
    (s.statusWord.getLsbD 9 = true ↔ s.lines.plq = true) ∧
    (∀ n, 10 ≤ n → s.statusWord.getLsbD n = false)) ∧
  (∀ n, n < 9 → State.reset.statusWord.getLsbD n = false)

/-- The answer to a group poll (R81, R140): DATA line l is driven exactly while PLQ is asserted, the phase is COMMAND,
the part is ONLINE, it offers no unit and the counter of the selected group and line l is not 0; while it does not
answer it drives none. STATUS PLQ shows the line whether or not the part answers. -/
def Obligations.PollLinesFollowTheCounters : Prop :=
  ∀ s : State,
    (∀ l : BitVec 3,
      s.pollLines.getLsbD l.toNat = true ↔
        (s.lines.plq = true ∧ s.link.phase = .command ∧ s.link.online = true ∧ s.link.offered = none) ∧
          Counters.at s.counters (s.link.pollGroup ++ l) ≠ 0) ∧
    (¬(s.lines.plq = true ∧ s.link.phase = .command ∧ s.link.online = true ∧ s.link.offered = none) →
      s.pollLines = 0#8) ∧
    (s.statusWord.getLsbD 9 = true ↔ s.lines.plq = true)

/-- What a read of each register presents (R91, R145, R150, R173, R175, R178, R179, R185, R191, R192, R197, R200, R201),
and the lines SVC (R114), DREQ-IN (R165) and DREQ-OUT (R166). For the registers whose read has an effect or may be
stretched it is the word of a read that is answered at once. -/
def Obligations.RegistersAndLinesShowTheState : Prop :=
  (∀ s : State, s.port.resetHeld = false →
    s.readLocation 0x03#5 = s.port.result ∧ s.readLocation 0x04#5 = s.port.resultValue ∧
    s.readLocation 0x05#5 = s.port.params.get 0 ∧ s.readLocation 0x06#5 = s.port.params.get 1 ∧
    s.readLocation 0x07#5 = s.port.params.get 2 ∧ s.readLocation 0x08#5 = s.port.params.get 3 ∧
    s.readLocation 0x09#5 = s.notice.devnotice.setWidth 16 ∧
    s.readLocation 0x0A#5 = s.notice.devnoticeEnable.setWidth 16 ∧
    ((s.readLocation 0x0B#5).getLsbD 0 = s.notice.masterEnable ∧
      ((s.readLocation 0x0B#5).getLsbD 1 = true ↔ s.notice.mode = .pulse) ∧
      (s.readLocation 0x0B#5).getLsbD 2 = s.notice.attentionEnable ∧
      (s.readLocation 0x0B#5).getLsbD 3 = s.notice.armed ∧
      ∀ n, 4 ≤ n → (s.readLocation 0x0B#5).getLsbD n = false) ∧
    s.readLocation 0x0C#5 = s.notice.noticeMask.setWidth 16 ∧
    (loByte (s.readLocation 0x0D#5) = s.port.confirmWindow ∧
      (s.readLocation 0x0D#5).getLsbD 8 = s.port.dmaIn ∧ (s.readLocation 0x0D#5).getLsbD 9 = s.port.dmaOut ∧
      (s.readLocation 0x0D#5).getLsbD 10 = s.port.endOnTc ∧
      ∀ n, 11 ≤ n → (s.readLocation 0x0D#5).getLsbD n = false) ∧
    s.readLocation 0x0E#5 = (match s.notice.attention with | [] => 0xFFFF#16 | h :: _ => h.word) ∧
    s.readLocation 0x0F#5 = s.notice.attnKinds.setWidth 16 ∧ s.readLocation 0x10#5 = s.notice.attnSignals ∧
    s.readLocation 0x11#5 = s.port.select.winsel ∧ s.readLocation 0x12#5 = s.port.select.winfield.setWidth 16 ∧
    s.readLocation 0x13#5 = s.window s.port.select ∧
    s.readLocation 0x14#5 = (match s.data.inFifo with | [] => 0#16 | e :: _ => indataWord e) ∧
    s.readLocation 0x17#5 =
      (match s.link.source with | .none => 0xFFFF#16 | .record h => h.word | .management => 0xFFFE#16) ∧
    s.readLocation 0x18#5 = (match s.data.session with | none => 0xFFFF#16 | some x => x.lead.word) ∧
    s.readLocation 0x19#5 = BitVec.ofNat 16 s.data.inFifo.length ∧
    s.readLocation 0x1A#5 = BitVec.ofNat 16 s.data.outFifo.length ∧
    (∀ loc ∈ [0x01#5, 0x02#5, 0x15#5, 0x16#5, 0x1B#5, 0x1C#5, 0x1D#5, 0x1E#5, 0x1F#5], s.readLocation loc = 0#16)) ∧
  (∀ s : State,
    (s.svc = true ↔ s.link.online = true ∧ s.calls.queue ≠ []) ∧
    (s.dreqIn = true ↔ s.port.dmaIn = true ∧ s.data.inFifo ≠ []) ∧
    (s.dreqOut = true ↔
      s.port.dmaOut = true ∧ (∃ h, s.link.source = .record h) ∧ s.data.outFifo.length < 32))

/-- The fields of the six objects of the window, by object code, index and field number, and 0000H outside (R197 to
R199), with the link role of a record, which mirrors the naming state (R17): SOURCE while it is the part source, SINK
with its position in the sink list, else NONE. -/
def Obligations.WindowShowsSelectedField : Prop :=
  (∀ (s : State) (i : Slot),
    (s.role i = .source ↔ s.link.source = .record (s.handleOf i)) ∧
    (∀ p, s.role i = .sink p ↔
      s.link.source ≠ .record (s.handleOf i) ∧ s.link.sinks[p]? = some (s.handleOf i) ∧
        ∀ q, q < p → s.link.sinks[q]? ≠ some (s.handleOf i)) ∧
    (s.role i = .none ↔ s.link.source ≠ .record (s.handleOf i) ∧ s.handleOf i ∉ s.link.sinks)) ∧
  (∀ (s : State) (code index field : Byte),
    (let value := s.window { winsel := code ++ index, winfield := field }
    let list := fun (l : List Word) =>
      value = match l[index.toNat]? with
        | none => 0#16
        | some w => if field = 0#8 then 1#16 else if field = 1#8 then w else 0#16
    (code = 0x01#8 → ∀ i : Slot, i.val = index.toNat →
      (let r := s.record i
      value =
        if field = 0#8 then
          (match r.state with | .free => 0#16 | .pending => 1#16 | .active => 2#16 | .suspended => 3#16 | .retiring => 4#16)
        else if field = 1#8 then r.generation.setWidth 16
        else if field = 2#8 then (s.handleOf i).word
        else if field = 3#8 then r.primaryTag
        else if field = 4#8 then r.aliasTag.getD 0#16
        else if field = 5#8 then r.options.setWidth 16
        else if field = 6#8 then (r.endChar.getD 0#8).setWidth 16
        else if field = 7#8 then r.status.setWidth 16
        else if field = 8#8 then (if r.call = .calling then 1#16 else 0#16)
        else if field = 9#8 then (if r.hostFlag then 1#16 else 0#16)
        else if field = 10#8 then
          (match r.poll with
           | none => 0#16
           | some a =>
             0x40#16 + a.group.setWidth 16 * 16#16 + (if a.polarity = .inverted then 8#16 else 0#16) + a.line.setWidth 16)
        else if field = 11#8 then
          (match s.role i with
           | .none => 0x0000#16
           | .source => 0x0001#16
           | .sink p => 0x0100#16 + BitVec.ofNat 16 p)
        else if field = 12#8 then r.notices.setWidth 16
        else if field = 13#8 then r.signals
        else 0#16)) ∧
    (code = 0x01#8 → 192 ≤ index.toNat → value = 0#16) ∧
    (code = 0x02#8 →
      value = match s.directory[index.toNat]? with
        | none => 0#16
        | some e =>
          if field = 0#8 then 1#16
          else if field = 1#8 then e.tag
          else if field = 2#8 then
            (match e.owner with | .primary _ => 1#16 | .aliasOf _ => 2#16 | .management => 3#16)
          else if field = 3#8 then
            (match ownerSlot e.owner with | none => 0xFFFE#16 | some i => (s.handleOf i).word)
          else 0#16) ∧
    (code = 0x03#8 → list (s.freeList.map fun i => BitVec.ofNat 16 i.val)) ∧
    (code = 0x04#8 → list (s.link.sinks.map Handle.word)) ∧
    (code = 0x05#8 → list (s.calls.queue.map Handle.word)) ∧
    (code = 0x06#8 → list (s.notice.attention.map Handle.word)) ∧
    (code = 0x00#8 ∨ 0x07#8 ≤ code → value = 0#16)))

/-! ### Invariants -/

/-- Every step keeps each assertion counter at the number of records that drive there (R133). -/
def Obligations.StepsKeepCounters : Prop := ∀ s t : State, s.CountersFit → step s = .next t → t.CountersFit

/-- Every step keeps both FIFOs within 32 entries; and every step keeps the sessions and the holds of the Data Channels
(`State.ChannelsFit`): the outbound FIFO empty while the source is no record (R145), an inbound session open only
ONLINE in DATA phase (R150), a pause in effect only in an open session (R154), and no data unit or GO held that is
due to be taken (R151, R153). -/
def Obligations.StepsKeepDataChannels : Prop :=
  (∀ s t : State, s.FifosFit → step s = .next t → t.FifosFit) ∧
  (∀ s t : State, s.ChannelsFit → step s = .next t → t.ChannelsFit)

/-- Every step leaves no pulse due: in PULSE mode an armed unit with a true condition has a pulse in progress
(R182, R183). -/
def Obligations.StepsKeepPulseSettled : Prop :=
  ∀ s t : State, s.PulseSettled → step s = .next t → t.PulseSettled

/-- Every step keeps the tables coherent: records bound to their states (R5), PENDING and RETIRING slots to their
requests (R8), the free list (R12), the directory ordered (R23) and in agreement with the records (R24), the engine
and its claims (R26, R32, R33), the held unit (R69), the naming state (R90), the call queue (R114) and the attention
list (R172). -/
def Obligations.StepsKeepTablesCoherent : Prop := ∀ s t : State, s.Coherent → step s = .next t → t.Coherent

/-- The five invariants hold after reset. -/
def Obligations.ResetIsCoherent : Prop :=
  State.reset.Coherent ∧ State.reset.CountersFit ∧ State.reset.FifosFit ∧ State.reset.ChannelsFit ∧
    State.reset.PulseSettled

end
end

