-- ==== Sys2Proof/Laws/State.lean ====
section
/-! SUPPORT. What each shared update leaves as it was, one lemma per block of the state, so that no proof unfolds
a record update; and what a slot reads after a change to a slot. -/

namespace Sys2Proof.Machine

/-! ### Records -/

/-- A slot of a state written as a record of its blocks. -/
@[simp] theorem State.record_mk (rs : Vector Record Config.slotCount) (fl : List Slot) (d : List Entry)
    (m : Option Word) (e : Engine) (q : Option Request) (l : LinkResponder) (c : CallUnit) (k : Vector Nat 32)
    (x : DataChannels) (n : NoticeUnit) (p : BusPort) (w : LinkLines) (c' : List Instr) (i : Slot) :
    State.record ⟨rs, fl, d, m, e, q, l, c, k, x, n, p, w, c'⟩ i = rs.get i := rfl

/-- A slot of the table is the record there. -/
@[simp] theorem State.records_get (s : State) (i : Slot) : s.records.get i = s.record i := rfl

@[simp] theorem State.setRecord_freeList (i : Slot) (r : Record) (s : State) : (s.setRecord i r).freeList = s.freeList := rfl
@[simp] theorem State.setRecord_directory (i : Slot) (r : Record) (s : State) : (s.setRecord i r).directory = s.directory := rfl
@[simp] theorem State.setRecord_managementTag (i : Slot) (r : Record) (s : State) : (s.setRecord i r).managementTag = s.managementTag := rfl
@[simp] theorem State.setRecord_engine (i : Slot) (r : Record) (s : State) : (s.setRecord i r).engine = s.engine := rfl
@[simp] theorem State.setRecord_request (i : Slot) (r : Record) (s : State) : (s.setRecord i r).request = s.request := rfl
@[simp] theorem State.setRecord_link (i : Slot) (r : Record) (s : State) : (s.setRecord i r).link = s.link := rfl
@[simp] theorem State.setRecord_calls (i : Slot) (r : Record) (s : State) : (s.setRecord i r).calls = s.calls := rfl
@[simp] theorem State.setRecord_data (i : Slot) (r : Record) (s : State) : (s.setRecord i r).data = s.data := rfl
@[simp] theorem State.setRecord_notice (i : Slot) (r : Record) (s : State) : (s.setRecord i r).notice = s.notice := rfl
@[simp] theorem State.setRecord_port (i : Slot) (r : Record) (s : State) : (s.setRecord i r).port = s.port := rfl
@[simp] theorem State.setRecord_lines (i : Slot) (r : Record) (s : State) : (s.setRecord i r).lines = s.lines := rfl
@[simp] theorem State.setRecord_pending (i : Slot) (r : Record) (s : State) : (s.setRecord i r).pending = s.pending := rfl

@[simp] theorem State.updRecord_freeList (i : Slot) (f : Record → Record) (s : State) : (s.updRecord i f).freeList = s.freeList := rfl
@[simp] theorem State.updRecord_directory (i : Slot) (f : Record → Record) (s : State) : (s.updRecord i f).directory = s.directory := rfl
@[simp] theorem State.updRecord_managementTag (i : Slot) (f : Record → Record) (s : State) : (s.updRecord i f).managementTag = s.managementTag := rfl
@[simp] theorem State.updRecord_engine (i : Slot) (f : Record → Record) (s : State) : (s.updRecord i f).engine = s.engine := rfl
@[simp] theorem State.updRecord_request (i : Slot) (f : Record → Record) (s : State) : (s.updRecord i f).request = s.request := rfl
@[simp] theorem State.updRecord_link (i : Slot) (f : Record → Record) (s : State) : (s.updRecord i f).link = s.link := rfl
@[simp] theorem State.updRecord_calls (i : Slot) (f : Record → Record) (s : State) : (s.updRecord i f).calls = s.calls := rfl
@[simp] theorem State.updRecord_data (i : Slot) (f : Record → Record) (s : State) : (s.updRecord i f).data = s.data := rfl
@[simp] theorem State.updRecord_notice (i : Slot) (f : Record → Record) (s : State) : (s.updRecord i f).notice = s.notice := rfl
@[simp] theorem State.updRecord_port (i : Slot) (f : Record → Record) (s : State) : (s.updRecord i f).port = s.port := rfl
@[simp] theorem State.updRecord_lines (i : Slot) (f : Record → Record) (s : State) : (s.updRecord i f).lines = s.lines := rfl
@[simp] theorem State.updRecord_pending (i : Slot) (f : Record → Record) (s : State) : (s.updRecord i f).pending = s.pending := rfl

/-- A slot reads what was put into it; every other slot reads as before. -/
@[simp] theorem State.record_setRecord (s : State) (i j : Slot) (r : Record) :
    (s.setRecord i r).record j = if i = j then r else s.record j := by
  simp [State.record, State.setRecord, Vector.get_eq_getElem, Vector.getElem_set, Fin.ext_iff]

/-- A slot reads its changed fields; every other slot reads as before. -/
@[simp] theorem State.record_updRecord (s : State) (i j : Slot) (f : Record → Record) :
    (s.updRecord i f).record j = if i = j then f (s.record i) else s.record j := by
  simp [State.updRecord]

/-- The counters follow the drive of the slot that changes. -/
theorem State.setRecord_counters (s : State) (i : Slot) (r : Record) :
    (s.setRecord i r).counters = driveUpdate (s.record i).drive r.drive s.counters := rfl

/-! ### Notices, results and the bus -/

@[simp] theorem postDevice_records (n : DeviceNotice) (s : State) : (postDevice n s).records = s.records := rfl
@[simp] theorem postDevice_freeList (n : DeviceNotice) (s : State) : (postDevice n s).freeList = s.freeList := rfl
@[simp] theorem postDevice_directory (n : DeviceNotice) (s : State) : (postDevice n s).directory = s.directory := rfl
@[simp] theorem postDevice_managementTag (n : DeviceNotice) (s : State) : (postDevice n s).managementTag = s.managementTag := rfl
@[simp] theorem postDevice_engine (n : DeviceNotice) (s : State) : (postDevice n s).engine = s.engine := rfl
@[simp] theorem postDevice_request (n : DeviceNotice) (s : State) : (postDevice n s).request = s.request := rfl
@[simp] theorem postDevice_link (n : DeviceNotice) (s : State) : (postDevice n s).link = s.link := rfl
@[simp] theorem postDevice_calls (n : DeviceNotice) (s : State) : (postDevice n s).calls = s.calls := rfl
@[simp] theorem postDevice_counters (n : DeviceNotice) (s : State) : (postDevice n s).counters = s.counters := rfl
@[simp] theorem postDevice_data (n : DeviceNotice) (s : State) : (postDevice n s).data = s.data := rfl
@[simp] theorem postDevice_port (n : DeviceNotice) (s : State) : (postDevice n s).port = s.port := rfl
@[simp] theorem postDevice_lines (n : DeviceNotice) (s : State) : (postDevice n s).lines = s.lines := rfl
@[simp] theorem postDevice_pending (n : DeviceNotice) (s : State) : (postDevice n s).pending = s.pending := rfl

@[simp] theorem startPulse_records (s : State) : (startPulse s).records = s.records := by unfold startPulse; split <;> rfl
@[simp] theorem startPulse_freeList (s : State) : (startPulse s).freeList = s.freeList := by unfold startPulse; split <;> rfl
@[simp] theorem startPulse_directory (s : State) : (startPulse s).directory = s.directory := by unfold startPulse; split <;> rfl
@[simp] theorem startPulse_managementTag (s : State) : (startPulse s).managementTag = s.managementTag := by unfold startPulse; split <;> rfl
@[simp] theorem startPulse_engine (s : State) : (startPulse s).engine = s.engine := by unfold startPulse; split <;> rfl
@[simp] theorem startPulse_request (s : State) : (startPulse s).request = s.request := by unfold startPulse; split <;> rfl
@[simp] theorem startPulse_link (s : State) : (startPulse s).link = s.link := by unfold startPulse; split <;> rfl
@[simp] theorem startPulse_calls (s : State) : (startPulse s).calls = s.calls := by unfold startPulse; split <;> rfl
@[simp] theorem startPulse_counters (s : State) : (startPulse s).counters = s.counters := by unfold startPulse; split <;> rfl
@[simp] theorem startPulse_data (s : State) : (startPulse s).data = s.data := by unfold startPulse; split <;> rfl
@[simp] theorem startPulse_port (s : State) : (startPulse s).port = s.port := by unfold startPulse; split <;> rfl
@[simp] theorem startPulse_lines (s : State) : (startPulse s).lines = s.lines := by unfold startPulse; split <;> rfl
@[simp] theorem startPulse_pending (s : State) : (startPulse s).pending = s.pending := by unfold startPulse; split <;> rfl

@[simp] theorem postRecord_freeList (k : NoticeKind) (i : Slot) (s : State) : (postRecord k i s).freeList = s.freeList := by
  unfold postRecord; dsimp only; split; · rfl
  split <;> rfl
@[simp] theorem postRecord_directory (k : NoticeKind) (i : Slot) (s : State) : (postRecord k i s).directory = s.directory := by
  unfold postRecord; dsimp only; split; · rfl
  split <;> rfl
@[simp] theorem postRecord_managementTag (k : NoticeKind) (i : Slot) (s : State) : (postRecord k i s).managementTag = s.managementTag := by
  unfold postRecord; dsimp only; split; · rfl
  split <;> rfl
@[simp] theorem postRecord_engine (k : NoticeKind) (i : Slot) (s : State) : (postRecord k i s).engine = s.engine := by
  unfold postRecord; dsimp only; split; · rfl
  split <;> rfl
@[simp] theorem postRecord_request (k : NoticeKind) (i : Slot) (s : State) : (postRecord k i s).request = s.request := by
  unfold postRecord; dsimp only; split; · rfl
  split <;> rfl
@[simp] theorem postRecord_link (k : NoticeKind) (i : Slot) (s : State) : (postRecord k i s).link = s.link := by
  unfold postRecord; dsimp only; split; · rfl
  split <;> rfl
@[simp] theorem postRecord_calls (k : NoticeKind) (i : Slot) (s : State) : (postRecord k i s).calls = s.calls := by
  unfold postRecord; dsimp only; split; · rfl
  split <;> rfl
@[simp] theorem postRecord_data (k : NoticeKind) (i : Slot) (s : State) : (postRecord k i s).data = s.data := by
  unfold postRecord; dsimp only; split; · rfl
  split <;> rfl
@[simp] theorem postRecord_port (k : NoticeKind) (i : Slot) (s : State) : (postRecord k i s).port = s.port := by
  unfold postRecord; dsimp only; split; · rfl
  split <;> rfl
@[simp] theorem postRecord_lines (k : NoticeKind) (i : Slot) (s : State) : (postRecord k i s).lines = s.lines := by
  unfold postRecord; dsimp only; split; · rfl
  split <;> rfl
@[simp] theorem postRecord_pending (k : NoticeKind) (i : Slot) (s : State) : (postRecord k i s).pending = s.pending := by
  unfold postRecord; dsimp only; split; · rfl
  split <;> rfl

@[simp] theorem endRequest_records (r : ResultCode) (v : Word) (s : State) : (endRequest r v s).records = s.records := rfl
@[simp] theorem endRequest_freeList (r : ResultCode) (v : Word) (s : State) : (endRequest r v s).freeList = s.freeList := rfl
@[simp] theorem endRequest_directory (r : ResultCode) (v : Word) (s : State) : (endRequest r v s).directory = s.directory := rfl
@[simp] theorem endRequest_managementTag (r : ResultCode) (v : Word) (s : State) : (endRequest r v s).managementTag = s.managementTag := rfl
@[simp] theorem endRequest_engine (r : ResultCode) (v : Word) (s : State) : (endRequest r v s).engine = s.engine := rfl
@[simp] theorem endRequest_link (r : ResultCode) (v : Word) (s : State) : (endRequest r v s).link = s.link := rfl
@[simp] theorem endRequest_calls (r : ResultCode) (v : Word) (s : State) : (endRequest r v s).calls = s.calls := rfl
@[simp] theorem endRequest_counters (r : ResultCode) (v : Word) (s : State) : (endRequest r v s).counters = s.counters := rfl
@[simp] theorem endRequest_data (r : ResultCode) (v : Word) (s : State) : (endRequest r v s).data = s.data := rfl
@[simp] theorem endRequest_lines (r : ResultCode) (v : Word) (s : State) : (endRequest r v s).lines = s.lines := rfl
@[simp] theorem endRequest_pending (r : ResultCode) (v : Word) (s : State) : (endRequest r v s).pending = s.pending := rfl

@[simp] theorem failRequest_records (r : ResultCode) (s : State) : (failRequest r s).records = s.records := rfl
@[simp] theorem failRequest_freeList (r : ResultCode) (s : State) : (failRequest r s).freeList = s.freeList := rfl
@[simp] theorem failRequest_directory (r : ResultCode) (s : State) : (failRequest r s).directory = s.directory := rfl
@[simp] theorem failRequest_managementTag (r : ResultCode) (s : State) : (failRequest r s).managementTag = s.managementTag := rfl
@[simp] theorem failRequest_engine (r : ResultCode) (s : State) : (failRequest r s).engine = s.engine := rfl
@[simp] theorem failRequest_link (r : ResultCode) (s : State) : (failRequest r s).link = s.link := rfl
@[simp] theorem failRequest_calls (r : ResultCode) (s : State) : (failRequest r s).calls = s.calls := rfl
@[simp] theorem failRequest_counters (r : ResultCode) (s : State) : (failRequest r s).counters = s.counters := rfl
@[simp] theorem failRequest_data (r : ResultCode) (s : State) : (failRequest r s).data = s.data := rfl
@[simp] theorem failRequest_lines (r : ResultCode) (s : State) : (failRequest r s).lines = s.lines := rfl
@[simp] theorem failRequest_pending (r : ResultCode) (s : State) : (failRequest r s).pending = s.pending := rfl

@[simp] theorem okHandle_records (s : State) : (okHandle s).records = s.records := rfl
@[simp] theorem okHandle_freeList (s : State) : (okHandle s).freeList = s.freeList := rfl
@[simp] theorem okHandle_directory (s : State) : (okHandle s).directory = s.directory := rfl
@[simp] theorem okHandle_managementTag (s : State) : (okHandle s).managementTag = s.managementTag := rfl
@[simp] theorem okHandle_engine (s : State) : (okHandle s).engine = s.engine := rfl
@[simp] theorem okHandle_link (s : State) : (okHandle s).link = s.link := rfl
@[simp] theorem okHandle_calls (s : State) : (okHandle s).calls = s.calls := rfl
@[simp] theorem okHandle_counters (s : State) : (okHandle s).counters = s.counters := rfl
@[simp] theorem okHandle_data (s : State) : (okHandle s).data = s.data := rfl
@[simp] theorem okHandle_lines (s : State) : (okHandle s).lines = s.lines := rfl
@[simp] theorem okHandle_pending (s : State) : (okHandle s).pending = s.pending := rfl

@[simp] theorem present_records (w : Word) (s : State) : (present w s).records = s.records := rfl
@[simp] theorem present_freeList (w : Word) (s : State) : (present w s).freeList = s.freeList := rfl
@[simp] theorem present_directory (w : Word) (s : State) : (present w s).directory = s.directory := rfl
@[simp] theorem present_managementTag (w : Word) (s : State) : (present w s).managementTag = s.managementTag := rfl
@[simp] theorem present_engine (w : Word) (s : State) : (present w s).engine = s.engine := rfl
@[simp] theorem present_request (w : Word) (s : State) : (present w s).request = s.request := rfl
@[simp] theorem present_link (w : Word) (s : State) : (present w s).link = s.link := rfl
@[simp] theorem present_calls (w : Word) (s : State) : (present w s).calls = s.calls := rfl
@[simp] theorem present_counters (w : Word) (s : State) : (present w s).counters = s.counters := rfl
@[simp] theorem present_data (w : Word) (s : State) : (present w s).data = s.data := rfl
@[simp] theorem present_notice (w : Word) (s : State) : (present w s).notice = s.notice := rfl
@[simp] theorem present_lines (w : Word) (s : State) : (present w s).lines = s.lines := rfl
@[simp] theorem present_pending (w : Word) (s : State) : (present w s).pending = s.pending := rfl

/-! ### The engine -/

@[simp] theorem sendLinkClaim_records (c : LinkClaim) (s : State) : (sendLinkClaim c s).records = s.records := by
  unfold sendLinkClaim; split <;> rfl
@[simp] theorem sendLinkClaim_freeList (c : LinkClaim) (s : State) : (sendLinkClaim c s).freeList = s.freeList := by
  unfold sendLinkClaim; split <;> rfl
@[simp] theorem sendLinkClaim_directory (c : LinkClaim) (s : State) : (sendLinkClaim c s).directory = s.directory := by
  unfold sendLinkClaim; split <;> rfl
@[simp] theorem sendLinkClaim_managementTag (c : LinkClaim) (s : State) : (sendLinkClaim c s).managementTag = s.managementTag := by
  unfold sendLinkClaim; split <;> rfl
@[simp] theorem sendLinkClaim_request (c : LinkClaim) (s : State) : (sendLinkClaim c s).request = s.request := by
  unfold sendLinkClaim; split <;> rfl
@[simp] theorem sendLinkClaim_link (c : LinkClaim) (s : State) : (sendLinkClaim c s).link = s.link := by
  unfold sendLinkClaim; split <;> rfl
@[simp] theorem sendLinkClaim_calls (c : LinkClaim) (s : State) : (sendLinkClaim c s).calls = s.calls := by
  unfold sendLinkClaim; split <;> rfl
@[simp] theorem sendLinkClaim_counters (c : LinkClaim) (s : State) : (sendLinkClaim c s).counters = s.counters := by
  unfold sendLinkClaim; split <;> rfl
@[simp] theorem sendLinkClaim_data (c : LinkClaim) (s : State) : (sendLinkClaim c s).data = s.data := by
  unfold sendLinkClaim; split <;> rfl
@[simp] theorem sendLinkClaim_notice (c : LinkClaim) (s : State) : (sendLinkClaim c s).notice = s.notice := by
  unfold sendLinkClaim; split <;> rfl
@[simp] theorem sendLinkClaim_port (c : LinkClaim) (s : State) : (sendLinkClaim c s).port = s.port := by
  unfold sendLinkClaim; split <;> rfl
@[simp] theorem sendLinkClaim_lines (c : LinkClaim) (s : State) : (sendLinkClaim c s).lines = s.lines := by
  unfold sendLinkClaim; split <;> rfl
@[simp] theorem sendLinkClaim_pending (c : LinkClaim) (s : State) : (sendLinkClaim c s).pending = s.pending := by
  unfold sendLinkClaim; split <;> rfl

@[simp] theorem sendRequestClaim_records (op : Operation) (s : State) : (sendRequestClaim op s).records = s.records := by
  unfold sendRequestClaim; split <;> rfl
@[simp] theorem sendRequestClaim_freeList (op : Operation) (s : State) : (sendRequestClaim op s).freeList = s.freeList := by
  unfold sendRequestClaim; split <;> rfl
@[simp] theorem sendRequestClaim_directory (op : Operation) (s : State) : (sendRequestClaim op s).directory = s.directory := by
  unfold sendRequestClaim; split <;> rfl
@[simp] theorem sendRequestClaim_managementTag (op : Operation) (s : State) : (sendRequestClaim op s).managementTag = s.managementTag := by
  unfold sendRequestClaim; split <;> rfl
@[simp] theorem sendRequestClaim_request (op : Operation) (s : State) : (sendRequestClaim op s).request = s.request := by
  unfold sendRequestClaim; split <;> rfl
@[simp] theorem sendRequestClaim_link (op : Operation) (s : State) : (sendRequestClaim op s).link = s.link := by
  unfold sendRequestClaim; split <;> rfl
@[simp] theorem sendRequestClaim_calls (op : Operation) (s : State) : (sendRequestClaim op s).calls = s.calls := by
  unfold sendRequestClaim; split <;> rfl
@[simp] theorem sendRequestClaim_counters (op : Operation) (s : State) : (sendRequestClaim op s).counters = s.counters := by
  unfold sendRequestClaim; split <;> rfl
@[simp] theorem sendRequestClaim_data (op : Operation) (s : State) : (sendRequestClaim op s).data = s.data := by
  unfold sendRequestClaim; split <;> rfl
@[simp] theorem sendRequestClaim_notice (op : Operation) (s : State) : (sendRequestClaim op s).notice = s.notice := by
  unfold sendRequestClaim; split <;> rfl
@[simp] theorem sendRequestClaim_port (op : Operation) (s : State) : (sendRequestClaim op s).port = s.port := by
  unfold sendRequestClaim; split <;> rfl
@[simp] theorem sendRequestClaim_lines (op : Operation) (s : State) : (sendRequestClaim op s).lines = s.lines := by
  unfold sendRequestClaim; split <;> rfl
@[simp] theorem sendRequestClaim_pending (op : Operation) (s : State) : (sendRequestClaim op s).pending = s.pending := by
  unfold sendRequestClaim; split <;> rfl

@[simp] theorem withdrawLinkClaim_records (s : State) : (withdrawLinkClaim s).records = s.records := rfl
@[simp] theorem withdrawLinkClaim_freeList (s : State) : (withdrawLinkClaim s).freeList = s.freeList := rfl
@[simp] theorem withdrawLinkClaim_directory (s : State) : (withdrawLinkClaim s).directory = s.directory := rfl
@[simp] theorem withdrawLinkClaim_managementTag (s : State) : (withdrawLinkClaim s).managementTag = s.managementTag := rfl
@[simp] theorem withdrawLinkClaim_request (s : State) : (withdrawLinkClaim s).request = s.request := rfl
@[simp] theorem withdrawLinkClaim_link (s : State) : (withdrawLinkClaim s).link = s.link := rfl
@[simp] theorem withdrawLinkClaim_calls (s : State) : (withdrawLinkClaim s).calls = s.calls := rfl
@[simp] theorem withdrawLinkClaim_counters (s : State) : (withdrawLinkClaim s).counters = s.counters := rfl
@[simp] theorem withdrawLinkClaim_data (s : State) : (withdrawLinkClaim s).data = s.data := rfl
@[simp] theorem withdrawLinkClaim_notice (s : State) : (withdrawLinkClaim s).notice = s.notice := rfl
@[simp] theorem withdrawLinkClaim_port (s : State) : (withdrawLinkClaim s).port = s.port := rfl
@[simp] theorem withdrawLinkClaim_lines (s : State) : (withdrawLinkClaim s).lines = s.lines := rfl
@[simp] theorem withdrawLinkClaim_pending (s : State) : (withdrawLinkClaim s).pending = s.pending := rfl

@[simp] theorem finishOperation_records (s : State) : (finishOperation s).records = s.records := by
  unfold finishOperation answerStretched; dsimp only; split <;> rfl
@[simp] theorem finishOperation_freeList (s : State) : (finishOperation s).freeList = s.freeList := by
  unfold finishOperation answerStretched; dsimp only; split <;> rfl
@[simp] theorem finishOperation_directory (s : State) : (finishOperation s).directory = s.directory := by
  unfold finishOperation answerStretched; dsimp only; split <;> rfl
@[simp] theorem finishOperation_managementTag (s : State) : (finishOperation s).managementTag = s.managementTag := by
  unfold finishOperation answerStretched; dsimp only; split <;> rfl
@[simp] theorem finishOperation_request (s : State) : (finishOperation s).request = s.request := by
  unfold finishOperation answerStretched; dsimp only; split <;> rfl
@[simp] theorem finishOperation_link (s : State) : (finishOperation s).link = s.link := by
  unfold finishOperation answerStretched; dsimp only; split <;> rfl
@[simp] theorem finishOperation_calls (s : State) : (finishOperation s).calls = s.calls := by
  unfold finishOperation answerStretched; dsimp only; split <;> rfl
@[simp] theorem finishOperation_counters (s : State) : (finishOperation s).counters = s.counters := by
  unfold finishOperation answerStretched; dsimp only; split <;> rfl
@[simp] theorem finishOperation_data (s : State) : (finishOperation s).data = s.data := by
  unfold finishOperation answerStretched; dsimp only; split <;> rfl
@[simp] theorem finishOperation_notice (s : State) : (finishOperation s).notice = s.notice := by
  unfold finishOperation answerStretched; dsimp only; split <;> rfl
@[simp] theorem finishOperation_lines (s : State) : (finishOperation s).lines = s.lines := by
  unfold finishOperation answerStretched; dsimp only; split <;> rfl
@[simp] theorem finishOperation_pending (s : State) : (finishOperation s).pending = s.pending := by
  unfold finishOperation answerStretched; dsimp only; split <;> rfl

/-! ### The link -/

@[simp] theorem takeHeld_records (s : State) : (takeHeld s).records = s.records := rfl
@[simp] theorem takeHeld_freeList (s : State) : (takeHeld s).freeList = s.freeList := rfl
@[simp] theorem takeHeld_directory (s : State) : (takeHeld s).directory = s.directory := rfl
@[simp] theorem takeHeld_managementTag (s : State) : (takeHeld s).managementTag = s.managementTag := rfl
@[simp] theorem takeHeld_engine (s : State) : (takeHeld s).engine = s.engine := rfl
@[simp] theorem takeHeld_request (s : State) : (takeHeld s).request = s.request := rfl
@[simp] theorem takeHeld_calls (s : State) : (takeHeld s).calls = s.calls := rfl
@[simp] theorem takeHeld_counters (s : State) : (takeHeld s).counters = s.counters := rfl
@[simp] theorem takeHeld_data (s : State) : (takeHeld s).data = s.data := rfl
@[simp] theorem takeHeld_notice (s : State) : (takeHeld s).notice = s.notice := rfl
@[simp] theorem takeHeld_port (s : State) : (takeHeld s).port = s.port := rfl
@[simp] theorem takeHeld_lines (s : State) : (takeHeld s).lines = s.lines := rfl
@[simp] theorem takeHeld_pending (s : State) : (takeHeld s).pending = s.pending := rfl

@[simp] theorem refuseHeld_records (s : State) : (refuseHeld s).records = s.records := rfl
@[simp] theorem refuseHeld_freeList (s : State) : (refuseHeld s).freeList = s.freeList := rfl
@[simp] theorem refuseHeld_directory (s : State) : (refuseHeld s).directory = s.directory := rfl
@[simp] theorem refuseHeld_managementTag (s : State) : (refuseHeld s).managementTag = s.managementTag := rfl
@[simp] theorem refuseHeld_engine (s : State) : (refuseHeld s).engine = s.engine := rfl
@[simp] theorem refuseHeld_request (s : State) : (refuseHeld s).request = s.request := rfl
@[simp] theorem refuseHeld_calls (s : State) : (refuseHeld s).calls = s.calls := rfl
@[simp] theorem refuseHeld_counters (s : State) : (refuseHeld s).counters = s.counters := rfl
@[simp] theorem refuseHeld_data (s : State) : (refuseHeld s).data = s.data := rfl
@[simp] theorem refuseHeld_notice (s : State) : (refuseHeld s).notice = s.notice := rfl
@[simp] theorem refuseHeld_port (s : State) : (refuseHeld s).port = s.port := rfl
@[simp] theorem refuseHeld_lines (s : State) : (refuseHeld s).lines = s.lines := rfl
@[simp] theorem refuseHeld_pending (s : State) : (refuseHeld s).pending = s.pending := rfl

@[simp] theorem refuseConfirm_records (s : State) : (refuseConfirm s).records = s.records := rfl
@[simp] theorem refuseConfirm_freeList (s : State) : (refuseConfirm s).freeList = s.freeList := rfl
@[simp] theorem refuseConfirm_directory (s : State) : (refuseConfirm s).directory = s.directory := rfl
@[simp] theorem refuseConfirm_managementTag (s : State) : (refuseConfirm s).managementTag = s.managementTag := rfl
@[simp] theorem refuseConfirm_engine (s : State) : (refuseConfirm s).engine = s.engine := rfl
@[simp] theorem refuseConfirm_request (s : State) : (refuseConfirm s).request = s.request := rfl
@[simp] theorem refuseConfirm_calls (s : State) : (refuseConfirm s).calls = s.calls := rfl
@[simp] theorem refuseConfirm_counters (s : State) : (refuseConfirm s).counters = s.counters := rfl
@[simp] theorem refuseConfirm_data (s : State) : (refuseConfirm s).data = s.data := rfl
@[simp] theorem refuseConfirm_notice (s : State) : (refuseConfirm s).notice = s.notice := rfl
@[simp] theorem refuseConfirm_port (s : State) : (refuseConfirm s).port = s.port := rfl
@[simp] theorem refuseConfirm_lines (s : State) : (refuseConfirm s).lines = s.lines := rfl
@[simp] theorem refuseConfirm_pending (s : State) : (refuseConfirm s).pending = s.pending := rfl

@[simp] theorem holdUnit_records (u : LinkUnit) (c : HoldCause) (s : State) : (holdUnit u c s).records = s.records := rfl
@[simp] theorem holdUnit_freeList (u : LinkUnit) (c : HoldCause) (s : State) : (holdUnit u c s).freeList = s.freeList := rfl
@[simp] theorem holdUnit_directory (u : LinkUnit) (c : HoldCause) (s : State) : (holdUnit u c s).directory = s.directory := rfl
@[simp] theorem holdUnit_managementTag (u : LinkUnit) (c : HoldCause) (s : State) : (holdUnit u c s).managementTag = s.managementTag := rfl
@[simp] theorem holdUnit_engine (u : LinkUnit) (c : HoldCause) (s : State) : (holdUnit u c s).engine = s.engine := rfl
@[simp] theorem holdUnit_request (u : LinkUnit) (c : HoldCause) (s : State) : (holdUnit u c s).request = s.request := rfl
@[simp] theorem holdUnit_calls (u : LinkUnit) (c : HoldCause) (s : State) : (holdUnit u c s).calls = s.calls := rfl
@[simp] theorem holdUnit_counters (u : LinkUnit) (c : HoldCause) (s : State) : (holdUnit u c s).counters = s.counters := rfl
@[simp] theorem holdUnit_data (u : LinkUnit) (c : HoldCause) (s : State) : (holdUnit u c s).data = s.data := rfl
@[simp] theorem holdUnit_notice (u : LinkUnit) (c : HoldCause) (s : State) : (holdUnit u c s).notice = s.notice := rfl
@[simp] theorem holdUnit_port (u : LinkUnit) (c : HoldCause) (s : State) : (holdUnit u c s).port = s.port := rfl
@[simp] theorem holdUnit_lines (u : LinkUnit) (c : HoldCause) (s : State) : (holdUnit u c s).lines = s.lines := rfl
@[simp] theorem holdUnit_pending (u : LinkUnit) (c : HoldCause) (s : State) : (holdUnit u c s).pending = s.pending := rfl

@[simp] theorem withdrawForeign_records (s : State) : (withdrawForeign s).records = s.records := rfl
@[simp] theorem withdrawForeign_freeList (s : State) : (withdrawForeign s).freeList = s.freeList := rfl
@[simp] theorem withdrawForeign_directory (s : State) : (withdrawForeign s).directory = s.directory := rfl
@[simp] theorem withdrawForeign_managementTag (s : State) : (withdrawForeign s).managementTag = s.managementTag := rfl
@[simp] theorem withdrawForeign_engine (s : State) : (withdrawForeign s).engine = s.engine := rfl
@[simp] theorem withdrawForeign_request (s : State) : (withdrawForeign s).request = s.request := rfl
@[simp] theorem withdrawForeign_calls (s : State) : (withdrawForeign s).calls = s.calls := rfl
@[simp] theorem withdrawForeign_counters (s : State) : (withdrawForeign s).counters = s.counters := rfl
@[simp] theorem withdrawForeign_data (s : State) : (withdrawForeign s).data = s.data := rfl
@[simp] theorem withdrawForeign_notice (s : State) : (withdrawForeign s).notice = s.notice := rfl
@[simp] theorem withdrawForeign_port (s : State) : (withdrawForeign s).port = s.port := rfl
@[simp] theorem withdrawForeign_pending (s : State) : (withdrawForeign s).pending = s.pending := rfl

end Sys2Proof.Machine
end

