-- ==== Sys2Proof/Laws/Counters.lean ====
section
/-! SUPPORT. The assertion counters (R132, R133): what one counter reads after a drive update, and that a change
to a slot keeps every counter equal to the number of records that drive there. -/

namespace Sys2Proof.Machine

/-! ### One counter -/

@[simp] theorem Counters.at_put (c : Counters) (p q : PollPoint) (n : Nat) :
    (c.put p n).at q = if p = q then n else c.at q := by
  simp [Counters.at, Counters.put, Vector.get_eq_getElem, Vector.getElem_set, BitVec.toNat_inj]

@[simp] theorem Counters.at_incr (c : Counters) (p : Option PollPoint) (q : PollPoint) :
    (c.incr p).at q = if p = some q then c.at q + 1 else c.at q := by
  cases p with
  | none => simp [Counters.incr]
  | some p => by_cases h : p = q <;> simp [Counters.incr, h]

@[simp] theorem Counters.at_decr (c : Counters) (p : Option PollPoint) (q : PollPoint) :
    (c.decr p).at q = if p = some q then c.at q - 1 else c.at q := by
  cases p with
  | none => simp [Counters.decr]
  | some p => by_cases h : p = q <;> simp [Counters.decr, h]

/-- The table of R132, read at one counter. -/
theorem driveUpdate_at (before after : Option PollPoint) (c : Counters) (q : PollPoint) :
    (driveUpdate before after c).at q =
      if before = after then c.at q
      else if after = some q then c.at q + 1
      else if before = some q then c.at q - 1
      else c.at q := by
  unfold driveUpdate
  split
  · rfl
  · rename_i h
    rw [Counters.at_incr, Counters.at_decr]
    by_cases h1 : after = some q <;> by_cases h2 : before = some q <;> simp_all

/-! ### The count of driving records -/

/-- Changing one element of a count changes the count by at most that element. -/
theorem countP_finRange_change {n : Nat} (i : Fin n) (f g : Fin n → Bool) (h : ∀ j, j ≠ i → f j = g j) :
    (List.finRange n).countP g + (f i).toNat = (List.finRange n).countP f + (g i).toNat := by
  have key : ∀ l : List (Fin n), l.Nodup →
      l.countP g + (if i ∈ l then (f i).toNat else 0) = l.countP f + (if i ∈ l then (g i).toNat else 0) := by
    intro l
    induction l with
    | nil => simp
    | cons a l ih =>
      intro hn
      have hn' := List.nodup_cons.mp hn
      have := ih hn'.2
      by_cases ha : a = i
      · subst ha
        simp only [hn'.1, if_false, Nat.add_zero] at this
        simp only [List.countP_cons, List.mem_cons, true_or, if_true, this]
        cases f a <;> cases g a <;> simp
      · have hai : ¬ i = a := fun e => ha e.symm
        simp only [List.countP_cons, List.mem_cons, hai, false_or, h a ha]
        omega
  simpa using key _ (List.nodup_finRange n)

/-- The number of driving records after a change to one slot. -/
theorem State.driving_setRecord (s : State) (i : Slot) (r : Record) (p : PollPoint) :
    (s.setRecord i r).driving p + (if (s.record i).drive = some p then 1 else 0) =
      s.driving p + (if r.drive = some p then 1 else 0) := by
  have h := countP_finRange_change i (fun j => decide ((s.record j).drive = some p))
    (fun j => decide (((s.setRecord i r).record j).drive = some p))
    (by intro j hj; simp [Ne.symm hj])
  by_cases h1 : (s.record i).drive = some p <;> by_cases h2 : r.drive = some p <;>
    simp_all [State.driving]

/-- A driving record is counted. -/
theorem State.driving_pos {s : State} {i : Slot} {p : PollPoint} (h : (s.record i).drive = some p) :
    0 < s.driving p :=
  List.countP_pos_iff.mpr ⟨i, List.mem_finRange i, by simpa using h⟩

end Sys2Proof.Machine
end

