-- ==== Sys2Proof/Laws/Coherent.lean ====
section
/-! SUPPORT. What each table's condition depends on: a condition carries over to a state that agrees on those
parts (one lemma per condition). -/

namespace Sys2Proof.Machine

variable {s t : State}

/-! ### Projections of a record -/

theorem State.handleOf_congr {i : Slot} (h : (t.record i).generation = (s.record i).generation) :
    t.handleOf i = s.handleOf i := by simp [State.handleOf, h]

theorem State.current_congr {h : Handle} (e : (t.record h.slot).generation = (s.record h.slot).generation) :
    t.current h ↔ s.current h := by simp [State.current, State.handleOf_congr e]

theorem Record.inService_congr {r x : Record} (h : r.state = x.state) : r.inService = x.inService := by
  simp [Record.inService, h]

theorem Record.live_congr {r x : Record} (h : r.state = x.state) : r.live = x.live := by
  simp [Record.live, Record.inService, h]

theorem State.record_congr (h : t.records = s.records) (i : Slot) : t.record i = s.record i := by
  unfold State.record; rw [h]

/-! ### The conditions -/

theorem State.RecordsFit.congr (h : t.records = s.records) (w : s.RecordsFit) : t.RecordsFit :=
  fun i => by rw [State.record_congr h]; exact w i

theorem State.SlotsFit.congr (hs : ∀ i, (t.record i).state = (s.record i).state)
    (hk : t.requestKind = s.requestKind) (w : s.SlotsFit) : t.SlotsFit where
  pending i := by rw [hs, hk]; exact w.pending i
  retiring i := by rw [hs, hk]; exact w.retiring i
  retag i := by rw [Record.inService_congr (hs i), hk]; exact w.retag i
  setAlias i := by rw [Record.inService_congr (hs i), hk]; exact w.setAlias i
  clearAlias i := by rw [Record.inService_congr (hs i), hk]; exact w.clearAlias i

theorem State.FreeListFits.congr (hs : ∀ i, (t.record i).state = (s.record i).state)
    (hf : t.freeList = s.freeList) (w : s.FreeListFits) : t.FreeListFits where
  once := by rw [hf]; exact w.once
  free i := by rw [hf, hs]; exact w.free i

theorem State.QueueFits.congr (hg : ∀ i, (t.record i).generation = (s.record i).generation)
    (hc : ∀ i, (t.record i).call = (s.record i).call) (hq : t.calls.queue = s.calls.queue)
    (w : s.QueueFits) : t.QueueFits where
  once := by rw [hq]; exact w.once
  calling h := by rw [hq, hc, State.current_congr (hg _)]; exact w.calling h

theorem State.AttentionFits.congr (hg : ∀ i, (t.record i).generation = (s.record i).generation)
    (hn : ∀ i, (t.record i).notices = (s.record i).notices) (ha : t.notice.attention = s.notice.attention)
    (w : s.AttentionFits) : t.AttentionFits where
  once := by rw [ha]; exact w.once
  noticed h := by rw [ha, hn, State.current_congr (hg _)]; exact w.noticed h

theorem State.active_congr {h : Handle} (hg : (t.record h.slot).generation = (s.record h.slot).generation)
    (hs : (t.record h.slot).state = (s.record h.slot).state) : t.active h ↔ s.active h := by
  simp [State.active, State.current_congr hg, hs]

theorem State.NamingFits.congr (hg : ∀ i, (t.record i).generation = (s.record i).generation)
    (hs : ∀ i, (t.record i).state = (s.record i).state) (h1 : t.link.source = s.link.source)
    (h2 : t.link.sinks = s.link.sinks) (h3 : t.link.confirm = s.link.confirm)
    (h4 : t.link.queryArmed = s.link.queryArmed) (w : s.NamingFits) : t.NamingFits where
  source h e := by
    rw [h1] at e; rw [h2, State.active_congr (hg _) (hs _)]; exact w.source h e
  sinks h e := by
    rw [h2] at e; rw [State.active_congr (hg _) (hs _)]; exact w.sinks h e
  once := by rw [h2]; exact w.once
  limit := by rw [h2]; exact w.limit
  confirm c e := by
    rw [h3] at e; rw [State.active_congr (hg _) (hs _)]; exact w.confirm c e
  confirmSource c e := by rw [h3] at e; rw [h1]; exact w.confirmSource c e
  confirmSink c e := by rw [h3] at e; rw [h2]; exact w.confirmSink c e
  armed e := by rw [h4] at e; rw [h1]; exact w.armed e

theorem State.HoldFits.congr (h1 : t.link.confirm = s.link.confirm) (h2 : t.link.held = s.link.held)
    (h3 : t.engine.flight = s.engine.flight) (h4 : t.engine.linkClaim = s.engine.linkClaim)
    (h5 : t.lines.foreign = s.lines.foreign) (h6 : t.link.online = s.link.online) (w : s.HoldFits) :
    t.HoldFits where
  confirm := by rw [h1, State.holdCause, h2]; exact w.confirm
  lookup := by rw [State.lookupDue, h3, h4, State.holdCause, h2]; exact w.lookup
  replace := by rw [State.replaceDue, h3, h4, State.holdCause, h2]; exact w.replace
  single := by rw [h3, h4]; exact w.single
  standing := by rw [h5, h2]; exact w.standing
  offline := by rw [h6, h2]; exact w.offline

theorem State.DirectoryOrdered.congr (h : t.directory = s.directory) (w : s.DirectoryOrdered) :
    t.DirectoryOrdered where
  sorted := by rw [h]; exact w.sorted
  valid := by rw [h]; exact w.valid
  limit := by rw [h]; exact w.limit

theorem State.tagOf_congr (hs : ∀ i, (t.record i).live = (s.record i).live)
    (hp : ∀ i, (t.record i).primaryTag = (s.record i).primaryTag)
    (ha : ∀ i, (t.record i).aliasTag = (s.record i).aliasTag) (hm : t.managementTag = s.managementTag)
    (o : Owner) : t.tagOf o = s.tagOf o := by
  cases o <;> simp [State.tagOf, hs, hp, ha, hm]

theorem State.DirectoryAgrees.congr (hd : t.directory = s.directory)
    (ho : ∀ o, t.tagOf o = s.tagOf o) (w : s.DirectoryAgrees) : t.DirectoryAgrees :=
  fun tag o => by rw [hd, ho]; exact w tag o

theorem State.awaits_congr {q : Request} {op : Operation}
    (hp : ∀ i, (t.record i).primaryTag = (s.record i).primaryTag)
    (ha : ∀ i, (t.record i).aliasTag = (s.record i).aliasTag) (hm : t.managementTag = s.managementTag) :
    t.awaits q op ↔ s.awaits q op := by
  unfold State.awaits; cases q.kind <;> simp [hp, ha, hm]

theorem State.EngineFits.congr (hp : ∀ i, (t.record i).primaryTag = (s.record i).primaryTag)
    (ha : ∀ i, (t.record i).aliasTag = (s.record i).aliasTag)
    (hl : ∀ i, (s.record i).live = true → (t.record i).live = true)
    (hm : t.managementTag = s.managementTag) (he : t.engine = s.engine) (hr : t.request = s.request)
    (w : s.EngineFits) : t.EngineFits where
  free := by rw [he]; exact w.free
  idle := by rw [he, hr]; exact w.idle
  flight q op h1 h2 := by
    rw [hr] at h1; rw [he] at h2; rw [he, State.awaits_congr hp ha hm]; exact w.flight q op h1 h2
  claim q op h1 h2 := by
    rw [hr] at h1; rw [he] at h2; rw [State.awaits_congr hp ha hm]; exact w.claim q op h1 h2
  one := by rw [hr, he]; exact w.one
  replace i t d h := by
    rw [he] at h; exact ⟨(w.replace i t d h).tag, hl _ (w.replace i t d h).live⟩
  replaceClaim i t h := by
    rw [he] at h ⊢
    rw [State.requestKind, hr]
    exact ⟨⟨(w.replaceClaim i t h).1.tag, hl _ (w.replaceClaim i t h).1.live⟩, (w.replaceClaim i t h).2⟩

/-- The tables' conditions carry over to a state with the same tables. -/
theorem State.TablesFit.congr (w : s.TablesFit) (h1 : t.records = s.records) (h2 : t.freeList = s.freeList)
    (h3 : t.directory = s.directory) (h4 : t.managementTag = s.managementTag)
    (h7 : t.link.source = s.link.source) (h8 : t.link.sinks = s.link.sinks)
    (h9 : t.link.confirm = s.link.confirm) (h10 : t.link.queryArmed = s.link.queryArmed)
    (h12 : t.calls.queue = s.calls.queue) (h13 : t.notice.attention = s.notice.attention) : t.TablesFit := by
  have hr := State.record_congr h1
  exact
    { records := w.records.congr h1
      freeList := w.freeList.congr (by simp [hr]) h2
      queue := w.queue.congr (by simp [hr]) (by simp [hr]) h12
      attention := w.attention.congr (by simp [hr]) (by simp [hr]) h13
      naming := w.naming.congr (by simp [hr]) (by simp [hr]) h7 h8 h9 h10
      ordered := w.ordered.congr h3
      agrees := w.agrees.congr h3 (State.tagOf_congr (by simp [hr]) (by simp [hr]) (by simp [hr]) h4) }

/-- The conditions together carry over to a state with the same tables, engine, request, hold and standing
offer. -/
theorem State.Coherent.congr (w : s.Coherent) (h1 : t.records = s.records) (h2 : t.freeList = s.freeList)
    (h3 : t.directory = s.directory) (h4 : t.managementTag = s.managementTag) (h5 : t.engine = s.engine)
    (h6 : t.request = s.request) (h7 : t.link.source = s.link.source) (h8 : t.link.sinks = s.link.sinks)
    (h9 : t.link.confirm = s.link.confirm) (h10 : t.link.queryArmed = s.link.queryArmed)
    (h11 : t.link.held = s.link.held) (h12 : t.calls.queue = s.calls.queue)
    (h13 : t.notice.attention = s.notice.attention) (h14 : t.lines.foreign = s.lines.foreign)
    (h15 : t.link.online = s.link.online) : t.Coherent := by
  have hr := State.record_congr h1
  have hk : t.requestKind = s.requestKind := by simp [State.requestKind, h6]
  exact
    { tables := w.tables.congr h1 h2 h3 h4 h7 h8 h9 h10 h12 h13
      slots := w.slots.congr (by simp [hr]) hk
      engine := w.engine.congr (by simp [hr]) (by simp [hr]) (by simp [hr]) h4 h5 h6
      hold := w.hold.congr h9 h11 (by rw [h5]) (by rw [h5]) h14 h15 }

end Sys2Proof.Machine
end

