-- ==== Sys2Proof/Laws/Records.lean ====
section
/-! SUPPORT. What a change to one record does to the tables' conditions: a change of fields that no table
mirrors, a posting (R169), and a record's joining and leaving the call queue (R114). -/

namespace Sys2Proof.Machine

variable {s : State}

/-! ### A change of fields that no table mirrors -/

/-- A change that keeps the state, the generation, the tags, the call state and the notice set, and leaves the
fields bound to the state. -/
structure Record.Minor (r x : Record) : Prop where
  state : x.state = r.state
  generation : x.generation = r.generation
  primaryTag : x.primaryTag = r.primaryTag
  aliasTag : x.aliasTag = r.aliasTag
  call : x.call = r.call
  notices : x.notices = r.notices
  fits : x.Fits

section
variable (i : Slot) (f : Record → Record) (m : (s.record i).Minor (f (s.record i)))
include m

theorem updRecord_minor_state (j : Slot) : ((s.updRecord i f).record j).state = (s.record j).state := by
  by_cases h : i = j <;> simp [h]; subst h; exact m.state

theorem updRecord_minor_generation (j : Slot) :
    ((s.updRecord i f).record j).generation = (s.record j).generation := by
  by_cases h : i = j <;> simp [h]; subst h; exact m.generation

theorem updRecord_minor_primaryTag (j : Slot) :
    ((s.updRecord i f).record j).primaryTag = (s.record j).primaryTag := by
  by_cases h : i = j <;> simp [h]; subst h; exact m.primaryTag

theorem updRecord_minor_aliasTag (j : Slot) : ((s.updRecord i f).record j).aliasTag = (s.record j).aliasTag := by
  by_cases h : i = j <;> simp [h]; subst h; exact m.aliasTag

theorem updRecord_minor_call (j : Slot) : ((s.updRecord i f).record j).call = (s.record j).call := by
  by_cases h : i = j <;> simp [h]; subst h; exact m.call

theorem updRecord_minor_notices (j : Slot) : ((s.updRecord i f).record j).notices = (s.record j).notices := by
  by_cases h : i = j <;> simp [h]; subst h; exact m.notices

theorem updRecord_minor_live (j : Slot) : ((s.updRecord i f).record j).live = (s.record j).live :=
  Record.live_congr (updRecord_minor_state i f m j)

/-- A minor change to one record keeps the tables' conditions. -/
theorem State.TablesFit.updRecord_minor (w : s.TablesFit) : (s.updRecord i f).TablesFit where
  records := by
    intro j; rw [State.record_updRecord]; split
    · exact m.fits
    · exact w.records j
  freeList := w.freeList.congr (updRecord_minor_state i f m) (by simp)
  queue := w.queue.congr (updRecord_minor_generation i f m) (updRecord_minor_call i f m) (by simp)
  attention := w.attention.congr (updRecord_minor_generation i f m) (updRecord_minor_notices i f m) (by simp)
  naming := w.naming.congr (updRecord_minor_generation i f m) (updRecord_minor_state i f m) (by simp) (by simp)
    (by simp) (by simp)
  ordered := w.ordered.congr (by simp)
  agrees := w.agrees.congr (by simp)
    (State.tagOf_congr (updRecord_minor_live i f m) (updRecord_minor_primaryTag i f m)
      (updRecord_minor_aliasTag i f m) (by simp))

/-- A minor change to one record keeps every condition. -/
theorem State.Coherent.updRecord_minor (w : s.Coherent) : (s.updRecord i f).Coherent where
  tables := w.tables.updRecord_minor i f m
  slots := w.slots.congr (updRecord_minor_state i f m) (by simp [State.requestKind])
  engine := w.engine.congr (updRecord_minor_primaryTag i f m) (updRecord_minor_aliasTag i f m)
    (fun j h => by rw [updRecord_minor_live i f m]; exact h) (by simp) (by simp) (by simp)
  hold := w.hold.congr (by simp) (by simp) (by simp) (by simp) (by simp) (by simp)

end

/-! ### Postings -/

/-- A posting is made: the kind is enabled and the record is ACTIVE or SUSPENDED (R169). -/
def State.posts (s : State) (k : NoticeKind) (i : Slot) : Prop :=
  s.notice.noticeMask &&& k.bit ≠ 0#8 ∧ (s.record i).inService = true

/-- A posting that is not made changes nothing (R169). -/
theorem postRecord_of_not (k : NoticeKind) (i : Slot) (h : ¬ s.posts k i) : postRecord k i s = s := by
  unfold postRecord
  rw [if_pos]
  by_cases h1 : s.notice.noticeMask &&& k.bit = 0#8
  · exact Or.inl h1
  · right
    cases h2 : (s.record i).inService
    · rfl
    · exact absurd ⟨h1, h2⟩ h

/-- What a slot reads after a posting that is made. -/
theorem record_postRecord (k : NoticeKind) (i j : Slot) (h : s.posts k i) :
    (postRecord k i s).record j =
      if i = j then { s.record i with notices := (s.record i).notices ||| k.bit } else s.record j := by
  have hh : ¬ (s.notice.noticeMask &&& k.bit = 0#8 ∨ (s.record i).inService = false) := by
    intro c; cases c with
    | inl c => exact h.1 c
    | inr c => exact absurd (h.2.symm.trans c) (by decide)
  unfold postRecord
  rw [if_neg hh]
  dsimp only
  split <;> simp

/-- The attention list after a posting that is made: a record whose set was empty joins at the tail (R169). -/
theorem attention_postRecord (k : NoticeKind) (i : Slot) (h : s.posts k i) :
    (postRecord k i s).notice.attention =
      if (s.record i).notices = 0#8 then s.notice.attention ++ [s.handleOf i] else s.notice.attention := by
  have hh : ¬ (s.notice.noticeMask &&& k.bit = 0#8 ∨ (s.record i).inService = false) := by
    intro c; cases c with
    | inl c => exact h.1 c
    | inr c => exact absurd (h.2.symm.trans c) (by decide)
  unfold postRecord
  rw [if_neg hh]
  dsimp only
  split <;> simp_all

/-- A posting keeps every field of every record but the notice set of the record it reaches. -/
theorem record_postRecord_eq (k : NoticeKind) (i j : Slot) :
    ∃ n, (postRecord k i s).record j = { s.record j with notices := n } := by
  by_cases h : s.posts k i
  · rw [record_postRecord k i j h]
    split
    · rename_i e; subst e; exact ⟨_, rfl⟩
    · exact ⟨(s.record j).notices, rfl⟩
  · rw [postRecord_of_not k i h]; exact ⟨(s.record j).notices, rfl⟩

/-- A kind's bit is set after it is added. -/
theorem NoticeKind.or_bit_ne_zero (k : NoticeKind) (n : BitVec 8) : n ||| k.bit ≠ 0#8 := by
  intro h
  have := (BitVec.or_eq_zero_iff).mp h
  exact absurd this.2 (by cases k <;> decide)

section
variable (k : NoticeKind) (i j : Slot)

@[simp] theorem postRecord_state : ((postRecord k i s).record j).state = (s.record j).state := by
  obtain ⟨n, e⟩ := record_postRecord_eq (s := s) k i j; rw [e]

@[simp] theorem postRecord_generation : ((postRecord k i s).record j).generation = (s.record j).generation := by
  obtain ⟨n, e⟩ := record_postRecord_eq (s := s) k i j; rw [e]

@[simp] theorem postRecord_primaryTag : ((postRecord k i s).record j).primaryTag = (s.record j).primaryTag := by
  obtain ⟨n, e⟩ := record_postRecord_eq (s := s) k i j; rw [e]

@[simp] theorem postRecord_aliasTag : ((postRecord k i s).record j).aliasTag = (s.record j).aliasTag := by
  obtain ⟨n, e⟩ := record_postRecord_eq (s := s) k i j; rw [e]

@[simp] theorem postRecord_call : ((postRecord k i s).record j).call = (s.record j).call := by
  obtain ⟨n, e⟩ := record_postRecord_eq (s := s) k i j; rw [e]

@[simp] theorem postRecord_live : ((postRecord k i s).record j).live = (s.record j).live :=
  Record.live_congr (postRecord_state k i j)

@[simp] theorem postRecord_handleOf : (postRecord k i s).handleOf j = s.handleOf j :=
  State.handleOf_congr (postRecord_generation k i j)

end

/-- A posting keeps the attention list exact (R169, R172). -/
theorem State.AttentionFits.postRecord (w : s.AttentionFits) (k : NoticeKind) (i : Slot) :
    (postRecord k i s).AttentionFits := by
  by_cases h : s.posts k i
  · have hc : ∀ x, (Machine.postRecord k i s).current x ↔ s.current x := fun x =>
      State.current_congr (postRecord_generation k i x.slot)
    have hm : ∀ x, x ∈ s.notice.attention ↔ s.current x ∧ (s.record x.slot).notices ≠ 0#8 := w.noticed
    have ho : s.current (s.handleOf i) := rfl
    by_cases e : (s.record i).notices = 0#8
    · refine ⟨?_, ?_⟩
      · rw [attention_postRecord k i h, if_pos e]
        refine List.nodup_append.mpr ⟨w.once, by simp, ?_⟩
        intro a ha b hb
        rw [List.mem_singleton] at hb
        subst hb
        rintro rfl
        exact ((hm _).mp ha).2 e
      · intro x
        rw [attention_postRecord k i h, if_pos e, List.mem_append, List.mem_singleton, hm, hc,
          record_postRecord k i _ h]
        by_cases hx : i = x.slot
        · subst hx
          simp only [if_true, e, ne_eq, not_true_eq_false, and_false, false_or]
          constructor
          · intro hx'
            rw [hx']
            exact ⟨rfl, NoticeKind.or_bit_ne_zero k _⟩
          · intro hx'; exact hx'.1.symm
        · simp only [hx, if_false]
          constructor
          · rintro (hh | hh)
            · exact hh
            · exact absurd (by rw [hh]; rfl) hx
          · intro hh; exact Or.inl hh
    · refine ⟨?_, ?_⟩
      · rw [attention_postRecord k i h, if_neg e]; exact w.once
      · intro x
        rw [attention_postRecord k i h, if_neg e, hm, hc, record_postRecord k i _ h]
        by_cases hx : i = x.slot
        · subst hx
          simp only [if_true, ne_eq, e, not_false_eq_true, NoticeKind.or_bit_ne_zero k, and_true]
        · simp only [hx, if_false]
  · rw [postRecord_of_not k i h]; exact w

/-- A posting keeps every record's fields bound to its state (R169). -/
theorem State.RecordsFit.postRecord (w : s.RecordsFit) (k : NoticeKind) (i : Slot) :
    (postRecord k i s).RecordsFit := by
  intro j
  by_cases h : s.posts k i
  · rw [record_postRecord k i j h]
    split
    · rename_i e
      subst e
      exact
        { free := fun e => by have := h.2; simp [Record.inService, show (s.record i).state = _ from e] at this
          sets := fun e => absurd (h.2.symm.trans e) (by decide)
          quiet := (w i).quiet
          endChar := (w i).endChar }
    · exact w j
  · rw [postRecord_of_not k i h]; exact w j

/-- A posting keeps the tables' conditions (R169). -/
theorem State.TablesFit.postRecord (w : s.TablesFit) (k : NoticeKind) (i : Slot) : (postRecord k i s).TablesFit where
  records := w.records.postRecord k i
  freeList := w.freeList.congr (by simp) (by simp)
  queue := w.queue.congr (by simp) (by simp) (by simp)
  attention := w.attention.postRecord k i
  naming := w.naming.congr (by simp) (by simp) (by simp) (by simp) (by simp) (by simp)
  ordered := w.ordered.congr (by simp)
  agrees := w.agrees.congr (by simp) (State.tagOf_congr (by simp) (by simp) (by simp) (by simp))

/-- A posting keeps the conditions on slots. -/
theorem State.SlotsFit.postRecord (w : s.SlotsFit) (k : NoticeKind) (i : Slot) : (postRecord k i s).SlotsFit :=
  w.congr (by simp) (by simp [State.requestKind])

/-- A posting keeps the conditions on the engine. -/
theorem State.EngineFits.postRecord (w : s.EngineFits) (k : NoticeKind) (i : Slot) : (postRecord k i s).EngineFits :=
  w.congr (by simp) (by simp) (by simp) (by simp) (by simp) (by simp)

/-- A posting keeps the conditions on the held unit. -/
theorem State.HoldFits.postRecord (w : s.HoldFits) (k : NoticeKind) (i : Slot) : (postRecord k i s).HoldFits :=
  w.congr (by simp) (by simp) (by simp) (by simp) (by simp) (by simp)

/-- A posting keeps every condition (R169). -/
theorem State.Coherent.postRecord (w : s.Coherent) (k : NoticeKind) (i : Slot) : (postRecord k i s).Coherent where
  tables := w.tables.postRecord k i
  slots := w.slots.postRecord k i
  engine := w.engine.postRecord k i
  hold := w.hold.postRecord k i

end Sys2Proof.Machine
end

