-- ==== Sys2Proof/Laws/Naming.lean ====
section
/-! SUPPORT. What the naming operations do to the tables' conditions (R92 to R94, R101, R104, R105, R112, R134,
R135), and the call queue's (R114). -/

namespace Sys2Proof.Machine

variable {s t u : State}

/-! ### Moves that keep every record's life and tags -/

/-- The records keep their states, generations and tags, and the free list, the directory, the engine and the
request stand as they were. -/
structure State.KeepsLives (s t : State) : Prop where
  state : ∀ i, (t.record i).state = (s.record i).state
  generation : ∀ i, (t.record i).generation = (s.record i).generation
  primaryTag : ∀ i, (t.record i).primaryTag = (s.record i).primaryTag
  aliasTag : ∀ i, (t.record i).aliasTag = (s.record i).aliasTag
  freeList : t.freeList = s.freeList
  directory : t.directory = s.directory
  managementTag : t.managementTag = s.managementTag
  engine : t.engine = s.engine
  request : t.request = s.request

theorem State.KeepsLives.refl (s : State) : s.KeepsLives s :=
  ⟨fun _ => rfl, fun _ => rfl, fun _ => rfl, fun _ => rfl, rfl, rfl, rfl, rfl, rfl⟩

theorem State.KeepsLives.trans (a : s.KeepsLives t) (b : t.KeepsLives u) : s.KeepsLives u where
  state i := (b.state i).trans (a.state i)
  generation i := (b.generation i).trans (a.generation i)
  primaryTag i := (b.primaryTag i).trans (a.primaryTag i)
  aliasTag i := (b.aliasTag i).trans (a.aliasTag i)
  freeList := b.freeList.trans a.freeList
  directory := b.directory.trans a.directory
  managementTag := b.managementTag.trans a.managementTag
  engine := b.engine.trans a.engine
  request := b.request.trans a.request

/-- A move that changes no record and none of those tables keeps lives. -/
theorem State.KeepsLives.of_eq (h1 : t.records = s.records) (h2 : t.freeList = s.freeList)
    (h3 : t.directory = s.directory) (h4 : t.managementTag = s.managementTag) (h5 : t.engine = s.engine)
    (h6 : t.request = s.request) : s.KeepsLives t := by
  have hr := State.record_congr h1
  exact ⟨by simp [hr], by simp [hr], by simp [hr], by simp [hr], h2, h3, h4, h5, h6⟩

theorem State.KeepsLives.postRecord (s : State) (k : NoticeKind) (i : Slot) : s.KeepsLives (postRecord k i s) :=
  ⟨by simp, by simp, by simp, by simp, by simp, by simp, by simp, by simp, by simp⟩

/-- A posting after a move that keeps lives. -/
theorem State.KeepsLives.post (a : s.KeepsLives t) (k : NoticeKind) (i : Slot) : s.KeepsLives (Machine.postRecord k i t) :=
  a.trans (.postRecord t k i)

theorem State.KeepsLives.slots (m : s.KeepsLives t) (w : s.SlotsFit) : t.SlotsFit :=
  w.congr m.state (by simp [State.requestKind, m.request])

theorem State.KeepsLives.engineFits (m : s.KeepsLives t) (w : s.EngineFits) : t.EngineFits :=
  w.congr m.primaryTag m.aliasTag (fun i h => by rw [Record.live_congr (m.state i)]; exact h) m.managementTag
    m.engine m.request

theorem State.KeepsLives.handleOf (m : s.KeepsLives t) (i : Slot) : t.handleOf i = s.handleOf i :=
  State.handleOf_congr (m.generation i)

theorem State.KeepsLives.active (m : s.KeepsLives t) (h : Handle) : t.active h ↔ s.active h :=
  State.active_congr (m.generation _) (m.state _)

/-! ### The part source -/

/-- A record's source role ends: the naming state is as before but for the source (R47, R92, R94). -/
theorem State.NamingFits.noSource (w : s.NamingFits)
    (hg : ∀ i, (t.record i).generation = (s.record i).generation)
    (hs : ∀ i, (t.record i).state = (s.record i).state) (h1 : t.link.source = .none)
    (h2 : t.link.sinks = s.link.sinks) (h3 : t.link.confirm = s.link.confirm)
    (h4 : t.link.queryArmed = false) : t.NamingFits where
  source h e := by rw [h1] at e; cases e
  sinks h e := by rw [h2] at e; rw [State.active_congr (hg _) (hs _)]; exact w.sinks h e
  once := by rw [h2]; exact w.once
  limit := by rw [h2]; exact w.limit
  confirm c e := by rw [h3] at e; rw [State.active_congr (hg _) (hs _)]; exact w.confirm c e
  confirmSource _ _ _ := h1
  confirmSink c e := by rw [h3] at e; rw [h2]; exact w.confirmSink c e
  armed e := by rw [h4] at e; cases e

/-- The tables' conditions but for the naming state carry over to a state with the same tables. -/
theorem State.TablesFit.withNaming (w : s.TablesFit) (h1 : t.records = s.records) (h2 : t.freeList = s.freeList)
    (h3 : t.directory = s.directory) (h4 : t.managementTag = s.managementTag)
    (h12 : t.calls.queue = s.calls.queue) (h13 : t.notice.attention = s.notice.attention)
    (n : t.NamingFits) : t.TablesFit := by
  have hr := State.record_congr h1
  exact
    { records := w.records.congr h1
      freeList := w.freeList.congr (by simp [hr]) h2
      queue := w.queue.congr (by simp [hr]) (by simp [hr]) h12
      attention := w.attention.congr (by simp [hr]) (by simp [hr]) h13
      naming := n
      ordered := w.ordered.congr h3
      agrees := w.agrees.congr h3 (State.tagOf_congr (by simp [hr]) (by simp [hr]) (by simp [hr]) h4) }

theorem releaseSource_keepsLives (s : State) : s.KeepsLives (releaseSource s) :=
  .of_eq rfl rfl rfl rfl rfl rfl

theorem State.TablesFit.releaseSource (w : s.TablesFit) : (releaseSource s).TablesFit :=
  w.withNaming rfl rfl rfl rfl rfl rfl (w.naming.noSource (fun _ => rfl) (fun _ => rfl) rfl rfl rfl rfl)

theorem releaseIfSource_keepsLives (s : State) (h : Handle) : s.KeepsLives (releaseIfSource h s) := by
  unfold releaseIfSource; split
  · exact releaseSource_keepsLives s
  · exact .refl s

theorem State.TablesFit.releaseIfSource (w : s.TablesFit) (h : Handle) : (releaseIfSource h s).TablesFit := by
  unfold Machine.releaseIfSource; split
  · exact w.releaseSource
  · exact w

theorem unnameSource_keepsLives (s : State) : s.KeepsLives (unnameSource s) := by
  unfold unnameSource; split
  · exact .refl s
  · exact (releaseSource_keepsLives s).trans (.postRecord _ _ _)
  · exact .of_eq rfl rfl rfl rfl rfl rfl

/-- Un-naming keeps the tables' conditions (R92). -/
theorem State.TablesFit.unnameSource (w : s.TablesFit) : (unnameSource s).TablesFit := by
  unfold Machine.unnameSource; split
  · exact w
  · exact w.releaseSource.postRecord _ _
  · exact w.withNaming rfl rfl rfl rfl rfl rfl (w.naming.noSource (fun _ => rfl) (fun _ => rfl) rfl rfl rfl rfl)

/-- After un-naming the part source is none (R92). -/
@[simp] theorem unnameSource_source (s : State) : (unnameSource s).link.source = .none := by
  unfold unnameSource; split
  · assumption
  · simp [releaseSource]
  · rfl

@[simp] theorem unnameSource_sinks (s : State) : (unnameSource s).link.sinks = s.link.sinks := by
  unfold unnameSource; split <;> simp [releaseSource]

@[simp] theorem unnameSource_confirm (s : State) : (unnameSource s).link.confirm = s.link.confirm := by
  unfold unnameSource; split <;> simp [releaseSource]

@[simp] theorem unnameSource_held (s : State) : (unnameSource s).link.held = s.link.held := by
  unfold unnameSource; split <;> simp [releaseSource]

@[simp] theorem unnameSource_lines (s : State) : (unnameSource s).lines = s.lines := by
  unfold unnameSource; split <;> simp [releaseSource]

/-! ### Applying a naming -/

theorem applySource_keepsLives (s : State) (i : Slot) : s.KeepsLives (applySource i s) := by
  refine State.KeepsLives.post ?_ _ _
  exact .of_eq rfl rfl rfl rfl rfl rfl

/-- Applying a source naming to an ACTIVE record keeps the tables' conditions (R93). -/
theorem State.TablesFit.applySource (w : s.TablesFit) {i : Slot} (hi : (s.record i).state = .active)
    (hc : s.link.confirm = none) : (applySource i s).TablesFit := by
  refine State.TablesFit.postRecord ?_ _ _
  refine w.withNaming rfl rfl rfl rfl rfl rfl ?_
  exact
    { source := fun h e => by
        have e' : h = s.handleOf i := by simpa using e.symm
        subst e'
        refine ⟨⟨rfl, hi⟩, ?_⟩
        simp
      sinks := fun h e => w.naming.sinks h (List.mem_of_mem_filter e)
      once := w.naming.once.filter _
      limit := (List.length_filter_le _ _).trans w.naming.limit
      confirm := fun c e => by rw [show _ = none from hc] at e; cases e
      confirmSource := fun c e => by rw [show _ = none from hc] at e; cases e
      confirmSink := fun c e => by rw [show _ = none from hc] at e; cases e
      armed := fun e => by cases e }

theorem applySink_keepsLives (s : State) (i : Slot) : s.KeepsLives (applySink i s) := by
  refine State.KeepsLives.post ?_ _ _
  exact (releaseIfSource_keepsLives s _).trans (.of_eq rfl rfl rfl rfl rfl rfl)

theorem releaseIfSource_sinks (s : State) (h : Handle) : (releaseIfSource h s).link.sinks = s.link.sinks := by
  unfold releaseIfSource; split <;> rfl

theorem releaseIfSource_confirm (s : State) (h : Handle) :
    (releaseIfSource h s).link.confirm = s.link.confirm := by
  unfold releaseIfSource; split <;> rfl

theorem releaseIfSource_source (s : State) (h : Handle) : (releaseIfSource h s).link.source ≠ .record h := by
  unfold releaseIfSource; split
  · simp [releaseSource]
  · assumption

/-- Applying a sink naming to an ACTIVE record outside a list with room keeps the tables' conditions (R94). -/
theorem State.TablesFit.applySink (w : s.TablesFit) {i : Slot} (hi : (s.record i).state = .active)
    (hc : s.link.confirm = none) (hm : s.handleOf i ∉ s.link.sinks)
    (hl : s.link.sinks.length < Config.sinkLimit) : (applySink i s).TablesFit := by
  have w' := w.releaseIfSource (s.handleOf i)
  have m := releaseIfSource_keepsLives s (s.handleOf i)
  have hs := releaseIfSource_sinks s (s.handleOf i)
  have hne := releaseIfSource_source s (s.handleOf i)
  have hc' : (Machine.releaseIfSource (s.handleOf i) s).link.confirm = none :=
    (releaseIfSource_confirm s _).trans hc
  have ha : (Machine.releaseIfSource (s.handleOf i) s).active (s.handleOf i) := by
    rw [m.active]; exact ⟨rfl, hi⟩
  unfold Machine.applySink
  generalize Machine.releaseIfSource (s.handleOf i) s = r at *
  refine State.TablesFit.postRecord ?_ _ _
  refine w'.withNaming rfl rfl rfl rfl rfl rfl ?_
  exact
    { source := fun h e => by
        have := w'.naming.source h e
        refine ⟨this.1, ?_⟩
        simp only [List.mem_append, List.mem_singleton, not_or]
        refine ⟨this.2, ?_⟩
        rintro rfl
        exact hne e
      sinks := fun h e => by
        rcases List.mem_append.mp e with e | e
        · exact w'.naming.sinks h e
        · rw [List.mem_singleton] at e; subst e; exact ha
      once := by
        refine List.nodup_append.mpr ⟨w'.naming.once, by simp, ?_⟩
        intro a ha' b hb
        rw [List.mem_singleton] at hb
        subst hb
        rintro rfl
        rw [hs] at ha'
        exact hm ha'
      limit := by
        simp only [List.length_append, List.length_singleton, hs]
        exact hl
      confirm := fun c e => by rw [show _ = none from hc'] at e; cases e
      confirmSource := fun c e => by rw [show _ = none from hc'] at e; cases e
      confirmSink := fun c e => by rw [show _ = none from hc'] at e; cases e
      armed := w'.naming.armed }

/-! ### Confirms -/

theorem openConfirm_keepsLives (s : State) (role : Role) (i : Slot) : s.KeepsLives (openConfirm role i s) := by
  refine State.KeepsLives.post ?_ _ _
  exact .of_eq rfl rfl rfl rfl rfl rfl

/-- A confirm opened for an ACTIVE record keeps the tables' conditions (R101). -/
theorem State.TablesFit.openConfirm (w : s.TablesFit) {role : Role} {i : Slot}
    (hi : (s.record i).state = .active) (hsrc : role = .source → s.link.source = .none)
    (hsnk : role = .sink → s.handleOf i ∉ s.link.sinks ∧ s.link.sinks.length < Config.sinkLimit) :
    (openConfirm role i s).TablesFit := by
  refine State.TablesFit.postRecord ?_ _ _
  refine w.withNaming rfl rfl rfl rfl rfl rfl ?_
  exact
    { source := w.naming.source
      sinks := w.naming.sinks
      once := w.naming.once
      limit := w.naming.limit
      confirm := fun c e => by
        obtain rfl := Option.some.inj e
        exact ⟨rfl, hi⟩
      confirmSource := fun c e h => by
        obtain rfl := Option.some.inj e
        exact hsrc h
      confirmSink := fun c e h => by
        obtain rfl := Option.some.inj e
        exact hsnk h
      armed := w.naming.armed }

/-- The pending confirm ends without a naming (R105, R106, R108). -/
theorem State.NamingFits.noConfirm (w : s.NamingFits)
    (hg : ∀ i, (t.record i).generation = (s.record i).generation)
    (hs : ∀ i, (t.record i).state = (s.record i).state) (h1 : t.link.source = s.link.source)
    (h2 : t.link.sinks = s.link.sinks) (h3 : t.link.confirm = none)
    (h4 : t.link.queryArmed = s.link.queryArmed) : t.NamingFits where
  source h e := by rw [h1] at e; rw [h2, State.active_congr (hg _) (hs _)]; exact w.source h e
  sinks h e := by rw [h2] at e; rw [State.active_congr (hg _) (hs _)]; exact w.sinks h e
  once := by rw [h2]; exact w.once
  limit := by rw [h2]; exact w.limit
  confirm c e := by rw [h3] at e; cases e
  confirmSource c e := by rw [h3] at e; cases e
  confirmSink c e := by rw [h3] at e; cases e
  armed e := by rw [h4] at e; rw [h1]; exact w.armed e

theorem State.TablesFit.refuseConfirm (w : s.TablesFit) : (refuseConfirm s).TablesFit :=
  w.withNaming rfl rfl rfl rfl rfl rfl (w.naming.noConfirm (fun _ => rfl) (fun _ => rfl) rfl rfl rfl rfl)

theorem State.TablesFit.takeHeld (w : s.TablesFit) : (takeHeld s).TablesFit :=
  w.congr rfl rfl rfl rfl rfl rfl rfl rfl rfl rfl

theorem State.TablesFit.refuseHeld (w : s.TablesFit) : (refuseHeld s).TablesFit :=
  w.congr rfl rfl rfl rfl rfl rfl rfl rfl rfl rfl

theorem takeHeld_keepsLives (s : State) : s.KeepsLives (takeHeld s) := .of_eq rfl rfl rfl rfl rfl rfl

theorem refuseHeld_keepsLives (s : State) : s.KeepsLives (refuseHeld s) := .of_eq rfl rfl rfl rfl rfl rfl

theorem refuseConfirm_keepsLives (s : State) : s.KeepsLives (refuseConfirm s) := .of_eq rfl rfl rfl rfl rfl rfl

theorem applyNaming_keepsLives (s : State) (role : Role) (i : Slot) : s.KeepsLives (applyNaming role i s) := by
  cases role
  · exact applySource_keepsLives s i
  · exact applySink_keepsLives s i

theorem acceptConfirm_keepsLives (s : State) (c : Confirm) : s.KeepsLives (acceptConfirm c s) := by
  have a : s.KeepsLives { s with link.confirm := none } := .of_eq rfl rfl rfl rfl rfl rfl
  exact (a.trans (applyNaming_keepsLives _ c.role c.handle.slot)).trans (takeHeld_keepsLives _)

/-- An accept keeps the tables' conditions (R104). -/
theorem State.TablesFit.acceptConfirm (w : s.TablesFit) {c : Confirm} (hc : s.link.confirm = some c) :
    (acceptConfirm c s).TablesFit := by
  have hcur := (w.naming.confirm c hc)
  have w' : ({ s with link.confirm := none } : State).TablesFit :=
    w.withNaming rfl rfl rfl rfl rfl rfl (w.naming.noConfirm (fun _ => rfl) (fun _ => rfl) rfl rfl rfl rfl)
  refine State.TablesFit.takeHeld ?_
  unfold applyNaming
  cases hr : c.role
  · exact w'.applySource hcur.2 rfl
  · have h2 := w.naming.confirmSink c hc hr
    refine w'.applySink hcur.2 rfl ?_ h2.2
    have : s.handleOf c.handle.slot = c.handle := hcur.1
    show s.handleOf c.handle.slot ∉ s.link.sinks
    rw [this]; exact h2.1

end Sys2Proof.Machine
end

