-- ==== Sys2Proof/Laws/Resolve.lean ====
section
/-! SUPPORT. What the resolution of a naming and the director's control units do to the conditions (R96, R97, R98,
R99, R110, R112, R119, R134, R135). -/

namespace Sys2Proof.Machine

variable {s t : State}

/-! ### How a resolution leaves the held unit -/

/-- A naming is resolved: the unit is taken or refused, or it stays held for the confirm that opened. -/
def State.Resolved (s t : State) : Prop :=
  (t.link.held = none ∧ t.link.confirm = none) ∨
    (t.holdCause = some .confirm ∧ t.link.confirm.isSome = true ∧ s.link.held.isSome = true)

theorem resolved_takeHeld (hc : t.link.confirm = none) : s.Resolved (takeHeld t) := Or.inl ⟨rfl, hc⟩

theorem resolved_refuseHeld (hc : t.link.confirm = none) : s.Resolved (refuseHeld t) := Or.inl ⟨rfl, hc⟩

theorem applySource_confirm (s : State) (i : Slot) : (applySource i s).link.confirm = s.link.confirm := by
  simp [applySource]

theorem applySink_confirm (s : State) (i : Slot) : (applySink i s).link.confirm = s.link.confirm := by
  simp [applySink, releaseIfSource_confirm]

theorem resolved_openConfirm (role : Role) (i : Slot) (hh : t.link.held = s.link.held)
    (hs : s.link.held.isSome = true) : s.Resolved (openConfirm role i t) := by
  obtain ⟨h, e⟩ := Option.isSome_iff_exists.mp hs
  refine Or.inr ⟨?_, ?_, hs⟩ <;> simp [openConfirm, State.holdCause, hh, e]

/-! ### The resolution of a NAME-SOURCE -/

theorem sourceOutcome_keepsLives (s : State) (c : Bool) (i : Slot) : s.KeepsLives (sourceOutcome c i s) := by
  unfold sourceOutcome
  split
  · exact takeHeld_keepsLives s
  · exact takeHeld_keepsLives s
  · exact takeHeld_keepsLives s
  · exact refuseHeld_keepsLives s
  · split
    · exact takeHeld_keepsLives s
    · split
      · exact openConfirm_keepsLives s _ _
      · exact (applySource_keepsLives s i).trans (takeHeld_keepsLives _)

theorem State.TablesFit.sourceOutcome (w : s.TablesFit) (c : Bool) (i : Slot) (hc : s.link.confirm = none)
    (hs : c = false → s.link.source = .none) : (sourceOutcome c i s).TablesFit := by
  unfold Machine.sourceOutcome
  split
  · exact w.takeHeld
  · exact w.takeHeld
  · exact w.takeHeld
  · exact w.refuseHeld
  · rename_i ha
    split
    · exact w.takeHeld
    · rename_i hcur
      split
      · exact w.openConfirm ha (fun _ => hs (by simpa using hcur)) (fun e => by cases e)
      · exact (w.applySource ha hc).takeHeld

theorem sourceOutcome_resolved (c : Bool) (i : Slot) (hc : t.link.confirm = none) (hh : t.link.held = s.link.held)
    (hs : s.link.held.isSome = true) : s.Resolved (sourceOutcome c i t) := by
  unfold sourceOutcome
  split
  · exact resolved_takeHeld hc
  · exact resolved_takeHeld hc
  · exact resolved_takeHeld hc
  · exact resolved_refuseHeld hc
  · split
    · exact resolved_takeHeld hc
    · split
      · exact resolved_openConfirm _ _ hh hs
      · exact resolved_takeHeld ((applySource_confirm _ _).trans hc)

theorem State.TablesFit.nameManagement (w : s.TablesFit) (hc : s.link.confirm = none)
    (hq : s.link.queryArmed = false) : ({ s with link.source := .management } : State).TablesFit :=
  w.withNaming rfl rfl rfl rfl rfl rfl
    { source := fun h e => by cases e
      sinks := w.naming.sinks
      once := w.naming.once
      limit := w.naming.limit
      confirm := w.naming.confirm
      confirmSource := fun c e => by rw [show _ = none from hc] at e; cases e
      confirmSink := w.naming.confirmSink
      armed := fun e => by rw [show _ = false from hq] at e; cases e }

theorem unnameSource_queryArmed (w : s.TablesFit) : (unnameSource s).link.queryArmed = false := by
  have := w.unnameSource.naming.armed
  by_contra h
  obtain ⟨x, e⟩ := this (by simpa using h)
  simp at e

theorem resolveSource_keepsLives (s : State) (f : Option Owner) : s.KeepsLives (resolveSource f s) := by
  have m : s.KeepsLives (if isCurrentSource s f then s else unnameSource s) := by
    split
    · exact .refl s
    · exact unnameSource_keepsLives s
  unfold resolveSource
  dsimp only
  split
  · exact m.trans (takeHeld_keepsLives _)
  · exact m.trans (.of_eq rfl rfl rfl rfl rfl rfl)
  · exact m.trans (sourceOutcome_keepsLives _ _ _)
  · exact m.trans (sourceOutcome_keepsLives _ _ _)

/-- The resolution of a NAME-SOURCE keeps the tables' conditions (R96). -/
theorem State.TablesFit.resolveSource (w : s.TablesFit) (f : Option Owner) (hc : s.link.confirm = none) :
    (resolveSource f s).TablesFit := by
  unfold Machine.resolveSource
  dsimp only
  by_cases hcur : isCurrentSource s f = true
  · simp only [hcur, if_true]
    split
    · exact w.takeHeld
    · refine State.TablesFit.takeHeld ?_
      have hm : s.link.source = .management := by simpa [isCurrentSource] using hcur
      refine w.nameManagement hc ?_
      by_contra h
      obtain ⟨x, e⟩ := w.naming.armed (by simpa using h)
      rw [hm] at e; cases e
    · exact w.sourceOutcome _ _ hc (by simp)
    · exact w.sourceOutcome _ _ hc (by simp)
  · have hf : isCurrentSource s f = false := by simpa using hcur
    simp only [hf]
    have wu := w.unnameSource
    have hcu : (Machine.unnameSource s).link.confirm = none := by simpa using hc
    have hsu := unnameSource_source s
    split
    · exact wu.takeHeld
    · exact (wu.nameManagement hcu (unnameSource_queryArmed w)).takeHeld
    · exact wu.sourceOutcome _ _ hcu (fun _ => hsu)
    · exact wu.sourceOutcome _ _ hcu (fun _ => hsu)

theorem resolveSource_resolved (f : Option Owner) (hc : s.link.confirm = none)
    (hs : s.link.held.isSome = true) : s.Resolved (resolveSource f s) := by
  have h1 : (if isCurrentSource s f then s else unnameSource s).link.confirm = none := by split <;> simp [hc]
  have h2 : (if isCurrentSource s f then s else unnameSource s).link.held = s.link.held := by split <;> simp
  unfold resolveSource
  dsimp only
  split
  · exact resolved_takeHeld h1
  · exact resolved_takeHeld h1
  · exact sourceOutcome_resolved _ _ h1 h2 hs
  · exact sourceOutcome_resolved _ _ h1 h2 hs

theorem applySource_lines (s : State) (i : Slot) : (applySource i s).lines = s.lines := by simp [applySource]

theorem applySink_lines (s : State) (i : Slot) : (applySink i s).lines = s.lines := by
  unfold applySink releaseIfSource; split <;> simp [releaseSource]

theorem openConfirm_lines (s : State) (r : Role) (i : Slot) : (openConfirm r i s).lines = s.lines := by
  simp [openConfirm]

theorem sourceOutcome_lines (s : State) (c : Bool) (i : Slot) : (sourceOutcome c i s).lines = s.lines := by
  unfold sourceOutcome
  split
  · rfl
  · rfl
  · rfl
  · rfl
  · split
    · rfl
    · split
      · exact openConfirm_lines _ _ _
      · exact applySource_lines _ _

theorem resolveSource_lines (s : State) (f : Option Owner) : (resolveSource f s).lines = s.lines := by
  have h : (if isCurrentSource s f then s else unnameSource s).lines = s.lines := by split <;> simp
  unfold resolveSource
  dsimp only
  split
  · exact h
  · exact h
  · exact (sourceOutcome_lines _ _ _).trans h
  · exact (sourceOutcome_lines _ _ _).trans h

/-! ### The resolution of a NAME-SINK -/

theorem sinkOutcome_keepsLives (s : State) (i : Slot) : s.KeepsLives (sinkOutcome i s) := by
  unfold sinkOutcome
  split
  · exact takeHeld_keepsLives s
  · exact takeHeld_keepsLives s
  · exact takeHeld_keepsLives s
  · exact refuseHeld_keepsLives s
  · split
    · exact takeHeld_keepsLives s
    · split
      · exact refuseHeld_keepsLives s
      · split
        · exact openConfirm_keepsLives s _ _
        · exact (applySink_keepsLives s i).trans (takeHeld_keepsLives _)

theorem State.TablesFit.sinkOutcome (w : s.TablesFit) (i : Slot) (hc : s.link.confirm = none) :
    (sinkOutcome i s).TablesFit := by
  unfold Machine.sinkOutcome
  split
  · exact w.takeHeld
  · exact w.takeHeld
  · exact w.takeHeld
  · exact w.refuseHeld
  · rename_i ha
    split
    · exact w.takeHeld
    · rename_i hm
      split
      · exact w.refuseHeld
      · rename_i hl
        have hl' : s.link.sinks.length < Config.sinkLimit := Nat.lt_of_not_le hl
        split
        · exact w.openConfirm ha (fun e => by cases e) (fun _ => ⟨hm, hl'⟩)
        · exact (w.applySink ha hc hm hl').takeHeld

theorem sinkOutcome_resolved (i : Slot) (hc : s.link.confirm = none) (hs : s.link.held.isSome = true) :
    s.Resolved (sinkOutcome i s) := by
  unfold sinkOutcome
  split
  · exact resolved_takeHeld hc
  · exact resolved_takeHeld hc
  · exact resolved_takeHeld hc
  · exact resolved_refuseHeld hc
  · split
    · exact resolved_takeHeld hc
    · split
      · exact resolved_refuseHeld hc
      · split
        · exact resolved_openConfirm _ _ rfl hs
        · exact resolved_takeHeld ((applySink_confirm _ _).trans hc)

theorem sinkOutcome_lines (s : State) (i : Slot) : (sinkOutcome i s).lines = s.lines := by
  unfold sinkOutcome
  split
  · rfl
  · rfl
  · rfl
  · rfl
  · split
    · rfl
    · split
      · rfl
      · split
        · exact openConfirm_lines _ _ _
        · exact applySink_lines _ _

theorem resolveSink_keepsLives (s : State) (f : Option Owner) : s.KeepsLives (resolveSink f s) := by
  unfold resolveSink
  split
  · exact takeHeld_keepsLives s
  · exact refuseHeld_keepsLives s
  · exact sinkOutcome_keepsLives s _
  · exact sinkOutcome_keepsLives s _

/-- The resolution of a NAME-SINK keeps the tables' conditions (R97). -/
theorem State.TablesFit.resolveSink (w : s.TablesFit) (f : Option Owner) (hc : s.link.confirm = none) :
    (resolveSink f s).TablesFit := by
  unfold Machine.resolveSink
  split
  · exact w.takeHeld
  · exact w.refuseHeld
  · exact w.sinkOutcome _ hc
  · exact w.sinkOutcome _ hc

theorem resolveSink_resolved (f : Option Owner) (hc : s.link.confirm = none) (hs : s.link.held.isSome = true) :
    s.Resolved (resolveSink f s) := by
  unfold resolveSink
  split
  · exact resolved_takeHeld hc
  · exact resolved_refuseHeld hc
  · exact sinkOutcome_resolved _ hc hs
  · exact sinkOutcome_resolved _ hc hs

theorem resolveSink_lines (s : State) (f : Option Owner) : (resolveSink f s).lines = s.lines := by
  unfold resolveSink
  split
  · rfl
  · rfl
  · exact sinkOutcome_lines _ _
  · exact sinkOutcome_lines _ _

end Sys2Proof.Machine
end

