-- ==== Sys2Proof/Laws/Sinks.lean ====
section
/-! SUPPORT. The control units that go through the sink list (R99, R112, R134, R135) and QUERY (R119): they keep
lives, the naming state but what they name, and the tables' conditions. -/

namespace Sys2Proof.Machine

variable {s t u : State}

/-- A minor change to a record keeps lives. -/
theorem State.KeepsLives.minor (i : Slot) (f : Record → Record) (m : (s.record i).Minor (f (s.record i))) :
    s.KeepsLives (s.updRecord i f) :=
  ⟨updRecord_minor_state i f m, updRecord_minor_generation i f m, updRecord_minor_primaryTag i f m,
    updRecord_minor_aliasTag i f m, by simp, by simp, by simp, by simp, by simp⟩

/-! ### Moves over the sink list -/

/-- A move that works on records and notices alone: the lives, the link, the lines and the call queue stand. -/
structure State.OnRecords (s t : State) : Prop where
  lives : s.KeepsLives t
  link : t.link = s.link
  lines : t.lines = s.lines
  calls : t.calls = s.calls

theorem State.OnRecords.refl (s : State) : s.OnRecords s := ⟨.refl s, rfl, rfl, rfl⟩

theorem State.OnRecords.trans (a : s.OnRecords t) (b : t.OnRecords u) : s.OnRecords u :=
  ⟨a.lives.trans b.lives, b.link.trans a.link, b.lines.trans a.lines, b.calls.trans a.calls⟩

theorem State.OnRecords.post (a : s.OnRecords t) (k : NoticeKind) (i : Slot) :
    s.OnRecords (Machine.postRecord k i t) :=
  ⟨a.lives.post k i, by simpa using a.link, by simpa using a.lines, by simpa using a.calls⟩

theorem State.OnRecords.minor (i : Slot) (f : Record → Record) (m : (s.record i).Minor (f (s.record i))) :
    s.OnRecords (s.updRecord i f) :=
  ⟨.minor i f m, by simp, by simp, by simp⟩

/-- A fold of moves over handles of ACTIVE records keeps the tables' conditions and works on records alone. -/
theorem foldl_sinks (f : State → Handle → State)
    (hf : ∀ (t : State) (h : Handle), t.TablesFit → (t.record h.slot).state = .active →
      (f t h).TablesFit ∧ t.OnRecords (f t h)) :
    ∀ (l : List Handle) (s : State), s.TablesFit → (∀ h ∈ l, (s.record h.slot).state = .active) →
      (l.foldl f s).TablesFit ∧ s.OnRecords (l.foldl f s) := by
  intro l
  induction l with
  | nil => intro s w _; exact ⟨w, .refl s⟩
  | cons h l ih =>
    intro s w ha
    have h1 := hf s h w (ha h (by simp))
    have h2 := ih (f s h) h1.1 (fun x hx => by
      rw [h1.2.lives.state]; exact ha x (by simp [hx]))
    exact ⟨h2.1, h1.2.trans h2.2⟩

theorem State.NamingFits.sinksActive (w : s.NamingFits) :
    ∀ h ∈ s.link.sinks, (s.record h.slot).state = .active := fun h e => (w.sinks h e).2

/-! ### SIGNAL -/

theorem Record.minor_signals {r : Record} (w : r.Fits) (ha : r.state = .active) (g : BitVec 16) :
    r.Minor { r with signals := g } :=
  ⟨rfl, rfl, rfl, rfl, rfl, rfl,
    { free := fun e => by rw [show _ = SlotState.active from ha] at e; cases e
      sets := fun e => by simp [Record.inService, ha] at e
      quiet := w.quiet
      endChar := w.endChar }⟩

/-- SIGNAL keeps the tables' conditions and works on records alone (R112). -/
theorem signalSinks_fits (w : s.TablesFit) (c : BitVec 4) :
    (signalSinks c s).TablesFit ∧ s.OnRecords (signalSinks c s) :=
  foldl_sinks _ (fun t h wt ha => by
    have m := Record.minor_signals (wt.records h.slot) ha ((t.record h.slot).signals ||| signalBit c)
    exact ⟨(wt.updRecord_minor h.slot _ m).postRecord _ _, (State.OnRecords.minor h.slot _ m).post _ _⟩)
    _ _ w w.naming.sinksActive

/-! ### Poll assignments -/

theorem Record.minor_poll {r : Record} (w : r.Fits) (ha : r.state = .active) (p : Option PollAssignment) :
    r.Minor { r with poll := p } :=
  ⟨rfl, rfl, rfl, rfl, rfl, rfl,
    { free := fun e => by rw [show _ = SlotState.active from ha] at e; cases e
      sets := w.sets
      quiet := w.quiet
      endChar := w.endChar }⟩

theorem assignSinks_fits (w : s.TablesFit) (a : PollAssignment) :
    (assignSinks a s).TablesFit ∧ s.OnRecords (assignSinks a s) :=
  foldl_sinks _ (fun t h wt ha => by
    unfold assignSink
    split
    · have m := Record.minor_poll (wt.records h.slot) ha (some a)
      exact ⟨(wt.updRecord_minor h.slot _ m).postRecord _ _, (State.OnRecords.minor h.slot _ m).post _ _⟩
    · exact ⟨wt, .refl t⟩)
    _ _ w w.naming.sinksActive

theorem releaseSinks_fits (w : s.TablesFit) : (releaseSinks s).TablesFit ∧ s.OnRecords (releaseSinks s) :=
  foldl_sinks _ (fun t h wt ha => by
    unfold releaseSink
    split
    · have m := Record.minor_poll (wt.records h.slot) ha none
      exact ⟨(wt.updRecord_minor h.slot _ m).postRecord _ _, (State.OnRecords.minor h.slot _ m).post _ _⟩
    · exact ⟨wt, .refl t⟩)
    _ _ w w.naming.sinksActive

/-! ### DROP-SINKS -/

theorem State.NamingFits.noSinks (w : s.NamingFits) : ({ s with link.sinks := [] } : State).NamingFits where
  source h e := ⟨(w.source h e).1, by simp⟩
  sinks h e := by cases e
  once := List.nodup_nil
  limit := Nat.zero_le _
  confirm := w.confirm
  confirmSource := w.confirmSource
  confirmSink _ _ _ := ⟨by simp, by simp [Config.sinkLimit]⟩
  armed := w.armed

theorem State.TablesFit.noSinks (w : s.TablesFit) : ({ s with link.sinks := [] } : State).TablesFit :=
  w.withNaming rfl rfl rfl rfl rfl rfl w.naming.noSinks

/-- DROP-SINKS keeps the tables' conditions, and changes the link in the sink list alone (R99). -/
theorem dropSinkList_fits (w : s.TablesFit) :
    (dropSinkList s).TablesFit ∧ ({ s with link.sinks := [] } : State).OnRecords (dropSinkList s) :=
  foldl_sinks _ (fun t _ wt _ => ⟨wt.postRecord _ _, (State.OnRecords.refl t).post _ _⟩) _ _ w.noSinks
    w.naming.sinksActive

/-! ### QUERY -/

theorem State.TablesFit.armQuery (w : s.TablesFit) : (armQuery s).TablesFit := by
  unfold Machine.armQuery
  split
  · rename_i h e
    exact w.withNaming rfl rfl rfl rfl rfl rfl
      { source := w.naming.source
        sinks := w.naming.sinks
        once := w.naming.once
        limit := w.naming.limit
        confirm := w.naming.confirm
        confirmSource := w.naming.confirmSource
        confirmSink := w.naming.confirmSink
        armed := fun _ => ⟨h, e⟩ }
  · exact w
  · exact w

theorem armQuery_keepsLives (s : State) : s.KeepsLives (armQuery s) := by
  unfold armQuery; split
  · exact .of_eq rfl rfl rfl rfl rfl rfl
  · exact .refl s
  · exact .refl s

end Sys2Proof.Machine
end

