-- ==== Sys2Proof/Laws/Detach.lean ====
section
/-! SUPPORT. The call queue (R114) and detachment (R47, R48): what each does to the conditions. -/

namespace Sys2Proof.Machine

variable {s t : State}

/-! ### The call state of one record -/

/-- The queue with a record's calls: what the condition on the queue says after the call state of one record
changes together with its place in the queue. -/
theorem State.QueueFits.join (w : s.QueueFits) {i : Slot} (hq : (s.record i).call = .quiet)
    (hg : ∀ j, (t.record j).generation = (s.record j).generation)
    (hc : ∀ j, (t.record j).call = if i = j then .calling else (s.record j).call)
    (ht : t.calls.queue = s.calls.queue ++ [s.handleOf i]) : t.QueueFits where
  once := by
    rw [ht]
    refine List.nodup_append.mpr ⟨w.once, by simp, ?_⟩
    intro a ha b hb
    rw [List.mem_singleton] at hb
    subst hb
    rintro rfl
    have := ((w.calling _).mp ha).2
    rw [show (s.record (s.handleOf i).slot).call = _ from hq] at this
    cases this
  calling h := by
    rw [ht, List.mem_append, List.mem_singleton, w.calling, State.current_congr (hg _), hc]
    by_cases e : i = h.slot
    · subst e
      simp only [if_true, and_true, hq]
      constructor
      · rintro (x | x)
        · cases x.2
        · rw [x]; rfl
      · intro x; exact Or.inr x.symm
    · simp only [e, if_false]
      constructor
      · rintro (x | x)
        · exact x
        · exact absurd (by rw [x]; rfl) e
      · exact Or.inl

theorem State.QueueFits.leave (w : s.QueueFits) {i : Slot}
    (hg : ∀ j, (t.record j).generation = (s.record j).generation)
    (hc : ∀ j, (t.record j).call = if i = j then .quiet else (s.record j).call)
    (ht : t.calls.queue = s.calls.queue.filter (· ≠ s.handleOf i)) : t.QueueFits where
  once := by rw [ht]; exact w.once.filter _
  calling h := by
    rw [ht, List.mem_filter, w.calling, State.current_congr (hg _), hc]
    by_cases e : i = h.slot
    · subst e
      simp only [if_true, decide_eq_true_eq, ne_eq]
      constructor
      · rintro ⟨⟨x, _⟩, y⟩
        exact absurd x.symm y
      · rintro ⟨_, x⟩; cases x
    · simp only [e, if_false, decide_eq_true_eq, ne_eq]
      constructor
      · exact fun x => x.1
      · intro x; exact ⟨x, fun y => e (by rw [y]; rfl)⟩

/-- A change of one record's call state that leaves state, generation, tags and notices. -/
theorem updRecord_call_fields (i j : Slot) (c : CallState) :
    ((s.updRecord i fun r => { r with call := c }).record j).state = (s.record j).state ∧
    ((s.updRecord i fun r => { r with call := c }).record j).generation = (s.record j).generation ∧
    ((s.updRecord i fun r => { r with call := c }).record j).primaryTag = (s.record j).primaryTag ∧
    ((s.updRecord i fun r => { r with call := c }).record j).aliasTag = (s.record j).aliasTag ∧
    ((s.updRecord i fun r => { r with call := c }).record j).notices = (s.record j).notices ∧
    ((s.updRecord i fun r => { r with call := c }).record j).call = if i = j then c else (s.record j).call := by
  rw [State.record_updRecord]
  split
  · rename_i e; subst e; exact ⟨rfl, rfl, rfl, rfl, rfl, rfl⟩
  · exact ⟨rfl, rfl, rfl, rfl, rfl, rfl⟩

section
variable {c : CallState} {i : Slot}

theorem State.KeepsLives.callOf (ht : t.records = (s.updRecord i fun r => { r with call := c }).records)
    (h2 : t.freeList = s.freeList) (h3 : t.directory = s.directory) (h4 : t.managementTag = s.managementTag)
    (h5 : t.engine = s.engine) (h6 : t.request = s.request) : s.KeepsLives t := by
  have hr := State.record_congr ht
  exact ⟨fun j => by rw [hr]; exact (updRecord_call_fields i j c).1,
    fun j => by rw [hr]; exact (updRecord_call_fields i j c).2.1,
    fun j => by rw [hr]; exact (updRecord_call_fields i j c).2.2.1,
    fun j => by rw [hr]; exact (updRecord_call_fields i j c).2.2.2.1, h2, h3, h4, h5, h6⟩

theorem State.TablesFit.callOf (w : s.TablesFit)
    (ht : t.records = (s.updRecord i fun r => { r with call := c }).records)
    (hs : c = .calling → (s.record i).state = .active)
    (h2 : t.freeList = s.freeList) (h3 : t.directory = s.directory) (h4 : t.managementTag = s.managementTag)
    (h7 : t.link.source = s.link.source) (h8 : t.link.sinks = s.link.sinks)
    (h9 : t.link.confirm = s.link.confirm) (h10 : t.link.queryArmed = s.link.queryArmed)
    (h13 : t.notice.attention = s.notice.attention) (hq : t.QueueFits) : t.TablesFit := by
  have hr := State.record_congr ht
  have f := updRecord_call_fields (s := s) i (c := c)
  exact
    { records := fun j => by
        rw [hr, State.record_updRecord]
        split
        · rename_i e
          have wi := w.records i
          exact
            { free := fun e' => by
                have e'' : (s.record i).state = .free := e'
                have hq' : c = .quiet := by
                  cases c with
                  | quiet => rfl
                  | calling => rw [hs rfl] at e''; cases e''
                subst hq'
                show ({ s.record i with call := .quiet } : Record) = Record.cleared (s.record i).generation
                have := wi.free e''
                rw [this]; rfl
              sets := wi.sets
              quiet := fun e' => by
                have e'' : (s.record i).state ≠ .active := e'
                cases c with
                | quiet => rfl
                | calling => exact absurd (hs rfl) e''
              endChar := wi.endChar }
        · exact w.records j
      freeList := w.freeList.congr (fun j => by rw [hr]; exact (f j).1) h2
      queue := hq
      attention := w.attention.congr (fun j => by rw [hr]; exact (f j).2.1)
        (fun j => by rw [hr]; exact (f j).2.2.2.2.1) h13
      naming := w.naming.congr (fun j => by rw [hr]; exact (f j).2.1) (fun j => by rw [hr]; exact (f j).1)
        h7 h8 h9 h10
      ordered := w.ordered.congr h3
      agrees := w.agrees.congr h3
        (State.tagOf_congr (fun j => Record.live_congr (by rw [hr]; exact (f j).1))
          (fun j => by rw [hr]; exact (f j).2.2.1) (fun j => by rw [hr]; exact (f j).2.2.2.1) h4) }

end

/-- A CALL of an ACTIVE, QUIET record keeps the tables' conditions (R117). -/
theorem State.TablesFit.joinQueue (w : s.TablesFit) {i : Slot} (ha : (s.record i).state = .active)
    (hq : (s.record i).call = .quiet) : (joinQueue i s).TablesFit :=
  w.callOf (i := i) (c := .calling) rfl (fun _ => ha) rfl rfl rfl rfl rfl rfl rfl rfl
    (w.queue.join hq (fun j => (updRecord_call_fields i j _).2.1)
      (fun j => (updRecord_call_fields i j _).2.2.2.2.2) rfl)

theorem joinQueue_keepsLives (s : State) (i : Slot) : s.KeepsLives (joinQueue i s) :=
  .callOf (c := .calling) (i := i) rfl rfl rfl rfl rfl rfl

/-- A record's leaving the call queue keeps the tables' conditions (R118). -/
theorem State.TablesFit.leaveQueue (w : s.TablesFit) (i : Slot) : (leaveQueue i s).TablesFit :=
  w.callOf (i := i) (c := .quiet) rfl (fun e => by cases e) rfl rfl rfl rfl rfl rfl rfl rfl
    (w.queue.leave (fun j => (updRecord_call_fields i j _).2.1)
      (fun j => (updRecord_call_fields i j _).2.2.2.2.2) rfl)

theorem leaveQueue_keepsLives (s : State) (i : Slot) : s.KeepsLives (leaveQueue i s) :=
  .callOf (c := .quiet) (i := i) rfl rfl rfl rfl rfl rfl

/-! ### The link part of a detachment -/

/-- The record is out of the naming state. -/
structure State.Unnamed (s : State) (h : Handle) : Prop where
  source : s.link.source ≠ .record h
  sinks : h ∉ s.link.sinks
  confirm : ∀ c, s.link.confirm = some c → c.handle ≠ h

theorem detachLink_keepsLives (s : State) (i : Slot) : s.KeepsLives (detachLink i s) := by
  have m := releaseIfSource_keepsLives s (s.handleOf i)
  have m2 : s.KeepsLives { releaseIfSource (s.handleOf i) s with
      link.sinks := (releaseIfSource (s.handleOf i) s).link.sinks.filter (· ≠ s.handleOf i) } :=
    m.trans (.of_eq rfl rfl rfl rfl rfl rfl)
  unfold detachLink refuseConfirmOf
  dsimp only
  split
  · exact m2.trans (refuseConfirm_keepsLives _)
  · exact m2

theorem State.NamingFits.dropSink (w : s.NamingFits) (h : Handle) :
    ({ s with link.sinks := s.link.sinks.filter (· ≠ h) } : State).NamingFits where
  source x e := ⟨(w.source x e).1, fun m => (w.source x e).2 (List.mem_of_mem_filter m)⟩
  sinks x e := w.sinks x (List.mem_of_mem_filter e)
  once := w.once.filter _
  limit := (List.length_filter_le _ _).trans w.limit
  confirm := w.confirm
  confirmSource := w.confirmSource
  confirmSink c e r := ⟨fun m => (w.confirmSink c e r).1 (List.mem_of_mem_filter m),
    lt_of_le_of_lt (List.length_filter_le _ _) (w.confirmSink c e r).2⟩
  armed := w.armed

/-- The link part of a detachment keeps the tables' conditions, and leaves the record out of the naming
state (R47). -/
theorem State.TablesFit.detachLink (w : s.TablesFit) (i : Slot) :
    (detachLink i s).TablesFit ∧ (detachLink i s).Unnamed (s.handleOf i) := by
  have w1 := w.releaseIfSource (s.handleOf i)
  have hne := releaseIfSource_source s (s.handleOf i)
  unfold Machine.detachLink refuseConfirmOf
  dsimp only
  generalize Machine.releaseIfSource (s.handleOf i) s = r at *
  have w2 : ({ r with link.sinks := r.link.sinks.filter (· ≠ s.handleOf i) } : State).TablesFit :=
    w1.withNaming rfl rfl rfl rfl rfl rfl (w1.naming.dropSink _)
  split
  · exact ⟨w2.refuseConfirm, hne, by simp [Machine.refuseConfirm, Machine.refuseHeld], fun c e => by cases e⟩
  · rename_i hc
    refine ⟨w2, hne, by simp, fun c e h => hc ?_⟩
    rw [show r.link.confirm = some c from e]
    simp [h]

/-! ### The call and poll part, with the change of state -/

/-- A record out of the naming state leaves ACTIVE or SUSPENDED for SUSPENDED or RETIRING: the tables' conditions
are kept (R48, R50, R57). -/
theorem State.TablesFit.detachCalls (w : s.TablesFit) {i : Slot} {st : SlotState}
    (hu : s.Unnamed (s.handleOf i)) (hi : (s.record i).inService = true)
    (hst : st = .suspended ∨ st = .retiring ∧ (s.record i).notices = 0#8 ∧ (s.record i).signals = 0#16) :
    (detachCalls i st s).TablesFit := by
  have hr : ∀ j, (Machine.detachCalls i st s).record j =
      if i = j then { s.record i with state := st, call := .quiet } else s.record j := by
    intro j; simp [Machine.detachCalls]
  have hg : ∀ j, ((Machine.detachCalls i st s).record j).generation = (s.record j).generation := by
    intro j; rw [hr]; split
    · rename_i e; subst e; rfl
    · rfl
  have hstate : ∀ j, i ≠ j → ((Machine.detachCalls i st s).record j).state = (s.record j).state := by
    intro j e; rw [hr, if_neg e]
  have hfree : (s.record i).state ≠ .free := by
    intro e; simp [Record.inService, e] at hi
  have hstf : st ≠ .free ∧ st ≠ .active := by
    rcases hst with e | e
    · subst e; exact ⟨by decide, by decide⟩
    · rw [e.1]; exact ⟨by decide, by decide⟩
  have hact : ∀ h, h ≠ s.handleOf i → s.active h → (Machine.detachCalls i st s).active h := by
    intro h hne ha
    have hi' : i ≠ h.slot := by
      rintro rfl
      exact hne ha.1.symm
    exact (State.active_congr (hg _) (hstate _ hi')).mpr ha
  exact
    { records := fun j => by
        rw [hr]; split
        · have wi := w.records i
          exact
            { free := fun e => absurd e hstf.1
              sets := fun e => by
                rcases hst with x | x
                · subst x; simp [Record.inService] at e
                · exact x.2
              quiet := fun _ => rfl
              endChar := wi.endChar }
        · exact w.records j
      freeList :=
        { once := w.freeList.once
          free := fun j => by
            show j ∈ s.freeList ↔ _
            rw [w.freeList.free, hr]
            split
            · rename_i e; subst e
              constructor
              · intro x; exact absurd x hfree
              · intro x; exact absurd x hstf.1
            · exact Iff.rfl }
      queue := w.queue.leave hg (fun j => by rw [hr]; split <;> rfl) rfl
      attention := w.attention.congr hg
        (fun j => by rw [hr]; split
                     · rename_i e; subst e; rfl
                     · rfl) rfl
      naming :=
        { source := fun h e => by
            have := w.naming.source h e
            exact ⟨hact h (fun x => hu.source (by rw [← x]; exact e)) this.1, this.2⟩
          sinks := fun h e => hact h (fun x => hu.sinks (by rw [← x]; exact e)) (w.naming.sinks h e)
          once := w.naming.once
          limit := w.naming.limit
          confirm := fun c e => hact _ (hu.confirm c e) (w.naming.confirm c e)
          confirmSource := w.naming.confirmSource
          confirmSink := w.naming.confirmSink
          armed := w.naming.armed }
      ordered := w.ordered.congr (by rfl)
      agrees := w.agrees.congr (by rfl) (State.tagOf_congr
        (fun j => by
          rw [hr]; split
          · rename_i e; subst e
            have h1 : (s.record i).live = true := by simp [Record.live, hi]
            rw [h1]
            rcases hst with x | x
            · subst x; rfl
            · rw [x.1]; rfl
          · rfl)
        (fun j => by rw [hr]; split
                     · rename_i e; subst e; rfl
                     · rfl)
        (fun j => by rw [hr]; split
                     · rename_i e; subst e; rfl
                     · rfl) (by rfl)) }

end Sys2Proof.Machine
end

