-- ==== Sys2Proof/Laws/Directory.lean ====
section
/-! SUPPORT. The four operations of the directory (R27 to R30): which entries they leave, that they keep the order,
and how the directory and the records stay in agreement through them (R23, R24). -/

namespace Sys2Proof.Machine

/-! ### Placing an entry -/

theorem mem_placeEntry (e x : Entry) (d : List Entry) : x ∈ placeEntry e d ↔ x = e ∨ x ∈ d := by
  induction d with
  | nil => simp [placeEntry]
  | cons y d ih =>
    unfold placeEntry
    split
    · simp
    · simp only [List.mem_cons, ih]; tauto

theorem length_placeEntry (e : Entry) (d : List Entry) : (placeEntry e d).length = d.length + 1 := by
  induction d with
  | nil => rfl
  | cons y d ih => unfold placeEntry; split <;> simp [ih]

/-- A list of entries in strictly ascending order of tag (R23). -/
abbrev Ascending (d : List Entry) : Prop := d.Pairwise fun a b => a.tag < b.tag

theorem holdsTag_eq_false {t : Word} {d : List Entry} : holdsTag t d = false ↔ ∀ x ∈ d, x.tag ≠ t := by
  simp [holdsTag]

theorem Ascending.placeEntry {e : Entry} {d : List Entry} (h : Ascending d) (hn : ∀ x ∈ d, x.tag ≠ e.tag) :
    Ascending (placeEntry e d) := by
  induction d with
  | nil => simp [Machine.placeEntry]
  | cons y d ih =>
    have hy := List.pairwise_cons.mp h
    unfold Machine.placeEntry
    split
    · rename_i hlt
      refine List.pairwise_cons.mpr ⟨?_, h⟩
      intro x hx
      rcases List.mem_cons.mp hx with rfl | hx
      · exact hlt
      · exact BitVec.lt_trans hlt (hy.1 x hx)
    · rename_i hlt
      refine List.pairwise_cons.mpr ⟨?_, ih hy.2 (fun x hx => hn x (by simp [hx]))⟩
      intro x hx
      rcases (mem_placeEntry e x d).mp hx with rfl | hx
      · have := hn y (by simp)
        rw [BitVec.lt_def] at hlt ⊢
        have h2 : y.tag.toNat ≠ x.tag.toNat := fun c => this (BitVec.eq_of_toNat_eq c)
        omega
      · exact hy.1 x hx

/-! ### Lookup -/

/-- In an ascending directory the lookup answers exactly the entry that holds the tag (R27). -/
theorem lookupTag_iff {d : List Entry} (h : Ascending d) (t : Word) (o : Owner) :
    lookupTag t d = some o ↔ { tag := t, owner := o : Entry } ∈ d := by
  induction d with
  | nil => simp [lookupTag]
  | cons y d ih =>
    have hy := List.pairwise_cons.mp h
    unfold lookupTag
    split
    · rename_i e
      subst e
      constructor
      · intro e; simp only [Option.some.injEq] at e; subst e; simp
      · intro e
        rcases List.mem_cons.mp e with e | e
        · rw [← e]
        · exact absurd (hy.1 _ e) (by simp)
    · rename_i e
      rw [ih hy.2, List.mem_cons]
      constructor
      · exact Or.inr
      · rintro (x | x)
        · exact absurd (by rw [← x]) e
        · exact x

/-! ### Insert -/

/-- What an insert that succeeds leaves (R28). -/
theorem placeEntries_spec (es : List Entry) : ∀ (d : List Entry), Ascending d →
    (es.map Entry.tag).Nodup → (∀ e ∈ es, ∀ x ∈ d, x.tag ≠ e.tag) →
    Ascending (placeEntries es d) ∧ (placeEntries es d).length = d.length + es.length ∧
      ∀ x, x ∈ placeEntries es d ↔ x ∈ es ∨ x ∈ d := by
  induction es with
  | nil => intro d h _ _; exact ⟨h, rfl, by simp [placeEntries]⟩
  | cons e es ih =>
    intro d h hn hd
    have hn' := List.nodup_cons.mp hn
    have h1 : Ascending (placeEntry e d) := h.placeEntry (hd e (by simp))
    have h2 := ih (placeEntry e d) h1 hn'.2 (by
      intro e' he' x hx
      rcases (mem_placeEntry e x d).mp hx with rfl | hx
      · intro c; exact hn'.1 (List.mem_map.mpr ⟨e', he', c.symm⟩)
      · exact hd e' (by simp [he']) x hx)
    refine ⟨h2.1, ?_, ?_⟩
    · unfold placeEntries; rw [h2.2.1, length_placeEntry, List.length_cons]; omega
    · intro x
      unfold placeEntries
      rw [h2.2.2, mem_placeEntry, List.mem_cons]
      tauto

/-- An insert of entries with different tags, when it succeeds (R28). -/
theorem insertEntries_made {es d d' : List Entry} (h : Ascending d) (hn : (es.map Entry.tag).Nodup)
    (e : insertEntries es d = .made d') :
    Ascending d' ∧ d'.length ≤ Config.directoryLimit ∧ ∀ x, x ∈ d' ↔ x ∈ es ∨ x ∈ d := by
  unfold insertEntries at e
  split at e
  · cases e
  · rename_i ht
    split at e
    · cases e
    · rename_i hl
      obtain rfl : placeEntries es d = d' := by simpa using e
      have hd : ∀ a ∈ es, ∀ x ∈ d, x.tag ≠ a.tag := by
        intro a ha x hx c
        exact ht (List.any_eq_true.mpr ⟨a, ha, by simpa [holdsTag] using ⟨x, hx, c⟩⟩)
      have := placeEntries_spec es d h hn hd
      exact ⟨this.1, by rw [this.2.1]; exact Nat.le_of_not_lt hl, this.2.2⟩

/-! ### Replace -/

theorem Ascending.sublist {d d' : List Entry} (h : Ascending d) (s : d'.Sublist d) : Ascending d' :=
  List.Pairwise.sublist s h

/-- A replace that succeeds with its target present (R30). -/
theorem replaceEntry_made {target : Owner} {t : Word} {d d' : List Entry} (h : Ascending d)
    (hp : ∃ x ∈ d, x.owner = target) (e : replaceEntry target t d = .made d') :
    Ascending d' ∧ d'.length ≤ d.length ∧
      ∀ x, x ∈ d' ↔ x = { tag := t, owner := target } ∨ x ∈ d ∧ x.owner ≠ target := by
  obtain ⟨y, hy, hyo⟩ := hp
  unfold replaceEntry at e
  split at e
  · cases e
  · rename_i ht
    have ht' : ∀ x ∈ d, x.tag ≠ t := holdsTag_eq_false.mp (by simpa using ht)
    rw [if_pos (List.any_eq_true.mpr ⟨y, hy, by simp [hyo]⟩)] at e
    obtain rfl : _ = d' := by simpa using e
    have hf : ∀ x, x ∈ d.filter (fun e => e.owner != target) ↔ x ∈ d ∧ x.owner ≠ target := by
      intro x; simp [List.mem_filter]
    refine ⟨?_, ?_, ?_⟩
    · refine Ascending.placeEntry (h.sublist List.filter_sublist) ?_
      intro x hx
      exact ht' x ((hf x).mp hx).1
    · rw [length_placeEntry]
      have hlt : (d.filter (fun e => e.owner != target)).length < d.length :=
        List.length_filter_lt_length_iff_exists.mpr ⟨y, hy, by simp [hyo]⟩
      exact hlt
    · intro x
      rw [mem_placeEntry, hf]

/-! ### Remove -/

theorem mem_removeEntries (what : Designation) (d : List Entry) (x : Entry) :
    x ∈ removeEntries what d ↔ x ∈ d ∧ what.takes x.owner = false := by
  simp [removeEntries, List.mem_filter]

theorem removeEntries_sublist (what : Designation) (d : List Entry) : (removeEntries what d).Sublist d :=
  List.filter_sublist

/-! ### The directory's conditions after each change -/

variable {s t : State}

theorem State.DirectoryOrdered.insert (w : s.DirectoryOrdered) {es d : List Entry}
    (hn : (es.map Entry.tag).Nodup) (hz : ∀ e ∈ es, e.tag ≠ 0#16) (e : insertEntries es s.directory = .made d)
    (ht : t.directory = d) : t.DirectoryOrdered := by
  have := insertEntries_made w.sorted hn e
  refine ⟨by rw [ht]; exact this.1, ?_, by rw [ht]; exact this.2.1⟩
  intro x hx
  rw [ht, this.2.2] at hx
  rcases hx with hx | hx
  · exact hz x hx
  · exact w.valid x hx

theorem State.DirectoryOrdered.remove (w : s.DirectoryOrdered) {what : Designation}
    (ht : t.directory = removeEntries what s.directory) : t.DirectoryOrdered where
  sorted := by rw [ht]; exact w.sorted.sublist (removeEntries_sublist _ _)
  valid := by
    rw [ht]; intro x hx; exact w.valid x ((mem_removeEntries _ _ _).mp hx).1
  limit := by rw [ht]; exact (removeEntries_sublist _ _).length_le.trans w.limit

theorem State.DirectoryOrdered.replace (w : s.DirectoryOrdered) {o : Owner} {tag : Word} {d : List Entry}
    (hp : ∃ x ∈ s.directory, x.owner = o) (hz : tag ≠ 0#16) (e : replaceEntry o tag s.directory = .made d)
    (ht : t.directory = d) : t.DirectoryOrdered := by
  have := replaceEntry_made w.sorted hp e
  refine ⟨by rw [ht]; exact this.1, ?_, by rw [ht]; exact this.2.1.trans w.limit⟩
  intro x hx
  rw [ht, this.2.2] at hx
  rcases hx with rfl | hx
  · exact hz
  · exact w.valid x hx.1

/-- An insert keeps the agreement when the owners of its entries now hold the tags given and every other owner
what it held (R24, R28, R31). -/
theorem State.DirectoryAgrees.insert (w : s.DirectoryAgrees) (o : s.DirectoryOrdered) {es d : List Entry}
    (hn : (es.map Entry.tag).Nodup) (e : insertEntries es s.directory = .made d) (ht : t.directory = d)
    (hnew : ∀ tag ow, t.tagOf ow = some tag ↔ { tag := tag, owner := ow : Entry } ∈ es ∨ s.tagOf ow = some tag) :
    t.DirectoryAgrees := by
  intro tag ow
  rw [ht, (insertEntries_made o.sorted hn e).2.2, w tag ow, hnew]

/-- A remove keeps the agreement when the owners it takes out hold no tag after it and the others hold what they
held (R24, R29, R31). -/
theorem State.DirectoryAgrees.remove (w : s.DirectoryAgrees) {what : Designation}
    (ht : t.directory = removeEntries what s.directory)
    (hnew : ∀ ow, t.tagOf ow = if what.takes ow then none else s.tagOf ow) : t.DirectoryAgrees := by
  intro tag ow
  rw [ht, mem_removeEntries, w tag ow, hnew]
  by_cases h : what.takes ow = true <;> simp [h]

/-- A replace keeps the agreement when its target held a tag and now holds the new one (R24, R30, R31). -/
theorem State.DirectoryAgrees.replace (w : s.DirectoryAgrees) (o : s.DirectoryOrdered) {ow : Owner} {tag : Word}
    {d : List Entry} (hp : s.tagOf ow ≠ none) (e : replaceEntry ow tag s.directory = .made d)
    (ht : t.directory = d) (hnew : ∀ x, t.tagOf x = if x = ow then some tag else s.tagOf x) :
    t.DirectoryAgrees := by
  obtain ⟨old, ho⟩ := Option.ne_none_iff_exists'.mp hp
  have hm : ∃ x ∈ s.directory, x.owner = ow := ⟨_, (w old ow).mpr ho, rfl⟩
  intro tag' ow'
  rw [ht, (replaceEntry_made o.sorted hm e).2.2, w tag' ow', hnew]
  by_cases h : ow' = ow
  · subst h
    simp only [Entry.mk.injEq, and_true, ne_eq, not_true_eq_false, and_false, or_false, if_true, Option.some.injEq]
    exact eq_comm
  · simp [h]

/-- The target of a replace is present when its owner holds a tag (R24). -/
theorem State.DirectoryAgrees.present (w : s.DirectoryAgrees) {ow : Owner} (hp : s.tagOf ow ≠ none) :
    ∃ x ∈ s.directory, x.owner = ow := by
  obtain ⟨old, ho⟩ := Option.ne_none_iff_exists'.mp hp
  exact ⟨_, (w old ow).mpr ho, rfl⟩

end Sys2Proof.Machine
end

