-- ==== Sys2Proof/Laws/Engine.lean ====
section
/-! SUPPORT. The Directory Engine's claims (R32 to R35) and the held unit (R69): what sending, taking and
withdrawing a claim do to the conditions on both. -/

namespace Sys2Proof.Machine

variable {s t : State}

/-! ### The held unit -/

/-- The unit held, if any, is held for none of the causes lookup, confirm and replace (R69). -/
structure State.PlainHold (s : State) : Prop where
  confirm : s.holdCause ≠ some .confirm
  lookup : s.holdCause ≠ some .lookup
  replace : s.holdCause ≠ some .replace

theorem State.PlainHold.of_none (h : s.link.held = none) : s.PlainHold := by
  constructor <;> simp [State.holdCause, h]

/-- With a plain hold nothing is pending and no link operation is due. -/
theorem State.HoldFits.quiet (w : s.HoldFits) (p : s.PlainHold) :
    s.link.confirm = none ∧ ¬ s.lookupDue ∧ ¬ s.replaceDue := by
  refine ⟨?_, fun h => p.lookup (w.lookup.mp h), fun h => p.replace (w.replace.mp h)⟩
  by_contra h
  exact p.confirm (w.confirm.mp (Option.isSome_iff_ne_none.mpr h))

theorem State.HoldFits.noLinkClaim (w : s.HoldFits) (p : s.PlainHold) : s.engine.linkClaim = none := by
  have q := w.quiet p
  cases h : s.engine.linkClaim with
  | none => rfl
  | some c =>
    cases c with
    | lookup r tag => exact absurd (Or.inr ⟨r, tag, h⟩) q.2.1
    | replace i tag => exact absurd (Or.inr ⟨i, tag, h⟩) q.2.2

/-- A change from one plain hold to another keeps the conditions on the held unit. -/
theorem State.HoldFits.plain (w : s.HoldFits) (ps : s.PlainHold) (pt : t.PlainHold)
    (h1 : t.link.confirm = s.link.confirm) (h3 : t.engine = s.engine)
    (hf : ∀ f, t.lines.foreign = some f → f.standing = .waiting → t.link.held = none)
    (ho : t.link.online = false → t.link.held = none) : t.HoldFits := by
  have q := w.quiet ps
  have hl : t.lookupDue ↔ s.lookupDue := by simp [State.lookupDue, h3]
  have hr : t.replaceDue ↔ s.replaceDue := by simp [State.replaceDue, h3]
  exact
    { confirm := ⟨fun h => (by rw [h1, q.1] at h; cases h), fun h => absurd h pt.confirm⟩
      lookup := ⟨fun h => absurd (hl.mp h) q.2.1, fun h => absurd h pt.lookup⟩
      replace := ⟨fun h => absurd (hr.mp h) q.2.2, fun h => absurd h pt.replace⟩
      single := by rw [h3]; exact w.single
      standing := hf
      offline := ho }

/-! ### The link claim -/

/-- A link claim sent with nothing held before it, its unit now held for it (R32, R33). -/
theorem State.HoldFits.sendLinkClaim (w : s.HoldFits) (c : LinkClaim) (h : s.link.held = none)
    (he : t.engine = s.engine) (hc : t.link.confirm = s.link.confirm)
    (hh : t.holdCause = some (match c with | .lookup _ _ => HoldCause.lookup | .replace _ _ => HoldCause.replace))
    (hf : ∀ f, t.lines.foreign = some f → f.standing ≠ .waiting) (ho : t.link.online = true) :
    (sendLinkClaim c t).HoldFits := by
  have p : s.PlainHold := .of_none h
  have q := w.quiet p
  have nl := w.noLinkClaim p
  have e1 : (Machine.sendLinkClaim c t).link = t.link := by simp
  have e2 : (Machine.sendLinkClaim c t).lines = t.lines := by simp
  have hst : ∀ f, (Machine.sendLinkClaim c t).lines.foreign = some f → f.standing = .waiting →
      (Machine.sendLinkClaim c t).link.held = none := by
    intro f hf1 hf2
    rw [e2] at hf1
    exact absurd hf2 (hf f hf1)
  have hcf : ((Machine.sendLinkClaim c t).link.confirm.isSome = true) ↔
      (Machine.sendLinkClaim c t).holdCause = some .confirm := by
    rw [State.holdCause, e1, hc, q.1]
    change (false = true) ↔ t.holdCause = some .confirm
    rw [hh]; cases c <;> simp
  have hcause : (Machine.sendLinkClaim c t).holdCause = t.holdCause := by rw [State.holdCause, e1]; rfl
  have hfl : ∀ c', t.engine.flight ≠ some (.link c' false) := by
    intro c' e
    rw [he] at e
    cases c' with
    | lookup r tag => exact q.2.1 (Or.inl ⟨r, tag, e⟩)
    | replace i tag => exact q.2.2 (Or.inl ⟨i, tag, e⟩)
  have hdue : (Machine.sendLinkClaim c t).engine.flight = some (.link c false) ∧
        (Machine.sendLinkClaim c t).engine.linkClaim = none ∨
      (Machine.sendLinkClaim c t).engine.flight = t.engine.flight ∧
        (Machine.sendLinkClaim c t).engine.linkClaim = some c := by
    unfold Machine.sendLinkClaim
    split
    · left; exact ⟨rfl, by rw [← nl, ← he]⟩
    · right; exact ⟨rfl, rfl⟩
  refine ⟨hcf, ?_, ?_, ?_, hst, fun e => by rw [e1, ho] at e; cases e⟩
  · rw [hcause, hh]
    unfold State.lookupDue
    rcases hdue with ⟨d1, d2⟩ | ⟨d1, d2⟩
    · rw [d1, d2]; cases c <;> simp
    · rw [d1, d2]
      cases c with
      | lookup r tag => exact ⟨fun _ => rfl, fun _ => Or.inr ⟨r, tag, rfl⟩⟩
      | replace i tag =>
        constructor
        · rintro (⟨r, tag', x⟩ | ⟨r, tag', x⟩)
          · exact absurd x (hfl _)
          · cases x
        · intro x; cases x
  · rw [hcause, hh]
    unfold State.replaceDue
    rcases hdue with ⟨d1, d2⟩ | ⟨d1, d2⟩
    · rw [d1, d2]; cases c <;> simp
    · rw [d1, d2]
      cases c with
      | replace i tag => exact ⟨fun _ => rfl, fun _ => Or.inr ⟨i, tag, rfl⟩⟩
      | lookup r tag =>
        constructor
        · rintro (⟨i, tag', x⟩ | ⟨i, tag', x⟩)
          · exact absurd x (hfl _)
          · cases x
        · intro x; cases x
  · intro c' e
    rcases hdue with ⟨_, d2⟩ | ⟨d1, _⟩
    · exact d2
    · rw [d1] at e; exact absurd e (hfl c')

theorem State.awaits_of_eq {q : Request} {op : Operation} (h1 : t.records = s.records)
    (h2 : t.managementTag = s.managementTag) : t.awaits q op ↔ s.awaits q op :=
  State.awaits_congr (fun i => by rw [State.record_congr h1]) (fun i => by rw [State.record_congr h1]) h2

/-- A link claim of a live record's replace, or of a lookup, keeps the conditions on the engine (R32, R33). -/
theorem State.EngineFits.sendLinkClaim (w : s.EngineFits) (c : LinkClaim) (nl : s.engine.linkClaim = none)
    (h1 : t.records = s.records) (h2 : t.managementTag = s.managementTag) (h3 : t.engine = s.engine)
    (h4 : t.request = s.request)
    (hc : ∀ i tag, c = .replace i tag → s.ReplaceFits i tag ∧ s.requestKind ≠ some (.retire i)) :
    (sendLinkClaim c t).EngineFits := by
  have w' : t.EngineFits := by
    have hr := State.record_congr h1
    exact w.congr (by simp [hr]) (by simp [hr]) (by simp [hr]) h2 h3 h4
  have hc' : ∀ i tag, c = .replace i tag → t.ReplaceFits i tag ∧ t.requestKind ≠ some (.retire i) := by
    intro i tag e
    refine ⟨⟨(hc i tag e).1.tag, ?_⟩, ?_⟩
    · rw [State.record_congr h1]; exact (hc i tag e).1.live
    · rw [State.requestKind, h4]; exact (hc i tag e).2
  have nl' : t.engine.linkClaim = none := by rw [h3]; exact nl
  unfold Machine.sendLinkClaim
  split
  · rename_i hf
    have hrc := (w'.free hf).2
    exact
      { free := fun e => by cases e
        idle := fun e => ⟨hrc, fun op x => by cases x⟩
        flight := fun q op _ x => by cases x
        claim := fun q op e x => by rw [show _ = none from hrc] at x; cases x
        one := fun q e => by
          rcases w'.one q e with ⟨op, x⟩ | ⟨op, x⟩
          · rw [hf] at x; cases x
          · rw [hrc] at x; cases x
        replace := fun i tag d x => by
          obtain ⟨rfl, rfl⟩ : c = .replace i tag ∧ false = d := by simpa using x
          exact ⟨(hc' i tag rfl).1.tag, (hc' i tag rfl).1.live⟩
        replaceClaim := fun i tag x => by rw [show _ = none from nl'] at x; cases x }
  · rename_i f hf
    exact
      { free := fun e => by rw [show _ = some f from hf] at e; cases e
        idle := w'.idle
        flight := fun q op e x => ⟨(State.awaits_of_eq rfl rfl).mpr (w'.flight q op e x).1, (w'.flight q op e x).2⟩
        claim := fun q op e x => (State.awaits_of_eq rfl rfl).mpr (w'.claim q op e x)
        one := w'.one
        replace := fun i tag d x => ⟨(w'.replace i tag d x).tag, (w'.replace i tag d x).live⟩
        replaceClaim := fun i tag x => by
          obtain rfl : c = .replace i tag := by simpa using x
          exact ⟨⟨(hc' i tag rfl).1.tag, (hc' i tag rfl).1.live⟩, fun _ _ => (hc' i tag rfl).2⟩ }

/-! ### Withdrawal -/

/-- The withdrawal of the link claim keeps the conditions on the engine (R34, R35). -/
theorem State.EngineFits.withdraw (w : s.EngineFits) (h1 : t.records = s.records)
    (h2 : t.managementTag = s.managementTag) (h3 : t.engine = s.engine) (h4 : t.request = s.request) :
    (withdrawLinkClaim t).EngineFits := by
  have w' : t.EngineFits := by
    have hr := State.record_congr h1
    exact w.congr (by simp [hr]) (by simp [hr]) (by simp [hr]) h2 h3 h4
  have hreq : ∀ op, t.engine.flight.map Flight.discard = some (.request op) → t.engine.flight = some (.request op) := by
    intro op e
    cases hf : t.engine.flight with
    | none => rw [hf] at e; cases e
    | some f =>
      rw [hf] at e
      cases f with
      | link c d => simp [Flight.discard] at e
      | request op' => simpa [Flight.discard] using e
  exact
    { free := fun e => ⟨rfl, (w'.free (by simpa [withdrawLinkClaim] using e)).2⟩
      idle := fun e => ⟨(w'.idle e).1, fun op x => (w'.idle e).2 op (hreq op x)⟩
      flight := fun q op e x =>
        ⟨(State.awaits_of_eq rfl rfl).mpr (w'.flight q op e (hreq op x)).1, (w'.flight q op e (hreq op x)).2⟩
      claim := fun q op e x => (State.awaits_of_eq rfl rfl).mpr (w'.claim q op e x)
      one := fun q e => by
        rcases w'.one q e with ⟨op, x⟩ | ⟨op, x⟩
        · left; exact ⟨op, by simp [withdrawLinkClaim, x, Flight.discard]⟩
        · right; exact ⟨op, x⟩
      replace := fun i tag d x => by
        have : ∃ d', t.engine.flight = some (.link (.replace i tag) d') := by
          cases hf : t.engine.flight with
          | none => simp [withdrawLinkClaim, hf] at x
          | some f =>
            cases f with
            | link c d' =>
              simp [withdrawLinkClaim, hf, Flight.discard] at x
              exact ⟨d', by rw [x.1]⟩
            | request op' => simp [withdrawLinkClaim, hf, Flight.discard] at x
        obtain ⟨d', e⟩ := this
        exact ⟨(w'.replace i tag d' e).tag, (w'.replace i tag d' e).live⟩
      replaceClaim := fun i tag x => by cases x }

/-- After STOP, CLEAR or OFFLINE nothing is held and nothing of the link's is due (R83, R85, R87). -/
theorem holdFits_withdrawn (h1 : t.link.held = none) (h2 : t.link.confirm = none) :
    (withdrawLinkClaim t).HoldFits := by
  have hf : ∀ c, t.engine.flight.map Flight.discard ≠ some (.link c false) := by
    intro c e
    cases h : t.engine.flight with
    | none => rw [h] at e; cases e
    | some f => rw [h] at e; cases f <;> simp [Flight.discard] at e
  have hh : (withdrawLinkClaim t).holdCause = none := by simp [State.holdCause, h1]
  exact
    { confirm := by rw [hh]; simp [h2]
      lookup := by
        rw [hh]
        constructor
        · rintro (⟨r, tag, x⟩ | ⟨r, tag, x⟩)
          · exact absurd x (hf _)
          · cases x
        · intro x; cases x
      replace := by
        rw [hh]
        constructor
        · rintro (⟨r, tag, x⟩ | ⟨r, tag, x⟩)
          · exact absurd x (hf _)
          · cases x
        · intro x; cases x
      single := fun c e => absurd e (hf c)
      standing := fun _ _ _ => by simpa using h1
      offline := fun _ => by simpa using h1 }

/-! ### The request claim -/

/-- A request claim sent by a request that was just accepted keeps the conditions on the engine (R32, R33). -/
theorem State.EngineFits.startStage (w : s.EngineFits) (hn : s.request = none) {kind : DirectoryRequest}
    {op : Operation} (he : t.engine = s.engine)
    (hl : ∀ i, (s.record i).live = true → (t.record i).live = true)
    (ha : t.awaits { kind := kind, params := t.port.params } op) :
    (startStage kind op t).EngineFits := by
  have hi := w.idle hn
  unfold Machine.startStage sendRequestClaim
  have ha' : ∀ (e : Engine), ({ t with request := some { kind := kind, params := t.port.params }, engine := e } : State).awaits
      { kind := kind, params := t.port.params } op := fun e => (State.awaits_of_eq rfl rfl).mpr ha
  split
  · rename_i hf
    have hf' : s.engine.flight = none := by rw [← he]; exact hf
    have hl0 := (w.free hf').1
    exact
      { free := fun e => by cases e
        idle := fun e => by cases e
        flight := fun q op' e x => by
          obtain rfl : { kind := kind, params := t.port.params } = q := by simpa using e
          obtain rfl : op = op' := by simpa using x
          exact ⟨ha' _, by rw [show _ = s.engine.requestClaim from congrArg Engine.requestClaim he]; exact hi.1⟩
        claim := fun q op' e x => by
          rw [show _ = s.engine.requestClaim from congrArg Engine.requestClaim he, hi.1] at x; cases x
        one := fun q e => Or.inl ⟨op, rfl⟩
        replace := fun i tag d x => by cases x
        replaceClaim := fun i tag x => by
          rw [show _ = s.engine.linkClaim from congrArg Engine.linkClaim he, hl0] at x; cases x }
  · rename_i f hf
    have hf' : s.engine.flight = some f := by rw [← he]; exact hf
    have hnr : ∀ op', f ≠ .request op' := fun op' e => hi.2 op' (by rw [hf', e])
    exact
      { free := fun e => by rw [show _ = some f from hf] at e; cases e
        idle := fun e => by cases e
        flight := fun q op' e x => by
          rw [show _ = some f from hf] at x
          exact absurd (by simpa using x) (hnr op')
        claim := fun q op' e x => by
          obtain rfl : { kind := kind, params := t.port.params } = q := by simpa using e
          obtain rfl : op = op' := by simpa using x
          exact ha' _
        one := fun q e => Or.inr ⟨op, rfl⟩
        replace := fun i tag d x => by
          have x' : s.engine.flight = some (.link (.replace i tag) d) := by rw [← he]; exact x
          exact ⟨(w.replace i tag d x').tag, hl _ (w.replace i tag d x').live⟩
        replaceClaim := fun i tag x => by
          have x' : s.engine.linkClaim = some (.replace i tag) := by rw [← he]; exact x
          refine ⟨⟨(w.replaceClaim i tag x').1.tag, hl _ (w.replaceClaim i tag x').1.live⟩, ?_⟩
          intro op' y
          rw [show _ = some f from hf] at y
          exact absurd (by simpa using y) (hnr op') }

/-- A request claim keeps the conditions on the held unit. -/
theorem State.HoldFits.startStage (w : s.HoldFits) (we : s.EngineFits) (hn : s.request = none)
    {kind : DirectoryRequest} {op : Operation} (he : t.engine = s.engine)
    (h1 : t.link.confirm = s.link.confirm) (h2 : t.link.held = s.link.held)
    (h3 : t.lines.foreign = s.lines.foreign) (h4 : t.link.online = s.link.online) :
    (startStage kind op t).HoldFits := by
  have hi := we.idle hn
  have hL : (Machine.startStage kind op t).link = t.link := by simp [Machine.startStage]
  have hW : (Machine.startStage kind op t).lines = t.lines := by simp [Machine.startStage]
  have hC : (Machine.startStage kind op t).engine.linkClaim = s.engine.linkClaim := by
    unfold Machine.startStage sendRequestClaim
    split
    · change t.engine.linkClaim = _; rw [he]
    · change t.engine.linkClaim = _; rw [he]
  have hF : ∀ c d, (Machine.startStage kind op t).engine.flight = some (.link c d) ↔
      s.engine.flight = some (.link c d) := by
    intro c d
    unfold Machine.startStage sendRequestClaim
    split
    · rename_i hf
      have hf' : s.engine.flight = none := by rw [← he]; exact hf
      rw [hf']; simp
    · change t.engine.flight = _ ↔ _
      rw [he]
  refine ⟨?_, ?_, ?_, ?_, ?_, by rw [hL, h2, h4]; exact w.offline⟩
  · rw [State.holdCause, hL, h1, h2]; exact w.confirm
  · rw [State.holdCause, hL, h2]
    unfold State.lookupDue
    simp only [hF, hC]
    exact w.lookup
  · rw [State.holdCause, hL, h2]
    unfold State.replaceDue
    simp only [hF, hC]
    exact w.replace
  · intro c e
    rw [hC]; exact w.single c ((hF c false).mp e)
  · rw [hW, hL, h2, h3]; exact w.standing

end Sys2Proof.Machine
end

