-- ==== Sys2Proof/Laws/DataPath.lean ====
section
/-! SUPPORT. The data path (chapter 8) and the answers (chapter 6): every operation of them keeps the tables'
conditions and every life, and holds a unit for room, pause or drain alone. -/

namespace Sys2Proof.Machine

variable {s t u : State}

/-! ### Flows -/

/-- A move of the data path: the tables' conditions and every life are kept, and the pending confirm and the lines
stand. -/
structure State.Flows (s t : State) : Prop where
  tables : s.TablesFit → t.TablesFit
  lives : s.KeepsLives t
  confirm : t.link.confirm = s.link.confirm
  lines : t.lines = s.lines
  online : t.link.online = s.link.online

theorem State.Flows.refl (s : State) : s.Flows s := ⟨id, .refl s, rfl, rfl, rfl⟩

theorem State.Flows.trans (a : s.Flows t) (b : t.Flows u) : s.Flows u :=
  ⟨fun w => b.tables (a.tables w), a.lives.trans b.lives, b.confirm.trans a.confirm, b.lines.trans a.lines,
    b.online.trans a.online⟩

/-- A move that leaves the tables, the naming state and the lines as they are. -/
theorem State.Flows.of_eq (h1 : t.records = s.records) (h2 : t.freeList = s.freeList)
    (h3 : t.directory = s.directory) (h4 : t.managementTag = s.managementTag) (h5 : t.engine = s.engine)
    (h6 : t.request = s.request) (h7 : t.link.source = s.link.source) (h8 : t.link.sinks = s.link.sinks)
    (h9 : t.link.confirm = s.link.confirm) (h10 : t.link.queryArmed = s.link.queryArmed)
    (h12 : t.calls.queue = s.calls.queue) (h13 : t.notice.attention = s.notice.attention)
    (h14 : t.lines = s.lines) (h15 : t.link.online = s.link.online) : s.Flows t :=
  ⟨fun w => w.congr h1 h2 h3 h4 h7 h8 h9 h10 h12 h13, .of_eq h1 h2 h3 h4 h5 h6, h9, h14, h15⟩

theorem State.Flows.post (a : s.Flows t) (k : NoticeKind) (i : Slot) : s.Flows (postRecord k i t) :=
  ⟨fun w => (a.tables w).postRecord k i, a.lives.post k i, by simpa using a.confirm, by simpa using a.lines,
    by simpa using a.online⟩

theorem takeHeld_flows (s : State) : s.Flows (takeHeld s) :=
  .of_eq rfl rfl rfl rfl rfl rfl rfl rfl rfl rfl rfl rfl rfl rfl

theorem endPhase_flows (s : State) : s.Flows (endPhase s) := by
  unfold endPhase; dsimp only
  split <;> exact .of_eq rfl rfl rfl rfl rfl rfl rfl rfl rfl rfl rfl rfl rfl rfl

theorem openSession_flows (s : State) (h : Handle) : s.Flows (openSession h s) :=
  .of_eq rfl rfl rfl rfl rfl rfl rfl rfl rfl rfl rfl rfl rfl rfl

theorem takeGo_flows (s : State) : s.Flows (takeGo s) := by
  unfold takeGo; dsimp only
  split <;> exact .of_eq rfl rfl rfl rfl rfl rfl rfl rfl rfl rfl rfl rfl rfl rfl

theorem receiveGo_flows (s : State) (x : LinkUnit) : s.Flows (receiveGo x s) := by
  unfold receiveGo
  split
  · exact .of_eq rfl rfl rfl rfl rfl rfl rfl rfl rfl rfl rfl rfl rfl rfl
  · exact takeGo_flows s

/-! ### The link take of an offered unit -/

theorem answerCall_flows (s : State) (h : Handle) : s.Flows (answerCall h s) := by
  unfold answerCall
  split
  · rename_i c
    refine State.Flows.post ?_ _ _
    have e : { s.updRecord h.slot (fun r => { r with call := .quiet }) with
        calls.queue := s.calls.queue.filter (· ≠ h) } = leaveQueue h.slot s := by
      unfold leaveQueue; rw [c.1]
    rw [e]
    exact ⟨fun w => w.leaveQueue _, leaveQueue_keepsLives s _, rfl, rfl, rfl⟩
  · exact .refl s

theorem removeOutHead_flows (s : State) (b : Bool) : s.Flows (removeOutHead b s) := by
  unfold removeOutHead
  split
  · split
    · exact .refl s
    · exact .of_eq rfl rfl rfl rfl rfl rfl rfl rfl rfl rfl rfl rfl rfl rfl
    · exact .of_eq rfl rfl rfl rfl rfl rfl rfl rfl rfl rfl rfl rfl rfl rfl
  · exact .refl s

theorem State.NamingFits.disarm (w : s.NamingFits) : ({ s with link.queryArmed := false } : State).NamingFits where
  source := w.source
  sinks := w.sinks
  once := w.once
  limit := w.limit
  confirm := w.confirm
  confirmSource := w.confirmSource
  confirmSink := w.confirmSink
  armed e := by cases e

theorem disarm_flows (s : State) (a : Answer) :
    s.Flows { s with link.queryArmed := false, calls.answer := a } :=
  ⟨fun w => w.withNaming rfl rfl rfl rfl rfl rfl
      { source := w.naming.source, sinks := w.naming.sinks, once := w.naming.once, limit := w.naming.limit,
        confirm := w.naming.confirm, confirmSource := w.naming.confirmSource,
        confirmSink := w.naming.confirmSink, armed := fun e => by cases e },
    .of_eq rfl rfl rfl rfl rfl rfl, rfl, rfl, rfl⟩

theorem takeCondition_flows (s : State) (v : Byte) : s.Flows (takeCondition v s) := by
  unfold takeCondition; dsimp only
  split
  · split
    · exact (disarm_flows s .none).trans (answerCall_flows _ _)
    · exact disarm_flows s .none
  · exact disarm_flows s .none
  · exact disarm_flows s .none

theorem ownerTake_flows (s : State) (o : Offered) : s.Flows (ownerTake o s) := by
  unfold ownerTake
  split
  · exact removeOutHead_flows s _
  · exact .of_eq rfl rfl rfl rfl rfl rfl rfl rfl rfl rfl rfl rfl rfl rfl
  · exact takeCondition_flows s _
  · exact .of_eq rfl rfl rfl rfl rfl rfl rfl rfl rfl rfl rfl rfl rfl rfl

theorem linkTake_flows (s : State) (o : Offered) : s.Flows (linkTake o s) := by
  have a : s.Flows (ownerTake o { s with link.offered := none }) :=
    State.Flows.trans (t := { s with link.offered := none })
      (.of_eq rfl rfl rfl rfl rfl rfl rfl rfl rfl rfl rfl rfl rfl rfl) (ownerTake_flows _ _)
  unfold linkTake; dsimp only
  split
  · exact a.trans (endPhase_flows _)
  · exact a

theorem takeIfUnheld_flows (s : State) : s.Flows (takeIfUnheld s) := by
  unfold takeIfUnheld
  split
  · exact .refl s
  · split
    · exact linkTake_flows s _
    · exact .refl s

/-! ### The part as receiver -/

theorem takeData_flows (s : State) (x : InboundSession) (v : LinkUnit) : s.Flows (takeData x v s) := by
  have a : s.Flows (appendIn (entryOf x v) (takeHeld s)) := by
    unfold appendIn; dsimp only
    split <;> exact .of_eq rfl rfl rfl rfl rfl rfl rfl rfl rfl rfl rfl rfl rfl rfl
  unfold takeData; dsimp only
  split
  · exact a.trans (endPhase_flows _)
  · split
    · exact a.trans (.of_eq rfl rfl rfl rfl rfl rfl rfl rfl rfl rfl rfl rfl rfl rfl)
    · exact a

theorem serveHeldData_flows (s : State) : s.Flows (serveHeldData s) := by
  unfold serveHeldData
  split
  · split
    · split
      · exact .of_eq rfl rfl rfl rfl rfl rfl rfl rfl rfl rfl rfl rfl rfl rfl
      · split
        · exact (takeData_flows s _ _).trans (takeIfUnheld_flows _)
        · exact .of_eq rfl rfl rfl rfl rfl rfl rfl rfl rfl rfl rfl rfl rfl rfl
    · exact .refl s
  · exact .refl s

theorem receiveData_flows (s : State) (v : LinkUnit) : s.Flows (receiveData v s) := by
  unfold receiveData
  refine State.Flows.trans (t := { s with link.held := some { unit := v, cause := if s.data.paused then .pause else .room } })
    ?_ (serveHeldData_flows _)
  exact .of_eq rfl rfl rfl rfl rfl rfl rfl rfl rfl rfl rfl rfl rfl rfl

theorem serveHeldGo_flows (s : State) : s.Flows (serveHeldGo s) := by
  unfold serveHeldGo
  split
  · split
    · exact takeGo_flows s
    · exact .refl s
  · exact .refl s

theorem afterDrain_flows (s : State) : s.Flows (afterDrain s) := by
  unfold afterDrain
  split
  · split
    · exact serveHeldGo_flows s
    · exact serveHeldData_flows s
  · exact .refl s

theorem offerUnit_flows (s : State) (o : Offered) : s.Flows (offerUnit o s) := by
  have a : s.Flows { s with link.offered := some o } :=
    .of_eq rfl rfl rfl rfl rfl rfl rfl rfl rfl rfl rfl rfl rfl rfl
  unfold offerUnit; dsimp only
  split
  · exact a.trans (receiveData_flows _ _)
  · exact a.trans (takeIfUnheld_flows _)

/-! ### What is held afterwards -/

@[simp] theorem endPhase_held (s : State) : (endPhase s).link.held = s.link.held := by
  unfold endPhase; dsimp only; split <;> rfl

@[simp] theorem openSession_held (s : State) (h : Handle) : (openSession h s).link.held = s.link.held := rfl

@[simp] theorem takeGo_held (s : State) : (takeGo s).link.held = none := by
  unfold takeGo; dsimp only; split <;> rfl

theorem answerCall_held (s : State) (h : Handle) : (answerCall h s).link.held = s.link.held := by
  unfold answerCall; split <;> simp

theorem removeOutHead_held (s : State) (b : Bool) : (removeOutHead b s).link.held = s.link.held := by
  unfold removeOutHead; split
  · split <;> rfl
  · rfl

theorem ownerTake_held (s : State) (o : Offered) : (ownerTake o s).link.held = s.link.held := by
  unfold ownerTake
  split
  · exact removeOutHead_held s _
  · rfl
  · unfold takeCondition; dsimp only
    split
    · split
      · exact answerCall_held _ _
      · rfl
    · rfl
    · rfl
  · rfl

@[simp] theorem linkTake_held (s : State) (o : Offered) : (linkTake o s).link.held = s.link.held := by
  unfold linkTake; dsimp only
  split
  · rw [endPhase_held, ownerTake_held]
  · rw [ownerTake_held]

@[simp] theorem takeIfUnheld_held (s : State) : (takeIfUnheld s).link.held = s.link.held := by
  unfold takeIfUnheld
  split
  · rfl
  · split
    · exact linkTake_held s _
    · rfl

@[simp] theorem takeData_held (s : State) (x : InboundSession) (v : LinkUnit) : (takeData x v s).link.held = none := by
  have a : (appendIn (entryOf x v) (takeHeld s)).link.held = none := by
    unfold appendIn; dsimp only; split <;> rfl
  unfold takeData; dsimp only
  split
  · rw [endPhase_held]; exact a
  · split
    · exact a
    · exact a

/-- A unit held for room or pause. -/
def State.DataHold (s : State) : Prop :=
  s.link.held = none ∨ s.holdCause = some .room ∨ s.holdCause = some .pause

theorem State.DataHold.plain (h : s.DataHold) : s.PlainHold := by
  rcases h with h | h | h
  · exact .of_none h
  · constructor <;> simp [h]
  · constructor <;> simp [h]

/-- What the part holds after serving a held data unit: nothing, the unit for room or pause, or what it held. -/
theorem serveHeldData_held (s : State) :
    (serveHeldData s).DataHold ∨ (serveHeldData s).link.held = s.link.held := by
  unfold serveHeldData
  split
  · split
    · split
      · exact Or.inl (Or.inr (Or.inr rfl))
      · split
        · left; left; simp
        · exact Or.inl (Or.inr (Or.inl rfl))
    · exact Or.inr rfl
  · exact Or.inr rfl

/-- Serving a held data unit holds nothing where nothing was held. -/
theorem serveHeldData_none (h : s.link.held = none) : serveHeldData s = s := by
  unfold serveHeldData; split
  · rename_i e _; rw [h] at e; cases e
  · rfl

theorem receiveData_held (s : State) (v : LinkUnit) : (receiveData v s).DataHold := by
  unfold receiveData
  rcases serveHeldData_held { s with link.held := some { unit := v, cause := if s.data.paused then .pause else .room } }
    with h | h
  · exact h
  · right
    have e : (serveHeldData { s with link.held := some { unit := v, cause := if s.data.paused then .pause else .room } }).holdCause
        = some (if s.data.paused then .pause else .room) := by
      rw [State.holdCause, h]; rfl
    rw [e]
    cases s.data.paused <;> simp

theorem offerUnit_held (s : State) (o : Offered) (h : s.link.held = none) : (offerUnit o s).DataHold := by
  unfold offerUnit; dsimp only
  split
  · exact receiveData_held _ _
  · left; simp [h]

theorem serveHeldGo_held (s : State) :
    (serveHeldGo s).link.held = none ∨ (serveHeldGo s).link.held = s.link.held := by
  unfold serveHeldGo
  split
  · split
    · left; simp
    · right; rfl
  · right; rfl

theorem afterDrain_held (s : State) :
    (afterDrain s).DataHold ∨ (afterDrain s).link.held = s.link.held := by
  unfold afterDrain
  split
  · split
    · rcases serveHeldGo_held s with h | h
      · exact Or.inl (Or.inl h)
      · exact Or.inr h
    · exact serveHeldData_held s
  · exact Or.inr rfl

/-- The held unit changes only where it was held for room, pause or drain. -/
theorem serveHeldData_changes (s : State) :
    serveHeldData s = s ∨ s.holdCause = some .room ∨ s.holdCause = some .pause := by
  unfold serveHeldData
  split
  · rename_i h x e1 e2
    split
    · rename_i c
      right
      rcases c with c | c <;> simp [State.holdCause, e1, c]
    · exact Or.inl rfl
  · exact Or.inl rfl

theorem afterDrain_changes (s : State) :
    afterDrain s = s ∨ s.holdCause = some .room ∨ s.holdCause = some .pause ∨ s.holdCause = some .drain := by
  unfold afterDrain
  split
  · rename_i h e
    split
    · rename_i c
      right; right; right; simp [State.holdCause, e, c]
    · rcases serveHeldData_changes s with x | x | x
      · exact Or.inl x
      · exact Or.inr (Or.inl x)
      · exact Or.inr (Or.inr (Or.inl x))
  · exact Or.inl rfl

end Sys2Proof.Machine
end

