-- ==== Sys2Proof/Laws/Lifecycle.lean ====
section
/-! SUPPORT. The changes of a slot's state and tags (R7, R13 to R15, R45, R46, R51, R53, R55, R56, R58) and of the
management tag (R40): each keeps the tables' conditions. -/

namespace Sys2Proof.Machine

variable {s t : State}

/-! ### One slot changes -/

/-- A change of one slot with no call, notice or naming of another lifetime attached to it keeps the tables'
conditions, when the free list and the directory follow it. -/
theorem State.TablesFit.change (w : s.TablesFit) {i : Slot} {x : Record}
    (hr : ∀ j, t.record j = if i = j then x else s.record j) (fits : x.Fits)
    (call : x.generation = (s.record i).generation ∧ x.call = (s.record i).call ∨
      (s.record i).call = .quiet ∧ x.call = .quiet)
    (note : x.generation = (s.record i).generation ∧ x.notices = (s.record i).notices ∨
      (s.record i).notices = 0#8 ∧ x.notices = 0#8)
    (name : x.generation = (s.record i).generation ∧ x.state = (s.record i).state ∨
      (s.record i).state ≠ .active)
    (free : t.FreeListFits) (h1 : t.link = s.link)
    (h2 : t.calls = s.calls) (h3 : t.notice.attention = s.notice.attention)
    (ordered : t.DirectoryOrdered) (agrees : t.DirectoryAgrees) : t.TablesFit := by
  have hn : ∀ j, i ≠ j → t.record j = s.record j := fun j e => by rw [hr, if_neg e]
  have hi : t.record i = x := by rw [hr, if_pos rfl]
  have hcur : ∀ h : Handle, i ≠ h.slot → (t.current h ↔ s.current h) := fun h e =>
    State.current_congr (by rw [hn _ e])
  have hact : ∀ h, s.active h → t.active h := by
    intro h ha
    by_cases e : i = h.slot
    · subst e
      rcases name with n | n
      · exact (State.active_congr (by rw [hi]; exact n.1) (by rw [hi]; exact n.2)).mpr ha
      · exact absurd ha.2 n
    · exact (State.active_congr (by rw [hn _ e]) (by rw [hn _ e])).mpr ha
  exact
    { records := fun j => by
        by_cases e : i = j
        · subst e; rw [hi]; exact fits
        · rw [hn j e]; exact w.records j
      freeList := free
      queue :=
        { once := by rw [h2]; exact w.queue.once
          calling := fun h => by
            rw [h2, w.queue.calling]
            by_cases e : i = h.slot
            · subst e
              rcases call with c | c
              · rw [State.current_congr (s := s) (t := t) (h := h) (by rw [hi]; exact c.1), hi, c.2]
              · rw [hi, c.1, c.2]; simp
            · rw [hcur h e, hn _ e] }
      attention :=
        { once := by rw [h3]; exact w.attention.once
          noticed := fun h => by
            rw [h3, w.attention.noticed]
            by_cases e : i = h.slot
            · subst e
              rcases note with c | c
              · rw [State.current_congr (s := s) (t := t) (h := h) (by rw [hi]; exact c.1), hi, c.2]
              · rw [hi, c.1, c.2]; simp
            · rw [hcur h e, hn _ e] }
      naming :=
        { source := fun h e => by
            rw [h1] at e ⊢
            exact ⟨hact h (w.naming.source h e).1, (w.naming.source h e).2⟩
          sinks := fun h e => by rw [h1] at e; exact hact h (w.naming.sinks h e)
          once := by rw [h1]; exact w.naming.once
          limit := by rw [h1]; exact w.naming.limit
          confirm := fun c e => by rw [h1] at e; exact hact _ (w.naming.confirm c e)
          confirmSource := fun c e => by rw [h1] at e ⊢; exact w.naming.confirmSource c e
          confirmSink := fun c e => by rw [h1] at e ⊢; exact w.naming.confirmSink c e
          armed := fun e => by rw [h1] at e ⊢; exact w.naming.armed e }
      ordered := ordered
      agrees := agrees }

/-- The free list after a change of a slot that is FREE neither before nor after it. -/
theorem State.FreeListFits.busy (w : s.FreeListFits) {i : Slot} {x : Record}
    (hr : ∀ j, t.record j = if i = j then x else s.record j) (hf : t.freeList = s.freeList)
    (h1 : (s.record i).state ≠ .free) (h2 : x.state ≠ .free) : t.FreeListFits where
  once := by rw [hf]; exact w.once
  free j := by
    rw [hf, w.free, hr]
    split
    · rename_i e; subst e
      exact ⟨fun h => absurd h h1, fun h => absurd h h2⟩
    · exact Iff.rfl

/-- The free list after its head slot is taken (R13). -/
theorem State.FreeListFits.take (w : s.FreeListFits) {i : Slot} {rest : List Slot} {x : Record}
    (hl : s.freeList = i :: rest) (hr : ∀ j, t.record j = if i = j then x else s.record j)
    (hf : t.freeList = rest) (h2 : x.state ≠ .free) : t.FreeListFits := by
  have hn : (i :: rest).Nodup := by rw [← hl]; exact w.once
  have hn' := List.nodup_cons.mp hn
  refine ⟨by rw [hf]; exact hn'.2, ?_⟩
  intro j
  rw [hf, hr]
  split
  · rename_i e; subst e
    exact ⟨fun h => absurd h hn'.1, fun h => absurd h h2⟩
  · rename_i e
    rw [← w.free, hl, List.mem_cons]
    exact ⟨Or.inr, fun h => h.resolve_left (fun c => e c.symm)⟩

/-- The free list after a slot becomes FREE and joins it (R14, R15). -/
theorem State.FreeListFits.give (w : s.FreeListFits) {i : Slot} {x : Record}
    (hr : ∀ j, t.record j = if i = j then x else s.record j)
    (hf : t.freeList = i :: s.freeList ∨ t.freeList = s.freeList ++ [i])
    (h1 : (s.record i).state ≠ .free) (h2 : x.state = .free) : t.FreeListFits := by
  have hni : i ∉ s.freeList := fun h => h1 ((w.free i).mp h)
  have hmem : ∀ j, j ∈ t.freeList ↔ j = i ∨ j ∈ s.freeList := by
    intro j
    rcases hf with hf | hf
    · rw [hf, List.mem_cons]
    · rw [hf, List.mem_append, List.mem_singleton]; tauto
  refine ⟨?_, ?_⟩
  · rcases hf with hf | hf
    · rw [hf]; exact List.nodup_cons.mpr ⟨hni, w.once⟩
    · rw [hf]
      refine List.nodup_append.mpr ⟨w.once, by simp, ?_⟩
      intro a ha b hb
      rw [List.mem_singleton] at hb
      subst hb
      rintro rfl
      exact hni ha
  · intro j
    rw [hmem, hr, w.free]
    split
    · rename_i e; subst e
      exact ⟨fun _ => h2, fun _ => Or.inl rfl⟩
    · rename_i e
      exact ⟨fun h => h.resolve_left (fun c => e c.symm), Or.inr⟩

/-- The tags of the owners when no live record changes. -/
theorem State.tagOf_dead {i : Slot} {x : Record} (hr : ∀ j, t.record j = if i = j then x else s.record j)
    (hm : t.managementTag = s.managementTag) (h1 : (s.record i).live = false) (h2 : x.live = false) (o : Owner) :
    t.tagOf o = s.tagOf o := by
  cases o with
  | management => exact hm
  | primary j =>
    unfold State.tagOf
    dsimp only
    rw [hr]
    by_cases e : i = j
    · subst e; simp [h1, h2]
    · simp [e]
  | aliasOf j =>
    unfold State.tagOf
    dsimp only
    rw [hr]
    by_cases e : i = j
    · subst e; simp [h1, h2]
    · simp [e]

/-- The tags of the owners after a slot leaves service (R29, R51). -/
theorem State.tagOf_removed {i : Slot} {x : Record} (hr : ∀ j, t.record j = if i = j then x else s.record j)
    (hm : t.managementTag = s.managementTag) (hx : x.live = false) (o : Owner) :
    t.tagOf o = if (Designation.slotEntries i).takes o then none else s.tagOf o := by
  cases o with
  | management => exact hm
  | primary j =>
    change (if (t.record j).live = true then some (t.record j).primaryTag else none) =
      if (i == j) = true then none else s.tagOf (.primary j)
    by_cases e : i = j
    · subst e; simp [hr, hx]
    · simp [State.tagOf, hr, e]
  | aliasOf j =>
    change (if (t.record j).live = true then (t.record j).aliasTag else none) =
      if (i == j) = true then none else s.tagOf (.aliasOf j)
    by_cases e : i = j
    · subst e; simp [hr, hx]
    · simp [State.tagOf, hr, e]

/-- The tags of the owners when a live record changes neither of its tags. -/
theorem State.tagOf_kept {i : Slot} {x : Record} (hr : ∀ j, t.record j = if i = j then x else s.record j)
    (hm : t.managementTag = s.managementTag) (hl : x.live = (s.record i).live)
    (hp : x.primaryTag = (s.record i).primaryTag) (ha : x.aliasTag = (s.record i).aliasTag) (o : Owner) :
    t.tagOf o = s.tagOf o := by
  cases o with
  | management => exact hm
  | primary j =>
    unfold State.tagOf
    dsimp only
    rw [hr]
    by_cases e : i = j
    · subst e; simp [hl, hp]
    · simp [e]
  | aliasOf j =>
    unfold State.tagOf
    dsimp only
    rw [hr]
    by_cases e : i = j
    · subst e; simp [hl, ha]
    · simp [e]

/-- The tags of the owners after the management tag changes (R40). -/
theorem State.tagOf_management (hr : ∀ j, t.record j = s.record j) (o : Owner) :
    t.tagOf o = if o = .management then t.managementTag else s.tagOf o := by
  cases o <;> simp [State.tagOf, hr]

/-- The owner that an operation of SET-MANAGEMENT-TAG takes out (R40). -/
theorem managementEntry_takes (o : Owner) : Designation.managementEntry.takes o = decide (o = .management) := by
  cases o <;> rfl

/-- The owner that a CLEAR-ALIAS takes out (R56). -/
theorem aliasEntry_takes (i : Slot) (o : Owner) : (Designation.aliasEntry i).takes o = decide (o = .aliasOf i) := by
  cases o with
  | management => rfl
  | primary j => rfl
  | aliasOf j =>
    change (i == j) = _
    by_cases e : i = j
    · simp [e]
    · have : ¬ j = i := fun c => e c.symm
      simp [e, this]

/-- One tag joins the tags of an owner that held none (R28). -/
theorem tagged_alone {a : Option Word} {tag t : Word} {o p : Owner} (h : o = p → a = none) :
    (if o = p then some t else a) = some tag ↔
      { tag := tag, owner := o : Entry } ∈ [({ tag := t, owner := p } : Entry)] ∨ a = some tag := by
  by_cases e : o = p
  · simp only [e, if_true, h e, List.mem_singleton, Entry.mk.injEq, and_true]
    simp only [Option.some.injEq, reduceCtorEq, or_false]
    exact ⟨Eq.symm, Eq.symm⟩
  · simp [e]

/-- A record without an alias holds no alias tag. -/
theorem State.tagOf_aliasOf_none {i : Slot} (h : (s.record i).aliasTag = none) : s.tagOf (.aliasOf i) = none := by
  unfold State.tagOf
  dsimp only
  rw [h]
  exact ite_self none

/-! ### CREATE -/

theorem pendingRecord_fits (g : Byte) (tag : Word) (second : Option Word) (os : BitVec 7) (c v : Byte)
    (p : Option PollAssignment) : (pendingRecord g tag second os c v p).Fits where
  free e := by cases e
  sets _ := ⟨rfl, rfl⟩
  quiet _ := rfl
  endChar := by
    unfold pendingRecord endCharOf
    dsimp only
    split <;> simp_all

theorem cleared_fits (g : Byte) : (Record.cleared g).Fits where
  free _ := rfl
  sets _ := ⟨rfl, rfl⟩
  quiet _ := rfl
  endChar := by simp [Record.cleared, hasOption]

/-- The first stage of a CREATE keeps the tables' conditions (R13, R44). -/
theorem State.TablesFit.takeSlot (w : s.TablesFit) {i : Slot} {rest : List Slot} {x : Record}
    (hl : s.freeList = i :: rest) (hf : x.Fits) (hs : x.state = .pending) :
    (({ s with freeList := rest } : State).setRecord i x).TablesFit := by
  have hfree : (s.record i).state = .free := (w.freeList.free i).mp (by rw [hl]; simp)
  have hc := (w.records i).free hfree
  have hr : ∀ j, (({ s with freeList := rest } : State).setRecord i x).record j =
      if i = j then x else s.record j := by
    intro j; simp
  have hxn := hf.sets (by simp [Record.inService, hs])
  have hxq := hf.quiet (by simp [hs])
  have hlive : (s.record i).live = false := by simp [Record.live, Record.inService, hfree]
  have hlive' : x.live = false := by simp [Record.live, Record.inService, hs]
  refine w.change hr hf (Or.inr ⟨by rw [hc]; rfl, hxq⟩) (Or.inr ⟨by rw [hc]; rfl, hxn.1⟩)
    (Or.inr (by rw [hfree]; decide)) (w.freeList.take hl hr rfl (by rw [hs]; decide)) rfl rfl rfl
    (w.ordered.congr (by rfl)) (w.agrees.congr (by rfl) (State.tagOf_dead hr rfl hlive hlive'))

/-- The owners' tags after a CREATE completes (R45). -/
theorem tagOf_created {i : Slot} {x : Record} (hr : ∀ j, t.record j = if i = j then x else s.record j)
    (hm : t.managementTag = s.managementTag) (h1 : (s.record i).live = false) (h2 : x.live = true)
    (tag : Word) (o : Owner) :
    t.tagOf o = some tag ↔
      { tag := tag, owner := o : Entry } ∈ createEntries i x.primaryTag x.aliasTag ∨ s.tagOf o = some tag := by
  cases o with
  | management =>
    have : t.tagOf .management = s.tagOf .management := hm
    rw [this]
    unfold createEntries
    cases x.aliasTag <;> simp
  | primary j =>
    unfold State.tagOf createEntries
    dsimp only
    rw [hr]
    by_cases e : i = j
    · subst e
      cases x.aliasTag <;> simp [h1, h2, eq_comm]
    · have e' : ¬ j = i := fun c => e c.symm
      cases x.aliasTag <;> simp [e, e']
  | aliasOf j =>
    unfold State.tagOf createEntries
    dsimp only
    rw [hr]
    by_cases e : i = j
    · subst e
      cases ha : x.aliasTag <;> simp [h1, h2, ha, eq_comm]
    · have e' : ¬ j = i := fun c => e c.symm
      cases x.aliasTag <;> simp [e, e']

/-- The insert of a CREATE that succeeds keeps the tables' conditions (R45). -/
theorem State.TablesFit.created (w : s.TablesFit) {i : Slot} {d : List Entry}
    (hp : (s.record i).state = .pending)
    (hz : (s.record i).primaryTag ≠ 0#16) (hz2 : (s.record i).aliasTag ≠ some 0#16)
    (hne : (s.record i).aliasTag ≠ some (s.record i).primaryTag)
    (e : insertEntries (createEntries i (s.record i).primaryTag (s.record i).aliasTag) s.directory = .made d) :
    (({ s with directory := d } : State).updRecord i fun r => { r with state := .active }).TablesFit := by
  have wi := w.records i
  have hr : ∀ j, (({ s with directory := d } : State).updRecord i fun r => { r with state := .active }).record j =
      if i = j then { s.record i with state := .active } else s.record j := by
    intro j; simp
  have hlive : (s.record i).live = false := by simp [Record.live, Record.inService, hp]
  have hnd : ((createEntries i (s.record i).primaryTag (s.record i).aliasTag).map Entry.tag).Nodup := by
    unfold createEntries
    cases ha : (s.record i).aliasTag with
    | none => simp
    | some a =>
      simp only [List.map_cons, List.map_nil, List.nodup_cons, List.mem_singleton, List.not_mem_nil,
        not_false_eq_true, List.nodup_nil, and_true]
      intro c; exact hne (by rw [ha, c])
  have hnz : ∀ x ∈ createEntries i (s.record i).primaryTag (s.record i).aliasTag, x.tag ≠ 0#16 := by
    unfold createEntries
    intro x hx
    rcases List.mem_cons.mp hx with rfl | hx
    · exact hz
    · cases ha : (s.record i).aliasTag with
      | none => rw [ha] at hx; cases hx
      | some a =>
        rw [ha, List.mem_singleton] at hx
        subst hx
        intro c; exact hz2 (by rw [ha]; exact congrArg some c)
  refine w.change hr ⟨fun c => (by cases c), fun c => (by cases c), fun c => absurd rfl c, wi.endChar⟩
    (Or.inl ⟨rfl, rfl⟩) (Or.inl ⟨rfl, rfl⟩) (Or.inr (by rw [hp]; decide))
    (w.freeList.busy hr rfl (by rw [hp]; decide) (by simp)) rfl rfl rfl
    (w.ordered.insert hnd hnz e rfl) ?_
  exact w.agrees.insert w.ordered hnd e rfl
    (fun tag o => tagOf_created (x := { s.record i with state := .active }) hr rfl hlive rfl tag o)

/-- The slot of a failed CREATE returns FREE (R14, R46). -/
theorem State.TablesFit.uncreated (w : s.TablesFit) {i : Slot} (hp : (s.record i).state = .pending) :
    (({ s with freeList := i :: s.freeList } : State).updRecord i
      fun x => Record.cleared x.generation).TablesFit := by
  have wi := w.records i
  have hr : ∀ j, (({ s with freeList := i :: s.freeList } : State).updRecord i
      fun x => Record.cleared x.generation).record j =
      if i = j then Record.cleared (s.record i).generation else s.record j := by
    intro j; simp
  have hlive : (s.record i).live = false := by simp [Record.live, Record.inService, hp]
  exact w.change hr (cleared_fits _) (Or.inr ⟨wi.quiet (by rw [hp]; decide), rfl⟩)
    (Or.inr ⟨(wi.sets (by simp [Record.inService, hp])).1, rfl⟩) (Or.inr (by rw [hp]; decide))
    (w.freeList.give hr (Or.inl rfl) (by rw [hp]; decide) rfl) rfl rfl rfl
    (w.ordered.congr (by rfl)) (w.agrees.congr (by rfl) (State.tagOf_dead hr rfl hlive rfl))

/-! ### RETIRE and RESUME -/

/-- The remove of a RETIRE keeps the tables' conditions (R15, R51). -/
theorem State.TablesFit.retired (w : s.TablesFit) {i : Slot} (hp : (s.record i).state = .retiring) (g : Byte) :
    (({ s with directory := removeEntries (.slotEntries i) s.directory, freeList := s.freeList ++ [i] } :
      State).updRecord i fun x => Record.cleared (x.generation + g)).TablesFit := by
  have wi := w.records i
  have hr : ∀ j, (({ s with directory := removeEntries (.slotEntries i) s.directory, freeList := s.freeList ++ [i] } :
      State).updRecord i fun x => Record.cleared (x.generation + g)).record j =
      if i = j then Record.cleared ((s.record i).generation + g) else s.record j := by
    intro j; simp
  refine w.change hr (cleared_fits _) (Or.inr ⟨wi.quiet (by rw [hp]; decide), rfl⟩)
    (Or.inr ⟨(wi.sets (by simp [Record.inService, hp])).1, rfl⟩) (Or.inr (by rw [hp]; decide))
    (w.freeList.give hr (Or.inr rfl) (by rw [hp]; decide) rfl) rfl rfl rfl
    (w.ordered.remove (what := .slotEntries i) (by rfl)) ?_
  refine w.agrees.remove (what := .slotEntries i) (by rfl) ?_
  exact State.tagOf_removed hr rfl rfl

/-- RESUME keeps the tables' conditions (R58). -/
theorem State.TablesFit.resumed (w : s.TablesFit) {i : Slot} (hp : (s.record i).state = .suspended) :
    (s.updRecord i fun r => { r with state := .active, call := .quiet }).TablesFit := by
  have wi := w.records i
  have hr : ∀ j, (s.updRecord i fun r => { r with state := .active, call := .quiet }).record j =
      if i = j then { s.record i with state := .active, call := .quiet } else s.record j := by
    intro j; simp
  have hq : (s.record i).call = .quiet := wi.quiet (by rw [hp]; decide)
  refine w.change hr ⟨fun c => (by cases c), fun c => (by cases c), fun _ => rfl, wi.endChar⟩
    (Or.inr ⟨hq, rfl⟩) (Or.inl ⟨rfl, rfl⟩) (Or.inr (by rw [hp]; decide))
    (w.freeList.busy hr rfl (by rw [hp]; decide) (by simp)) rfl rfl rfl
    (w.ordered.congr (by rfl)) (w.agrees.congr (by rfl)
      (State.tagOf_kept hr rfl (by simp [Record.live, Record.inService, hp]) rfl rfl))

/-! ### Tags -/

/-- A change of one live record's tag, with the directory following it, keeps the tables' conditions. -/
theorem State.TablesFit.retagged (w : s.TablesFit) {i : Slot} {d : List Entry} {f : Record → Record}
    (hl : (s.record i).live = true)
    (hs : (f (s.record i)).state = (s.record i).state)
    (hg : (f (s.record i)).generation = (s.record i).generation)
    (hc : (f (s.record i)).call = (s.record i).call)
    (hn : (f (s.record i)).notices = (s.record i).notices)
    (hfit : (f (s.record i)).Fits)
    (ho : (({ s with directory := d } : State).updRecord i f).DirectoryOrdered)
    (ha : (({ s with directory := d } : State).updRecord i f).DirectoryAgrees) :
    (({ s with directory := d } : State).updRecord i f).TablesFit := by
  have hr : ∀ j, (({ s with directory := d } : State).updRecord i f).record j =
      if i = j then f (s.record i) else s.record j := by
    intro j; simp
  have hnf : (s.record i).state ≠ .free := by
    intro e; simp [Record.live, Record.inService, e] at hl
  exact w.change hr hfit (Or.inl ⟨hg, hc⟩) (Or.inl ⟨hg, hn⟩) (Or.inl ⟨hg, hs⟩)
    (w.freeList.busy hr rfl hnf (by rw [hs]; exact hnf)) rfl rfl rfl ho ha

theorem Record.Fits.retag {r : Record} (w : r.Fits) (hl : r.live = true) (p : Word) (a : Option Word) :
    ({ r with primaryTag := p, aliasTag := a } : Record).Fits where
  free e := by
    have e' : r.state = .free := e
    simp [Record.live, Record.inService, e'] at hl
  sets := w.sets
  quiet := w.quiet
  endChar := w.endChar

/-- The replace of a record's primary tag keeps the tables' conditions (R31, R53, R111). -/
theorem State.TablesFit.newPrimary (w : s.TablesFit) {i : Slot} {tag : Word} {d : List Entry}
    (hl : (s.record i).live = true) (hz : tag ≠ 0#16)
    (e : replaceEntry (.primary i) tag s.directory = .made d) :
    (({ s with directory := d } : State).updRecord i fun r => { r with primaryTag := tag }).TablesFit := by
  have hp : s.tagOf (.primary i) ≠ none := by simp [State.tagOf, hl]
  refine w.retagged hl rfl rfl rfl rfl ((w.records i).retag hl _ _)
    (w.ordered.replace (w.agrees.present hp) hz e rfl)
    (w.agrees.replace w.ordered hp e rfl ?_)
  intro o
  cases o with
  | management => simp [State.tagOf]
  | primary j =>
    by_cases h : i = j
    · subst h; simp [State.tagOf]; simpa [Record.live, Record.inService] using hl
    · have h' : ¬ j = i := fun c => h c.symm
      simp [State.tagOf, h, h']
  | aliasOf j =>
    by_cases h : i = j
    · subst h; simp [State.tagOf, Record.live, Record.inService]
    · simp [State.tagOf, h]

/-- The owners' tags after a record's alias changes (R31). -/
theorem tagOf_newAlias {d : List Entry} {i : Slot} (hl : (s.record i).live = true) (a : Option Word) (o : Owner) :
    (({ s with directory := d } : State).updRecord i fun r => { r with aliasTag := a }).tagOf o =
      if o = .aliasOf i then a else s.tagOf o := by
  cases o with
  | management => simp [State.tagOf]
  | primary j =>
    by_cases h : i = j
    · subst h; simp [State.tagOf, Record.live, Record.inService]
    · simp [State.tagOf, h]
  | aliasOf j =>
    by_cases h : i = j
    · subst h
      have : ({ s.record i with aliasTag := a } : Record).live = true := hl
      simp [State.tagOf, this]
    · have h' : ¬ j = i := fun c => h c.symm
      simp [State.tagOf, h, h']

/-- A SET-ALIAS that succeeds keeps the tables' conditions (R55). -/
theorem State.TablesFit.newAlias (w : s.TablesFit) {i : Slot} {tag : Word} {d : List Entry}
    (hl : (s.record i).live = true) (hz : tag ≠ 0#16)
    (e : (aliasOperation i tag (s.record i).aliasTag).change s.directory = .made d) :
    (({ s with directory := d } : State).updRecord i fun r => { r with aliasTag := some tag }).TablesFit := by
  cases ha : (s.record i).aliasTag with
  | none =>
    rw [ha] at e
    have hnd : (([{ tag := tag, owner := .aliasOf i }] : List Entry).map Entry.tag).Nodup := by simp
    refine w.retagged hl rfl rfl rfl rfl ((w.records i).retag hl _ _)
      (w.ordered.insert hnd (by simpa using hz) e rfl)
      (w.agrees.insert w.ordered hnd e rfl ?_)
    intro tag' o
    rw [tagOf_newAlias hl]
    exact tagged_alone fun h => by subst h; exact State.tagOf_aliasOf_none ha
  | some old =>
    rw [ha] at e
    have hp : s.tagOf (.aliasOf i) ≠ none := by simp [State.tagOf, hl, ha]
    exact w.retagged hl rfl rfl rfl rfl ((w.records i).retag hl _ _)
      (w.ordered.replace (w.agrees.present hp) hz e rfl)
      (w.agrees.replace w.ordered hp e rfl (fun o => tagOf_newAlias hl _ o))

/-- A CLEAR-ALIAS keeps the tables' conditions (R56). -/
theorem State.TablesFit.noAlias (w : s.TablesFit) {i : Slot} (hl : (s.record i).live = true) :
    (({ s with directory := removeEntries (.aliasEntry i) s.directory } : State).updRecord i
      fun r => { r with aliasTag := none }).TablesFit := by
  refine w.retagged hl rfl rfl rfl rfl ((w.records i).retag hl _ _)
    (w.ordered.remove (what := .aliasEntry i) (by rfl)) (w.agrees.remove (what := .aliasEntry i) (by rfl) ?_)
  intro o
  rw [tagOf_newAlias hl]
  rw [aliasEntry_takes]
  simp only [decide_eq_true_eq]

/-- The completion of a SET-MANAGEMENT-TAG that succeeds keeps the tables' conditions (R40). -/
theorem State.TablesFit.newManagement (w : s.TablesFit) {given : Option Word} {d : List Entry}
    (hz : given ≠ some 0#16)
    (e : (managementOperation s.managementTag given).change s.directory = .made d) :
    ({ s with directory := d, managementTag := given } : State).TablesFit := by
  have htag : ∀ o, ({ s with directory := d, managementTag := given } : State).tagOf o =
      if o = .management then given else s.tagOf o := fun o =>
    State.tagOf_management (s := s) (t := { s with directory := d, managementTag := given }) (fun _ => rfl) o
  generalize ht : ({ s with directory := d, managementTag := given } : State) = t at htag ⊢
  have hd : t.directory = d := by rw [← ht]
  have key : t.DirectoryOrdered ∧ t.DirectoryAgrees := by
    cases hm : s.managementTag with
    | none =>
      rw [hm] at e
      cases given with
      | none =>
        obtain rfl : removeEntries .managementEntry s.directory = d := by
          simpa [managementOperation, Operation.change] using e
        exact ⟨w.ordered.remove (what := .managementEntry) hd,
          w.agrees.remove (what := .managementEntry) hd fun o => by
            rw [htag, managementEntry_takes]; simp only [decide_eq_true_eq]⟩
      | some tag =>
        have hnd : (([{ tag := tag, owner := .management }] : List Entry).map Entry.tag).Nodup := by simp
        have hz' : tag ≠ 0#16 := fun c => hz (by rw [c])
        refine ⟨w.ordered.insert hnd (by simpa using hz') e hd, w.agrees.insert w.ordered hnd e hd ?_⟩
        intro tag' o
        rw [htag]
        exact tagged_alone fun h => by subst h; exact hm
    | some old =>
      rw [hm] at e
      have hp : s.tagOf .management ≠ none := by rw [State.tagOf, hm]; exact Option.some_ne_none _
      cases given with
      | none =>
        obtain rfl : removeEntries .managementEntry s.directory = d := by
          simpa [managementOperation, Operation.change] using e
        exact ⟨w.ordered.remove (what := .managementEntry) hd,
          w.agrees.remove (what := .managementEntry) hd fun o => by
            rw [htag, managementEntry_takes]; simp only [decide_eq_true_eq]⟩
      | some tag =>
        have hz' : tag ≠ 0#16 := fun c => hz (by rw [c])
        exact ⟨w.ordered.replace (w.agrees.present hp) hz' e hd, w.agrees.replace w.ordered hp e hd htag⟩
  have hrec : t.records = s.records := by rw [← ht]
  have hrc : ∀ i, t.record i = s.record i := fun i => by rw [← ht]; rfl
  exact
    { records := w.records.congr hrec
      freeList := w.freeList.congr (fun i => by rw [hrc]) (by rw [← ht])
      queue := w.queue.congr (fun i => by rw [hrc]) (fun i => by rw [hrc]) (by rw [← ht])
      attention := w.attention.congr (fun i => by rw [hrc]) (fun i => by rw [hrc]) (by rw [← ht])
      naming := w.naming.congr (fun i => by rw [hrc]) (fun i => by rw [hrc]) (by rw [← ht]) (by rw [← ht])
        (by rw [← ht]) (by rw [← ht])
      ordered := key.1
      agrees := key.2 }

end Sys2Proof.Machine
end

