-- ==== Sys2Proof/Laws/Requests.lean ====
section
/-! SUPPORT. What the body of each request does to the conditions (chapters 2, 3, 5, 6, 7): with no request in
flight it keeps them all, whether the request ends at once or goes on to its directory stage. -/

namespace Sys2Proof.Machine

variable {s t : State}

/-! ### Joining the conditions -/

/-- A move that keeps every life keeps the conditions together, when it keeps those on tables and hold. -/
theorem State.Coherent.moved (w : s.Coherent) (m : s.KeepsLives t) (ht : t.TablesFit) (hh : t.HoldFits) :
    t.Coherent := ⟨ht, m.slots w.slots, m.engineFits w.engine, hh⟩

/-- A slot's passage between ACTIVE and SUSPENDED leaves the request and the engine fitting. -/
structure State.Turns (s t : State) : Prop where
  pending : ∀ i, (t.record i).state = .pending ↔ (s.record i).state = .pending
  retiring : ∀ i, (t.record i).state = .retiring ↔ (s.record i).state = .retiring
  inService : ∀ i, (s.record i).inService = true → (t.record i).inService = true
  primaryTag : ∀ i, (t.record i).primaryTag = (s.record i).primaryTag
  aliasTag : ∀ i, (t.record i).aliasTag = (s.record i).aliasTag
  managementTag : t.managementTag = s.managementTag
  engine : t.engine = s.engine
  request : t.request = s.request

theorem State.Turns.live (m : s.Turns t) (i : Slot) (h : (s.record i).live = true) : (t.record i).live = true := by
  rcases (by simpa [Record.live] using h : (s.record i).inService = true ∨ (s.record i).state = .retiring) with x | x
  · simp [Record.live, m.inService i x]
  · simp [Record.live, (m.retiring i).mpr x]

theorem State.Turns.coherent (m : s.Turns t) (w : s.Coherent) (ht : t.TablesFit) (hh : t.HoldFits) : t.Coherent where
  tables := ht
  slots :=
    { pending := fun i => by rw [m.pending, State.requestKind, m.request]; exact w.slots.pending i
      retiring := fun i => by rw [m.retiring, State.requestKind, m.request]; exact w.slots.retiring i
      retag := fun i h => by rw [State.requestKind, m.request] at h; exact m.inService i (w.slots.retag i h)
      setAlias := fun i h => by rw [State.requestKind, m.request] at h; exact m.inService i (w.slots.setAlias i h)
      clearAlias := fun i h => by
        rw [State.requestKind, m.request] at h; exact m.inService i (w.slots.clearAlias i h) }
  engine := w.engine.congr m.primaryTag m.aliasTag m.live m.managementTag m.engine m.request
  hold := hh

/-- With no request in flight no slot is PENDING or RETIRING (R8). -/
theorem State.SlotsFit.idle (w : s.SlotsFit) (hn : s.request = none) (i : Slot) :
    (s.record i).state ≠ .pending ∧ (s.record i).state ≠ .retiring := by
  constructor
  · intro e; have := (w.pending i).mp e; simp [State.requestKind, hn] at this
  · intro e; have := (w.retiring i).mp e; simp [State.requestKind, hn] at this

/-- With no request in flight a slot that is not FREE is ACTIVE or SUSPENDED (R6, R8). -/
theorem State.SlotsFit.serving (w : s.SlotsFit) (hn : s.request = none) {i : Slot}
    (hf : (s.record i).state ≠ .free) : (s.record i).inService = true := by
  have h := w.idle hn i
  unfold Record.inService
  cases e : (s.record i).state <;> simp_all

/-! ### The ends of a request -/

theorem State.Coherent.endRequest (w : s.Coherent) (hn : s.request = none) (r : ResultCode) (v : Word) :
    (endRequest r v s).Coherent :=
  w.congr rfl rfl rfl rfl rfl hn.symm rfl rfl rfl rfl rfl rfl rfl rfl rfl

theorem State.Coherent.failRequest (w : s.Coherent) (hn : s.request = none) (r : ResultCode) :
    (failRequest r s).Coherent := w.endRequest hn r _

theorem State.Coherent.okHandle (w : s.Coherent) (hn : s.request = none) : (okHandle s).Coherent :=
  w.endRequest hn _ _

/-- The slot a handle names is not FREE (R10). -/
theorem slotOf_ne_free {x : Word} {i : Slot} (h : s.slotOf x = some i) : (s.record i).state ≠ .free := by
  unfold State.slotOf at h
  split at h
  · cases h
  · split at h
    · cases h
    · rename_i c
      obtain rfl := Option.some.inj h
      exact fun e => c (Or.inl e)

/-- A body run on the record a handle names, or STALE (R10). -/
theorem State.Coherent.onRecord (w : s.Coherent) (hn : s.request = none) (body : Slot → State → State)
    (h : ∀ i, (s.record i).inService = true → (body i s).Coherent) : (onRecord body s).Coherent := by
  unfold Machine.onRecord
  split
  · exact w.failRequest hn _
  · rename_i i e
    exact h i (w.slots.serving hn (slotOf_ne_free e))

/-! ### Requests on records alone -/

/-- A change of fields that no table mirrors, and OK. -/
theorem State.Coherent.okMinor (w : s.Coherent) (hn : s.request = none) (i : Slot) (f : Record → Record)
    (m : (s.record i).Minor (f (s.record i))) : (Machine.okHandle (s.updRecord i f)).Coherent :=
  (w.updRecord_minor i f m).okHandle hn

theorem Record.minor_of_serving {r x : Record} (w : r.Fits) (hi : r.inService = true) (h1 : x.state = r.state)
    (h2 : x.generation = r.generation) (h3 : x.primaryTag = r.primaryTag) (h4 : x.aliasTag = r.aliasTag)
    (h5 : x.call = r.call) (h6 : x.notices = r.notices)
    (h8 : x.endChar.isSome =
      (hasOption x.options .endSend || hasOption x.options .endMark || hasOption x.options .endPause)) : r.Minor x := by
  have hx : x.inService = true := (Record.inService_congr h1).trans hi
  exact ⟨h1, h2, h3, h4, h5, h6,
    { free := fun e => by simp [Record.inService, e] at hx
      sets := fun e => by rw [hx] at e; cases e
      quiet := fun e => by rw [h5]; exact w.quiet (by rw [← h1]; exact e)
      endChar := h8 }⟩

theorem State.Coherent.runSetStatus (w : s.Coherent) (hn : s.request = none) : (runSetStatus s).Coherent := by
  refine w.onRecord hn _ fun i hi => ?_
  split
  · exact w.failRequest hn _
  · have wi := w.tables.records i
    exact w.okMinor hn i _ (Record.minor_of_serving wi hi rfl rfl rfl rfl rfl rfl wi.endChar)

theorem State.Coherent.runSetPoll (w : s.Coherent) (hn : s.request = none) : (runSetPoll s).Coherent := by
  refine w.onRecord hn _ fun i hi => ?_
  split
  · exact w.failRequest hn _
  · split
    · exact w.failRequest hn _
    · have wi := w.tables.records i
      exact w.okMinor hn i _ (Record.minor_of_serving wi hi rfl rfl rfl rfl rfl rfl wi.endChar)

theorem State.Coherent.runClearPoll (w : s.Coherent) (hn : s.request = none) : (runClearPoll s).Coherent := by
  refine w.onRecord hn _ fun i hi => ?_
  split
  · exact w.failRequest hn _
  · have wi := w.tables.records i
    exact w.okMinor hn i _ (Record.minor_of_serving wi hi rfl rfl rfl rfl rfl rfl wi.endChar)

theorem State.Coherent.runSetFlag (w : s.Coherent) (hn : s.request = none) : (runSetFlag s).Coherent := by
  refine w.onRecord hn _ fun i hi => ?_
  split
  · exact w.failRequest hn _
  · split
    · exact w.failRequest hn _
    · split
      · exact w.failRequest hn _
      · have wi := w.tables.records i
        exact w.okMinor hn i _ (Record.minor_of_serving wi hi rfl rfl rfl rfl rfl rfl wi.endChar)

theorem endCharOf_isSome (os : BitVec 7) (c : Byte) :
    (endCharOf os c).isSome = (hasOption os .endSend || hasOption os .endMark || hasOption os .endPause) := by
  unfold endCharOf; split <;> simp_all

theorem State.Coherent.runSetOptions (w : s.Coherent) (hn : s.request = none) : (runSetOptions s).Coherent := by
  refine w.onRecord hn _ fun i hi => ?_
  split
  · exact w.failRequest hn _
  · split
    · exact w.failRequest hn _
    · have wi := w.tables.records i
      exact w.okMinor hn i _
        (Record.minor_of_serving wi hi rfl rfl rfl rfl rfl rfl (endCharOf_isSome _ _))

/-! ### Calls -/

theorem State.HoldFits.joinQueue (w : s.HoldFits) (i : Slot) : (joinQueue i s).HoldFits :=
  w.congr (by rfl) (by rfl) (by rfl) (by rfl) (by rfl) (by rfl)

theorem State.Coherent.runCall (w : s.Coherent) (hn : s.request = none) : (runCall s).Coherent := by
  refine w.onRecord hn _ fun i hi => ?_
  dsimp only
  split
  · exact w.failRequest hn _
  · rename_i ha
    have ha' : (s.record i).state = .active := by simpa using ha
    have wi := w.tables.records i
    have w1 : (s.updRecord i fun r => { r with status := loByte (s.param 1) }).Coherent :=
      w.updRecord_minor i _ (Record.minor_of_serving wi hi rfl rfl rfl rfl rfl rfl wi.endChar)
    split
    · rename_i hq
      refine State.Coherent.okHandle ?_ hn
      exact w1.moved (joinQueue_keepsLives _ i)
        (w1.tables.joinQueue (by rw [State.record_updRecord, if_pos rfl]; exact ha')
          (by rw [State.record_updRecord, if_pos rfl]; exact hq))
        (w1.hold.joinQueue i)
    · exact w1.okHandle hn

theorem State.Coherent.runWithdraw (w : s.Coherent) (hn : s.request = none) : (runWithdraw s).Coherent := by
  refine w.onRecord hn _ fun i hi => ?_
  split
  · exact w.failRequest hn _
  · refine State.Coherent.okHandle ?_ hn
    exact w.moved (leaveQueue_keepsLives s i) (w.tables.leaveQueue i) (w.hold.congr (by rfl) (by rfl) (by rfl) (by rfl) (by rfl) (by rfl))

/-! ### CONFIRM -/

/-- A pending confirm that has ended, with nothing held, leaves the conditions on the held unit (R104, R105). -/
theorem State.HoldFits.confirmEnds (w : s.HoldFits) (hc : s.link.confirm.isSome = true) (h1 : t.link.confirm = none)
    (h2 : t.link.held = none) (h3 : t.engine = s.engine) : t.HoldFits := by
  have hk := w.confirm.mp hc
  have nl : ¬ s.lookupDue := fun h => by have := w.lookup.mp h; rw [hk] at this; cases this
  have nr : ¬ s.replaceDue := fun h => by have := w.replace.mp h; rw [hk] at this; cases this
  have hh : t.holdCause = none := by simp [State.holdCause, h2]
  exact
    { confirm := by rw [h1, hh]; simp
      lookup := by
        rw [hh, show t.lookupDue ↔ s.lookupDue by simp [State.lookupDue, h3]]
        exact ⟨fun h => absurd h nl, fun h => by cases h⟩
      replace := by
        rw [hh, show t.replaceDue ↔ s.replaceDue by simp [State.replaceDue, h3]]
        exact ⟨fun h => absurd h nr, fun h => by cases h⟩
      single := by rw [h3]; exact w.single
      standing := fun _ _ _ => h2
      offline := fun _ => h2 }

theorem State.Coherent.refuseConfirm (w : s.Coherent) (hc : s.link.confirm.isSome = true) :
    (refuseConfirm s).Coherent :=
  w.moved (refuseConfirm_keepsLives s) w.tables.refuseConfirm (w.hold.confirmEnds hc rfl rfl rfl)

theorem applyNaming_confirm (role : Role) (i : Slot) (s : State) :
    (applyNaming role i s).link.confirm = s.link.confirm := by
  cases role
  · exact applySource_confirm s i
  · exact applySink_confirm s i

theorem State.Coherent.acceptConfirm (w : s.Coherent) {c : Confirm} (hc : s.link.confirm = some c) :
    (acceptConfirm c s).Coherent := by
  have m := acceptConfirm_keepsLives s c
  refine w.moved m (w.tables.acceptConfirm hc) (w.hold.confirmEnds (by rw [hc]; rfl) ?_ rfl m.engine)
  unfold Machine.acceptConfirm
  exact (applyNaming_confirm _ _ _).trans rfl

theorem State.Coherent.runConfirm (w : s.Coherent) (hn : s.request = none) : (runConfirm s).Coherent := by
  refine w.onRecord hn _ fun i hi => ?_
  split
  · exact w.failRequest hn _
  · split
    · exact w.failRequest hn _
    · rename_i c hc
      split
      · split
        · exact (w.acceptConfirm hc).okHandle ((acceptConfirm_keepsLives s c).request.trans hn)
        · exact (w.refuseConfirm (by rw [hc]; rfl)).okHandle hn
      · exact w.failRequest hn _

/-! ### SUSPEND and RESUME -/

theorem detachLink_engine (s : State) (i : Slot) : (detachLink i s).engine = s.engine :=
  (detachLink_keepsLives s i).engine

/-- The link part of a detachment keeps the conditions on the held unit (R47, R108). -/
theorem State.HoldFits.detachLink (w : s.HoldFits) (i : Slot) : (detachLink i s).HoldFits := by
  have hr : ∀ h, (releaseIfSource h s).link.held = s.link.held ∧ (releaseIfSource h s).lines = s.lines ∧
      (releaseIfSource h s).link.confirm = s.link.confirm ∧
      (releaseIfSource h s).link.online = s.link.online := by
    intro h; unfold releaseIfSource; split <;> exact ⟨rfl, rfl, rfl, rfl⟩
  have w2 : ({ releaseIfSource (s.handleOf i) s with
      link.sinks := (releaseIfSource (s.handleOf i) s).link.sinks.filter (· ≠ s.handleOf i) } : State).HoldFits :=
    w.congr (hr _).2.2.1 (hr _).1 (congrArg Engine.flight (releaseIfSource_keepsLives s _).engine)
      (congrArg Engine.linkClaim (releaseIfSource_keepsLives s _).engine) (congrArg LinkLines.foreign (hr _).2.1)
      (hr _).2.2.2
  unfold Machine.detachLink refuseConfirmOf
  dsimp only
  split
  · rename_i hc
    exact w2.confirmEnds (by
      cases h : (releaseIfSource (s.handleOf i) s).link.confirm with
      | none => rw [h] at hc; cases hc
      | some c => rfl) rfl rfl rfl
  · exact w2

/-- A detachment that leaves a record of service in SUSPENDED or RETIRING keeps the tables' conditions. -/
theorem State.TablesFit.detach (w : s.TablesFit) {i : Slot} {st : SlotState} (hi : (s.record i).inService = true)
    (hst : st = .suspended ∨ st = .retiring ∧ ((Machine.detachLink i s).record i).notices = 0#8 ∧
      ((Machine.detachLink i s).record i).signals = 0#16) : (detach i st s).TablesFit := by
  have h := w.detachLink i
  have m := detachLink_keepsLives s i
  refine h.1.detachCalls ?_ ?_ hst
  · rw [m.handleOf]; exact h.2
  · rw [Record.inService_congr (m.state i)]; exact hi

theorem record_detach (s : State) (i j : Slot) (st : SlotState) :
    (detach i st s).record j =
      if i = j then { (detachLink i s).record i with state := st, call := .quiet } else (detachLink i s).record j := by
  simp [detach, detachCalls]

theorem detachLink_records (s : State) (i : Slot) : (detachLink i s).records = s.records := by
  unfold detachLink refuseConfirmOf releaseIfSource
  dsimp only
  split <;> split <;> rfl

theorem detachLink_record (s : State) (i j : Slot) : (detachLink i s).record j = s.record j :=
  State.record_congr (detachLink_records s i) j

theorem State.HoldFits.detach (w : s.HoldFits) (i : Slot) (st : SlotState) : (detach i st s).HoldFits :=
  (w.detachLink i).congr (by rfl) (by rfl) (by rfl) (by rfl) (by rfl) (by rfl)

theorem detach_turns (s : State) {i : Slot} (hi : (s.record i).inService = true) : s.Turns (detach i .suspended s) := by
  have m := detachLink_keepsLives s i
  have hr : ∀ j, (detach i .suspended s).record j =
      if i = j then { s.record i with state := .suspended, call := .quiet } else s.record j := by
    intro j; rw [record_detach, detachLink_record, detachLink_record]
  have hs : (s.record i).state = .active ∨ (s.record i).state = .suspended := by
    simpa [Record.inService] using hi
  refine ⟨fun j => ?_, fun j => ?_, fun j h => ?_, fun j => ?_, fun j => ?_, m.managementTag, m.engine, m.request⟩
  · rw [hr]; split
    · rename_i e; subst e; rcases hs with x | x <;> simp [x]
    · exact Iff.rfl
  · rw [hr]; split
    · rename_i e; subst e; rcases hs with x | x <;> simp [x]
    · exact Iff.rfl
  · rw [hr]; split
    · rfl
    · exact h
  · rw [hr]; split
    · rename_i e; subst e; rfl
    · rfl
  · rw [hr]; split
    · rename_i e; subst e; rfl
    · rfl

theorem State.Coherent.runSuspend (w : s.Coherent) (hn : s.request = none) : (runSuspend s).Coherent := by
  refine w.onRecord hn _ fun i hi => ?_
  split
  · exact w.failRequest hn _
  · split
    · exact w.failRequest hn _
    · have m := detach_turns s hi
      exact (m.coherent w (w.tables.detach hi (Or.inl rfl)) (w.hold.detach i _)).okHandle (m.request.trans hn)

theorem State.Coherent.runResume (w : s.Coherent) (hn : s.request = none) : (runResume s).Coherent := by
  refine w.onRecord hn _ fun i hi => ?_
  split
  · exact w.failRequest hn _
  · rename_i hs
    have hs' : (s.record i).state = .suspended := by simpa using hs
    have hr : ∀ j, (s.updRecord i fun r => { r with state := .active, call := .quiet }).record j =
        if i = j then { s.record i with state := .active, call := .quiet } else s.record j := by
      intro j; simp
    have m : s.Turns (s.updRecord i fun r => { r with state := .active, call := .quiet }) := by
      refine ⟨fun j => ?_, fun j => ?_, fun j h => ?_, fun j => ?_, fun j => ?_, rfl, rfl, rfl⟩
      · rw [hr]; split
        · rename_i e; subst e; simp [hs']
        · exact Iff.rfl
      · rw [hr]; split
        · rename_i e; subst e; simp [hs']
        · exact Iff.rfl
      · rw [hr]; split
        · rfl
        · exact h
      · rw [hr]; split
        · rename_i e; subst e; rfl
        · rfl
      · rw [hr]; split
        · rename_i e; subst e; rfl
        · rfl
    exact (m.coherent w (w.tables.resumed hs') (w.hold.congr (by rfl) (by rfl) (by rfl) (by rfl) (by rfl) (by rfl))).okHandle hn

/-! ### Requests with a directory stage -/

/-- The request in flight after a claim is sent. -/
@[simp] theorem startStage_requestKind (kind : DirectoryRequest) (op : Operation) (s : State) :
    (startStage kind op s).requestKind = some kind := by
  unfold startStage sendRequestClaim State.requestKind
  split <;> rfl

theorem startStage_records (kind : DirectoryRequest) (op : Operation) (s : State) :
    (startStage kind op s).records = s.records := by
  unfold startStage sendRequestClaim; split <;> rfl

/-- The directory stage of a request that changed no record keeps the conditions (R42). -/
theorem State.Coherent.startStage (w : s.Coherent) (hn : s.request = none) {kind : DirectoryRequest} {op : Operation}
    (hk : ∀ i, kind ≠ .create i ∧ kind ≠ .retire i)
    (hs : ∀ i, kind = .retag i ∨ kind = .setAlias i ∨ kind = .clearAlias i → (s.record i).inService = true)
    (ha : s.awaits { kind := kind, params := s.port.params } op) : (startStage kind op s).Coherent := by
  have hr := State.record_congr (startStage_records kind op s)
  have hi := w.slots.idle hn
  exact
    { tables := w.tables.congr (startStage_records _ _ _) (by simp [Machine.startStage]) (by simp [Machine.startStage])
        (by simp [Machine.startStage]) (by simp [Machine.startStage]) (by simp [Machine.startStage])
        (by simp [Machine.startStage]) (by simp [Machine.startStage]) (by simp [Machine.startStage])
        (by simp [Machine.startStage])
      slots :=
        { pending := fun i => by
            rw [hr, startStage_requestKind]
            exact ⟨fun h => absurd h (hi i).1, fun h => absurd (Option.some.inj h) (hk i).1⟩
          retiring := fun i => by
            rw [hr, startStage_requestKind]
            exact ⟨fun h => absurd h (hi i).2, fun h => absurd (Option.some.inj h) (hk i).2⟩
          retag := fun i h => by
            rw [startStage_requestKind] at h
            rw [hr]; exact hs i (Or.inl (Option.some.inj h))
          setAlias := fun i h => by
            rw [startStage_requestKind] at h
            rw [hr]; exact hs i (Or.inr (Or.inl (Option.some.inj h)))
          clearAlias := fun i h => by
            rw [startStage_requestKind] at h
            rw [hr]; exact hs i (Or.inr (Or.inr (Option.some.inj h))) }
      engine := w.engine.startStage hn rfl (fun _ h => h) ha
      hold := w.hold.startStage w.engine hn rfl rfl rfl rfl rfl }

theorem State.Coherent.runRetag (w : s.Coherent) (hn : s.request = none) : (runRetag s).Coherent := by
  refine w.onRecord hn _ fun i hi => ?_
  dsimp only
  split
  · exact w.failRequest hn _
  · split
    · exact w.failRequest hn _
    · rename_i hz
      split
      · exact w.okHandle hn
      · refine w.startStage hn (fun j => ⟨by simp, by simp⟩) (fun j h => ?_) ⟨rfl, fun e => hz (Or.inl e)⟩
        obtain rfl : i = j := by simpa using h
        exact hi

theorem State.Coherent.runSetAlias (w : s.Coherent) (hn : s.request = none) : (runSetAlias s).Coherent := by
  refine w.onRecord hn _ fun i hi => ?_
  dsimp only
  split
  · exact w.failRequest hn _
  · split
    · exact w.failRequest hn _
    · rename_i hz
      split
      · exact w.okHandle hn
      · refine w.startStage hn (fun j => ⟨by simp, by simp⟩) (fun j h => ?_) ⟨rfl, hz⟩
        obtain rfl : i = j := by simpa using h
        exact hi

theorem State.Coherent.runClearAlias (w : s.Coherent) (hn : s.request = none) : (runClearAlias s).Coherent := by
  refine w.onRecord hn _ fun i hi => ?_
  split
  · exact w.failRequest hn _
  · rename_i hz
    refine w.startStage hn (fun j => ⟨by simp, by simp⟩) (fun j h => ?_) ⟨rfl, fun e => hz (Or.inr e)⟩
    obtain rfl : i = j := by simpa using h
    exact hi

theorem State.Coherent.runFind (w : s.Coherent) (hn : s.request = none) : (runFind s).Coherent := by
  unfold Machine.runFind
  split
  · exact w.failRequest hn _
  · exact w.startStage hn (fun j => ⟨by simp, by simp⟩) (fun j h => by simp at h) ⟨_, rfl⟩

theorem State.Coherent.runSetManagementTag (w : s.Coherent) (hn : s.request = none) :
    (runSetManagementTag s).Coherent := by
  unfold Machine.runSetManagementTag
  dsimp only
  split
  · exact w.endRequest hn _ _
  · split
    · exact w.failRequest hn _
    · exact w.startStage hn (fun j => ⟨by simp, by simp⟩) (fun j h => by simp at h) rfl

/-! ### CREATE -/

theorem tagOrNone_ne_zero (x : Word) : tagOrNone x ≠ some 0#16 := by
  unfold tagOrNone; split
  · simp
  · rename_i h; simpa using h

theorem tagOrNone_ne {x y : Word} (h : ¬ (x ≠ 0#16 ∧ x = y)) : tagOrNone x ≠ some y := by
  unfold tagOrNone; split
  · simp
  · rename_i c
    intro e
    exact h ⟨c, Option.some.inj e⟩

/-- An accepted CREATE keeps the conditions (R13, R44). -/
theorem State.Coherent.startCreate (w : s.Coherent) (hn : s.request = none) {i : Slot} {rest : List Slot}
    (hl : s.freeList = i :: rest) (os : BitVec 7) (p : Option PollAssignment) (hz : s.param 0 ≠ 0#16)
    (hne : ¬ (s.param 1 ≠ 0#16 ∧ s.param 1 = s.param 0)) : (startCreate i rest os p s).Coherent := by
  have hfree : (s.record i).state = .free := (w.tables.freeList.free i).mp (by rw [hl]; simp)
  unfold Machine.startCreate
  dsimp only
  generalize hx : pendingRecord (s.record i).generation (s.param 0) (tagOrNone (s.param 1)) os (hiByte (s.param 2))
    (loByte (s.param 3)) p = x
  have hxs : x.state = .pending := by rw [← hx]; rfl
  have hxf : x.Fits := by rw [← hx]; exact pendingRecord_fits _ _ _ _ _ _ _
  have hxp : x.primaryTag = s.param 0 := by rw [← hx]; rfl
  have hxa : x.aliasTag = tagOrNone (s.param 1) := by rw [← hx]; rfl
  have hr : ∀ j, (({ s with freeList := rest } : State).setRecord i x).record j =
      if i = j then x else s.record j := by
    intro j; simp
  generalize ht : ({ s with freeList := rest } : State).setRecord i x = t at hr
  have wt : t.TablesFit := by rw [← ht]; exact w.tables.takeSlot hl hxf hxs
  have he : t.engine = s.engine := by rw [← ht]; rfl
  have hlink : t.link = s.link := by rw [← ht]; rfl
  have hlines : t.lines = s.lines := by rw [← ht]; rfl
  have hi := w.slots.idle hn
  have hrr := State.record_congr (startStage_records (.create i)
    (.insert (createEntries i (s.param 0) (tagOrNone (s.param 1)))) t)
  exact
    { tables := wt.congr (startStage_records _ _ _) (by simp [Machine.startStage]) (by simp [Machine.startStage])
        (by simp [Machine.startStage]) (by simp [Machine.startStage]) (by simp [Machine.startStage])
        (by simp [Machine.startStage]) (by simp [Machine.startStage]) (by simp [Machine.startStage])
        (by simp [Machine.startStage])
      slots :=
        { pending := fun j => by
            rw [hrr, startStage_requestKind, hr]
            split
            · rename_i e; subst e; exact ⟨fun _ => rfl, fun _ => hxs⟩
            · rename_i e
              exact ⟨fun h => absurd h (hi j).1, fun h => absurd (by simpa using h) e⟩
          retiring := fun j => by
            rw [hrr, startStage_requestKind, hr]
            split
            · exact ⟨fun h => (by rw [hxs] at h; cases h), fun h => by simp at h⟩
            · exact ⟨fun h => absurd h (hi j).2, fun h => by simp at h⟩
          retag := fun j h => by simp at h
          setAlias := fun j h => by simp at h
          clearAlias := fun j h => by simp at h }
      engine := w.engine.startStage hn he
        (fun j h => by
          rw [hr]; split
          · rename_i e; subst e; simp [Record.live, Record.inService, hfree] at h
          · exact h)
        (by
          show _ = _ ∧ _
          have hri : t.record i = x := by rw [hr, if_pos rfl]
          rw [hri, hxp, hxa]
          exact ⟨rfl, hz, tagOrNone_ne_zero _, tagOrNone_ne hne⟩)
      hold := w.hold.startStage w.engine hn he (by rw [hlink]) (by rw [hlink]) (by rw [hlines])
        (by rw [hlink]) }

theorem State.Coherent.runCreate (w : s.Coherent) (hn : s.request = none) : (runCreate s).Coherent := by
  unfold Machine.runCreate
  split
  · exact w.failRequest hn _
  · rename_i hz
    split
    · exact w.failRequest hn _
    · rename_i hne
      split
      · split
        · exact w.failRequest hn _
        · rename_i hl
          exact w.startCreate hn hl _ _ hz hne
      · exact w.failRequest hn _

/-! ### RETIRE -/

/-- A record's notice and signal sets emptied and its place in the attention list given up (R50, R173). -/
theorem State.TablesFit.dropNotices (w : s.TablesFit) (i : Slot) : (dropNotices i s).TablesFit := by
  have hr : ∀ j, (Machine.dropNotices i s).record j =
      if i = j then { s.record i with notices := 0#8, signals := 0#16 } else s.record j := by
    intro j; simp [Machine.dropNotices]
  have hf : ∀ {α : Type} (g : Record → α), (∀ r : Record, g { r with notices := 0#8, signals := 0#16 } = g r) →
      ∀ j, g ((Machine.dropNotices i s).record j) = g (s.record j) := by
    intro α g h j; rw [hr]; split
    · rename_i e; subst e; exact h _
    · rfl
  have hg := hf Record.generation (fun _ => rfl)
  have hstate := hf Record.state (fun _ => rfl)
  exact
    { records := fun j => by
        rw [hr]; split
        · have wi := w.records i
          exact
            { free := fun e => by
                have := wi.free e
                rw [this]; rfl
              sets := fun _ => ⟨rfl, rfl⟩
              quiet := wi.quiet
              endChar := wi.endChar }
        · exact w.records j
      freeList := w.freeList.congr hstate rfl
      queue := w.queue.congr hg (hf Record.call (fun _ => rfl)) rfl
      attention :=
        { once := w.attention.once.filter _
          noticed := fun h => by
            show h ∈ s.notice.attention.filter (· ≠ s.handleOf i) ↔ _
            rw [List.mem_filter, w.attention.noticed, State.current_congr (hg _), hr]
            by_cases e : i = h.slot
            · subst e
              rw [if_pos rfl]
              constructor
              · rintro ⟨⟨c, _⟩, x⟩; simp at x; exact absurd c.symm x
              · rintro ⟨_, x⟩; exact absurd rfl x
            · rw [if_neg e]
              constructor
              · exact fun x => x.1
              · intro x; refine ⟨x, ?_⟩
                simp only [ne_eq, decide_not, Bool.not_eq_eq_eq_not, Bool.not_true, decide_eq_false_iff_not]
                intro y; exact e (by rw [y]; rfl) }
      naming := w.naming.congr hg hstate rfl rfl rfl rfl
      ordered := w.ordered.congr (by rfl)
      agrees := w.agrees.congr (by rfl) (State.tagOf_congr (fun j => Record.live_congr (hstate j))
        (hf Record.primaryTag (fun _ => rfl)) (hf Record.aliasTag (fun _ => rfl)) (by rfl)) }

theorem dropNotices_keepsLives (s : State) (i : Slot) : s.KeepsLives (dropNotices i s) := by
  have hr : ∀ j, (dropNotices i s).record j =
      if i = j then { s.record i with notices := 0#8, signals := 0#16 } else s.record j := by
    intro j; simp [dropNotices]
  refine ⟨fun j => ?_, fun j => ?_, fun j => ?_, fun j => ?_, rfl, rfl, rfl, rfl, rfl⟩ <;>
  · rw [hr]; split
    · rename_i e; subst e; rfl
    · rfl

theorem State.Coherent.dropNotices (w : s.Coherent) (i : Slot) : (dropNotices i s).Coherent :=
  w.moved (dropNotices_keepsLives s i) (w.tables.dropNotices i) (w.hold.congr (by rfl) (by rfl) (by rfl) (by rfl) (by rfl) (by rfl))

/-- A RETIRE that goes on to its remove keeps the conditions (R50, R51). -/
theorem State.Coherent.startRetire (w : s.Coherent) (hn : s.request = none) {i : Slot}
    (hi : (s.record i).inService = true) (hz : (s.record i).notices = 0#8 ∧ (s.record i).signals = 0#16) :
    (Machine.startStage (.retire i) (.remove (.slotEntries i)) (detach i .retiring s)).Coherent := by
  have m := detachLink_keepsLives s i
  have hr : ∀ j, (detach i .retiring s).record j =
      if i = j then { s.record i with state := .retiring, call := .quiet } else s.record j := by
    intro j; rw [record_detach, detachLink_record, detachLink_record]
  have wt : (detach i .retiring s).TablesFit := w.tables.detach hi (Or.inr ⟨rfl, by rw [detachLink_record]; exact hz⟩)
  have he : (detach i .retiring s).engine = s.engine := m.engine
  have hreq : (detach i .retiring s).request = none := m.request.trans hn
  have hlive : ∀ j, (s.record j).live = true → ((detach i .retiring s).record j).live = true := by
    intro j h; rw [hr]; split
    · rfl
    · exact h
  have hidle := w.slots.idle hn
  have wh := w.hold.detach i .retiring
  have we : (detach i .retiring s).EngineFits := w.engine.congr
    (fun j => by rw [hr]; split
                 · rename_i e; subst e; rfl
                 · rfl)
    (fun j => by rw [hr]; split
                 · rename_i e; subst e; rfl
                 · rfl) hlive m.managementTag he m.request
  generalize ht : detach i .retiring s = t at *
  have hrr := State.record_congr (startStage_records (.retire i) (.remove (.slotEntries i)) t)
  exact
    { tables := wt.congr (startStage_records _ _ _) (by simp [Machine.startStage]) (by simp [Machine.startStage])
        (by simp [Machine.startStage]) (by simp [Machine.startStage]) (by simp [Machine.startStage])
        (by simp [Machine.startStage]) (by simp [Machine.startStage]) (by simp [Machine.startStage])
        (by simp [Machine.startStage])
      slots :=
        { pending := fun j => by
            rw [hrr, startStage_requestKind, hr]
            split
            · exact ⟨fun h => (by cases h), fun h => by simp at h⟩
            · exact ⟨fun h => absurd h (hidle j).1, fun h => by simp at h⟩
          retiring := fun j => by
            rw [hrr, startStage_requestKind, hr]
            split
            · rename_i e; subst e; exact ⟨fun _ => rfl, fun _ => rfl⟩
            · rename_i e
              exact ⟨fun h => absurd h (hidle j).2, fun h => absurd (by simpa using h) e⟩
          retag := fun j h => by simp at h
          setAlias := fun j h => by simp at h
          clearAlias := fun j h => by simp at h }
      engine := we.startStage hreq rfl (fun _ h => h) rfl
      hold := wh.startStage we hreq rfl rfl rfl rfl rfl }

theorem State.Coherent.runRetire (w : s.Coherent) (hn : s.request = none) : (runRetire s).Coherent := by
  refine w.onRecord hn _ fun i hi => ?_
  split
  · exact w.failRequest hn _
  · have m := dropNotices_keepsLives s i
    refine (w.dropNotices i).startRetire (m.request.trans hn) ?_ ?_
    · rw [Record.inService_congr (m.state i)]; exact hi
    · simp [Machine.dropNotices]

/-! ### Every request -/

theorem State.Coherent.runRequest (w : s.Coherent) (hn : s.request = none) (c : RequestCode) :
    (runRequest c s).Coherent := by
  cases c
  · exact w.runCreate hn
  · exact w.runRetire hn
  · exact w.runRetag hn
  · exact w.runSetAlias hn
  · exact w.runClearAlias hn
  · exact w.runSuspend hn
  · exact w.runResume hn
  · exact w.runSetStatus hn
  · exact w.runCall hn
  · exact w.runWithdraw hn
  · exact w.runSetPoll hn
  · exact w.runClearPoll hn
  · exact w.runSetFlag hn
  · exact w.runConfirm hn
  · exact w.runFind hn
  · exact w.runSetManagementTag hn
  · exact w.runSetOptions hn

theorem State.Coherent.runRequestByte (w : s.Coherent) (hn : s.request = none) (c : Byte) :
    (runRequestByte c s).Coherent := by
  unfold Machine.runRequestByte
  split
  · exact w.runRequest hn _
  · exact w.failRequest hn _

/-- A REQUEST write keeps the conditions, when its body does with no request in flight (R191). -/
theorem State.Coherent.startRequest (w : s.Coherent) (body : State → State)
    (h : s.request = none → (body s).Coherent) : (startRequest body s).Coherent := by
  unfold Machine.startRequest
  split
  · exact w.congr rfl rfl rfl rfl rfl rfl rfl rfl rfl rfl rfl rfl rfl rfl rfl
  · rename_i hb
    exact h (by simpa using hb)

end Sys2Proof.Machine
end

