-- ==== Sys2Proof/Laws/LinkOps.lean ====
section
/-! SUPPORT. What the link's events and the data path do to the conditions together: control units (section 4.4),
offers and takes (R68, R72, R82), STOP, CLEAR, OFFLINE, ONLINE and reset (R83 to R89, R190). -/

namespace Sys2Proof.Machine

variable {s t : State}

/-! ### Moves of the data path -/

/-- A move of the data path that leaves the held unit as it is. -/
theorem State.Coherent.flows (w : s.Coherent) (f : s.Flows t) (h : t.link.held = s.link.held) : t.Coherent :=
  w.moved f.lives (f.tables w.tables)
    (w.hold.congr f.confirm h (congrArg Engine.flight f.lives.engine) (congrArg Engine.linkClaim f.lives.engine)
      (congrArg LinkLines.foreign f.lines) f.online)

/-- A move of the data path with a unit held for room, pause or drain. -/
theorem State.Coherent.flowsServe (w : s.Coherent) (f : s.Flows t) (hs : s.link.held ≠ none) (ps : s.PlainHold)
    (pt : t.PlainHold) : t.Coherent :=
  w.moved f.lives (f.tables w.tables)
    (w.hold.plain ps pt f.confirm f.lives.engine
      (fun x e1 e2 => absurd (w.hold.standing x (by rw [← f.lines]; exact e1) e2) hs)
      (fun e => absurd (w.hold.offline (by rw [← f.online]; exact e)) hs))

/-- The part attends to offers: ONLINE, nothing held, and no offer waits. -/
structure State.Attending (s : State) : Prop where
  held : s.link.held = none
  foreign : ∀ x, s.lines.foreign = some x → x.standing ≠ .waiting
  online : s.link.online = true

/-- A move of the data path that begins with nothing held. -/
theorem State.Coherent.flowsReceive (w : s.Coherent) (f : s.Flows t) (a : s.Attending) (pt : t.PlainHold) :
    t.Coherent :=
  w.moved f.lives (f.tables w.tables)
    (w.hold.plain (.of_none a.held) pt f.confirm f.lives.engine
      (fun x e1 e2 => absurd e2 (a.foreign x (by rw [← f.lines]; exact e1)))
      (fun e => by rw [f.online, a.online] at e; cases e))

theorem State.Coherent.serveHeldData (w : s.Coherent) : (serveHeldData s).Coherent := by
  by_cases h : Machine.serveHeldData s = s
  · rw [h]; exact w
  · have hc : s.holdCause = some .room ∨ s.holdCause = some .pause := by
      rcases serveHeldData_changes s with c | c
      · exact absurd c h
      · exact c
    have ps : s.PlainHold := State.DataHold.plain (Or.inr hc)
    have hs : s.link.held ≠ none := by
      intro e
      rcases hc with c | c <;> simp [State.holdCause, e] at c
    have pt : (Machine.serveHeldData s).PlainHold := by
      rcases serveHeldData_held s with x | x
      · exact x.plain
      · have : (Machine.serveHeldData s).holdCause = s.holdCause := by rw [State.holdCause, x]; rfl
        exact ⟨by rw [this]; exact ps.confirm, by rw [this]; exact ps.lookup, by rw [this]; exact ps.replace⟩
    exact w.flowsServe (serveHeldData_flows s) hs ps pt

theorem State.Coherent.afterDrain (w : s.Coherent) : (afterDrain s).Coherent := by
  by_cases h : Machine.afterDrain s = s
  · rw [h]; exact w
  · have hc : s.holdCause = some .room ∨ s.holdCause = some .pause ∨ s.holdCause = some .drain := by
      rcases afterDrain_changes s with c | c
      · exact absurd c h
      · exact c
    have ps : s.PlainHold := by
      rcases hc with c | c | c <;> constructor <;> simp [c]
    have hs : s.link.held ≠ none := by
      intro e
      rcases hc with c | c | c <;> simp [State.holdCause, e] at c
    have pt : (Machine.afterDrain s).PlainHold := by
      rcases afterDrain_held s with x | x
      · exact x.plain
      · have : (Machine.afterDrain s).holdCause = s.holdCause := by rw [State.holdCause, x]; rfl
        exact ⟨by rw [this]; exact ps.confirm, by rw [this]; exact ps.lookup, by rw [this]; exact ps.replace⟩
    exact w.flowsServe (afterDrain_flows s) hs ps pt

/-- A state that differs in fields outside the conditions. -/
theorem State.Coherent.present (w : s.Coherent) (x : Word) : (present x s).Coherent :=
  w.congr rfl rfl rfl rfl rfl rfl rfl rfl rfl rfl rfl rfl rfl rfl rfl

theorem State.Coherent.postDevice (w : s.Coherent) (n : DeviceNotice) : (postDevice n s).Coherent :=
  w.congr rfl rfl rfl rfl rfl rfl rfl rfl rfl rfl rfl rfl rfl rfl rfl

theorem State.Coherent.readIn (w : s.Coherent) : (readIn s).Coherent := by
  unfold Machine.readIn
  split
  · exact w.present _
  · rename_i e rest h
    have w1 : ({ s with data.inFifo := rest } : State).Coherent :=
      w.congr rfl rfl rfl rfl rfl rfl rfl rfl rfl rfl rfl rfl rfl rfl rfl
    exact (w1.present _).afterDrain

theorem State.Coherent.writeOut (w : s.Coherent) (v : Byte) (m : Bool) : (writeOut v m s).Coherent := by
  unfold Machine.writeOut
  split
  · exact w.congr rfl rfl rfl rfl rfl rfl rfl rfl rfl rfl rfl rfl rfl rfl rfl
  · exact w.postDevice _

theorem State.Coherent.offerUnit (w : s.Coherent) (o : Offered) (h : s.mayOffer = true) : (offerUnit o s).Coherent := by
  have h' : s.link.online = true ∧ s.link.held = none ∧ s.lines.foreign = none := by
    simp only [State.mayOffer, Bool.and_eq_true, Option.isNone_iff_eq_none] at h
    exact ⟨h.1.1.1.1.1.1.1, h.1.2, h.2⟩
  exact w.flowsReceive (offerUnit_flows s o)
    ⟨h'.2.1, fun x e => (by rw [h'.2.2] at e; cases e), h'.1⟩ (offerUnit_held s o h'.2.1).plain

theorem State.Coherent.releaseOthers (w : s.Coherent) (o : Offered) : (releaseOthers o s).Coherent := by
  have a : s.Flows { s with link.offered := some { o with otherHold := false } } :=
    .of_eq rfl rfl rfl rfl rfl rfl rfl rfl rfl rfl rfl rfl rfl rfl
  exact w.flows (a.trans (takeIfUnheld_flows _)) (by unfold Machine.releaseOthers; rw [takeIfUnheld_held])

/-! ### Control units -/

theorem State.Attending.coherent_takeHeld (a : s.Attending) (w : s.Coherent) : (takeHeld s).Coherent :=
  w.flows (takeHeld_flows s) a.held.symm

/-- A move over records alone keeps the conditions, when it keeps those on the tables. -/
theorem State.Coherent.onRecords (w : s.Coherent) (h : t.TablesFit ∧ s.OnRecords t) : t.Coherent :=
  w.moved h.2.lives h.1
    (w.hold.congr (by rw [h.2.link]) (by rw [h.2.link]) (congrArg Engine.flight h.2.lives.engine)
      (congrArg Engine.linkClaim h.2.lives.engine) (by rw [h.2.lines]) (by rw [h.2.link]))

theorem unnameSource_online (s : State) : (unnameSource s).link.online = s.link.online := by
  unfold unnameSource; split <;> simp [releaseSource]

theorem State.Coherent.unnameSource (w : s.Coherent) : (unnameSource s).Coherent :=
  w.moved (unnameSource_keepsLives s) w.tables.unnameSource
    (w.hold.congr (by simp) (by simp) (congrArg Engine.flight (unnameSource_keepsLives s).engine)
      (congrArg Engine.linkClaim (unnameSource_keepsLives s).engine) (by simp) (unnameSource_online s))

theorem State.Coherent.dropSinkList (w : s.Coherent) : (dropSinkList s).Coherent := by
  have h := dropSinkList_fits w.tables
  have w1 : ({ s with link.sinks := [] } : State).Coherent :=
    w.moved (.of_eq rfl rfl rfl rfl rfl rfl) w.tables.noSinks
      (w.hold.congr (by rfl) (by rfl) (by rfl) (by rfl) (by rfl) (by rfl))
  exact w1.onRecords h

theorem State.Coherent.armQuery (w : s.Coherent) : (armQuery s).Coherent := by
  have hl : (Machine.armQuery s).lines = s.lines ∧ (Machine.armQuery s).link.confirm = s.link.confirm ∧
      (Machine.armQuery s).link.held = s.link.held ∧ (Machine.armQuery s).link.online = s.link.online := by
    unfold Machine.armQuery; split <;> exact ⟨rfl, rfl, rfl, rfl⟩
  have m := armQuery_keepsLives s
  exact w.moved m w.tables.armQuery
    (w.hold.congr hl.2.1 hl.2.2.1 (congrArg Engine.flight m.engine) (congrArg Engine.linkClaim m.engine)
      (by rw [hl.1]) hl.2.2.2)

theorem receiveGo_plain (u : LinkUnit) (s : State) : (receiveGo u s).PlainHold := by
  unfold receiveGo
  split
  · constructor <;> simp [State.holdCause]
  · exact .of_none (takeGo_held s)

/-- Decoding a control unit keeps the conditions (R77). -/
theorem State.Coherent.decodeTake (w : s.Coherent) (a : s.Attending) (u : LinkUnit) : (decodeTake u s).Coherent := by
  have w1 := a.coherent_takeHeld w
  unfold Machine.decodeTake
  split
  · exact w1.onRecords (signalSinks_fits w1.tables _)
  · exact w1.congr rfl rfl rfl rfl rfl rfl rfl rfl rfl rfl rfl rfl rfl rfl rfl
  · exact w1.congr rfl rfl rfl rfl rfl rfl rfl rfl rfl rfl rfl rfl rfl rfl rfl
  · exact w1.congr rfl rfl rfl rfl rfl rfl rfl rfl rfl rfl rfl rfl rfl rfl rfl
  · exact w1.unnameSource
  · exact w1.dropSinkList
  · exact w.flowsReceive (receiveGo_flows s u) a (receiveGo_plain u s)
  · exact w1.armQuery
  · exact w1.congr rfl rfl rfl rfl rfl rfl rfl rfl rfl rfl rfl rfl rfl rfl rfl
  · exact w1.onRecords (releaseSinks_fits w1.tables)
  · exact w1.onRecords (assignSinks_fits w1.tables _)
  · exact w1

/-- A link claim sent for a unit that the part now holds keeps the conditions (R32, R33). -/
theorem State.Coherent.sendLinkClaim (w : s.Coherent) (a : s.Attending) (c : LinkClaim) (u : LinkUnit)
    (hc : ∀ i tag, c = .replace i tag → tag ≠ 0#16 ∧ (s.record i).state = .active) :
    (sendLinkClaim c (holdUnit u (match c with | .lookup _ _ => HoldCause.lookup | .replace _ _ => .replace) s)).Coherent := by
  have nl := w.hold.noLinkClaim (.of_none a.held)
  refine ⟨?_, ?_, ?_, ?_⟩
  · refine w.tables.congr (sendLinkClaim_records _ _) ?_ ?_ ?_ ?_ ?_ ?_ ?_ ?_ ?_ <;>
    · unfold Machine.sendLinkClaim; split <;> rfl
  · refine w.slots.congr (fun i => by rw [State.record_congr (sendLinkClaim_records _ _)]; rfl) ?_
    unfold Machine.sendLinkClaim; split <;> rfl
  · refine w.engine.sendLinkClaim c nl rfl rfl rfl rfl fun i tag e => ?_
    have h := hc i tag e
    refine ⟨⟨h.1, by simp [Record.live, Record.inService, h.2]⟩, fun x => ?_⟩
    have := (w.slots.retiring i).mpr x
    rw [h.2] at this; cases this
  · refine w.hold.sendLinkClaim c a.held rfl rfl ?_ a.foreign a.online
    cases c <;> rfl

theorem State.Coherent.resolveRetag (w : s.Coherent) (a : s.Attending) (tag : Word) (u : LinkUnit) :
    (resolveRetag tag (holdUnit u .replace s)).Coherent := by
  have w1 : (takeHeld (holdUnit u .replace s)).Coherent :=
    w.congr rfl rfl rfl rfl rfl rfl rfl rfl rfl rfl a.held.symm rfl rfl rfl rfl
  have w2 : (refuseHeld (holdUnit u .replace s)).Coherent :=
    w.congr rfl rfl rfl rfl rfl rfl rfl rfl rfl rfl a.held.symm rfl rfl rfl rfl
  unfold Machine.resolveRetag
  split
  · exact w1
  · exact w2
  · rename_i h hsrc
    dsimp only
    split
    · exact w1
    · split
      · exact w2
      · rename_i hn
        refine w.sendLinkClaim a (.replace h.slot tag) u fun i tag' e => ?_
        obtain ⟨rfl, rfl⟩ : h.slot = i ∧ tag = tag' := by simpa using e
        refine ⟨fun z => hn (by simp [z]), (w.tables.naming.source h hsrc).1.2⟩

theorem State.Coherent.receiveControl (w : s.Coherent) (a : s.Attending) (u : LinkUnit) :
    (receiveControl u s).Coherent := by
  unfold Machine.receiveControl
  split
  · exact w.decodeTake a u
  · exact w.congr rfl rfl rfl rfl rfl rfl rfl rfl rfl rfl a.held.symm rfl rfl rfl rfl
  · have w1 : ({ s with link.sequence := .none } : State).Coherent :=
      w.congr rfl rfl rfl rfl rfl rfl rfl rfl rfl rfl rfl rfl rfl rfl rfl
    have a1 : ({ s with link.sequence := .none } : State).Attending := ⟨a.held, a.foreign, a.online⟩
    unfold resolveSequence
    split
    · exact w1.sendLinkClaim a1 (.lookup _ _) u fun i tag e => by cases e
    · exact w1.sendLinkClaim a1 (.lookup _ _) u fun i tag e => by cases e
    · exact w1.resolveRetag a1 _ u

/-! ### Offers and takes of other stations -/

/-- A change of the lines that leaves an offer waiting only while nothing is held. -/
theorem State.Coherent.relined (w : s.Coherent) (l : LinkLines)
    (hl : ∀ x, l.foreign = some x → x.standing = .waiting → s.link.held = none) :
    ({ s with lines := l } : State).Coherent :=
  w.moved (.of_eq rfl rfl rfl rfl rfl rfl) (w.tables.congr rfl rfl rfl rfl rfl rfl rfl rfl rfl rfl)
    { confirm := w.hold.confirm, lookup := w.hold.lookup, replace := w.hold.replace, single := w.hold.single,
      standing := hl, offline := w.hold.offline }

theorem State.Coherent.attendOffer (w : s.Coherent) (a : s.Attending) (u : LinkUnit) : (attendOffer u s).Coherent := by
  unfold Machine.attendOffer
  split
  · exact w.receiveControl a u
  · split
    · exact w.flowsReceive (receiveData_flows s u) a (receiveData_held s u).plain
    · exact w
  · exact w
  · exact w

theorem State.occupied_eq_false (h : s.occupied = false) : s.link.held = none ∧ s.link.offered = none := by
  unfold State.occupied at h
  cases h1 : s.link.held <;> cases h2 : s.link.offered <;> simp_all

theorem State.attends_online (h : s.attends = true) : s.link.online = true := by
  unfold State.attends at h
  simp only [Bool.and_eq_true] at h
  exact h.1.1.1

/-- The lines with another sender's offer on them, and no REJECT. -/
theorem State.Coherent.offered (w : s.Coherent) (hh : s.link.held = none) (f : ForeignOffer) :
    ({ withdrawForeign s with lines.foreign := some f } : State).Coherent := by
  have w1 := w.relined { s.lines with foreign := some f } fun _ _ _ => hh
  exact w1.congr rfl rfl rfl rfl rfl rfl rfl rfl rfl rfl rfl rfl rfl rfl rfl

theorem State.Coherent.foreignOffer (w : s.Coherent) (h : s.occupied = false) (u : LinkUnit) :
    (foreignOffer u s).Coherent := by
  have hh := (State.occupied_eq_false h).1
  unfold Machine.foreignOffer
  dsimp only
  split
  · rename_i ha
    refine State.Coherent.attendOffer (w.offered hh _) ⟨hh, fun x e => ?_, State.attends_online ha⟩ u
    obtain rfl := Option.some.inj e
    exact fun h => nomatch h
  · exact w.offered hh _

theorem State.Coherent.takeOffer (w : s.Coherent) (hh : s.link.held = none) (u : LinkUnit) :
    (takeOffer u s).Coherent := by
  unfold Machine.takeOffer
  split
  · exact w.relined { s.lines with foreign := some { unit := u, standing := .over } } fun _ _ _ => hh
  · exact w.offered hh _

/-- A link take changes the lines alone, and REJECT. -/
theorem takeOffer_link (u : LinkUnit) (s : State) :
    (takeOffer u s).link = { s.link with reject := (takeOffer u s).link.reject } := by
  unfold Machine.takeOffer
  split <;> rfl

theorem State.Coherent.seeTake (w : s.Coherent) (hh : s.link.held = none) (u : LinkUnit) : (seeTake u s).Coherent := by
  have w1 : (takeHeld s).Coherent := w.flows (takeHeld_flows _) hh.symm
  unfold Machine.seeTake
  split
  · exact w.congr rfl rfl rfl rfl rfl rfl rfl rfl rfl rfl hh.symm rfl rfl rfl rfl
  · split
    · exact w
    · split
      · exact w1.flows (endPhase_flows _) (endPhase_held _)
      · exact w1
  · exact w1
  · exact w

theorem State.Coherent.foreignTake (w : s.Coherent) (h : s.occupied = false) (u : LinkUnit) :
    (foreignTake u s).Coherent := by
  have hh := (State.occupied_eq_false h).1
  have w1 := w.takeOffer hh u
  unfold Machine.foreignTake
  split
  · exact w1.seeTake (by rw [takeOffer_link]; exact hh) u
  · exact w1

theorem State.Coherent.attendStanding (w : s.Coherent) : (attendStanding s).Coherent := by
  unfold Machine.attendStanding
  split
  · rename_i f hf
    split
    · rename_i h
      have hh := w.hold.standing f hf h.1
      have w1 : ({ s with lines.foreign := some { f with standing := .attended } } : State).Coherent :=
        w.relined { s.lines with foreign := some { f with standing := .attended } } fun _ _ _ => hh
      refine w1.attendOffer ⟨hh, fun x e => ?_, State.attends_online h.2⟩ _
      obtain rfl := Option.some.inj e
      exact fun h => nomatch h
    · exact w
  · exact w

/-! ### STOP, CLEAR, OFFLINE, ONLINE -/

theorem abandonLink_held (s : State) : (abandonLink s).link.held = none := by
  unfold abandonLink; dsimp only; split <;> rfl

theorem abandonLink_confirm (s : State) : (abandonLink s).link.confirm = none := by
  unfold abandonLink; dsimp only; split <;> rfl

theorem State.Coherent.abandonLink (w : s.Coherent) : (abandonLink s).Coherent := by
  have key : (withdrawLinkClaim
      { s with
        link.phase := .command, link.sending := false, link.sequence := .none, link.held := none
        link.offered := none, link.reject := false, link.confirm := none, calls.answer := .none
        data.session := none, data.paused := false }).Coherent :=
    ⟨w.tables.withNaming rfl rfl rfl rfl rfl rfl
        (w.tables.naming.noConfirm (fun _ => rfl) (fun _ => rfl) rfl rfl rfl rfl),
      w.slots.congr (by intro i; rfl) (by rfl), w.engine.withdraw rfl rfl rfl rfl, holdFits_withdrawn rfl rfl⟩
  unfold Machine.abandonLink
  dsimp only
  split
  · exact key.postDevice _
  · exact key

theorem State.Coherent.stopLink (w : s.Coherent) : (stopLink s).Coherent := by
  unfold Machine.stopLink postStopped
  split
  · exact w.abandonLink.postDevice _
  · exact w.abandonLink

theorem State.Coherent.emptyNaming (w : s.Coherent) (hc : s.link.confirm = none) : (emptyNaming s).Coherent :=
  w.moved (.of_eq rfl rfl rfl rfl rfl rfl)
    (w.tables.withNaming rfl rfl rfl rfl rfl rfl
      { source := fun h e => by cases e
        sinks := fun h e => by cases e
        once := List.nodup_nil
        limit := Nat.zero_le _
        confirm := fun c e => by
          have e' : s.link.confirm = some c := e
          rw [hc] at e'; cases e'
        confirmSource := fun c e => by
          have e' : s.link.confirm = some c := e
          rw [hc] at e'; cases e'
        confirmSink := fun c e => by
          have e' : s.link.confirm = some c := e
          rw [hc] at e'; cases e'
        armed := fun e => by cases e })
    (w.hold.congr (by rfl) (by rfl) (by rfl) (by rfl) (by rfl) (by rfl))

theorem State.Coherent.clearLink (w : s.Coherent) : (clearLink s).Coherent := by
  have w1 := w.abandonLink.emptyNaming (abandonLink_confirm s)
  exact w1.congr rfl rfl rfl rfl rfl rfl rfl rfl rfl rfl rfl rfl rfl rfl rfl

/-- A change between ONLINE and OFFLINE with nothing held and no offer waiting. -/
theorem State.Coherent.turned (w : s.Coherent) (hh : s.link.held = none) (h1 : t.records = s.records)
    (h2 : t.freeList = s.freeList) (h3 : t.directory = s.directory) (h4 : t.managementTag = s.managementTag)
    (h5 : t.engine = s.engine) (h6 : t.request = s.request) (h7 : t.link.source = s.link.source)
    (h8 : t.link.sinks = s.link.sinks) (h9 : t.link.confirm = s.link.confirm)
    (h10 : t.link.queryArmed = s.link.queryArmed) (h11 : t.link.held = none) (h12 : t.calls.queue = s.calls.queue)
    (h13 : t.notice.attention = s.notice.attention) : t.Coherent :=
  w.moved (.of_eq h1 h2 h3 h4 h5 h6) (w.tables.congr h1 h2 h3 h4 h7 h8 h9 h10 h12 h13)
    (w.hold.plain (.of_none hh) (.of_none h11) h9 h5 (fun _ _ _ => h11) (fun _ => h11))

theorem State.Coherent.goOffline (w : s.Coherent) : (goOffline s).Coherent :=
  (w.abandonLink.emptyNaming (abandonLink_confirm s)).turned (abandonLink_held s) rfl rfl rfl rfl rfl rfl rfl rfl rfl
    rfl (abandonLink_held s) rfl rfl

theorem State.Coherent.goOnline (w : s.Coherent) (h : s.link.online = false) : (goOnline s).Coherent :=
  w.turned (w.hold.offline h) rfl rfl rfl rfl rfl rfl rfl rfl rfl rfl rfl rfl rfl

/-! ### Reset -/

theorem State.reset_record (i : Slot) : State.reset.record i = Record.cleared 0#8 := by
  simp [State.record, State.reset, Vector.get_eq_getElem]

/-- After a reset the conditions hold, whatever the lines and the queue (R190). -/
theorem resetPart_coherent (b : Bool) (s : State) : (resetPart b s).Coherent := by
  have hr : ∀ i, (resetPart b s).record i = Record.cleared 0#8 := State.reset_record
  exact
    { tables :=
        { records := fun i => by rw [hr]; exact cleared_fits _
          freeList :=
            { once := List.nodup_finRange _
              free := fun i => by rw [hr]; exact ⟨fun _ => rfl, fun _ => List.mem_finRange i⟩ }
          queue :=
            { once := List.nodup_nil
              calling := fun h => by rw [hr]; exact ⟨fun e => (by cases e), fun e => (by cases e.2)⟩ }
          attention :=
            { once := List.nodup_nil
              noticed := fun h => by rw [hr]; exact ⟨fun e => (by cases e), fun e => absurd rfl e.2⟩ }
          naming :=
            { source := fun h e => (by cases e)
              sinks := fun h e => (by cases e)
              once := List.nodup_nil
              limit := Nat.zero_le _
              confirm := fun c e => (by cases e)
              confirmSource := fun c e => (by cases e)
              confirmSink := fun c e => (by cases e)
              armed := fun e => (by cases e) }
          ordered := { sorted := List.Pairwise.nil, valid := fun e h => (by cases h), limit := Nat.zero_le _ }
          agrees := fun tag o => by
            have h : (resetPart b s).tagOf o = none := by
              cases o with
              | management => rfl
              | primary j => unfold State.tagOf; dsimp only; rw [hr]; rfl
              | aliasOf j => unfold State.tagOf; dsimp only; rw [hr]; rfl
            rw [h]
            exact ⟨fun e => (by cases e), fun e => (by cases e)⟩ }
      slots :=
        { pending := fun i => by rw [hr]; exact ⟨fun e => (by cases e), fun e => (by cases e)⟩
          retiring := fun i => by rw [hr]; exact ⟨fun e => (by cases e), fun e => (by cases e)⟩
          retag := fun i e => (by cases e)
          setAlias := fun i e => (by cases e)
          clearAlias := fun i e => (by cases e) }
      engine :=
        { free := fun _ => ⟨rfl, rfl⟩
          idle := fun _ => ⟨rfl, fun op e => (by cases e)⟩
          flight := fun q op e => (by cases e)
          claim := fun q op e => (by cases e)
          one := fun q e => (by cases e)
          replace := fun i t d e => (by cases e)
          replaceClaim := fun i t e => (by cases e) }
      hold :=
        { confirm := ⟨fun e => (by cases e), fun e => (by cases e)⟩
          lookup := ⟨fun e => (by rcases e with ⟨_, _, e⟩ | ⟨_, _, e⟩ <;> cases e), fun e => (by cases e)⟩
          replace := ⟨fun e => (by rcases e with ⟨_, _, e⟩ | ⟨_, _, e⟩ <;> cases e), fun e => (by cases e)⟩
          single := fun c e => (by cases e)
          standing := fun _ _ _ => rfl
          offline := fun _ => rfl } }

end Sys2Proof.Machine
end

