-- ==== Sys2Proof/Laws/Completions.lean ====
section
/-! SUPPORT. What the completion of a directory operation does to the conditions together: the link's operations
(R35, R96, R97, R111), the last stage of each request (R39, R40, R45, R46, R51, R53, R55, R56), and the take of the
next claim (R33). -/

namespace Sys2Proof.Machine

variable {s t : State}

/-! ### The take of the next claim -/

theorem finishOperation_engine (s : State) : (finishOperation s).engine = s.engine.takeNext := by
  unfold finishOperation answerStretched; dsimp only; split <;> rfl

theorem Engine.takeNext_linkClaim (e : Engine) : e.takeNext.linkClaim = none := by
  unfold Engine.takeNext; split <;> rfl

theorem Engine.takeNext_link (e : Engine) (c : LinkClaim) (d : Bool) :
    e.takeNext.flight = some (.link c d) ↔ e.linkClaim = some c ∧ d = false := by
  unfold Engine.takeNext
  split <;> simp_all [eq_comm]

theorem Engine.takeNext_request (e : Engine) (op : Operation) :
    e.takeNext.flight = some (.request op) ↔ e.linkClaim = none ∧ e.requestClaim = some op := by
  unfold Engine.takeNext
  split <;> simp_all [eq_comm]

theorem Engine.takeNext_requestClaim (e : Engine) (op : Operation) (h : e.takeNext.requestClaim = some op) :
    e.linkClaim ≠ none ∧ e.requestClaim = some op := by
  unfold Engine.takeNext at h
  split at h <;> simp_all

theorem Engine.takeNext_free (e : Engine) (h : e.takeNext.flight = none) :
    e.linkClaim = none ∧ e.requestClaim = none := by
  unfold Engine.takeNext at h
  split at h <;> simp_all

theorem State.TablesFit.finish (w : s.TablesFit) : (finishOperation s).TablesFit :=
  w.congr (by simp) (by simp) (by simp) (by simp) (by simp) (by simp) (by simp) (by simp) (by simp) (by simp)

theorem State.SlotsFit.finish (w : s.SlotsFit) : (finishOperation s).SlotsFit :=
  w.congr (fun i => by rw [State.record_congr (finishOperation_records s)]) (by simp [State.requestKind])

theorem finishOperation_record (s : State) (i : Slot) : (finishOperation s).record i = s.record i :=
  State.record_congr (finishOperation_records s) i

theorem finishOperation_awaits (s : State) (q : Request) (op : Operation) :
    (finishOperation s).awaits q op ↔ s.awaits q op :=
  State.awaits_of_eq (finishOperation_records s) (finishOperation_managementTag s)

/-- The take of the next claim after a link operation (R33). -/
theorem State.EngineFits.finishLink (w : s.EngineFits) {c : LinkClaim} {d : Bool}
    (hf : s.engine.flight = some (.link c d)) : (finishOperation s).EngineFits where
  free e := by
    rw [finishOperation_engine] at e ⊢
    refine ⟨Engine.takeNext_linkClaim _, ?_⟩
    cases h : s.engine.takeNext.requestClaim with
    | none => rfl
    | some op => exact absurd (Engine.takeNext_free _ e).1 (Engine.takeNext_requestClaim _ _ h).1
  idle e := by
    rw [finishOperation_request] at e
    rw [finishOperation_engine]
    have hn := (w.idle e).1
    refine ⟨?_, fun op h => ?_⟩
    · cases h : s.engine.takeNext.requestClaim with
      | none => rfl
      | some op => rw [(Engine.takeNext_requestClaim _ _ h).2] at hn; cases hn
    · rw [((Engine.takeNext_request _ _).mp h).2] at hn; cases hn
  flight q op e h := by
    rw [finishOperation_request] at e
    rw [finishOperation_engine] at h ⊢
    have h' := (Engine.takeNext_request _ _).mp h
    refine ⟨(finishOperation_awaits s q op).mpr (w.claim q op e h'.2), ?_⟩
    cases hc : s.engine.takeNext.requestClaim with
    | none => rfl
    | some op' => exact absurd h'.1 (Engine.takeNext_requestClaim _ _ hc).1
  claim q op e h := by
    rw [finishOperation_request] at e
    rw [finishOperation_engine] at h
    exact (finishOperation_awaits s q op).mpr (w.claim q op e (Engine.takeNext_requestClaim _ _ h).2)
  one q e := by
    rw [finishOperation_request] at e
    rw [finishOperation_engine]
    rcases w.one q e with ⟨op, h⟩ | ⟨op, h⟩
    · rw [hf] at h; cases h
    · cases hc : s.engine.linkClaim with
      | none => exact Or.inl ⟨op, (Engine.takeNext_request _ _).mpr ⟨hc, h⟩⟩
      | some c => right; refine ⟨op, ?_⟩; unfold Engine.takeNext; rw [hc]; exact h
  replace i tag d' h := by
    rw [finishOperation_engine] at h
    have h' := (w.replaceClaim i tag ((Engine.takeNext_link _ _ _).mp h).1).1
    exact ⟨h'.tag, by rw [finishOperation_record]; exact h'.live⟩
  replaceClaim i tag h := by
    rw [finishOperation_engine, Engine.takeNext_linkClaim] at h; cases h

/-- What is due to the link after the take of the next claim: what its waiting claim was for (R33). -/
theorem finish_due (s : State) :
    ((finishOperation s).lookupDue ↔ ∃ r tag, s.engine.linkClaim = some (.lookup r tag)) ∧
      ((finishOperation s).replaceDue ↔ ∃ i tag, s.engine.linkClaim = some (.replace i tag)) := by
  unfold State.lookupDue State.replaceDue
  rw [finishOperation_engine, Engine.takeNext_linkClaim]
  simp [Engine.takeNext_link]

/-- The held unit after the completion of an operation that was not to be handed back to it: what was due stays
due (R35). -/
theorem State.HoldFits.finishOther (w : s.HoldFits) (hf : ∀ c, s.engine.flight ≠ some (.link c false))
    (h1 : t.link.confirm = s.link.confirm) (h2 : t.link.held = s.link.held) (h3 : t.engine = s.engine)
    (h4 : t.lines.foreign = s.lines.foreign) (h5 : t.link.online = s.link.online) :
    (finishOperation t).HoldFits := by
  have hd := finish_due t
  have hh : (finishOperation t).holdCause = s.holdCause := by simp [State.holdCause, h2]
  exact
    { confirm := by rw [hh, finishOperation_link, h1]; exact w.confirm
      lookup := by
        rw [hh, ← w.lookup, hd.1, h3]
        exact ⟨Or.inr, fun h => h.resolve_left fun ⟨_, _, e⟩ => hf _ e⟩
      replace := by
        rw [hh, ← w.replace, hd.2, h3]
        exact ⟨Or.inr, fun h => h.resolve_left fun ⟨_, _, e⟩ => hf _ e⟩
      single := fun _ _ => by rw [finishOperation_engine, Engine.takeNext_linkClaim]
      standing := by rw [finishOperation_lines, finishOperation_link, h2, h4]; exact w.standing
      offline := by rw [finishOperation_link, h2, h5]; exact w.offline }

/-! ### Lookups of the link -/

theorem postRecord_online (k : NoticeKind) (i : Slot) (s : State) :
    (postRecord k i s).link.online = s.link.online := by simp

theorem openConfirm_online (s : State) (r : Role) (i : Slot) : (openConfirm r i s).link.online = s.link.online := by
  simp [openConfirm]

theorem applySource_online (s : State) (i : Slot) : (applySource i s).link.online = s.link.online := by
  simp [applySource]

theorem applySink_online (s : State) (i : Slot) : (applySink i s).link.online = s.link.online := by
  unfold applySink releaseIfSource; split <;> simp [releaseSource]

theorem sourceOutcome_online (s : State) (c : Bool) (i : Slot) :
    (sourceOutcome c i s).link.online = s.link.online := by
  unfold sourceOutcome
  split
  · rfl
  · rfl
  · rfl
  · rfl
  · split
    · rfl
    · split
      · exact openConfirm_online _ _ _
      · exact applySource_online _ _

theorem resolveSource_online (s : State) (f : Option Owner) :
    (resolveSource f s).link.online = s.link.online := by
  have h : (if isCurrentSource s f then s else unnameSource s).link.online = s.link.online := by
    split
    · rfl
    · exact unnameSource_online s
  unfold resolveSource
  dsimp only
  split
  · exact h
  · exact h
  · exact (sourceOutcome_online _ _ _).trans h
  · exact (sourceOutcome_online _ _ _).trans h

theorem sinkOutcome_online (s : State) (i : Slot) : (sinkOutcome i s).link.online = s.link.online := by
  unfold sinkOutcome
  split
  · rfl
  · rfl
  · rfl
  · rfl
  · split
    · rfl
    · split
      · rfl
      · split
        · exact openConfirm_online _ _ _
        · exact applySink_online _ _

theorem resolveSink_online (s : State) (f : Option Owner) : (resolveSink f s).link.online = s.link.online := by
  unfold resolveSink
  split
  · rfl
  · rfl
  · exact sinkOutcome_online _ _
  · exact sinkOutcome_online _ _

/-- A unit that is held for the link's operation in flight (R32, R69). -/
theorem State.HoldFits.handed (w : s.HoldFits) {c : LinkClaim} (hf : s.engine.flight = some (.link c false)) :
    s.link.held.isSome = true ∧ s.link.confirm = none ∧ s.engine.linkClaim = none := by
  have hc : ∃ k, s.holdCause = some k ∧ k ≠ .confirm := by
    cases c with
    | lookup r tag => exact ⟨_, w.lookup.mp (Or.inl ⟨r, tag, hf⟩), by simp⟩
    | replace i tag => exact ⟨_, w.replace.mp (Or.inl ⟨i, tag, hf⟩), by simp⟩
  obtain ⟨k, hk, hne⟩ := hc
  refine ⟨?_, ?_, w.single c hf⟩
  · unfold State.holdCause at hk
    cases h : s.link.held with
    | none => rw [h] at hk; cases hk
    | some x => rfl
  · cases h : s.link.confirm with
    | none => rfl
    | some x =>
      have := w.confirm.mp (by rw [h]; rfl)
      rw [hk] at this
      exact absurd (Option.some.inj this) hne

/-- The held unit after the completion of the link's operation that was handed back to it (R33, R96, R97, R111). -/
theorem State.HoldFits.finishHanded (w : s.HoldFits) {c : LinkClaim} (hf : s.engine.flight = some (.link c false))
    (r : s.Resolved t) (h3 : t.engine = s.engine) (h4 : t.lines = s.lines) (h5 : t.link.online = s.link.online) :
    (finishOperation t).HoldFits := by
  have hd := finish_due t
  have hh := w.handed hf
  have nl : t.engine.linkClaim = none := by rw [h3]; exact hh.2.2
  rw [nl] at hd
  have d1 : ¬ (finishOperation t).lookupDue := fun h => by obtain ⟨_, _, e⟩ := hd.1.mp h; cases e
  have d2 : ¬ (finishOperation t).replaceDue := fun h => by obtain ⟨_, _, e⟩ := hd.2.mp h; cases e
  have hcause : (finishOperation t).holdCause = t.holdCause := by simp [State.holdCause]
  have hk : t.holdCause = none ∧ t.link.confirm = none ∨
      t.holdCause = some .confirm ∧ t.link.confirm.isSome = true := by
    rcases r with ⟨a, b⟩ | ⟨a, b, _⟩
    · exact Or.inl ⟨by simp [State.holdCause, a], b⟩
    · exact Or.inr ⟨a, b⟩
  exact
    { confirm := by
        rw [hcause, finishOperation_link]
        rcases hk with ⟨a, b⟩ | ⟨a, b⟩
        · rw [a, b]; simp
        · rw [a]; exact ⟨fun _ => rfl, fun _ => b⟩
      lookup := ⟨fun h => absurd h d1, fun h => by
        rw [hcause] at h; rcases hk with ⟨a, _⟩ | ⟨a, _⟩ <;> rw [a] at h <;> cases h⟩
      replace := ⟨fun h => absurd h d2, fun h => by
        rw [hcause] at h; rcases hk with ⟨a, _⟩ | ⟨a, _⟩ <;> rw [a] at h <;> cases h⟩
      single := fun _ _ => by rw [finishOperation_engine, Engine.takeNext_linkClaim]
      standing := fun x e1 e2 => by
        rw [finishOperation_lines, h4] at e1
        have := w.standing x e1 e2
        rw [this] at hh; cases hh.1
      offline := fun e => by
        rw [finishOperation_link, h5] at e
        have := w.offline e
        rw [this] at hh; cases hh.1 }

/-- The completion of a lookup of the link (R35, R96, R97). -/
theorem State.Coherent.finishLookup (w : s.Coherent) {r : Role} {tag : Word} {d : Bool}
    (hf : s.engine.flight = some (.link (.lookup r tag) d)) {f : State → State}
    (ht : s.link.confirm = none → (f s).TablesFit) (hm : s.KeepsLives (f s))
    (hr : s.link.confirm = none → s.link.held.isSome = true → s.Resolved (f s)) (hl : (f s).lines = s.lines)
    (ho : (f s).link.online = s.link.online) : (finishOperation (if d then s else f s)).Coherent := by
  cases d with
  | true =>
    exact ⟨w.tables.finish, w.slots.finish, w.engine.finishLink hf,
      w.hold.finishOther (fun c e => by rw [hf] at e; simp at e) rfl rfl rfl rfl rfl⟩
  | false =>
    have hh := w.hold.handed hf
    have he : (f s).engine = s.engine := hm.engine
    exact ⟨(ht hh.2.1).finish, (hm.slots w.slots).finish,
      (hm.engineFits w.engine).finishLink (by rw [he]; exact hf),
      w.hold.finishHanded hf (hr hh.2.1 hh.1) he hl ho⟩

/-! ### The replace of a director RETAG -/

/-- The primary tag of a live record changes under the engine's conditions: no operation awaited depends on it. -/
theorem State.EngineFits.retagged (w : s.EngineFits) (ws : s.SlotsFit) {i : Slot} {tag : Word}
    (hl : (s.record i).live = true) (hm : t.managementTag = s.managementTag) (he : t.engine = s.engine)
    (hq : t.request = s.request)
    (hr : ∀ j, (t.record j).primaryTag = if i = j then tag else (s.record j).primaryTag)
    (ha : ∀ j, (t.record j).aliasTag = (s.record j).aliasTag)
    (hv : ∀ j, (t.record j).live = (s.record j).live) : t.EngineFits := by
  have key : ∀ q op, s.request = some q → (t.awaits q op ↔ s.awaits q op) := by
    intro q op e
    unfold State.awaits
    cases hk : q.kind with
    | create j =>
      have hp : (s.record j).state = .pending := (ws.pending j).mpr (by simp [State.requestKind, e, hk])
      have hne : i ≠ j := by
        rintro rfl
        simp [Record.live, Record.inService, hp] at hl
      simp [hr, ha, hne]
    | retire j => exact Iff.rfl
    | retag j => exact Iff.rfl
    | setAlias j => simp [ha]
    | clearAlias j => simp [ha]
    | find => exact Iff.rfl
    | setManagementTag => simp [hm]
  exact
    { free := by rw [he]; exact w.free
      idle := by rw [he, hq]; exact w.idle
      flight := fun q op h1 h2 => by
        rw [hq] at h1; rw [he] at h2; rw [he, key q op h1]; exact w.flight q op h1 h2
      claim := fun q op h1 h2 => by
        rw [hq] at h1; rw [he] at h2; rw [key q op h1]; exact w.claim q op h1 h2
      one := by rw [hq, he]; exact w.one
      replace := fun j x d h => by
        rw [he] at h
        exact ⟨(w.replace j x d h).tag, by rw [hv]; exact (w.replace j x d h).live⟩
      replaceClaim := fun j x h => by
        rw [he] at h ⊢
        rw [State.requestKind, hq]
        exact ⟨⟨(w.replaceClaim j x h).1.tag, by rw [hv]; exact (w.replaceClaim j x h).1.live⟩,
          (w.replaceClaim j x h).2⟩ }

/-- The completion of the replace of a director RETAG (R35, R111). -/
theorem State.Coherent.finishReplace (w : s.Coherent) {i : Slot} {tag : Word} {d : Bool}
    (hf : s.engine.flight = some (.link (.replace i tag) d)) :
    (finishOperation (completeLinkReplace i tag d s)).Coherent := by
  have hrf := w.engine.replace i tag d hf
  unfold completeLinkReplace
  split
  · rename_i dir hd
    dsimp only
    generalize hu : ({ s with directory := dir } : State).updRecord i (fun r => { r with primaryTag := tag }) = u
    have hr : ∀ j, u.record j = if i = j then { s.record i with primaryTag := tag } else s.record j := by
      intro j; rw [← hu]; simp
    have hfield : ∀ {α : Type} (g : Record → α), (∀ r : Record, g { r with primaryTag := tag } = g r) →
        ∀ j, g (u.record j) = g (s.record j) := by
      intro α g h j; rw [hr]; split
      · rename_i e; subst e; exact h _
      · rfl
    have wu : u.TablesFit := by rw [← hu]; exact w.tables.newPrimary hrf.live hrf.tag hd
    have hq : u.request = s.request := by rw [← hu]; rfl
    have he : u.engine = s.engine := by rw [← hu]; rfl
    have hlink : u.link = s.link := by rw [← hu]; rfl
    have hlines : u.lines = s.lines := by rw [← hu]; rfl
    have wue : u.EngineFits := w.engine.retagged w.slots (tag := tag) hrf.live (by rw [← hu]; rfl) he hq
      (fun j => by rw [hr]; split
                   · rfl
                   · rfl) (hfield Record.aliasTag fun _ => rfl) (hfield Record.live fun _ => rfl)
    have wus : u.SlotsFit := w.slots.congr (hfield Record.state fun _ => rfl) (by simp [State.requestKind, hq])
    have wp := wu.postRecord .retagged i
    have wpe := wue.postRecord .retagged i
    have wps := wus.postRecord .retagged i
    have hpe : (Machine.postRecord .retagged i u).engine = s.engine := by simp [he]
    generalize hv : Machine.postRecord .retagged i u = v at *
    have hvl : v.link = s.link := by rw [← hv]; simp [hlink]
    have hvn : v.lines = s.lines := by rw [← hv]; simp [hlines]
    cases d with
    | true =>
      exact ⟨wp.finish, wps.finish, wpe.finishLink (by rw [hpe]; exact hf),
        w.hold.finishOther (fun c e => by rw [hf] at e; simp at e) (by simp [hvl]) (by simp [hvl]) (by simp [hpe])
          (by simp [hvn]) (by simp [hvl])⟩
    | false =>
      have m := takeHeld_keepsLives v
      have hcf : v.link.confirm = none := by rw [hvl]; exact (w.hold.handed hf).2.1
      exact ⟨wp.takeHeld.finish, (m.slots wps).finish, (m.engineFits wpe).finishLink (by rw [m.engine, hpe]; exact hf),
        w.hold.finishHanded hf (resolved_takeHeld hcf) (by simp [hpe]) (by simp [hvn])
          (by show v.link.online = _; rw [hvl])⟩
  · cases d with
    | true =>
      exact ⟨w.tables.finish, w.slots.finish, w.engine.finishLink hf,
        w.hold.finishOther (fun c e => by rw [hf] at e; simp at e) rfl rfl rfl rfl rfl⟩
    | false =>
      have m := refuseHeld_keepsLives s
      exact ⟨w.tables.refuseHeld.finish, (m.slots w.slots).finish,
        (m.engineFits w.engine).finishLink (by rw [m.engine]; exact hf),
        w.hold.finishHanded hf (resolved_refuseHeld (w.hold.handed hf).2.1) rfl rfl rfl⟩

/-! ### Requests -/

/-- The last stage of a request, whose operation completes (R31, R33, R192). -/
theorem State.Coherent.finishRequest (w : s.Coherent) {op : Operation} {q : Request}
    (hf : s.engine.flight = some (.request op)) (hq : s.request = some q) (ht : t.TablesFit)
    (he : t.engine = s.engine) (hr : t.request = none) (hlink : t.link = s.link) (hlines : t.lines = s.lines)
    (hs : ∀ i, (t.record i).state ≠ .pending ∧ (t.record i).state ≠ .retiring)
    (hl : ∀ i, (s.record i).live = true → q.kind ≠ .retire i → (t.record i).live = true) :
    (finishOperation t).Coherent := by
  have hkind : ∀ k, s.requestKind ≠ some k → q.kind ≠ k := by
    intro k h e; exact h (by simp [State.requestKind, hq, e])
  have hrc := (w.engine.flight q op hq hf).2
  have hnone : (finishOperation t).engine.requestClaim = none := by
    rw [finishOperation_engine]
    cases h : t.engine.takeNext.requestClaim with
    | none => rfl
    | some op' =>
      have := (Engine.takeNext_requestClaim _ _ h).2
      rw [he, hrc] at this; cases this
  have hrn : (finishOperation t).request = none := by rw [finishOperation_request]; exact hr
  have hkn : ∀ k, (finishOperation t).requestKind ≠ some k := by
    intro k h
    rw [State.requestKind, hrn] at h; cases h
  exact
    { tables := ht.finish
      slots :=
        { pending := fun i => by
            rw [finishOperation_record]
            exact ⟨fun h => absurd h (hs i).1, fun h => absurd h (hkn _)⟩
          retiring := fun i => by
            rw [finishOperation_record]
            exact ⟨fun h => absurd h (hs i).2, fun h => absurd h (hkn _)⟩
          retag := fun i h => absurd h (hkn _)
          setAlias := fun i h => absurd h (hkn _)
          clearAlias := fun i h => absurd h (hkn _) }
      engine :=
        { free := fun e => by rw [hnone]; exact ⟨by rw [finishOperation_engine, Engine.takeNext_linkClaim], rfl⟩
          idle := fun _ => by
            refine ⟨hnone, fun op' h => ?_⟩
            rw [finishOperation_engine] at h
            have := ((Engine.takeNext_request _ _).mp h).2
            rw [he, hrc] at this; cases this
          flight := fun q' op' e => by rw [hrn] at e; cases e
          claim := fun q' op' e => by rw [hrn] at e; cases e
          one := fun q' e => by rw [hrn] at e; cases e
          replace := fun i tag d h => by
            rw [finishOperation_engine] at h
            have hc := ((Engine.takeNext_link _ _ _).mp h).1
            rw [he] at hc
            have h' := w.engine.replaceClaim i tag hc
            refine ⟨h'.1.tag, ?_⟩
            rw [finishOperation_record]
            exact hl i h'.1.live (hkind _ (h'.2 op hf))
          replaceClaim := fun i tag h => by
            rw [finishOperation_engine, Engine.takeNext_linkClaim] at h; cases h }
      hold := w.hold.finishOther (fun c e => by rw [hf] at e; cases e) (by rw [hlink]) (by rw [hlink]) he
        (by rw [hlines]) (by rw [hlink]) }

theorem State.TablesFit.endRequest (w : s.TablesFit) (r : ResultCode) (v : Word) : (endRequest r v s).TablesFit :=
  w.congr rfl rfl rfl rfl rfl rfl rfl rfl rfl rfl

theorem State.TablesFit.failRequest (w : s.TablesFit) (r : ResultCode) : (failRequest r s).TablesFit :=
  w.endRequest r _

/-- While a request that is neither a CREATE nor a RETIRE is in flight no slot is PENDING or RETIRING (R8). -/
theorem State.SlotsFit.settled (w : s.SlotsFit) {q : Request} (hq : s.request = some q)
    (hk : ∀ i, q.kind ≠ .create i ∧ q.kind ≠ .retire i) (i : Slot) :
    (s.record i).state ≠ .pending ∧ (s.record i).state ≠ .retiring := by
  constructor
  · intro h
    have := (w.pending i).mp h
    simp only [State.requestKind, hq, Option.map_some, Option.some.injEq] at this
    exact (hk i).1 this
  · intro h
    have := (w.retiring i).mp h
    simp only [State.requestKind, hq, Option.map_some, Option.some.injEq] at this
    exact (hk i).2 this

/-- The completion of a request that leaves every slot's state as it is. -/
theorem State.Coherent.finishSettled (w : s.Coherent) {op : Operation} {q : Request}
    (hf : s.engine.flight = some (.request op)) (hq : s.request = some q)
    (hk : ∀ i, q.kind ≠ .create i ∧ q.kind ≠ .retire i) (ht : t.TablesFit) (he : t.engine = s.engine)
    (hr : t.request = none) (hlink : t.link = s.link) (hlines : t.lines = s.lines)
    (hs : ∀ i, (t.record i).state = (s.record i).state) : (finishOperation t).Coherent :=
  w.finishRequest hf hq ht he hr hlink hlines (fun i => by rw [hs]; exact w.slots.settled hq hk i)
    (fun i h _ => by rw [Record.live_congr (hs i)]; exact h)

/-- A request of these kinds whose operation fails (R28, R30). -/
theorem State.Coherent.finishFailed (w : s.Coherent) {op : Operation} {q : Request}
    (hf : s.engine.flight = some (.request op)) (hq : s.request = some q)
    (hk : ∀ i, q.kind ≠ .create i ∧ q.kind ≠ .retire i) (r : ResultCode) :
    (finishOperation (Machine.failRequest r s)).Coherent :=
  w.finishSettled hf hq hk (w.tables.failRequest r) rfl rfl rfl rfl (fun _ => rfl)

section
variable {op : Operation} {q : Request} (w : s.Coherent) (hf : s.engine.flight = some (.request op))
  (hq : s.request = some q)
include w hf hq

/-- The insert of a CREATE completes (R45, R46). -/
theorem State.Coherent.finishCreate {i : Slot} (hk : q.kind = .create i) :
    (finishOperation (changeDirectory op (createMade i) (createFailed i) s)).Coherent := by
  have ha := (w.engine.flight q op hq hf).1
  unfold State.awaits at ha
  rw [hk] at ha
  obtain ⟨rfl, hz, hz2, hne⟩ := ha
  have hp : (s.record i).state = .pending := (w.slots.pending i).mpr (by simp [State.requestKind, hq, hk])
  have honly : ∀ j, i ≠ j → (s.record j).state ≠ .pending ∧ (s.record j).state ≠ .retiring := by
    intro j e
    constructor
    · intro h
      have := (w.slots.pending j).mp h
      simp only [State.requestKind, hq, Option.map_some, hk, Option.some.injEq, DirectoryRequest.create.injEq] at this
      exact e this
    · intro h
      have := (w.slots.retiring j).mp h
      simp [State.requestKind, hq, hk] at this
  have hdead : (s.record i).live = false := by simp [Record.live, Record.inService, hp]
  unfold changeDirectory
  split
  · rename_i d hd
    unfold createMade
    have wt := w.tables.created hp hz hz2 hne hd
    have hr : ∀ j, (({ s with directory := d } : State).updRecord i fun r => { r with state := .active }).record j =
        if i = j then { s.record i with state := .active } else s.record j := by
      intro j; simp
    refine w.finishRequest hf hq (wt.endRequest _ _) rfl rfl rfl rfl (fun j => ?_) (fun j h _ => ?_)
    · show ((({ s with directory := d } : State).updRecord i fun r => { r with state := .active }).record j).state ≠ _ ∧ _
      rw [State.record_congr (endRequest_records _ _ _), hr]
      split
      · exact ⟨by simp, by simp⟩
      · rename_i e; exact honly j e
    · rw [State.record_congr (endRequest_records _ _ _), hr]
      split
      · rfl
      · exact h
  · rename_i r hd
    unfold createFailed
    have wt := w.tables.uncreated hp
    have hr : ∀ j, (({ s with freeList := i :: s.freeList } : State).updRecord i
        fun x => Record.cleared x.generation).record j =
        if i = j then Record.cleared (s.record i).generation else s.record j := by
      intro j; simp
    refine w.finishRequest hf hq (wt.failRequest _) rfl rfl rfl rfl (fun j => ?_) (fun j h _ => ?_)
    · rw [State.record_congr (failRequest_records _ _), hr]
      split
      · exact ⟨by simp [Record.cleared], by simp [Record.cleared]⟩
      · rename_i e; exact honly j e
    · rw [State.record_congr (failRequest_records _ _), hr]
      split
      · rename_i e; subst e; rw [hdead] at h; cases h
      · exact h

/-- The remove of a RETIRE completes (R51). -/
theorem State.Coherent.finishRetire {i : Slot} (hk : q.kind = .retire i) :
    (finishOperation (changeDirectory op (retireMade i q.params) Machine.failRequest s)).Coherent := by
  have ha := (w.engine.flight q op hq hf).1
  unfold State.awaits at ha
  rw [hk] at ha
  obtain rfl : op = .remove (.slotEntries i) := ha
  have hp : (s.record i).state = .retiring := (w.slots.retiring i).mpr (by simp [State.requestKind, hq, hk])
  have wt := w.tables.retired hp 1#8
  have hr : ∀ j, (({ s with directory := removeEntries (.slotEntries i) s.directory, freeList := s.freeList ++ [i] } :
      State).updRecord i fun x => Record.cleared (x.generation + 1#8)).record j =
      if i = j then Record.cleared ((s.record i).generation + 1#8) else s.record j := by
    intro j; simp
  change (finishOperation (retireMade i q.params
    { s with directory := removeEntries (.slotEntries i) s.directory })).Coherent
  unfold retireMade
  refine w.finishRequest hf hq (wt.endRequest _ _) rfl rfl rfl rfl (fun j => ?_) (fun j h hne => ?_)
  · rw [State.record_congr (endRequest_records _ _ _), hr]
    split
    · exact ⟨by simp [Record.cleared], by simp [Record.cleared]⟩
    · rename_i e
      constructor
      · intro h
        have := (w.slots.pending j).mp h
        simp [State.requestKind, hq, hk] at this
      · intro h
        have := (w.slots.retiring j).mp h
        simp only [State.requestKind, hq, Option.map_some, hk, Option.some.injEq, DirectoryRequest.retire.injEq] at this
        exact e this
  · rw [State.record_congr (endRequest_records _ _ _), hr]
    split
    · rename_i e; subst e; exact absurd hk hne
    · exact h

/-- The replace of a host RETAG completes (R53). -/
theorem State.Coherent.finishRetag {i : Slot} (hk : q.kind = .retag i) :
    (finishOperation (changeDirectory op (retagMade i q.params) Machine.failRequest s)).Coherent := by
  have ha := (w.engine.flight q op hq hf).1
  unfold State.awaits at ha
  rw [hk] at ha
  obtain ⟨rfl, hz⟩ := ha
  have hkk : ∀ j, q.kind ≠ .create j ∧ q.kind ≠ .retire j := fun j => by rw [hk]; exact ⟨by simp, by simp⟩
  have hi := w.slots.retag i (by simp [State.requestKind, hq, hk])
  have hlive : (s.record i).live = true := by simp [Record.live, hi]
  unfold changeDirectory
  split
  · rename_i d hd
    have wt := (w.tables.newPrimary hlive hz hd).postRecord .retagged i
    refine w.finishSettled hf hq hkk (wt.endRequest _ _) (by simp [retagMade]) rfl (by simp [retagMade])
      (by simp [retagMade]) (fun j => ?_)
    unfold retagMade
    rw [State.record_congr (endRequest_records _ _ _), postRecord_state, State.record_updRecord]
    split
    · rename_i e; subst e; rfl
    · rfl
  · exact w.finishFailed hf hq hkk _

/-- The insert or replace of a SET-ALIAS completes (R55). -/
theorem State.Coherent.finishSetAlias {i : Slot} (hk : q.kind = .setAlias i) :
    (finishOperation (changeDirectory op (setAliasMade i q.params) Machine.failRequest s)).Coherent := by
  have ha := (w.engine.flight q op hq hf).1
  unfold State.awaits at ha
  rw [hk] at ha
  obtain ⟨rfl, hz⟩ := ha
  have hkk : ∀ j, q.kind ≠ .create j ∧ q.kind ≠ .retire j := fun j => by rw [hk]; exact ⟨by simp, by simp⟩
  have hi := w.slots.setAlias i (by simp [State.requestKind, hq, hk])
  have hlive : (s.record i).live = true := by simp [Record.live, hi]
  unfold changeDirectory
  split
  · rename_i d hd
    refine w.finishSettled hf hq hkk ((w.tables.newAlias hlive hz hd).endRequest _ _) rfl rfl rfl rfl (fun j => ?_)
    unfold setAliasMade
    rw [State.record_congr (endRequest_records _ _ _), State.record_updRecord]
    split
    · rename_i e; subst e; rfl
    · rfl
  · exact w.finishFailed hf hq hkk _

/-- The remove of a CLEAR-ALIAS completes (R56). -/
theorem State.Coherent.finishClearAlias {i : Slot} (hk : q.kind = .clearAlias i) :
    (finishOperation (changeDirectory op (clearAliasMade i q.params) Machine.failRequest s)).Coherent := by
  have ha := (w.engine.flight q op hq hf).1
  unfold State.awaits at ha
  rw [hk] at ha
  obtain ⟨rfl, _⟩ := ha
  have hkk : ∀ j, q.kind ≠ .create j ∧ q.kind ≠ .retire j := fun j => by rw [hk]; exact ⟨by simp, by simp⟩
  have hi := w.slots.clearAlias i (by simp [State.requestKind, hq, hk])
  have hlive : (s.record i).live = true := by simp [Record.live, hi]
  refine w.finishSettled (t := clearAliasMade i q.params
      { s with directory := removeEntries (.aliasEntry i) s.directory }) hf hq hkk
    ((w.tables.noAlias hlive).endRequest _ _) rfl rfl rfl rfl (fun j => ?_)
  unfold clearAliasMade
  rw [State.record_congr (endRequest_records _ _ _), State.record_updRecord]
  split
  · rename_i e; subst e; rfl
  · rfl

/-- The lookup of a FIND completes (R39). -/
theorem State.Coherent.finishFind (hk : q.kind = .find) : (finishOperation (findMade op s)).Coherent := by
  have ha := (w.engine.flight q op hq hf).1
  unfold State.awaits at ha
  rw [hk] at ha
  obtain ⟨tag, rfl⟩ := ha
  have hkk : ∀ j, q.kind ≠ .create j ∧ q.kind ≠ .retire j := fun j => by rw [hk]; exact ⟨by simp, by simp⟩
  unfold findMade
  dsimp only
  split
  · exact w.finishSettled hf hq hkk (w.tables.endRequest _ _) rfl rfl rfl rfl (fun _ => rfl)
  · exact w.finishFailed hf hq hkk _

/-- The operation of a SET-MANAGEMENT-TAG completes (R40). -/
theorem State.Coherent.finishSetManagementTag (hk : q.kind = .setManagementTag) :
    (finishOperation (changeDirectory op (managementMade q.params) Machine.failRequest s)).Coherent := by
  have ha := (w.engine.flight q op hq hf).1
  unfold State.awaits at ha
  rw [hk] at ha
  obtain rfl : op = managementOperation s.managementTag (tagOrNone (q.params.get 0)) := ha
  have hkk : ∀ j, q.kind ≠ .create j ∧ q.kind ≠ .retire j := fun j => by rw [hk]; exact ⟨by simp, by simp⟩
  unfold changeDirectory
  split
  · rename_i d hd
    exact w.finishSettled hf hq hkk ((w.tables.newManagement (tagOrNone_ne_zero _) hd).endRequest _ _)
      rfl rfl rfl rfl (fun _ => rfl)
  · exact w.finishFailed hf hq hkk _

end

end Sys2Proof.Machine
end

