-- ==== Sys2Proof/Laws/Bounds.lean ====
section
/-! SUPPORT. The assertion counters (R133) and the lengths of the FIFOs (chapter 8) under every shared operation: a
move that keeps both keeps them through any chain of such moves. -/

namespace Sys2Proof.Machine

variable {s t u : State}

/-! ### Moves -/

/-- A move that keeps every counter equal to the records that drive there, and both FIFOs within 32 entries. -/
structure State.Bounds (s t : State) : Prop where
  counters : s.CountersFit → t.CountersFit
  fifos : s.FifosFit → t.FifosFit

theorem State.Bounds.refl (s : State) : s.Bounds s := ⟨id, id⟩

theorem State.Bounds.trans (a : s.Bounds t) (b : t.Bounds u) : s.Bounds u :=
  ⟨fun w => b.counters (a.counters w), fun w => b.fifos (a.fifos w)⟩

theorem State.driving_congr (h : t.records = s.records) (p : PollPoint) : t.driving p = s.driving p := by
  unfold State.driving; simp [State.record_congr h]

theorem State.CountersFit.congr (w : s.CountersFit) (h1 : t.records = s.records) (h2 : t.counters = s.counters) :
    t.CountersFit := fun p => by rw [h2, State.driving_congr h1]; exact w p

/-- A move that leaves records, counters and FIFOs. -/
theorem State.Bounds.of_eq (h1 : t.records = s.records) (h2 : t.counters = s.counters)
    (h3 : t.data.outFifo = s.data.outFifo) (h4 : t.data.inFifo = s.data.inFifo) : s.Bounds t :=
  ⟨fun w => w.congr h1 h2, fun w => ⟨by rw [h3]; exact w.1, by rw [h4]; exact w.2⟩⟩

/-- A move that leaves records and counters and lengthens no FIFO. -/
theorem State.Bounds.of_le (h1 : t.records = s.records) (h2 : t.counters = s.counters)
    (h3 : t.data.outFifo.length ≤ s.data.outFifo.length) (h4 : t.data.inFifo.length ≤ s.data.inFifo.length) :
    s.Bounds t :=
  ⟨fun w => w.congr h1 h2, fun w => ⟨h3.trans w.1, h4.trans w.2⟩⟩

/-- A change to a slot keeps every counter (R132, R133). -/
theorem State.CountersFit.setRecord (w : s.CountersFit) (i : Slot) (r : Record) : (s.setRecord i r).CountersFit := by
  intro p
  have h := State.driving_setRecord s i r p
  rw [State.setRecord_counters, driveUpdate_at, w p]
  by_cases h1 : (s.record i).drive = some p
  · have hpos := State.driving_pos h1
    by_cases h2 : r.drive = some p
    · rw [h1, h2, if_pos rfl]; simp only [h1, h2, if_true] at h; omega
    · have hne : ¬ (s.record i).drive = r.drive := by rw [h1]; exact fun e => h2 e.symm
      rw [if_neg hne, if_neg h2, if_pos h1]
      simp only [h1, h2, if_true, if_false] at h; omega
  · by_cases h2 : r.drive = some p
    · have hne : ¬ (s.record i).drive = r.drive := by rw [h2]; exact h1
      rw [if_neg hne, if_pos h2]
      simp only [h1, h2, if_true, if_false] at h; omega
    · simp only [h1, h2, if_false] at h
      split
      · omega
      · omega

theorem setRecord_bounds (s : State) (i : Slot) (r : Record) : s.Bounds (s.setRecord i r) :=
  ⟨fun w => w.setRecord i r, fun w => w⟩

theorem updRecord_bounds (s : State) (i : Slot) (f : Record → Record) : s.Bounds (s.updRecord i f) :=
  setRecord_bounds s i _

theorem State.Bounds.upd (a : s.Bounds t) (i : Slot) (f : Record → Record) : s.Bounds (t.updRecord i f) :=
  a.trans (updRecord_bounds t i f)

theorem postRecord_bounds (s : State) (k : NoticeKind) (i : Slot) : s.Bounds (postRecord k i s) := by
  unfold postRecord
  split
  · exact .refl s
  · dsimp only
    split
    · exact (updRecord_bounds s i fun r => { r with notices := r.notices ||| k.bit }).trans
        (.of_eq (by rfl) (by rfl) (by rfl) (by rfl))
    · exact updRecord_bounds s i _

theorem State.Bounds.post (a : s.Bounds t) (k : NoticeKind) (i : Slot) : s.Bounds (postRecord k i t) :=
  a.trans (postRecord_bounds t k i)

theorem postDevice_bounds (s : State) (n : DeviceNotice) : s.Bounds (postDevice n s) := .of_eq (by rfl) (by rfl) (by rfl) (by rfl)

theorem startPulse_bounds (s : State) : s.Bounds (startPulse s) := by
  unfold startPulse; split
  · exact .of_eq (by rfl) (by rfl) (by rfl) (by rfl)
  · exact .refl s

theorem endRequest_bounds (s : State) (r : ResultCode) (v : Word) : s.Bounds (endRequest r v s) := .of_eq (by rfl) (by rfl) (by rfl) (by rfl)

theorem failRequest_bounds (s : State) (r : ResultCode) : s.Bounds (failRequest r s) := .of_eq (by rfl) (by rfl) (by rfl) (by rfl)

theorem okHandle_bounds (s : State) : s.Bounds (okHandle s) := .of_eq (by rfl) (by rfl) (by rfl) (by rfl)

theorem sendLinkClaim_bounds (s : State) (c : LinkClaim) : s.Bounds (sendLinkClaim c s) := by
  unfold sendLinkClaim; split <;> exact .of_eq (by rfl) (by rfl) (by rfl) (by rfl)

theorem startStage_bounds (s : State) (k : DirectoryRequest) (op : Operation) : s.Bounds (startStage k op s) := by
  unfold startStage sendRequestClaim; split <;> exact .of_eq (by rfl) (by rfl) (by rfl) (by rfl)

theorem onRecord_bounds (s : State) (body : Slot → State → State) (h : ∀ i, s.Bounds (body i s)) :
    s.Bounds (onRecord body s) := by
  unfold onRecord; split
  · exact failRequest_bounds s _
  · exact h _

/-! ### The naming state -/

theorem takeHeld_bounds (s : State) : s.Bounds (takeHeld s) := .of_eq (by rfl) (by rfl) (by rfl) (by rfl)

theorem refuseHeld_bounds (s : State) : s.Bounds (refuseHeld s) := .of_eq (by rfl) (by rfl) (by rfl) (by rfl)

theorem releaseSource_bounds (s : State) : s.Bounds (releaseSource s) := .of_le (by rfl) (by rfl) (Nat.zero_le _) le_rfl

theorem releaseIfSource_bounds (s : State) (h : Handle) : s.Bounds (releaseIfSource h s) := by
  unfold releaseIfSource; split
  · exact releaseSource_bounds s
  · exact .refl s

theorem unnameSource_bounds (s : State) : s.Bounds (unnameSource s) := by
  unfold unnameSource; split
  · exact .refl s
  · exact (releaseSource_bounds s).post _ _
  · exact .of_eq (by rfl) (by rfl) (by rfl) (by rfl)

theorem applySource_bounds (s : State) (i : Slot) : s.Bounds (applySource i s) := by
  unfold applySource
  exact State.Bounds.post (.of_eq (by rfl) (by rfl) (by rfl) (by rfl)) _ _

theorem applySink_bounds (s : State) (i : Slot) : s.Bounds (applySink i s) := by
  unfold applySink
  exact State.Bounds.post ((releaseIfSource_bounds s _).trans (.of_eq (by rfl) (by rfl) (by rfl) (by rfl))) _ _

theorem openConfirm_bounds (s : State) (r : Role) (i : Slot) : s.Bounds (openConfirm r i s) := by
  unfold openConfirm
  exact State.Bounds.post (.of_eq (by rfl) (by rfl) (by rfl) (by rfl)) _ _

theorem refuseConfirm_bounds (s : State) : s.Bounds (refuseConfirm s) := .of_eq (by rfl) (by rfl) (by rfl) (by rfl)

theorem acceptConfirm_bounds (s : State) (c : Confirm) : s.Bounds (acceptConfirm c s) := by
  have a : s.Bounds { s with link.confirm := none } := .of_eq (by rfl) (by rfl) (by rfl) (by rfl)
  unfold acceptConfirm applyNaming
  split
  · exact (a.trans (applySource_bounds _ _)).trans (takeHeld_bounds _)
  · exact (a.trans (applySink_bounds _ _)).trans (takeHeld_bounds _)

theorem sourceOutcome_bounds (s : State) (c : Bool) (i : Slot) : s.Bounds (sourceOutcome c i s) := by
  unfold sourceOutcome
  split
  · exact takeHeld_bounds s
  · exact takeHeld_bounds s
  · exact takeHeld_bounds s
  · exact refuseHeld_bounds s
  · split
    · exact takeHeld_bounds s
    · split
      · exact openConfirm_bounds s _ _
      · exact (applySource_bounds s i).trans (takeHeld_bounds _)

theorem resolveSource_bounds (s : State) (f : Option Owner) : s.Bounds (resolveSource f s) := by
  have h : s.Bounds (if isCurrentSource s f then s else unnameSource s) := by
    split
    · exact .refl s
    · exact unnameSource_bounds s
  unfold resolveSource
  dsimp only
  split
  · exact h.trans (takeHeld_bounds _)
  · exact h.trans (.of_eq (by rfl) (by rfl) (by rfl) (by rfl))
  · exact h.trans (sourceOutcome_bounds _ _ _)
  · exact h.trans (sourceOutcome_bounds _ _ _)

theorem sinkOutcome_bounds (s : State) (i : Slot) : s.Bounds (sinkOutcome i s) := by
  unfold sinkOutcome
  split
  · exact takeHeld_bounds s
  · exact takeHeld_bounds s
  · exact takeHeld_bounds s
  · exact refuseHeld_bounds s
  · split
    · exact takeHeld_bounds s
    · split
      · exact refuseHeld_bounds s
      · split
        · exact openConfirm_bounds s _ _
        · exact (applySink_bounds s i).trans (takeHeld_bounds _)

theorem resolveSink_bounds (s : State) (f : Option Owner) : s.Bounds (resolveSink f s) := by
  unfold resolveSink
  split
  · exact takeHeld_bounds s
  · exact refuseHeld_bounds s
  · exact sinkOutcome_bounds s _
  · exact sinkOutcome_bounds s _

theorem resolveRetag_bounds (s : State) (tag : Word) : s.Bounds (resolveRetag tag s) := by
  unfold resolveRetag
  split
  · exact takeHeld_bounds s
  · exact refuseHeld_bounds s
  · dsimp only
    split
    · exact takeHeld_bounds s
    · split
      · exact refuseHeld_bounds s
      · exact sendLinkClaim_bounds s _

theorem detach_bounds (s : State) (i : Slot) (st : SlotState) : s.Bounds (detach i st s) := by
  have a : s.Bounds { releaseIfSource (s.handleOf i) s with
      link.sinks := (releaseIfSource (s.handleOf i) s).link.sinks.filter (· ≠ s.handleOf i) } :=
    (releaseIfSource_bounds s _).trans (.of_eq (by rfl) (by rfl) (by rfl) (by rfl))
  have b : s.Bounds (detachLink i s) := by
    unfold detachLink refuseConfirmOf
    dsimp only
    split
    · exact a.trans (refuseConfirm_bounds _)
    · exact a
  unfold detach detachCalls
  exact (b.upd i fun r => { r with state := st, call := .quiet }).trans
    (.of_eq (by rfl) (by rfl) (by rfl) (by rfl))

theorem dropNotices_bounds (s : State) (i : Slot) : s.Bounds (dropNotices i s) :=
  (updRecord_bounds s i fun r => { r with notices := 0#8, signals := 0#16 }).trans
    (.of_eq (by rfl) (by rfl) (by rfl) (by rfl))

/-! ### The data path -/

theorem endPhase_bounds (s : State) : s.Bounds (endPhase s) := by
  unfold endPhase; dsimp only; split <;> exact .of_eq (by rfl) (by rfl) (by rfl) (by rfl)

theorem takeGo_bounds (s : State) : s.Bounds (takeGo s) := by
  unfold takeGo; dsimp only; split <;> exact .of_eq (by rfl) (by rfl) (by rfl) (by rfl)

theorem receiveGo_bounds (s : State) (x : LinkUnit) : s.Bounds (receiveGo x s) := by
  unfold receiveGo; split
  · exact .of_eq (by rfl) (by rfl) (by rfl) (by rfl)
  · exact takeGo_bounds s

theorem answerCall_bounds (s : State) (h : Handle) : s.Bounds (answerCall h s) := by
  unfold answerCall; split
  · exact State.Bounds.post ((updRecord_bounds s h.slot fun r => { r with call := .quiet }).trans
      (.of_eq (by rfl) (by rfl) (by rfl) (by rfl))) _ _
  · exact .refl s

theorem removeOutHead_bounds (s : State) (b : Bool) : s.Bounds (removeOutHead b s) := by
  unfold removeOutHead
  split
  · split
    · exact .refl s
    · exact .of_le (by rfl) (by rfl) (Nat.zero_le _) le_rfl
    · rename_i e
      exact .of_le (by rfl) (by rfl) (by rw [e]; exact Nat.le_succ _) le_rfl
  · exact .refl s

theorem takeCondition_bounds (s : State) (v : Byte) : s.Bounds (takeCondition v s) := by
  have a : s.Bounds { s with link.queryArmed := false, calls.answer := .none } := .of_eq (by rfl) (by rfl) (by rfl) (by rfl)
  unfold takeCondition; dsimp only
  split
  · split
    · exact a.trans (answerCall_bounds _ _)
    · exact a
  · exact a
  · exact a

theorem ownerTake_bounds (s : State) (o : Offered) : s.Bounds (ownerTake o s) := by
  unfold ownerTake; split
  · exact removeOutHead_bounds s _
  · exact .of_eq (by rfl) (by rfl) (by rfl) (by rfl)
  · exact takeCondition_bounds s _
  · exact .of_eq (by rfl) (by rfl) (by rfl) (by rfl)

theorem linkTake_bounds (s : State) (o : Offered) : s.Bounds (linkTake o s) := by
  have a : s.Bounds (ownerTake o { s with link.offered := none }) :=
    State.Bounds.trans (t := { s with link.offered := none }) (.of_eq (by rfl) (by rfl) (by rfl) (by rfl)) (ownerTake_bounds _ _)
  unfold linkTake; dsimp only; split
  · exact a.trans (endPhase_bounds _)
  · exact a

theorem takeIfUnheld_bounds (s : State) : s.Bounds (takeIfUnheld s) := by
  unfold takeIfUnheld; split
  · exact .refl s
  · split
    · exact linkTake_bounds s _
    · exact .refl s

/-- A take of a data unit where the inbound FIFO has room (R153). -/
theorem takeData_bounds (s : State) (x : InboundSession) (v : LinkUnit)
    (h : s.data.inFifo.length < Config.fifoDepth) : s.Bounds (takeData x v s) := by
  have a : s.Bounds (appendIn (entryOf x v) (takeHeld s)) := by
    have b : s.Bounds { takeHeld s with data.inFifo := (takeHeld s).data.inFifo ++ [entryOf x v] } :=
      ⟨fun w => w.congr rfl rfl, fun w => ⟨w.1, by
        show (s.data.inFifo ++ [entryOf x v]).length ≤ _
        rw [List.length_append]; exact h⟩⟩
    unfold appendIn; dsimp only; split
    · exact b.trans (postDevice_bounds _ _)
    · exact b
  unfold takeData; dsimp only; split
  · exact a.trans (endPhase_bounds _)
  · split
    · exact a.trans (.of_eq (by rfl) (by rfl) (by rfl) (by rfl))
    · exact a

theorem serveHeldData_bounds (s : State) : s.Bounds (serveHeldData s) := by
  unfold serveHeldData; split
  · split
    · split
      · exact .of_eq (by rfl) (by rfl) (by rfl) (by rfl)
      · split
        · rename_i h
          exact (takeData_bounds s _ _ h).trans (takeIfUnheld_bounds _)
        · exact .of_eq (by rfl) (by rfl) (by rfl) (by rfl)
    · exact .refl s
  · exact .refl s

theorem receiveData_bounds (s : State) (v : LinkUnit) : s.Bounds (receiveData v s) := by
  unfold receiveData
  refine State.Bounds.trans (t := { s with link.held := some { unit := v, cause := if s.data.paused then .pause else .room } })
    ?_ (serveHeldData_bounds _)
  exact .of_eq (by rfl) (by rfl) (by rfl) (by rfl)

theorem serveHeldGo_bounds (s : State) : s.Bounds (serveHeldGo s) := by
  unfold serveHeldGo; split
  · split
    · exact takeGo_bounds s
    · exact .refl s
  · exact .refl s

theorem afterDrain_bounds (s : State) : s.Bounds (afterDrain s) := by
  unfold afterDrain; split
  · split
    · exact serveHeldGo_bounds s
    · exact serveHeldData_bounds s
  · exact .refl s

theorem offerUnit_bounds (s : State) (o : Offered) : s.Bounds (offerUnit o s) := by
  have a : s.Bounds { s with link.offered := some o } := .of_eq (by rfl) (by rfl) (by rfl) (by rfl)
  unfold offerUnit; dsimp only; split
  · exact a.trans (receiveData_bounds _ _)
  · exact a.trans (takeIfUnheld_bounds _)

theorem releaseOthers_bounds (s : State) (o : Offered) : s.Bounds (releaseOthers o s) := by
  have a : s.Bounds { s with link.offered := some { o with otherHold := false } } := .of_eq (by rfl) (by rfl) (by rfl) (by rfl)
  exact a.trans (takeIfUnheld_bounds _)

theorem writeOut_bounds (s : State) (v : Byte) (m : Bool) : s.Bounds (writeOut v m s) := by
  unfold writeOut; split
  · rename_i h
    exact ⟨fun w => w.congr rfl rfl, fun w => ⟨by
      show (s.data.outFifo ++ [_]).length ≤ _
      rw [List.length_append]; exact h.2, w.2⟩⟩
  · exact postDevice_bounds s _

theorem readIn_bounds (s : State) : s.Bounds (readIn s) := by
  unfold readIn; split
  · exact .of_eq (by rfl) (by rfl) (by rfl) (by rfl)
  · rename_i e rest h
    refine State.Bounds.trans (t := present e.word { s with data.inFifo := rest }) ?_ (afterDrain_bounds _)
    refine .of_le (by rfl) (by rfl) le_rfl ?_
    show rest.length ≤ _
    rw [h]; exact Nat.le_succ _

/-! ### The link -/

theorem foldl_bounds {α : Type} (f : State → α → State) (hf : ∀ (t : State) (a : α), t.Bounds (f t a)) :
    ∀ (l : List α) (s : State), s.Bounds (l.foldl f s) := by
  intro l
  induction l with
  | nil => exact fun s => .refl s
  | cons a l ih => exact fun s => (hf s a).trans (ih _)

theorem signalSinks_bounds (s : State) (c : BitVec 4) : s.Bounds (signalSinks c s) :=
  foldl_bounds _ (fun t _ => (updRecord_bounds t _ _).post _ _) _ s

theorem dropSinkList_bounds (s : State) : s.Bounds (dropSinkList s) := by
  have a : s.Bounds { s with link.sinks := [] } := .of_eq (by rfl) (by rfl) (by rfl) (by rfl)
  exact a.trans (foldl_bounds _ (fun t _ => postRecord_bounds t _ _) _ _)

theorem assignSinks_bounds (s : State) (a : PollAssignment) : s.Bounds (assignSinks a s) :=
  foldl_bounds _ (fun t _ => by
    unfold assignSink; split
    · exact (updRecord_bounds t _ _).post _ _
    · exact .refl t) _ s

theorem releaseSinks_bounds (s : State) : s.Bounds (releaseSinks s) :=
  foldl_bounds _ (fun t _ => by
    unfold releaseSink; split
    · exact (updRecord_bounds t _ _).post _ _
    · exact .refl t) _ s

theorem armQuery_bounds (s : State) : s.Bounds (armQuery s) := by
  unfold armQuery; split
  · exact .of_eq (by rfl) (by rfl) (by rfl) (by rfl)
  · exact .refl s
  · exact .refl s

theorem decodeTake_bounds (s : State) (x : LinkUnit) : s.Bounds (decodeTake x s) := by
  have a := takeHeld_bounds s
  unfold decodeTake
  split
  · exact a.trans (signalSinks_bounds _ _)
  · exact a.trans (.of_eq (by rfl) (by rfl) (by rfl) (by rfl))
  · exact a.trans (.of_eq (by rfl) (by rfl) (by rfl) (by rfl))
  · exact a.trans (.of_eq (by rfl) (by rfl) (by rfl) (by rfl))
  · exact a.trans (unnameSource_bounds _)
  · exact a.trans (dropSinkList_bounds _)
  · exact receiveGo_bounds s x
  · exact a.trans (armQuery_bounds _)
  · exact a.trans (.of_eq (by rfl) (by rfl) (by rfl) (by rfl))
  · exact a.trans (releaseSinks_bounds _)
  · exact a.trans (assignSinks_bounds _ _)
  · exact a

theorem receiveControl_bounds (s : State) (x : LinkUnit) : s.Bounds (receiveControl x s) := by
  unfold receiveControl
  split
  · exact decodeTake_bounds s x
  · exact .of_eq (by rfl) (by rfl) (by rfl) (by rfl)
  · unfold resolveSequence
    split
    · exact State.Bounds.trans (.of_eq (by rfl) (by rfl) (by rfl) (by rfl)) (sendLinkClaim_bounds _ _)
    · exact State.Bounds.trans (.of_eq (by rfl) (by rfl) (by rfl) (by rfl)) (sendLinkClaim_bounds _ _)
    · exact State.Bounds.trans (.of_eq (by rfl) (by rfl) (by rfl) (by rfl)) (resolveRetag_bounds _ _)

theorem attendOffer_bounds (s : State) (x : LinkUnit) : s.Bounds (attendOffer x s) := by
  unfold attendOffer; split
  · exact receiveControl_bounds s x
  · split
    · exact receiveData_bounds s x
    · exact .refl s
  · exact .refl s
  · exact .refl s

theorem foreignOffer_bounds (s : State) (x : LinkUnit) : s.Bounds (foreignOffer x s) := by
  unfold foreignOffer; dsimp only; split
  · exact State.Bounds.trans (.of_eq (by rfl) (by rfl) (by rfl) (by rfl)) (attendOffer_bounds _ _)
  · exact .of_eq (by rfl) (by rfl) (by rfl) (by rfl)

theorem takeOffer_bounds (s : State) (x : LinkUnit) : s.Bounds (takeOffer x s) := by
  unfold takeOffer; split <;> exact .of_eq (by rfl) (by rfl) (by rfl) (by rfl)

theorem seeTake_bounds (s : State) (x : LinkUnit) : s.Bounds (seeTake x s) := by
  unfold seeTake; split
  · exact .of_eq (by rfl) (by rfl) (by rfl) (by rfl)
  · split
    · exact .refl s
    · split
      · exact State.Bounds.trans (.of_eq (by rfl) (by rfl) (by rfl) (by rfl)) (endPhase_bounds _)
      · exact .of_eq (by rfl) (by rfl) (by rfl) (by rfl)
  · exact .of_eq (by rfl) (by rfl) (by rfl) (by rfl)
  · exact .refl s

theorem foreignTake_bounds (s : State) (x : LinkUnit) : s.Bounds (foreignTake x s) := by
  unfold foreignTake; split
  · exact (takeOffer_bounds s x).trans (seeTake_bounds _ x)
  · exact takeOffer_bounds s x

theorem attendStanding_bounds (s : State) : s.Bounds (attendStanding s) := by
  unfold attendStanding; split
  · split
    · exact State.Bounds.trans (.of_eq (by rfl) (by rfl) (by rfl) (by rfl)) (attendOffer_bounds _ _)
    · exact .refl s
  · exact .refl s

theorem abandonLink_bounds (s : State) : s.Bounds (abandonLink s) := by
  unfold abandonLink; dsimp only; split <;> exact .of_eq (by rfl) (by rfl) (by rfl) (by rfl)

theorem stopLink_bounds (s : State) : s.Bounds (stopLink s) := by
  unfold stopLink postStopped; split
  · exact (abandonLink_bounds s).trans (postDevice_bounds _ _)
  · exact abandonLink_bounds s

theorem emptyNaming_bounds (s : State) : s.Bounds (emptyNaming s) := .of_le (by rfl) (by rfl) (Nat.zero_le _) le_rfl

theorem clearLink_bounds (s : State) : s.Bounds (clearLink s) :=
  ((abandonLink_bounds s).trans (emptyNaming_bounds _)).trans (.of_eq (by rfl) (by rfl) (by rfl) (by rfl))

theorem goOffline_bounds (s : State) : s.Bounds (goOffline s) :=
  ((abandonLink_bounds s).trans (emptyNaming_bounds _)).trans (.of_eq (by rfl) (by rfl) (by rfl) (by rfl))

theorem goOnline_bounds (s : State) : s.Bounds (goOnline s) := .of_eq (by rfl) (by rfl) (by rfl) (by rfl)

/-- After a reset both hold, whatever the lines and the queue (R133, R164, R190). -/
theorem resetPart_bounds (b : Bool) (s : State) : (resetPart b s).CountersFit ∧ (resetPart b s).FifosFit := by
  refine ⟨fun p => ?_, Nat.zero_le _, Nat.zero_le _⟩
  have h1 : (resetPart b s).driving p = 0 := by
    unfold State.driving
    rw [List.countP_eq_zero]
    intro i _
    have hr : (resetPart b s).record i = Record.cleared 0#8 := State.reset_record i
    rw [hr]; simp [Record.drive, Record.cleared]
  rw [h1]
  show Counters.at (Vector.replicate 32 0) p = 0
  simp [Counters.at, Vector.get_eq_getElem]

/-! ### Requests -/

theorem runRequest_bounds (s : State) (c : RequestCode) : s.Bounds (runRequest c s) := by
  cases c
  · show s.Bounds (runCreate s)
    unfold runCreate
    split
    · exact failRequest_bounds s _
    · split
      · exact failRequest_bounds s _
      · split
        · split
          · exact failRequest_bounds s _
          · rename_i i rest _
            unfold startCreate; dsimp only
            have a : s.Bounds { s with freeList := rest } := .of_eq (by rfl) (by rfl) (by rfl) (by rfl)
            exact (a.trans (setRecord_bounds _ _ _)).trans (startStage_bounds _ _ _)
        · exact failRequest_bounds s _
  · show s.Bounds (runRetire s)
    unfold runRetire
    refine onRecord_bounds s _ fun i => ?_
    split
    · exact failRequest_bounds s _
    · exact ((dropNotices_bounds s i).trans (detach_bounds _ _ _)).trans (startStage_bounds _ _ _)
  · show s.Bounds (runRetag s)
    unfold runRetag
    refine onRecord_bounds s _ fun i => ?_
    dsimp only; split
    · exact failRequest_bounds s _
    · split
      · exact failRequest_bounds s _
      · split
        · exact okHandle_bounds s
        · exact startStage_bounds s _ _
  · show s.Bounds (runSetAlias s)
    unfold runSetAlias
    refine onRecord_bounds s _ fun i => ?_
    dsimp only; split
    · exact failRequest_bounds s _
    · split
      · exact failRequest_bounds s _
      · split
        · exact okHandle_bounds s
        · exact startStage_bounds s _ _
  · show s.Bounds (runClearAlias s)
    unfold runClearAlias
    refine onRecord_bounds s _ fun i => ?_
    split
    · exact failRequest_bounds s _
    · exact startStage_bounds s _ _
  · show s.Bounds (runSuspend s)
    unfold runSuspend
    refine onRecord_bounds s _ fun i => ?_
    split
    · exact failRequest_bounds s _
    · split
      · exact failRequest_bounds s _
      · exact (detach_bounds s _ _).trans (okHandle_bounds _)
  · show s.Bounds (runResume s)
    unfold runResume
    refine onRecord_bounds s _ fun i => ?_
    split
    · exact failRequest_bounds s _
    · exact (updRecord_bounds s _ _).trans (okHandle_bounds _)
  · show s.Bounds (runSetStatus s)
    unfold runSetStatus
    refine onRecord_bounds s _ fun i => ?_
    split
    · exact failRequest_bounds s _
    · exact (updRecord_bounds s _ _).trans (okHandle_bounds _)
  · show s.Bounds (runCall s)
    unfold runCall
    refine onRecord_bounds s _ fun i => ?_
    dsimp only; split
    · exact failRequest_bounds s _
    · split
      · refine State.Bounds.trans ?_ (okHandle_bounds _)
        exact ((updRecord_bounds s i fun r => { r with status := loByte (s.param 1) }).upd i
          fun r => { r with call := .calling }).trans (.of_eq (by rfl) (by rfl) (by rfl) (by rfl))
      · exact (updRecord_bounds s _ _).trans (okHandle_bounds _)
  · show s.Bounds (runWithdraw s)
    unfold runWithdraw
    refine onRecord_bounds s _ fun i => ?_
    split
    · exact failRequest_bounds s _
    · refine State.Bounds.trans ?_ (okHandle_bounds _)
      exact (updRecord_bounds s i fun r => { r with call := .quiet }).trans (.of_eq (by rfl) (by rfl) (by rfl) (by rfl))
  · show s.Bounds (runSetPoll s)
    unfold runSetPoll
    refine onRecord_bounds s _ fun i => ?_
    split
    · exact failRequest_bounds s _
    · split
      · exact failRequest_bounds s _
      · exact (updRecord_bounds s _ _).trans (okHandle_bounds _)
  · show s.Bounds (runClearPoll s)
    unfold runClearPoll
    refine onRecord_bounds s _ fun i => ?_
    split
    · exact failRequest_bounds s _
    · exact (updRecord_bounds s _ _).trans (okHandle_bounds _)
  · show s.Bounds (runSetFlag s)
    unfold runSetFlag
    refine onRecord_bounds s _ fun i => ?_
    split
    · exact failRequest_bounds s _
    · split
      · exact failRequest_bounds s _
      · split
        · exact failRequest_bounds s _
        · exact (updRecord_bounds s _ _).trans (okHandle_bounds _)
  · show s.Bounds (runConfirm s)
    unfold runConfirm
    refine onRecord_bounds s _ fun i => ?_
    split
    · exact failRequest_bounds s _
    · split
      · exact failRequest_bounds s _
      · split
        · split
          · exact (acceptConfirm_bounds s _).trans (okHandle_bounds _)
          · exact (refuseConfirm_bounds s).trans (okHandle_bounds _)
        · exact failRequest_bounds s _
  · show s.Bounds (runFind s)
    unfold runFind; split
    · exact failRequest_bounds s _
    · exact startStage_bounds s _ _
  · show s.Bounds (runSetManagementTag s)
    unfold runSetManagementTag; dsimp only; split
    · exact endRequest_bounds s _ _
    · split
      · exact failRequest_bounds s _
      · exact startStage_bounds s _ _
  · show s.Bounds (runSetOptions s)
    unfold runSetOptions
    refine onRecord_bounds s _ fun i => ?_
    split
    · exact failRequest_bounds s _
    · split
      · exact failRequest_bounds s _
      · exact (updRecord_bounds s _ _).trans (okHandle_bounds _)

/-! ### Completions -/

theorem finishOperation_bounds (s : State) : s.Bounds (finishOperation s) :=
  .of_eq (by simp) (by simp) (by simp) (by simp)

theorem completeLinkReplace_bounds (s : State) (i : Slot) (tag : Word) (d : Bool) :
    s.Bounds (completeLinkReplace i tag d s) := by
  unfold completeLinkReplace; split
  · rename_i dir _
    have a : s.Bounds { s with directory := dir } := .of_eq (by rfl) (by rfl) (by rfl) (by rfl)
    dsimp only; split
    · exact (a.upd _ _).post _ _
    · exact ((a.upd _ _).post _ _).trans (takeHeld_bounds _)
  · split
    · exact .refl s
    · exact refuseHeld_bounds s

theorem changeDirectory_bounds (s : State) (op : Operation) (made : State → State) (failed : ResultCode → State → State)
    (h1 : ∀ t : State, t.Bounds (made t)) (h2 : ∀ r, s.Bounds (failed r s)) :
    s.Bounds (changeDirectory op made failed s) := by
  unfold changeDirectory; split
  · exact State.Bounds.trans (.of_eq (by rfl) (by rfl) (by rfl) (by rfl)) (h1 _)
  · exact h2 _

theorem createMade_bounds (i : Slot) (t : State) : t.Bounds (createMade i t) :=
  (updRecord_bounds t _ _).trans (endRequest_bounds _ _ _)

theorem createFailed_bounds (i : Slot) (r : ResultCode) (t : State) : t.Bounds (createFailed i r t) := by
  have a : t.Bounds { t with freeList := i :: t.freeList } := .of_eq (by rfl) (by rfl) (by rfl) (by rfl)
  exact (a.upd _ _).trans (failRequest_bounds _ _)

theorem retireMade_bounds (i : Slot) (p : Vector Word 4) (t : State) : t.Bounds (retireMade i p t) := by
  have a : t.Bounds { t with freeList := t.freeList ++ [i] } := .of_eq (by rfl) (by rfl) (by rfl) (by rfl)
  exact (a.upd _ _).trans (endRequest_bounds _ _ _)

theorem retagMade_bounds (i : Slot) (p : Vector Word 4) (t : State) : t.Bounds (retagMade i p t) :=
  ((updRecord_bounds t _ _).post _ _).trans (endRequest_bounds _ _ _)

theorem setAliasMade_bounds (i : Slot) (p : Vector Word 4) (t : State) : t.Bounds (setAliasMade i p t) :=
  (updRecord_bounds t _ _).trans (endRequest_bounds _ _ _)

theorem clearAliasMade_bounds (i : Slot) (p : Vector Word 4) (t : State) : t.Bounds (clearAliasMade i p t) :=
  (updRecord_bounds t _ _).trans (endRequest_bounds _ _ _)

theorem findMade_bounds (s : State) (op : Operation) : s.Bounds (findMade op s) := by
  unfold findMade; split
  · split
    · exact endRequest_bounds s _ _
    · exact failRequest_bounds s _
  · exact .refl s
  · exact .refl s
  · exact .refl s

theorem managementMade_bounds (p : Vector Word 4) (t : State) : t.Bounds (managementMade p t) := .of_eq (by rfl) (by rfl) (by rfl) (by rfl)

end Sys2Proof.Machine
end

