-- ==== Sys2Proof/Laws/Channels.lean ====
section
/-! SUPPORT. The sessions and the holds of the Data Channels (R145, R150, R151, R153, R154): every shared operation
keeps them, one lemma per operation. -/

namespace Sys2Proof.Machine

variable {s t : State}

/-! ### What the conditions depend on -/

theorem State.SessionsFit.congr (w : s.SessionsFit) (hd : t.data = s.data) (hs : t.link.source = s.link.source)
    (ho : t.link.online = s.link.online) (hp : t.link.phase = s.link.phase) : t.SessionsFit where
  outbound := by rw [hd, hs]; exact w.outbound
  session := by rw [hd, ho, hp]; exact w.session
  paused := by rw [hd]; exact w.paused

/-- A hold that is none of the Data Channels'. -/
theorem State.HoldsDue.plain (ho : t.link.online = false → t.link.held = none) (h1 : t.holdCause ≠ some .room)
    (h2 : t.holdCause ≠ some .pause) (h3 : t.holdCause ≠ some .drain) : t.HoldsDue :=
  ⟨ho, fun e => absurd e h1, fun e => absurd e h2, fun e => absurd e h3⟩

/-- Nothing is held. -/
theorem State.HoldsDue.of_none (h : t.link.held = none) : t.HoldsDue :=
  .plain (fun _ => h) (by simp [State.holdCause, h]) (by simp [State.holdCause, h]) (by simp [State.holdCause, h])

theorem State.ChannelsFit.congr (w : s.ChannelsFit) (hd : t.data = s.data) (hs : t.link.source = s.link.source)
    (ho : t.link.online = s.link.online) (hp : t.link.phase = s.link.phase) (hh : t.link.held = s.link.held) :
    t.ChannelsFit :=
  ⟨w.sessions.congr hd hs ho hp,
    { offline := by rw [ho, hh]; exact w.holds.offline
      room := by rw [State.holdCause, hh, hd]; exact w.holds.room
      pause := by rw [State.holdCause, hh, hd]; exact w.holds.pause
      drain := by rw [State.holdCause, hh, hd]; exact w.holds.drain }⟩

/-- A change of the tables, with the link and the Data Channels as they were. -/
theorem State.ChannelsFit.same (w : s.ChannelsFit) (hd : t.data = s.data) (hl : t.link = s.link) : t.ChannelsFit :=
  w.congr hd (by rw [hl]) (by rw [hl]) (by rw [hl]) (by rw [hl])

/-- The held unit is released or taken. -/
theorem State.ChannelsFit.unheld (w : s.ChannelsFit) (hd : t.data = s.data) (hs : t.link.source = s.link.source)
    (ho : t.link.online = s.link.online) (hp : t.link.phase = s.link.phase) (hh : t.link.held = none) : t.ChannelsFit :=
  ⟨w.sessions.congr hd hs ho hp, .of_none hh⟩

/-- With no record as source the outbound FIFO is empty (R145). -/
theorem State.ChannelsFit.outFifo (w : s.ChannelsFit) (h : ∀ x, s.link.source ≠ .record x) : s.data.outFifo = [] := by
  by_contra c
  obtain ⟨x, e⟩ := w.sessions.outbound c
  exact h x e

/-- In COMMAND phase no inbound session is open (R150). -/
theorem State.ChannelsFit.session (w : s.ChannelsFit) (h : s.link.phase = .command) : s.data.session = none := by
  cases e : s.data.session with
  | none => rfl
  | some x =>
    have := (w.sessions.session (by rw [e]; rfl)).2
    rw [h] at this; cases this

/-! ### Naming -/

theorem State.ChannelsFit.postRecord (w : s.ChannelsFit) (k : NoticeKind) (i : Slot) : (postRecord k i s).ChannelsFit :=
  w.same (by simp) (by simp)

theorem State.ChannelsFit.takeHeld (w : s.ChannelsFit) : (takeHeld s).ChannelsFit := w.unheld rfl rfl rfl rfl rfl

theorem State.ChannelsFit.refuseHeld (w : s.ChannelsFit) : (refuseHeld s).ChannelsFit := w.unheld rfl rfl rfl rfl rfl

theorem State.ChannelsFit.releaseSource (w : s.ChannelsFit) : (releaseSource s).ChannelsFit :=
  ⟨{ outbound := fun h => absurd rfl h, session := w.sessions.session, paused := w.sessions.paused },
    { offline := w.holds.offline, room := w.holds.room, pause := w.holds.pause, drain := w.holds.drain }⟩

/-- The source changes to one that is a record, or stays none of them with an empty FIFO. -/
theorem State.ChannelsFit.sourced (w : s.ChannelsFit) (hd : t.data = s.data) (ho : t.link.online = s.link.online)
    (hp : t.link.phase = s.link.phase) (hh : t.link.held = s.link.held)
    (h : (∃ x, t.link.source = .record x) ∨ s.data.outFifo = []) : t.ChannelsFit :=
  ⟨{ outbound := fun e => by
      rcases h with h | h
      · exact h
      · rw [hd] at e; exact absurd h e
     session := by rw [hd, ho, hp]; exact w.sessions.session
     paused := by rw [hd]; exact w.sessions.paused },
    { offline := by rw [ho, hh]; exact w.holds.offline
      room := by rw [State.holdCause, hh, hd]; exact w.holds.room
      pause := by rw [State.holdCause, hh, hd]; exact w.holds.pause
      drain := by rw [State.holdCause, hh, hd]; exact w.holds.drain }⟩

theorem State.ChannelsFit.unnameSource (w : s.ChannelsFit) : (unnameSource s).ChannelsFit := by
  unfold Machine.unnameSource
  split
  · exact w
  · exact w.releaseSource.postRecord _ _
  · rename_i h
    exact w.sourced rfl rfl rfl rfl (.inr (w.outFifo fun x e => by rw [h] at e; cases e))

theorem State.ChannelsFit.applySource (w : s.ChannelsFit) (i : Slot) : (applySource i s).ChannelsFit := by
  refine State.ChannelsFit.postRecord ?_ _ _
  exact w.sourced rfl rfl rfl rfl (.inl ⟨_, rfl⟩)

theorem State.ChannelsFit.releaseIfSource (w : s.ChannelsFit) (h : Handle) : (releaseIfSource h s).ChannelsFit := by
  unfold Machine.releaseIfSource
  split
  · exact w.releaseSource
  · exact w

theorem State.ChannelsFit.applySink (w : s.ChannelsFit) (i : Slot) : (applySink i s).ChannelsFit := by
  refine State.ChannelsFit.postRecord ?_ _ _
  exact (w.releaseIfSource (s.handleOf i)).congr rfl rfl rfl rfl rfl

theorem State.ChannelsFit.openConfirm (w : s.ChannelsFit) (r : Role) (i : Slot) : (openConfirm r i s).ChannelsFit := by
  refine State.ChannelsFit.postRecord (s := { s with
      link.confirm := some { handle := s.handleOf i, role := r, timer := s.port.confirmWindow }
      link.held := s.link.held.map fun h => { h with cause := .confirm } }) ?_ _ _
  refine ⟨w.sessions.congr rfl rfl rfl rfl, .plain (fun h => ?_) ?_ ?_ ?_⟩
  · show s.link.held.map _ = none
    rw [w.holds.offline h]; rfl
  all_goals
    show (s.link.held.map _).map _ ≠ _
    cases s.link.held <;> simp

theorem State.ChannelsFit.refuseConfirm (w : s.ChannelsFit) : (refuseConfirm s).ChannelsFit :=
  w.unheld rfl rfl rfl rfl rfl

theorem State.ChannelsFit.acceptConfirm (w : s.ChannelsFit) (c : Confirm) : (acceptConfirm c s).ChannelsFit := by
  have w1 : ({ s with link.confirm := none } : State).ChannelsFit := w.congr rfl rfl rfl rfl rfl
  unfold Machine.acceptConfirm applyNaming
  cases c.role
  · exact (w1.applySource _).takeHeld
  · exact (w1.applySink _).takeHeld

theorem State.ChannelsFit.sourceOutcome (w : s.ChannelsFit) (b : Bool) (i : Slot) : (sourceOutcome b i s).ChannelsFit := by
  unfold Machine.sourceOutcome
  split
  · exact w.takeHeld
  · exact w.takeHeld
  · exact w.takeHeld
  · exact w.refuseHeld
  · split
    · exact w.takeHeld
    · split
      · exact w.openConfirm _ _
      · exact (w.applySource _).takeHeld

theorem State.ChannelsFit.resolveSource (w : s.ChannelsFit) (found : Option Owner) : (resolveSource found s).ChannelsFit := by
  have wt : (if isCurrentSource s found then s else Machine.unnameSource s).ChannelsFit := by
    split
    · exact w
    · exact w.unnameSource
  have hm : found = some .management →
      ∀ x, (if isCurrentSource s found then s else Machine.unnameSource s).link.source ≠ .record x := by
    intro e x h
    subst e
    split at h
    · rename_i hc
      rw [isCurrentSource, h] at hc
      simp at hc
    · rw [unnameSource_source] at h; cases h
  unfold Machine.resolveSource
  dsimp only
  generalize (if isCurrentSource s found then s else Machine.unnameSource s) = u at wt hm ⊢
  split
  · exact wt.takeHeld
  · exact State.ChannelsFit.takeHeld (wt.sourced rfl rfl rfl rfl (.inr (wt.outFifo (hm rfl))))
  · exact wt.sourceOutcome _ _
  · exact wt.sourceOutcome _ _

theorem State.ChannelsFit.sinkOutcome (w : s.ChannelsFit) (i : Slot) : (sinkOutcome i s).ChannelsFit := by
  unfold Machine.sinkOutcome
  split
  · exact w.takeHeld
  · exact w.takeHeld
  · exact w.takeHeld
  · exact w.refuseHeld
  · split
    · exact w.takeHeld
    · split
      · exact w.refuseHeld
      · split
        · exact w.openConfirm _ _
        · exact (w.applySink _).takeHeld

theorem State.ChannelsFit.resolveSink (w : s.ChannelsFit) (found : Option Owner) : (resolveSink found s).ChannelsFit := by
  unfold Machine.resolveSink
  split
  · exact w.takeHeld
  · exact w.refuseHeld
  · exact w.sinkOutcome _
  · exact w.sinkOutcome _

theorem State.ChannelsFit.resolveRetag (w : s.ChannelsFit) (tag : Word) : (resolveRetag tag s).ChannelsFit := by
  unfold Machine.resolveRetag
  dsimp only
  split
  · exact w.takeHeld
  · exact w.refuseHeld
  · split
    · exact w.takeHeld
    · split
      · exact w.refuseHeld
      · exact w.same (by simp) (by simp)

theorem State.ChannelsFit.refuseConfirmOf (w : s.ChannelsFit) (h : Handle) : (refuseConfirmOf h s).ChannelsFit := by
  unfold Machine.refuseConfirmOf
  split
  · exact w.refuseConfirm
  · exact w

theorem State.ChannelsFit.detach (w : s.ChannelsFit) (i : Slot) (x : SlotState) : (detach i x s).ChannelsFit := by
  have w1 : (detachLink i s).ChannelsFit := by
    refine State.ChannelsFit.refuseConfirmOf ?_ _
    exact (w.releaseIfSource (s.handleOf i)).congr rfl rfl rfl rfl rfl
  exact w1.same rfl rfl

/-! ### The data path -/

/-- The end of a phase with nothing held for the Data Channels (R76, R158). -/
theorem State.ChannelsFit.endPhase (w : s.ChannelsFit) (h : s.link.held = none) : (endPhase s).ChannelsFit := by
  unfold Machine.endPhase
  dsimp only
  split
  · rename_i e
    exact ⟨{ outbound := w.sessions.outbound
             session := fun c => by rw [e] at c; cases c
             paused := w.sessions.paused }, .of_none h⟩
  · exact ⟨{ outbound := w.sessions.outbound
             session := fun c => nomatch c
             paused := fun c => nomatch c }, .of_none h⟩

/-- The take of GO while ONLINE (R75, R152). -/
theorem State.SessionsFit.takeGo (w : s.SessionsFit) (ho : s.link.online = true) : (takeGo s).ChannelsFit := by
  unfold Machine.takeGo
  dsimp only
  split
  · exact ⟨{ outbound := w.outbound, session := fun _ => ⟨ho, rfl⟩, paused := w.paused }, .of_none rfl⟩
  · exact ⟨{ outbound := w.outbound, session := fun _ => ⟨ho, rfl⟩, paused := fun c => nomatch c }, .of_none rfl⟩

theorem State.ChannelsFit.receiveGo (w : s.ChannelsFit) (ho : s.link.online = true) (u : LinkUnit) :
    (receiveGo u s).ChannelsFit := by
  unfold Machine.receiveGo
  split
  · rename_i h
    exact ⟨w.sessions.congr rfl rfl rfl rfl,
      { offline := fun c => by
          have c' : s.link.online = false := c
          rw [ho] at c'; cases c'
        room := fun c => nomatch c
        pause := fun c => nomatch c
        drain := fun _ => h.2 }⟩
  · exact w.sessions.takeGo ho

theorem State.SessionsFit.shorter (w : s.SessionsFit) (l : List OutEntry) (h : l ≠ [] → s.data.outFifo ≠ []) :
    ({ s with data.outFifo := l } : State).SessionsFit where
  outbound e := w.outbound (h e)
  session := w.session
  paused := w.paused

theorem State.ChannelsFit.ownerTake (w : s.ChannelsFit) (o : Offered) : (ownerTake o s).ChannelsFit := by
  have outs : ∀ l, (l ≠ [] → s.data.outFifo ≠ []) → ({ s with data.outFifo := l } : State).ChannelsFit := fun l h =>
    ⟨w.sessions.shorter l h,
      { offline := w.holds.offline, room := w.holds.room, pause := w.holds.pause, drain := w.holds.drain }⟩
  unfold Machine.ownerTake
  split
  · unfold removeOutHead
    split
    · split
      · exact w
      · exact (outs [] fun h => absurd rfl h).same rfl rfl
      · rename_i rest _ e
        exact outs rest fun _ => by rw [e]; exact List.cons_ne_nil _ _
    · exact w
  · exact w.same rfl rfl
  · have w1 : ({ s with link.queryArmed := false, calls.answer := .none } : State).ChannelsFit :=
      w.congr rfl rfl rfl rfl rfl
    unfold takeCondition
    dsimp only
    split
    · split
      · unfold answerCall
        split
        · refine State.ChannelsFit.postRecord ?_ _ _
          exact w1.same rfl rfl
        · exact w1
      · exact w1
    · exact w1
    · exact w1
  · exact w.same rfl rfl

theorem State.ChannelsFit.linkTake (w : s.ChannelsFit) (h : s.link.held = none) (o : Offered) : (linkTake o s).ChannelsFit := by
  have w1 : ({ s with link.offered := none } : State).ChannelsFit := w.congr rfl rfl rfl rfl rfl
  unfold Machine.linkTake
  dsimp only
  split
  · exact (w1.ownerTake o).endPhase (by rw [ownerTake_held]; exact h)
  · exact w1.ownerTake o

theorem State.ChannelsFit.takeIfUnheld (w : s.ChannelsFit) : (takeIfUnheld s).ChannelsFit := by
  unfold Machine.takeIfUnheld
  split
  · exact w
  · split
    · rename_i h
      exact w.linkTake (by simpa using h.1) _
    · exact w

/-- The take of a data unit, with the sessions as they were and nothing held after it (R153, R154, R158). -/
theorem State.SessionsFit.takeData (w : s.SessionsFit) (hx : s.data.session = some x) (u : LinkUnit) :
    (takeData x u s).ChannelsFit := by
  have w1 : (appendIn (entryOf x u) (takeHeld s)).ChannelsFit := by
    unfold appendIn
    dsimp only
    split <;> exact ⟨{ outbound := w.outbound, session := w.session, paused := w.paused }, .of_none rfl⟩
  have hh : (appendIn (entryOf x u) (takeHeld s)).link.held = none := by
    unfold appendIn; dsimp only; split <;> rfl
  have hs : (appendIn (entryOf x u) (takeHeld s)).data.session = some x := by
    unfold appendIn; dsimp only; split <;> exact hx
  unfold Machine.takeData
  dsimp only
  split
  · exact w1.endPhase hh
  · split
    · exact ⟨{ outbound := w1.sessions.outbound
               session := w1.sessions.session
               paused := fun _ => by
                show (appendIn (entryOf x u) (takeHeld s)).data.session.isSome = true
                rw [hs]; rfl }, .of_none hh⟩
    · exact w1

/-- What a held data unit becomes at a moment when its conditions may have changed (R153). -/
theorem State.SessionsFit.serveHeldData (w : s.SessionsFit) (ho : s.link.online = false → s.link.held = none)
    (hs : s.holdCause = some .room ∨ s.holdCause = some .pause → s.data.session.isSome = true)
    (hd : s.holdCause = some .drain → s.data.inFifo ≠ []) : (serveHeldData s).ChannelsFit := by
  unfold Machine.serveHeldData
  split
  · rename_i h x e1 e2
    have on : s.link.online = true := by
      cases c : s.link.online
      · rw [ho c] at e1; cases e1
      · rfl
    split
    · split
      · rename_i hp
        exact ⟨w.congr rfl rfl rfl rfl,
          { offline := fun c => by
              have c' : s.link.online = false := c
              rw [on] at c'; cases c'
            room := fun c => nomatch c
            pause := fun _ => hp
            drain := fun c => nomatch c }⟩
      · rename_i hp
        split
        · exact (w.takeData e2 h.unit).takeIfUnheld
        · rename_i hl
          exact ⟨w.congr rfl rfl rfl rfl,
            { offline := fun c => by
                have c' : s.link.online = false := c
                rw [on] at c'; cases c'
              room := fun _ => ⟨by
                show s.data.session.isSome = true
                rw [e2]; rfl, by simpa using hp, Nat.le_of_not_lt hl⟩
              pause := fun c => nomatch c
              drain := fun c => nomatch c }⟩
    · rename_i hc
      have hcause : s.holdCause = some h.cause := by rw [State.holdCause, e1]; rfl
      refine ⟨w, { offline := ho, room := fun c => ?_, pause := fun c => ?_, drain := hd }⟩
      · rw [hcause] at c; exact absurd (.inl (Option.some.inj c)) hc
      · rw [hcause] at c; exact absurd (.inr (Option.some.inj c)) hc
  · rename_i hne
    have no : ∀ c, (c = .room ∨ c = .pause) → s.holdCause ≠ some c := by
      intro c hc e
      have := hs (by rcases hc with rfl | rfl
                     · exact .inl e
                     · exact .inr e)
      obtain ⟨x, hx⟩ := Option.isSome_iff_exists.mp this
      cases e1 : s.link.held with
      | none => rw [State.holdCause, e1] at e; cases e
      | some h => exact hne h x e1 hx
    exact ⟨w, { offline := ho, room := fun c => absurd c (no _ (.inl rfl)), pause := fun c => absurd c (no _ (.inr rfl)),
                drain := hd }⟩

theorem State.ChannelsFit.serveHeldData (w : s.ChannelsFit) : (serveHeldData s).ChannelsFit :=
  w.sessions.serveHeldData w.holds.offline
    (fun h => h.elim (fun c => (w.holds.room c).1) fun c => w.sessions.paused (w.holds.pause c)) w.holds.drain

/-- The part's hold of a data unit in an open session (R68, R153). -/
theorem State.ChannelsFit.receiveData (w : s.ChannelsFit) (hs : s.data.session.isSome = true) (u : LinkUnit) :
    (receiveData u s).ChannelsFit := by
  unfold Machine.receiveData
  refine State.SessionsFit.serveHeldData (w.sessions.congr rfl rfl rfl rfl) (fun c => ?_) (fun _ => hs) fun c => ?_
  · have c' : s.link.online = false := c
    rw [(w.sessions.session hs).1] at c'; cases c'
  · exfalso
    revert c
    show some (if s.data.paused then HoldCause.pause else .room) = some .drain → False
    split <;> exact fun c => nomatch c

/-- Entries leave the inbound FIFO: the state between, and what is served (R156, R157). -/
theorem State.ChannelsFit.afterDrain (w : s.ChannelsFit) (hl : t.link = s.link) (h1 : t.data.outFifo = s.data.outFifo)
    (h2 : t.data.session = s.data.session) (h3 : t.data.paused = s.data.paused) : (afterDrain t).ChannelsFit := by
  have ws : t.SessionsFit :=
    { outbound := by rw [h1, hl]; exact w.sessions.outbound
      session := by rw [h2, hl]; exact w.sessions.session
      paused := by rw [h2, h3]; exact w.sessions.paused }
  have ho : t.link.online = false → t.link.held = none := by rw [hl]; exact w.holds.offline
  have hc : t.holdCause = s.holdCause := by rw [State.holdCause, hl]; rfl
  have hs : t.holdCause = some .room ∨ t.holdCause = some .pause → t.data.session.isSome = true := by
    rw [hc, h2]
    exact fun h => h.elim (fun c => (w.holds.room c).1) fun c => w.sessions.paused (w.holds.pause c)
  unfold Machine.afterDrain
  split
  · rename_i h e
    have hcause : t.holdCause = some h.cause := by rw [State.holdCause, e]; rfl
    split
    · rename_i hd
      unfold Machine.serveHeldGo
      rw [e]
      dsimp only
      split
      · refine ws.takeGo ?_
        cases c : t.link.online
        · rw [ho c] at e; cases e
        · rfl
      · rename_i hn
        refine ⟨ws, { offline := ho, room := fun c => ?_, pause := fun c => ?_, drain := fun _ hf => hn ⟨hd, hf⟩ }⟩
        · rw [hcause, hd] at c; cases c
        · rw [hcause, hd] at c; cases c
    · rename_i hd
      exact ws.serveHeldData ho hs fun c => absurd (Option.some.inj (hcause.symm.trans c)) hd
  · rename_i e
    exact ⟨ws, .of_none e⟩

theorem State.ChannelsFit.offerUnit (w : s.ChannelsFit) (o : Offered) : (offerUnit o s).ChannelsFit := by
  have w1 : ({ s with link.offered := some o } : State).ChannelsFit := w.congr rfl rfl rfl rfl rfl
  unfold Machine.offerUnit
  dsimp only
  split
  · rename_i e
    exact w1.receiveData (by
      show s.data.session.isSome = true
      rw [e]; rfl) _
  · exact w1.takeIfUnheld

theorem State.ChannelsFit.writeOut (w : s.ChannelsFit) (v : Byte) (b : Bool) : (writeOut v b s).ChannelsFit := by
  unfold Machine.writeOut
  split
  · rename_i h
    refine ⟨{ outbound := fun _ => ?_, session := w.sessions.session, paused := w.sessions.paused },
      { offline := w.holds.offline, room := w.holds.room, pause := w.holds.pause, drain := w.holds.drain }⟩
    have hs := h.1
    unfold State.outSessionOpen at hs
    show ∃ x, s.link.source = .record x
    split at hs
    · exact ⟨_, by assumption⟩
    · cases hs
    · cases hs
  · exact w.same rfl rfl

theorem State.ChannelsFit.readIn (w : s.ChannelsFit) : (readIn s).ChannelsFit := by
  unfold Machine.readIn
  split
  · exact w.same rfl rfl
  · exact w.afterDrain rfl rfl rfl rfl

/-! ### The link -/

/-- A change made over a list keeps the conditions when each of its steps does. -/
theorem State.ChannelsFit.foldl {α : Type} {f : State → α → State} (h : ∀ t a, t.ChannelsFit → (f t a).ChannelsFit)
    (l : List α) : ∀ {s : State}, s.ChannelsFit → (l.foldl f s).ChannelsFit := by
  induction l with
  | nil => exact id
  | cons a l ih => exact fun w => ih (h _ a w)

theorem State.ChannelsFit.signalSinks (w : s.ChannelsFit) (c : BitVec 4) : (signalSinks c s).ChannelsFit :=
  State.ChannelsFit.foldl
    (fun t h w => (w.same (t := t.updRecord h.slot fun r => { r with signals := r.signals ||| signalBit c }) rfl rfl).postRecord
      .signalled h.slot) _ w

theorem State.ChannelsFit.dropSinkList (w : s.ChannelsFit) : (dropSinkList s).ChannelsFit :=
  State.ChannelsFit.foldl (fun _ h w => w.postRecord .unnamed h.slot) _ (w.congr rfl rfl rfl rfl rfl)

theorem State.ChannelsFit.armQuery (w : s.ChannelsFit) : (armQuery s).ChannelsFit := by
  unfold Machine.armQuery
  split
  · exact w.congr rfl rfl rfl rfl rfl
  · exact w
  · exact w

theorem State.ChannelsFit.assignSinks (w : s.ChannelsFit) (a : PollAssignment) : (assignSinks a s).ChannelsFit :=
  State.ChannelsFit.foldl
    (fun t h w => by
      unfold assignSink
      split
      · exact (w.same (t := t.updRecord h.slot fun r => { r with poll := some a }) rfl rfl).postRecord _ _
      · exact w) _ w

theorem State.ChannelsFit.releaseSinks (w : s.ChannelsFit) : (releaseSinks s).ChannelsFit :=
  State.ChannelsFit.foldl
    (fun t h w => by
      unfold releaseSink
      split
      · exact (w.same (t := t.updRecord h.slot fun r => { r with poll := none }) rfl rfl).postRecord _ _
      · exact w) _ w

/-- A control unit that the part attends to while ONLINE (R77). -/
theorem State.ChannelsFit.decodeTake (w : s.ChannelsFit) (ho : s.link.online = true) (u : LinkUnit) :
    (decodeTake u s).ChannelsFit := by
  unfold Machine.decodeTake
  split
  · exact w.takeHeld.signalSinks _
  · exact w.takeHeld.congr rfl rfl rfl rfl rfl
  · exact w.takeHeld.congr rfl rfl rfl rfl rfl
  · exact w.takeHeld.congr rfl rfl rfl rfl rfl
  · exact w.takeHeld.unnameSource
  · exact w.takeHeld.dropSinkList
  · exact w.receiveGo ho u
  · exact w.takeHeld.armQuery
  · exact w.takeHeld.congr rfl rfl rfl rfl rfl
  · exact w.takeHeld.releaseSinks
  · exact w.takeHeld.assignSinks _
  · exact w.takeHeld

/-- A TAG-LO held for a directory operation (R69). -/
theorem State.ChannelsFit.holdUnit (w : s.ChannelsFit) (ho : s.link.online = true) (u : LinkUnit) {c : HoldCause}
    (hc : c = .lookup ∨ c = .replace) : (holdUnit u c s).ChannelsFit := by
  refine ⟨w.sessions.congr rfl rfl rfl rfl, .plain (fun e => ?_) ?_ ?_ ?_⟩
  · have e' : s.link.online = false := e
    rw [ho] at e'; cases e'
  all_goals
    show some c ≠ _
    rcases hc with rfl | rfl <;> exact fun h => nomatch h

theorem State.ChannelsFit.receiveControl (w : s.ChannelsFit) (ho : s.link.online = true) (u : LinkUnit) :
    (receiveControl u s).ChannelsFit := by
  unfold Machine.receiveControl
  split
  · exact w.decodeTake ho u
  · exact State.ChannelsFit.takeHeld (w.congr rfl rfl rfl rfl rfl)
  · have w1 : ({ s with link.sequence := .none } : State).ChannelsFit := w.congr rfl rfl rfl rfl rfl
    unfold resolveSequence
    split
    · exact (w1.holdUnit ho u (.inl rfl)).same (by simp) (by simp)
    · exact (w1.holdUnit ho u (.inl rfl)).same (by simp) (by simp)
    · exact (w1.holdUnit ho u (.inr rfl)).resolveRetag _

theorem State.ChannelsFit.attendOffer (w : s.ChannelsFit) (ho : s.link.online = true) (u : LinkUnit) :
    (attendOffer u s).ChannelsFit := by
  unfold Machine.attendOffer
  split
  · exact w.receiveControl ho u
  · split
    · rename_i h
      exact w.receiveData h u
    · exact w
  · exact w
  · exact w

/-- The part attends only while ONLINE (R87). -/
theorem State.online_of_attends (h : s.attends = true) : s.link.online = true := by
  unfold State.attends at h
  simp only [Bool.and_eq_true] at h
  exact h.1.1.1

theorem State.ChannelsFit.foreignOffer (w : s.ChannelsFit) (u : LinkUnit) : (foreignOffer u s).ChannelsFit := by
  unfold Machine.foreignOffer
  dsimp only
  split
  · rename_i h
    refine State.ChannelsFit.attendOffer ?_ (by exact State.online_of_attends h) u
    exact w.congr rfl rfl rfl rfl rfl
  · exact w.congr rfl rfl rfl rfl rfl

theorem State.ChannelsFit.foreignTake (w : s.ChannelsFit) (u : LinkUnit) :
    (foreignTake u s).ChannelsFit := by
  have w1 : (takeOffer u s).ChannelsFit := by
    unfold takeOffer; split <;> exact w.congr rfl rfl rfl rfl rfl
  unfold Machine.foreignTake
  split
  · unfold seeTake
    split
    · exact State.ChannelsFit.takeHeld (w1.congr rfl rfl rfl rfl rfl)
    · split
      · exact w1
      · split
        · exact w1.takeHeld.endPhase rfl
        · exact w1.takeHeld
    · exact w1.takeHeld
    · exact w1
  · exact w1

theorem State.ChannelsFit.attendStanding (w : s.ChannelsFit) : (attendStanding s).ChannelsFit := by
  unfold Machine.attendStanding
  split
  · split
    · rename_i h
      refine State.ChannelsFit.attendOffer ?_ (by exact State.online_of_attends h.2) _
      exact w.congr rfl rfl rfl rfl rfl
    · exact w
  · exact w

/-- STOP, CLEAR and OFFLINE close the inbound session and hold nothing (R83, R85, R87, R162, R163). -/
theorem State.ChannelsFit.abandonLink (w : s.ChannelsFit) : (abandonLink s).ChannelsFit := by
  unfold Machine.abandonLink
  dsimp only
  split <;>
    exact ⟨{ outbound := w.sessions.outbound, session := (nomatch ·), paused := (nomatch ·) }, .of_none rfl⟩

theorem abandonLink_session (s : State) : (abandonLink s).data.session = none := by
  unfold abandonLink; dsimp only; split <;> rfl

theorem State.ChannelsFit.stopLink (w : s.ChannelsFit) : (stopLink s).ChannelsFit := by
  unfold Machine.stopLink postStopped
  split
  · exact w.abandonLink.same rfl rfl
  · exact w.abandonLink

theorem State.ChannelsFit.emptyNaming (w : s.ChannelsFit) : (emptyNaming s).ChannelsFit :=
  ⟨{ outbound := fun h => absurd rfl h, session := w.sessions.session, paused := w.sessions.paused },
    { offline := w.holds.offline, room := w.holds.room, pause := w.holds.pause, drain := w.holds.drain }⟩

theorem State.ChannelsFit.clearLink (w : s.ChannelsFit) : (clearLink s).ChannelsFit :=
  w.abandonLink.emptyNaming.congr rfl rfl rfl rfl rfl

theorem State.ChannelsFit.goOffline (w : s.ChannelsFit) : (goOffline s).ChannelsFit := by
  have w1 := w.abandonLink.emptyNaming
  have hs : (Machine.goOffline s).data.session = none := abandonLink_session s
  have hh : (Machine.goOffline s).link.held = none := by
    show (Machine.abandonLink s).link.held = none
    unfold Machine.abandonLink; dsimp only; split <;> rfl
  exact ⟨{ outbound := w1.sessions.outbound
           session := fun c => by rw [hs] at c; cases c
           paused := w1.sessions.paused }, .of_none hh⟩

theorem State.ChannelsFit.goOnline (w : s.ChannelsFit) (h : s.link.online = false) : (goOnline s).ChannelsFit :=
  ⟨{ outbound := w.sessions.outbound
     session := fun c => by
      have := (w.sessions.session c).1
      rw [h] at this; cases this
     paused := w.sessions.paused }, .of_none rfl⟩

theorem resetPart_channels (b : Bool) (s : State) : (resetPart b s).ChannelsFit :=
  ⟨{ outbound := fun h => absurd rfl h, session := (nomatch ·), paused := (nomatch ·) }, .of_none rfl⟩

theorem State.ChannelsFit.releaseOthers (w : s.ChannelsFit) (o : Offered) : (releaseOthers o s).ChannelsFit :=
  State.ChannelsFit.takeIfUnheld (w.congr rfl rfl rfl rfl rfl)

/-- RESUME-INBOUND ends a pause (R155). -/
theorem State.ChannelsFit.resume (w : s.ChannelsFit) :
    (Machine.serveHeldData { s with data.paused := false }).ChannelsFit :=
  State.SessionsFit.serveHeldData (s := { s with data.paused := false })
    { outbound := w.sessions.outbound, session := w.sessions.session, paused := fun c => nomatch c } w.holds.offline
    (fun h => h.elim (fun c => (w.holds.room c).1) fun c => w.sessions.paused (w.holds.pause c)) w.holds.drain

/-! ### Requests and completions -/

/-- A body that runs on the record of PARAM0 (R10). -/
theorem State.ChannelsFit.onRecord (w : s.ChannelsFit) {f : Slot → State → State} (h : ∀ i, (f i s).ChannelsFit) :
    (onRecord f s).ChannelsFit := by
  unfold Machine.onRecord
  split
  · exact w.same rfl rfl
  · exact h _

theorem State.ChannelsFit.startStage (w : s.ChannelsFit) (k : DirectoryRequest) (op : Operation) :
    (startStage k op s).ChannelsFit := w.same (by unfold Machine.startStage; simp) (by unfold Machine.startStage; simp)

theorem State.ChannelsFit.endRequest (w : s.ChannelsFit) (r : ResultCode) (v : Word) : (endRequest r v s).ChannelsFit :=
  w.same rfl rfl

theorem State.ChannelsFit.runRequest (w : s.ChannelsFit) (c : RequestCode) : (runRequest c s).ChannelsFit := by
  have fail : ∀ r, (failRequest r s).ChannelsFit := fun r => w.same rfl rfl
  cases c
  · show (runCreate s).ChannelsFit
    unfold runCreate
    split
    · exact fail _
    · split
      · exact fail _
      · split
        · split
          · exact fail _
          · unfold startCreate
            dsimp only
            refine State.ChannelsFit.startStage ?_ _ _
            exact w.same rfl rfl
        · exact fail _
  · show (runRetire s).ChannelsFit
    refine w.onRecord fun i => ?_
    split
    · exact fail _
    · exact (State.ChannelsFit.detach (s := dropNotices i s) (w.same rfl rfl) i .retiring).startStage _ _
  · show (runRetag s).ChannelsFit
    refine w.onRecord fun i => ?_
    dsimp only
    split
    · exact fail _
    · split
      · exact fail _
      · split
        · exact w.same rfl rfl
        · exact w.startStage _ _
  · show (runSetAlias s).ChannelsFit
    refine w.onRecord fun i => ?_
    dsimp only
    split
    · exact fail _
    · split
      · exact fail _
      · split
        · exact w.same rfl rfl
        · exact w.startStage _ _
  · show (runClearAlias s).ChannelsFit
    refine w.onRecord fun i => ?_
    split
    · exact fail _
    · exact w.startStage _ _
  · show (runSuspend s).ChannelsFit
    refine w.onRecord fun i => ?_
    split
    · exact fail _
    · split
      · exact fail _
      · exact (w.detach i .suspended).same rfl rfl
  · show (runResume s).ChannelsFit
    refine w.onRecord fun i => ?_
    split
    · exact fail _
    · exact w.same rfl rfl
  · show (runSetStatus s).ChannelsFit
    refine w.onRecord fun i => ?_
    split
    · exact fail _
    · exact w.same rfl rfl
  · show (runCall s).ChannelsFit
    refine w.onRecord fun i => ?_
    dsimp only
    split
    · exact fail _
    · split <;> exact w.same rfl rfl
  · show (runWithdraw s).ChannelsFit
    refine w.onRecord fun i => ?_
    split
    · exact fail _
    · exact w.same rfl rfl
  · show (runSetPoll s).ChannelsFit
    refine w.onRecord fun i => ?_
    split
    · exact fail _
    · split
      · exact fail _
      · exact w.same rfl rfl
  · show (runClearPoll s).ChannelsFit
    refine w.onRecord fun i => ?_
    split
    · exact fail _
    · exact w.same rfl rfl
  · show (runSetFlag s).ChannelsFit
    refine w.onRecord fun i => ?_
    split
    · exact fail _
    · split
      · exact fail _
      · split
        · exact fail _
        · exact w.same rfl rfl
  · show (runConfirm s).ChannelsFit
    refine w.onRecord fun i => ?_
    split
    · exact fail _
    · split
      · exact fail _
      · split
        · split
          · exact (w.acceptConfirm _).same rfl rfl
          · exact w.refuseConfirm.same rfl rfl
        · exact fail _
  · show (runFind s).ChannelsFit
    unfold runFind
    split
    · exact fail _
    · exact w.startStage _ _
  · show (runSetManagementTag s).ChannelsFit
    unfold runSetManagementTag
    dsimp only
    split
    · exact w.endRequest _ _
    · split
      · exact fail _
      · exact w.startStage _ _
  · show (runSetOptions s).ChannelsFit
    refine w.onRecord fun i => ?_
    split
    · exact fail _
    · split
      · exact fail _
      · exact w.same rfl rfl

theorem State.ChannelsFit.finishOperation (w : s.ChannelsFit) : (finishOperation s).ChannelsFit :=
  w.same (by simp) (by simp)

theorem State.ChannelsFit.completeLinkReplace (w : s.ChannelsFit) (i : Slot) (tag : Word) (d : Bool) :
    (completeLinkReplace i tag d s).ChannelsFit := by
  unfold Machine.completeLinkReplace
  split
  · rename_i dir _
    have w1 := State.ChannelsFit.postRecord
      (w.same (t := ({ s with directory := dir } : State).updRecord i fun r => { r with primaryTag := tag }) rfl rfl)
      .retagged i
    dsimp only
    split
    · exact w1
    · exact w1.takeHeld
  · split
    · exact w
    · exact w.refuseHeld

theorem State.ChannelsFit.changeDirectory (w : s.ChannelsFit) (op : Operation) {m : State → State}
    {f : ResultCode → State → State} (hm : ∀ t : State, t.ChannelsFit → (m t).ChannelsFit)
    (hf : ∀ r, (f r s).ChannelsFit) : (changeDirectory op m f s).ChannelsFit := by
  unfold Machine.changeDirectory
  split
  · exact hm _ (w.same rfl rfl)
  · exact hf _

theorem State.ChannelsFit.createMade (w : s.ChannelsFit) (i : Slot) : (createMade i s).ChannelsFit := w.same rfl rfl

theorem State.ChannelsFit.createFailed (w : s.ChannelsFit) (i : Slot) (r : ResultCode) :
    (createFailed i r s).ChannelsFit := w.same rfl rfl

theorem State.ChannelsFit.retireMade (w : s.ChannelsFit) (i : Slot) (p : Vector Word 4) :
    (retireMade i p s).ChannelsFit := w.same rfl rfl

theorem State.ChannelsFit.retagMade (w : s.ChannelsFit) (i : Slot) (p : Vector Word 4) : (retagMade i p s).ChannelsFit :=
  w.same (by unfold Machine.retagMade; simp) (by unfold Machine.retagMade; simp)

theorem State.ChannelsFit.setAliasMade (w : s.ChannelsFit) (i : Slot) (p : Vector Word 4) :
    (setAliasMade i p s).ChannelsFit := w.same rfl rfl

theorem State.ChannelsFit.clearAliasMade (w : s.ChannelsFit) (i : Slot) (p : Vector Word 4) :
    (clearAliasMade i p s).ChannelsFit := w.same rfl rfl

theorem State.ChannelsFit.findMade (w : s.ChannelsFit) (op : Operation) : (findMade op s).ChannelsFit := by
  unfold Machine.findMade
  split
  · split <;> exact w.same rfl rfl
  · exact w
  · exact w
  · exact w

theorem State.ChannelsFit.managementMade (w : s.ChannelsFit) (p : Vector Word 4) : (managementMade p s).ChannelsFit :=
  w.same rfl rfl

end Sys2Proof.Machine
end

