-- ==== Sys2Proof/Laws/PerInstr.lean ====
section
/-! SUPPORT. The family `CommandCodes`: what each command is as a write cycle of the local bus or as a control
unit of the link, and that the cycle, or the unit, belongs to no other row of the table. -/

namespace Sys2Proof.Laws.CommandCodes

/-- The write cycle a command is: its word location and its word, with the high byte of a code 00H. -/
def writeCycle : Instr → Option (BitVec 5 × Word)
  | .create => some (0x02#5, 0x01#16)
  | .retire => some (0x02#5, 0x02#16)
  | .retag => some (0x02#5, 0x03#16)
  | .setAlias => some (0x02#5, 0x04#16)
  | .clearAlias => some (0x02#5, 0x05#16)
  | .suspend => some (0x02#5, 0x06#16)
  | .resume => some (0x02#5, 0x07#16)
  | .setStatus => some (0x02#5, 0x08#16)
  | .call => some (0x02#5, 0x09#16)
  | .withdraw => some (0x02#5, 0x0A#16)
  | .setPoll => some (0x02#5, 0x0B#16)
  | .clearPoll => some (0x02#5, 0x0C#16)
  | .setFlag => some (0x02#5, 0x0D#16)
  | .confirm => some (0x02#5, 0x0E#16)
  | .find => some (0x02#5, 0x0F#16)
  | .setManagementTag => some (0x02#5, 0x10#16)
  | .setOptions => some (0x02#5, 0x11#16)
  | .resetPart => some (0x01#5, 0x01#16)
  | .online => some (0x01#5, 0x02#16)
  | .offline => some (0x01#5, 0x03#16)
  | .arm => some (0x01#5, 0x04#16)
  | .resumeInbound => some (0x01#5, 0x05#16)
  | .flushInbound => some (0x01#5, 0x06#16)
  | .unknownRequestCode w => some (0x02#5, w)
  | .unassignedControlCode w => some (0x01#5, w)
  | .devnoticeEnableWrite w => some (0x0A#5, w)
  | .intctlWrite w => some (0x0B#5, w)
  | .configWrite w => some (0x0D#5, w)
  | .outdata w => some (0x15#5, w)
  | .outdataEnd w => some (0x16#5, w)
  | .registerWrite loc w => some (loc, w)
  | _ => none

/-- The request row of a code. -/
def requestRow : RequestCode → Instr
  | .create => .create
  | .retire => .retire
  | .retag => .retag
  | .setAlias => .setAlias
  | .clearAlias => .clearAlias
  | .suspend => .suspend
  | .resume => .resume
  | .setStatus => .setStatus
  | .call => .call
  | .withdraw => .withdraw
  | .setPoll => .setPoll
  | .clearPoll => .clearPoll
  | .setFlag => .setFlag
  | .confirm => .confirm
  | .find => .find
  | .setManagementTag => .setManagementTag
  | .setOptions => .setOptions

/-- The CONTROL row of a code. -/
def controlRow : ControlCode → Instr
  | .resetPart => .resetPart
  | .online => .online
  | .offline => .offline
  | .arm => .arm
  | .resumeInbound => .resumeInbound
  | .flushInbound => .flushInbound

/-- The row of the table a write cycle belongs to, by its location (R185), then by its code (R189, R194). -/
def rowOfWrite (loc : BitVec 5) (w : Word) : Instr :=
  match decodeLocation loc with
  | .control => ((decodeControl (loByte w)).map controlRow).getD (.unassignedControlCode w)
  | .request => ((decodeRequest (loByte w)).map requestRow).getD (.unknownRequestCode w)
  | .devnoticeEnable => .devnoticeEnableWrite w
  | .intctl => .intctlWrite w
  | .config => .configWrite w
  | .outdata => .outdata w
  | .outdataEnd => .outdataEnd w
  | _ => .registerWrite loc w

/-- The value of the control unit a command offers, where its row fixes it (section 4.4). -/
def unitValue : Instr → Option Byte
  | .signal c => some (c.setWidth 8)
  | .nameSource => some 0x10#8
  | .nameSink => some 0x11#8
  | .linkRetag => some 0x12#8
  | .dropSource => some 0x18#8
  | .dropSinks => some 0x19#8
  | .go => some 0x20#8
  | .query => some 0x21#8
  | .groupPoll g => some (0x28#8 + g.setWidth 8)
  | .assignPoll a => some a.toByte
  | .releasePoll => some 0x3C#8
  | .unassignedLinkCode v => some v
  | _ => none

/-- The row of the table a control unit that is decoded belongs to (R77). -/
def rowOfUnit (v : Byte) : Instr :=
  match decodeUnit v with
  | .signal c => .signal c
  | .nameSource => .nameSource
  | .nameSink => .nameSink
  | .retag => .linkRetag
  | .dropSource => .dropSource
  | .dropSinks => .dropSinks
  | .go => .go
  | .query => .query
  | .groupPoll g => .groupPoll g
  | .releasePoll => .releasePoll
  | .assignPoll a => .assignPoll a
  | .unassigned => .unassignedLinkCode v

/-- A well-formed command's write cycle, and its control unit, belong to its row and to no other. -/
def Statement (i : Instr) : Prop :=
  WellFormed i = true →
    (∀ loc w, writeCycle i = some (loc, w) → rowOfWrite loc w = i) ∧ (∀ v, unitValue i = some v → rowOfUnit v = i)

theorem create : Statement .create :=
  fun _ => ⟨by rintro _ _ ⟨⟩; rfl, by rintro _ ⟨⟩⟩

theorem retire : Statement .retire :=
  fun _ => ⟨by rintro _ _ ⟨⟩; rfl, by rintro _ ⟨⟩⟩

theorem retag : Statement .retag :=
  fun _ => ⟨by rintro _ _ ⟨⟩; rfl, by rintro _ ⟨⟩⟩

theorem setAlias : Statement .setAlias :=
  fun _ => ⟨by rintro _ _ ⟨⟩; rfl, by rintro _ ⟨⟩⟩

theorem clearAlias : Statement .clearAlias :=
  fun _ => ⟨by rintro _ _ ⟨⟩; rfl, by rintro _ ⟨⟩⟩

theorem suspend : Statement .suspend :=
  fun _ => ⟨by rintro _ _ ⟨⟩; rfl, by rintro _ ⟨⟩⟩

theorem resume : Statement .resume :=
  fun _ => ⟨by rintro _ _ ⟨⟩; rfl, by rintro _ ⟨⟩⟩

theorem setStatus : Statement .setStatus :=
  fun _ => ⟨by rintro _ _ ⟨⟩; rfl, by rintro _ ⟨⟩⟩

theorem call : Statement .call :=
  fun _ => ⟨by rintro _ _ ⟨⟩; rfl, by rintro _ ⟨⟩⟩

theorem withdraw : Statement .withdraw :=
  fun _ => ⟨by rintro _ _ ⟨⟩; rfl, by rintro _ ⟨⟩⟩

theorem setPoll : Statement .setPoll :=
  fun _ => ⟨by rintro _ _ ⟨⟩; rfl, by rintro _ ⟨⟩⟩

theorem clearPoll : Statement .clearPoll :=
  fun _ => ⟨by rintro _ _ ⟨⟩; rfl, by rintro _ ⟨⟩⟩

theorem setFlag : Statement .setFlag :=
  fun _ => ⟨by rintro _ _ ⟨⟩; rfl, by rintro _ ⟨⟩⟩

theorem confirm : Statement .confirm :=
  fun _ => ⟨by rintro _ _ ⟨⟩; rfl, by rintro _ ⟨⟩⟩

theorem find : Statement .find :=
  fun _ => ⟨by rintro _ _ ⟨⟩; rfl, by rintro _ ⟨⟩⟩

theorem setManagementTag : Statement .setManagementTag :=
  fun _ => ⟨by rintro _ _ ⟨⟩; rfl, by rintro _ ⟨⟩⟩

theorem setOptions : Statement .setOptions :=
  fun _ => ⟨by rintro _ _ ⟨⟩; rfl, by rintro _ ⟨⟩⟩

theorem unknownRequestCode (w : Word) : Statement (.unknownRequestCode w) := by
  refine fun h => ⟨?_, by rintro _ ⟨⟩⟩
  rintro _ _ ⟨⟩
  have key : ∀ c : Byte, (!isRequestCode c) = true → decodeRequest c = none := by decide
  change ((decodeRequest (loByte w)).map requestRow).getD (.unknownRequestCode w) = _
  rw [key (loByte w) h]
  rfl

theorem resetPart : Statement .resetPart :=
  fun _ => ⟨by rintro _ _ ⟨⟩; rfl, by rintro _ ⟨⟩⟩

theorem online : Statement .online :=
  fun _ => ⟨by rintro _ _ ⟨⟩; rfl, by rintro _ ⟨⟩⟩

theorem offline : Statement .offline :=
  fun _ => ⟨by rintro _ _ ⟨⟩; rfl, by rintro _ ⟨⟩⟩

theorem arm : Statement .arm :=
  fun _ => ⟨by rintro _ _ ⟨⟩; rfl, by rintro _ ⟨⟩⟩

theorem resumeInbound : Statement .resumeInbound :=
  fun _ => ⟨by rintro _ _ ⟨⟩; rfl, by rintro _ ⟨⟩⟩

theorem flushInbound : Statement .flushInbound :=
  fun _ => ⟨by rintro _ _ ⟨⟩; rfl, by rintro _ ⟨⟩⟩

theorem unassignedControlCode (w : Word) : Statement (.unassignedControlCode w) := by
  refine fun h => ⟨?_, by rintro _ ⟨⟩⟩
  rintro _ _ ⟨⟩
  have key : ∀ c : Byte, (!isControlCode c) = true → decodeControl c = none := by decide
  change ((decodeControl (loByte w)).map controlRow).getD (.unassignedControlCode w) = _
  rw [key (loByte w) h]
  rfl

theorem attentionRead : Statement .attentionRead :=
  fun _ => ⟨by rintro _ _ ⟨⟩, by rintro _ ⟨⟩⟩

theorem devnoticeRead : Statement .devnoticeRead :=
  fun _ => ⟨by rintro _ _ ⟨⟩, by rintro _ ⟨⟩⟩

theorem indataRead : Statement .indataRead :=
  fun _ => ⟨by rintro _ _ ⟨⟩, by rintro _ ⟨⟩⟩

theorem outdata (w : Word) : Statement (.outdata w) :=
  fun _ => ⟨by rintro _ _ ⟨⟩; rfl, by rintro _ ⟨⟩⟩

theorem outdataEnd (w : Word) : Statement (.outdataEnd w) :=
  fun _ => ⟨by rintro _ _ ⟨⟩; rfl, by rintro _ ⟨⟩⟩

theorem windataRead : Statement .windataRead :=
  fun _ => ⟨by rintro _ _ ⟨⟩, by rintro _ ⟨⟩⟩

theorem configWrite (w : Word) : Statement (.configWrite w) :=
  fun _ => ⟨by rintro _ _ ⟨⟩; rfl, by rintro _ ⟨⟩⟩

theorem intctlWrite (w : Word) : Statement (.intctlWrite w) :=
  fun _ => ⟨by rintro _ _ ⟨⟩; rfl, by rintro _ ⟨⟩⟩

theorem devnoticeEnableWrite (w : Word) : Statement (.devnoticeEnableWrite w) :=
  fun _ => ⟨by rintro _ _ ⟨⟩; rfl, by rintro _ ⟨⟩⟩

theorem registerWrite (loc : BitVec 5) (w : Word) : Statement (.registerWrite loc w) := by
  refine fun h => ⟨?_, by rintro _ ⟨⟩⟩
  rintro _ _ ⟨⟩
  have key : ∀ loc : BitVec 5, (!hasOwnWriteRow loc) = true → decodeLocation loc ≠ .control ∧
      decodeLocation loc ≠ .request ∧ decodeLocation loc ≠ .devnoticeEnable ∧ decodeLocation loc ≠ .intctl ∧
      decodeLocation loc ≠ .config ∧ decodeLocation loc ≠ .outdata ∧ decodeLocation loc ≠ .outdataEnd := by
    decide
  obtain ⟨h1, h2, h3, h4, h5, h6, h7⟩ := key loc h
  unfold rowOfWrite
  split <;> first | contradiction | rfl

theorem resetInput (periods : Nat) : Statement (.resetInput periods) :=
  fun _ => ⟨by rintro _ _ ⟨⟩, by rintro _ ⟨⟩⟩

theorem resetRelease : Statement .resetRelease :=
  fun _ => ⟨by rintro _ _ ⟨⟩, by rintro _ ⟨⟩⟩

theorem dackIn (strobe : Strobe) (tc : Bool) : Statement (.dackIn strobe tc) :=
  fun _ => ⟨by rintro _ _ ⟨⟩, by rintro _ ⟨⟩⟩

theorem dackOut (strobe : Strobe) (tc : Bool) (w : Word) : Statement (.dackOut strobe tc w) :=
  fun _ => ⟨by rintro _ _ ⟨⟩, by rintro _ ⟨⟩⟩

theorem signal (c : BitVec 4) : Statement (.signal c) :=
  fun _ => ⟨by rintro _ _ ⟨⟩, by rintro _ ⟨⟩; revert c; decide⟩

theorem nameSource : Statement .nameSource :=
  fun _ => ⟨by rintro _ _ ⟨⟩, by rintro _ ⟨⟩; decide⟩

theorem nameSink : Statement .nameSink :=
  fun _ => ⟨by rintro _ _ ⟨⟩, by rintro _ ⟨⟩; decide⟩

theorem linkRetag : Statement .linkRetag :=
  fun _ => ⟨by rintro _ _ ⟨⟩, by rintro _ ⟨⟩; decide⟩

theorem tagHi (v : Byte) : Statement (.tagHi v) :=
  fun _ => ⟨by rintro _ _ ⟨⟩, by rintro _ ⟨⟩⟩

theorem tagLo (v : Byte) : Statement (.tagLo v) :=
  fun _ => ⟨by rintro _ _ ⟨⟩, by rintro _ ⟨⟩⟩

theorem dropSource : Statement .dropSource :=
  fun _ => ⟨by rintro _ _ ⟨⟩, by rintro _ ⟨⟩; decide⟩

theorem dropSinks : Statement .dropSinks :=
  fun _ => ⟨by rintro _ _ ⟨⟩, by rintro _ ⟨⟩; decide⟩

theorem go : Statement .go :=
  fun _ => ⟨by rintro _ _ ⟨⟩, by rintro _ ⟨⟩; decide⟩

theorem query : Statement .query :=
  fun _ => ⟨by rintro _ _ ⟨⟩, by rintro _ ⟨⟩; decide⟩

theorem groupPoll (g : BitVec 2) : Statement (.groupPoll g) :=
  fun _ => ⟨by rintro _ _ ⟨⟩, by rintro _ ⟨⟩; revert g; decide⟩

theorem assignPoll (a : PollAssignment) : Statement (.assignPoll a) := by
  obtain ⟨g, l, p⟩ := a
  refine fun _ => ⟨by rintro _ _ ⟨⟩, ?_⟩
  rintro _ ⟨⟩
  revert g l
  cases p <;> decide

theorem releasePoll : Statement .releasePoll :=
  fun _ => ⟨by rintro _ _ ⟨⟩, by rintro _ ⟨⟩; decide⟩

theorem unassignedLinkCode (v : Byte) : Statement (.unassignedLinkCode v) := by
  refine fun h => ⟨by rintro _ _ ⟨⟩, ?_⟩
  rintro _ ⟨⟩
  have key : ∀ v : Byte, isUnassignedUnit v = true → decodeUnit v = .unassigned := by decide
  unfold rowOfUnit
  rw [key _ h]

theorem controlUnitInDataPhase (v : Byte) : Statement (.controlUnitInDataPhase v) :=
  fun _ => ⟨by rintro _ _ ⟨⟩, by rintro _ ⟨⟩⟩

theorem dataUnitInCommandPhase (v : Byte) (endFlag : Bool) : Statement (.dataUnitInCommandPhase v endFlag) :=
  fun _ => ⟨by rintro _ _ ⟨⟩, by rintro _ ⟨⟩⟩

theorem dataUnitSeen (v : Byte) (endFlag : Bool) : Statement (.dataUnitSeen v endFlag) :=
  fun _ => ⟨by rintro _ _ ⟨⟩, by rintro _ ⟨⟩⟩

theorem inboundUnitOffer (v : Byte) (endFlag : Bool) : Statement (.inboundUnitOffer v endFlag) :=
  fun _ => ⟨by rintro _ _ ⟨⟩, by rintro _ ⟨⟩⟩

theorem inboundUnitTake : Statement .inboundUnitTake :=
  fun _ => ⟨by rintro _ _ ⟨⟩, by rintro _ ⟨⟩⟩

theorem outboundUnitOffer (otherHold : Bool) : Statement (.outboundUnitOffer otherHold) :=
  fun _ => ⟨by rintro _ _ ⟨⟩, by rintro _ ⟨⟩⟩

theorem outboundUnitTaken : Statement .outboundUnitTaken :=
  fun _ => ⟨by rintro _ _ ⟨⟩, by rintro _ ⟨⟩⟩

theorem statusUnitOffer (otherHold : Bool) : Statement (.statusUnitOffer otherHold) :=
  fun _ => ⟨by rintro _ _ ⟨⟩, by rintro _ ⟨⟩⟩

theorem statusUnitTaken : Statement .statusUnitTaken :=
  fun _ => ⟨by rintro _ _ ⟨⟩, by rintro _ ⟨⟩⟩

theorem conditionUnitOffer (otherHold : Bool) : Statement (.conditionUnitOffer otherHold) :=
  fun _ => ⟨by rintro _ _ ⟨⟩, by rintro _ ⟨⟩⟩

theorem conditionUnitTaken : Statement .conditionUnitTaken :=
  fun _ => ⟨by rintro _ _ ⟨⟩, by rintro _ ⟨⟩⟩

theorem rosterUnitOffer (otherHold : Bool) : Statement (.rosterUnitOffer otherHold) :=
  fun _ => ⟨by rintro _ _ ⟨⟩, by rintro _ ⟨⟩⟩

theorem rosterUnitTaken : Statement .rosterUnitTaken :=
  fun _ => ⟨by rintro _ _ ⟨⟩, by rintro _ ⟨⟩⟩

theorem offerWithdrawn : Statement .offerWithdrawn :=
  fun _ => ⟨by rintro _ _ ⟨⟩, by rintro _ ⟨⟩⟩

theorem plqAsserted : Statement .plqAsserted :=
  fun _ => ⟨by rintro _ _ ⟨⟩, by rintro _ ⟨⟩⟩

theorem plqReleased : Statement .plqReleased :=
  fun _ => ⟨by rintro _ _ ⟨⟩, by rintro _ ⟨⟩⟩

theorem stopAsserted : Statement .stopAsserted :=
  fun _ => ⟨by rintro _ _ ⟨⟩, by rintro _ ⟨⟩⟩

theorem stopReleased : Statement .stopReleased :=
  fun _ => ⟨by rintro _ _ ⟨⟩, by rintro _ ⟨⟩⟩

theorem clearAsserted : Statement .clearAsserted :=
  fun _ => ⟨by rintro _ _ ⟨⟩, by rintro _ ⟨⟩⟩

theorem clearReleased : Statement .clearReleased :=
  fun _ => ⟨by rintro _ _ ⟨⟩, by rintro _ ⟨⟩⟩

theorem nameSourceLookupComplete : Statement .nameSourceLookupComplete :=
  fun _ => ⟨by rintro _ _ ⟨⟩, by rintro _ ⟨⟩⟩

theorem nameSinkLookupComplete : Statement .nameSinkLookupComplete :=
  fun _ => ⟨by rintro _ _ ⟨⟩, by rintro _ ⟨⟩⟩

theorem linkRetagReplaceComplete : Statement .linkRetagReplaceComplete :=
  fun _ => ⟨by rintro _ _ ⟨⟩, by rintro _ ⟨⟩⟩

theorem createInsertComplete : Statement .createInsertComplete :=
  fun _ => ⟨by rintro _ _ ⟨⟩, by rintro _ ⟨⟩⟩

theorem retireRemoveComplete : Statement .retireRemoveComplete :=
  fun _ => ⟨by rintro _ _ ⟨⟩, by rintro _ ⟨⟩⟩

theorem retagReplaceComplete : Statement .retagReplaceComplete :=
  fun _ => ⟨by rintro _ _ ⟨⟩, by rintro _ ⟨⟩⟩

theorem setAliasComplete : Statement .setAliasComplete :=
  fun _ => ⟨by rintro _ _ ⟨⟩, by rintro _ ⟨⟩⟩

theorem clearAliasComplete : Statement .clearAliasComplete :=
  fun _ => ⟨by rintro _ _ ⟨⟩, by rintro _ ⟨⟩⟩

theorem findLookupComplete : Statement .findLookupComplete :=
  fun _ => ⟨by rintro _ _ ⟨⟩, by rintro _ ⟨⟩⟩

theorem setManagementTagComplete : Statement .setManagementTagComplete :=
  fun _ => ⟨by rintro _ _ ⟨⟩, by rintro _ ⟨⟩⟩

theorem confirmTimerExpiry : Statement .confirmTimerExpiry :=
  fun _ => ⟨by rintro _ _ ⟨⟩, by rintro _ ⟨⟩⟩

theorem intPulseEnd : Statement .intPulseEnd :=
  fun _ => ⟨by rintro _ _ ⟨⟩, by rintro _ ⟨⟩⟩

end Sys2Proof.Laws.CommandCodes
end

