-- ==== Sys2Proof/Laws/Queue.lean ====
section
/-! SUPPORT. No operation of the part touches the queue of waiting commands: one lemma per shared operation. -/

namespace Sys2Proof.Machine

/-- A change made over a list leaves the queue when each of its steps does. -/
theorem foldl_pending {α : Type} (f : State → α → State) (h : ∀ t a, (f t a).pending = t.pending) (l : List α) :
    ∀ s : State, (l.foldl f s).pending = s.pending := by
  induction l with
  | nil => exact fun _ => rfl
  | cons a l ih => exact fun s => by rw [List.foldl_cons, ih, h]

/-! ### Naming -/

@[simp] theorem releaseSource_pending (s : State) : (releaseSource s).pending = s.pending := rfl

@[simp] theorem unnameSource_pending (s : State) : (unnameSource s).pending = s.pending := by
  unfold unnameSource
  repeat' split
  all_goals simp

@[simp] theorem applySource_pending (i : Slot) (s : State) : (applySource i s).pending = s.pending := by
  unfold applySource
  simp

@[simp] theorem releaseIfSource_pending (h : Handle) (s : State) : (releaseIfSource h s).pending = s.pending := by
  unfold releaseIfSource
  repeat' split
  all_goals simp

@[simp] theorem applySink_pending (i : Slot) (s : State) : (applySink i s).pending = s.pending := by
  unfold applySink
  simp

@[simp] theorem openConfirm_pending (r : Role) (i : Slot) (s : State) : (openConfirm r i s).pending = s.pending := by
  unfold openConfirm
  simp

@[simp] theorem applyNaming_pending (r : Role) (i : Slot) (s : State) : (applyNaming r i s).pending = s.pending := by
  cases r <;> simp [applyNaming]

@[simp] theorem acceptConfirm_pending (c : Confirm) (s : State) : (acceptConfirm c s).pending = s.pending := by
  unfold acceptConfirm
  simp

@[simp] theorem sourceOutcome_pending (b : Bool) (i : Slot) (s : State) : (sourceOutcome b i s).pending = s.pending := by
  unfold sourceOutcome
  repeat' split
  all_goals simp

@[simp] theorem resolveSource_pending (x : Option Owner) (s : State) : (resolveSource x s).pending = s.pending := by
  unfold resolveSource; dsimp only; repeat' split
  all_goals simp

@[simp] theorem sinkOutcome_pending (i : Slot) (s : State) : (sinkOutcome i s).pending = s.pending := by
  unfold sinkOutcome
  repeat' split
  all_goals simp

@[simp] theorem resolveSink_pending (x : Option Owner) (s : State) : (resolveSink x s).pending = s.pending := by
  unfold resolveSink
  repeat' split
  all_goals simp

@[simp] theorem resolveRetag_pending (w : Word) (s : State) : (resolveRetag w s).pending = s.pending := by
  unfold resolveRetag
  repeat' (split <;> try dsimp only)
  all_goals simp

@[simp] theorem refuseConfirmOf_pending (h : Handle) (s : State) : (refuseConfirmOf h s).pending = s.pending := by
  unfold refuseConfirmOf
  repeat' split
  all_goals simp

@[simp] theorem detachLink_pending (i : Slot) (s : State) : (detachLink i s).pending = s.pending := by
  unfold detachLink
  simp

@[simp] theorem detachCalls_pending (i : Slot) (x : SlotState) (s : State) : (detachCalls i x s).pending = s.pending := rfl

@[simp] theorem detach_pending (i : Slot) (x : SlotState) (s : State) : (detach i x s).pending = s.pending := by
  unfold detach
  simp

/-! ### The data path -/

@[simp] theorem endPhase_pending (s : State) : (endPhase s).pending = s.pending := by
  unfold endPhase
  repeat' split
  all_goals simp

@[simp] theorem openSession_pending (h : Handle) (s : State) : (openSession h s).pending = s.pending := by
  unfold openSession
  simp

@[simp] theorem takeGo_pending (s : State) : (takeGo s).pending = s.pending := by
  unfold takeGo
  repeat' split
  all_goals simp

@[simp] theorem receiveGo_pending (u : LinkUnit) (s : State) : (receiveGo u s).pending = s.pending := by
  unfold receiveGo
  repeat' split
  all_goals simp

@[simp] theorem answerCall_pending (h : Handle) (s : State) : (answerCall h s).pending = s.pending := by
  unfold answerCall
  repeat' split
  all_goals simp

@[simp] theorem removeOutHead_pending (b : Bool) (s : State) : (removeOutHead b s).pending = s.pending := by
  unfold removeOutHead
  repeat' split
  all_goals simp

@[simp] theorem takeCondition_pending (v : Byte) (s : State) : (takeCondition v s).pending = s.pending := by
  unfold takeCondition
  repeat' split
  all_goals simp

@[simp] theorem ownerTake_pending (o : Offered) (s : State) : (ownerTake o s).pending = s.pending := by
  unfold ownerTake
  repeat' split
  all_goals simp

@[simp] theorem linkTake_pending (o : Offered) (s : State) : (linkTake o s).pending = s.pending := by
  unfold linkTake
  repeat' split
  all_goals simp

@[simp] theorem takeIfUnheld_pending (s : State) : (takeIfUnheld s).pending = s.pending := by
  unfold takeIfUnheld
  repeat' split
  all_goals simp

@[simp] theorem appendIn_pending (e : InEntry) (s : State) : (appendIn e s).pending = s.pending := by
  unfold appendIn
  repeat' split
  all_goals simp

@[simp] theorem beginPause_pending (s : State) : (beginPause s).pending = s.pending := rfl

@[simp] theorem takeData_pending (x : InboundSession) (u : LinkUnit) (s : State) : (takeData x u s).pending = s.pending := by
  unfold takeData
  repeat' (split <;> try dsimp only)
  all_goals simp

@[simp] theorem serveHeldData_pending (s : State) : (serveHeldData s).pending = s.pending := by
  unfold serveHeldData
  repeat' split
  all_goals simp

@[simp] theorem receiveData_pending (u : LinkUnit) (s : State) : (receiveData u s).pending = s.pending := by
  unfold receiveData
  repeat' split
  all_goals simp

@[simp] theorem serveHeldGo_pending (s : State) : (serveHeldGo s).pending = s.pending := by
  unfold serveHeldGo
  repeat' split
  all_goals simp

@[simp] theorem afterDrain_pending (s : State) : (afterDrain s).pending = s.pending := by
  unfold afterDrain
  repeat' split
  all_goals simp

@[simp] theorem offerUnit_pending (o : Offered) (s : State) : (offerUnit o s).pending = s.pending := by
  unfold offerUnit
  repeat' split
  all_goals simp

@[simp] theorem writeOut_pending (v : Byte) (b : Bool) (s : State) : (writeOut v b s).pending = s.pending := by
  unfold writeOut
  repeat' split
  all_goals simp

@[simp] theorem readIn_pending (s : State) : (readIn s).pending = s.pending := by
  unfold readIn
  repeat' split
  all_goals simp

/-! ### The link -/

@[simp] theorem signalSinks_pending (c : BitVec 4) (s : State) : (signalSinks c s).pending = s.pending := by
  unfold signalSinks
  rw [foldl_pending]
  intros
  simp

@[simp] theorem dropSinkList_pending (s : State) : (dropSinkList s).pending = s.pending := by
  unfold dropSinkList
  rw [foldl_pending]
  intros
  simp

@[simp] theorem armQuery_pending (s : State) : (armQuery s).pending = s.pending := by
  unfold armQuery
  repeat' split
  all_goals simp

@[simp] theorem assignSink_pending (a : PollAssignment) (i : Slot) (s : State) : (assignSink a i s).pending = s.pending := by
  unfold assignSink
  repeat' split
  all_goals simp

@[simp] theorem releaseSink_pending (i : Slot) (s : State) : (releaseSink i s).pending = s.pending := by
  unfold releaseSink
  repeat' split
  all_goals simp

@[simp] theorem assignSinks_pending (a : PollAssignment) (s : State) : (assignSinks a s).pending = s.pending := by
  unfold assignSinks
  rw [foldl_pending]
  intros
  simp

@[simp] theorem releaseSinks_pending (s : State) : (releaseSinks s).pending = s.pending := by
  unfold releaseSinks
  rw [foldl_pending]
  intros
  simp

@[simp] theorem openSequence_pending (o : Opening) (s : State) : (openSequence o s).pending = s.pending := rfl

@[simp] theorem decodeTake_pending (u : LinkUnit) (s : State) : (decodeTake u s).pending = s.pending := by
  unfold decodeTake
  repeat' split
  all_goals simp

@[simp] theorem resolveSequence_pending (o : Opening) (w : Word) (u : LinkUnit) (s : State) : (resolveSequence o w u s).pending = s.pending := by
  unfold resolveSequence
  repeat' split
  all_goals simp

@[simp] theorem receiveControl_pending (u : LinkUnit) (s : State) : (receiveControl u s).pending = s.pending := by
  unfold receiveControl
  repeat' split
  all_goals simp

@[simp] theorem attendOffer_pending (u : LinkUnit) (s : State) : (attendOffer u s).pending = s.pending := by
  unfold attendOffer
  repeat' split
  all_goals simp

@[simp] theorem foreignOffer_pending (u : LinkUnit) (s : State) : (foreignOffer u s).pending = s.pending := by
  unfold foreignOffer
  repeat' split
  all_goals simp

@[simp] theorem takeOffer_pending (u : LinkUnit) (s : State) : (takeOffer u s).pending = s.pending := by
  unfold takeOffer
  repeat' split
  all_goals simp

@[simp] theorem seeTake_pending (u : LinkUnit) (s : State) : (seeTake u s).pending = s.pending := by
  unfold seeTake
  repeat' split
  all_goals simp

@[simp] theorem foreignTake_pending (u : LinkUnit) (s : State) : (foreignTake u s).pending = s.pending := by
  unfold foreignTake
  repeat' split
  all_goals simp

@[simp] theorem attendStanding_pending (s : State) : (attendStanding s).pending = s.pending := by
  unfold attendStanding
  repeat' split
  all_goals simp

@[simp] theorem abandonLink_pending (s : State) : (abandonLink s).pending = s.pending := by
  unfold abandonLink
  repeat' split
  all_goals simp

@[simp] theorem stopLink_pending (s : State) : (stopLink s).pending = s.pending := by
  unfold stopLink postStopped
  split <;> simp

@[simp] theorem emptyNaming_pending (s : State) : (emptyNaming s).pending = s.pending := rfl

@[simp] theorem clearLink_pending (s : State) : (clearLink s).pending = s.pending := by
  unfold clearLink
  simp

@[simp] theorem goOffline_pending (s : State) : (goOffline s).pending = s.pending := by
  unfold goOffline
  simp

@[simp] theorem goOnline_pending (s : State) : (goOnline s).pending = s.pending := rfl

@[simp] theorem resetPart_pending (b : Bool) (s : State) : (resetPart b s).pending = s.pending := rfl

@[simp] theorem endLinkUnit_pending (s : State) : (endLinkUnit s).pending = s.pending := rfl

@[simp] theorem releaseOthers_pending (o : Offered) (s : State) : (releaseOthers o s).pending = s.pending := by
  unfold releaseOthers
  simp

/-! ### Requests -/

@[simp] theorem startStage_pending (k : DirectoryRequest) (op : Operation) (s : State) : (startStage k op s).pending = s.pending := by
  unfold startStage
  simp

theorem onRecord_pending (f : Slot → State → State) {s : State} (h : ∀ i, (f i s).pending = s.pending) : (onRecord f s).pending = s.pending := by
  unfold onRecord
  split
  · simp
  · exact h _

@[simp] theorem runRequest_pending (c : RequestCode) (s : State) : (runRequest c s).pending = s.pending := by
  cases c
  case create =>
    show (runCreate s).pending = s.pending
    unfold runCreate startCreate
    repeat' split
    all_goals simp
  case find =>
    show (runFind s).pending = s.pending
    unfold runFind
    split <;> simp
  case setManagementTag =>
    show (runSetManagementTag s).pending = s.pending
    unfold runSetManagementTag
    dsimp only
    repeat' split
    all_goals simp
  all_goals
    refine onRecord_pending _ fun i => ?_
    repeat' (split <;> try dsimp only)
    all_goals simp [dropNotices, joinQueue, leaveQueue]

@[simp] theorem runRequestByte_pending (c : Byte) (s : State) : (runRequestByte c s).pending = s.pending := by
  unfold runRequestByte
  repeat' split
  all_goals simp

theorem startRequest_pending (f : State → State) {s : State} (h : (f s).pending = s.pending) : (startRequest f s).pending = s.pending := by
  unfold startRequest
  split
  · simp
  · exact h

/-! ### Completions -/

@[simp] theorem completeLinkReplace_pending (i : Slot) (w : Word) (b : Bool) (s : State) : (completeLinkReplace i w b s).pending = s.pending := by
  unfold completeLinkReplace
  repeat' split
  all_goals simp

theorem changeDirectory_pending (op : Operation) (m : State → State) (f : ResultCode → State → State) {s : State} (hm : ∀ t : State, (m t).pending = t.pending) (hf : ∀ r, (f r s).pending = s.pending) : (changeDirectory op m f s).pending = s.pending := by
  unfold changeDirectory
  split
  · rw [hm]
  · exact hf _

@[simp] theorem createMade_pending (i : Slot) (s : State) : (createMade i s).pending = s.pending := by
  unfold createMade
  simp

@[simp] theorem createFailed_pending (i : Slot) (r : ResultCode) (s : State) : (createFailed i r s).pending = s.pending := by
  unfold createFailed
  simp

@[simp] theorem retireMade_pending (i : Slot) (p : Vector Word 4) (s : State) : (retireMade i p s).pending = s.pending := by
  unfold retireMade
  simp

@[simp] theorem retagMade_pending (i : Slot) (p : Vector Word 4) (s : State) : (retagMade i p s).pending = s.pending := by
  unfold retagMade
  simp

@[simp] theorem setAliasMade_pending (i : Slot) (p : Vector Word 4) (s : State) : (setAliasMade i p s).pending = s.pending := by
  unfold setAliasMade
  simp

@[simp] theorem clearAliasMade_pending (i : Slot) (p : Vector Word 4) (s : State) : (clearAliasMade i p s).pending = s.pending := by
  unfold clearAliasMade
  simp

@[simp] theorem findMade_pending (op : Operation) (s : State) : (findMade op s).pending = s.pending := by
  unfold findMade
  repeat' split
  all_goals simp

@[simp] theorem managementMade_pending (p : Vector Word 4) (s : State) : (managementMade p s).pending = s.pending := by
  unfold managementMade
  simp

/-! ### The port -/

@[simp] theorem takeAttention_pending (s : State) : (takeAttention s).pending = s.pending := by
  unfold takeAttention
  repeat' split
  all_goals simp

@[simp] theorem takeDevnotice_pending (s : State) : (takeDevnotice s).pending = s.pending := rfl

@[simp] theorem readWindow_pending (s : State) : (readWindow s).pending = s.pending := by
  unfold readWindow
  repeat' split
  all_goals simp

@[simp] theorem postTerminalCount_pending (b : Bool) (s : State) : (postTerminalCount b s).pending = s.pending := by
  unfold postTerminalCount
  repeat' split
  all_goals simp

end Sys2Proof.Machine
end

