-- ==== Sys2Proof/Laws/Updates.lean ====
section
/-! SUPPORT. How the shared updates combine: a change that keeps a record's drive leaves the counters, two
changes of one record are one change, a posting leaves the counters; and what each remove leaves (R29). -/

namespace Sys2Proof.Machine

/-! ### Records -/

/-- No change of drive changes no counter (R132). -/
@[simp] theorem driveUpdate_self (d : Option PollPoint) (c : Counters) : driveUpdate d d c = c := if_pos rfl

/-- A change that keeps the drive leaves the counters (R132). -/
theorem State.updRecord_counters_of_drive (s : State) (i : Slot) (f : Record → Record)
    (h : (f (s.record i)).drive = (s.record i).drive) : (s.updRecord i f).counters = s.counters := by
  unfold State.updRecord
  rw [State.setRecord_counters, h, driveUpdate_self]

/-- Two settings of one slot are the last, when the drive changes at one of them only. -/
theorem State.setRecord_setRecord (s : State) (i : Slot) (a b : Record)
    (h : a.drive = (s.record i).drive ∨ b.drive = a.drive) : (s.setRecord i a).setRecord i b = s.setRecord i b := by
  have h1 : (s.records.set i.val a i.isLt).set i.val b i.isLt = s.records.set i.val b i.isLt := Vector.set_set ..
  have h2 : driveUpdate ((s.setRecord i a).record i).drive b.drive (driveUpdate (s.record i).drive a.drive s.counters) =
      driveUpdate (s.record i).drive b.drive s.counters := by
    rw [State.record_setRecord, if_pos rfl]
    rcases h with h | h
    · rw [h, driveUpdate_self]
    · rw [h, driveUpdate_self]
  exact congrArg₂ (fun x y => ({ s with records := x, counters := y } : State)) h1 h2

/-- Two changes of one record are one, when the drive changes at one of them only. -/
theorem State.updRecord_updRecord (s : State) (i : Slot) (f g : Record → Record)
    (h : (f (s.record i)).drive = (s.record i).drive ∨ (g (f (s.record i))).drive = (f (s.record i)).drive) :
    (s.updRecord i f).updRecord i g = s.updRecord i fun r => g (f r) := by
  have hr : (s.updRecord i f).record i = f (s.record i) := by simp
  unfold State.updRecord at hr ⊢
  rw [hr, State.setRecord_setRecord s i _ _ h]

/-- The drive of a record that is not ACTIVE (R132). -/
theorem Record.drive_of_state {r : Record} (h : r.state ≠ .active) : r.drive = none := by
  unfold Record.drive
  split
  · rfl
  · rw [if_neg fun c => h c.1]

/-- A posting changes no counter (R169). -/
@[simp] theorem postRecord_counters (k : NoticeKind) (i : Slot) (s : State) :
    (postRecord k i s).counters = s.counters := by
  have h := s.updRecord_counters_of_drive i (fun r => { r with notices := r.notices ||| k.bit }) (by rfl)
  unfold postRecord
  split
  · rfl
  · dsimp only; split <;> exact h

/-! ### Removes -/

/-- The remove of a slot's entries (R29). -/
theorem mem_removeEntries_slot (i : Slot) (d : List Entry) (x : Entry) :
    x ∈ removeEntries (.slotEntries i) d ↔ x ∈ d ∧ x.owner ≠ .primary i ∧ x.owner ≠ .aliasOf i := by
  have key : ∀ o, (Designation.slotEntries i).takes o = false ↔ o ≠ .primary i ∧ o ≠ .aliasOf i := by
    intro o
    cases o with
    | primary j =>
      exact (beq_eq_false_iff_ne (a := i) (b := j)).trans
        ⟨fun h => ⟨fun c => h (Owner.primary.inj c).symm, nofun⟩, fun h c => h.1 (c ▸ rfl)⟩
    | aliasOf j =>
      exact (beq_eq_false_iff_ne (a := i) (b := j)).trans
        ⟨fun h => ⟨nofun, fun c => h (Owner.aliasOf.inj c).symm⟩, fun h c => h.2 (c ▸ rfl)⟩
    | management => exact ⟨fun _ => ⟨nofun, nofun⟩, fun _ => rfl⟩
  rw [mem_removeEntries, key]

/-- The remove of a slot's ALIAS entry (R29). -/
theorem mem_removeEntries_second (i : Slot) (d : List Entry) (x : Entry) :
    x ∈ removeEntries (.aliasEntry i) d ↔ x ∈ d ∧ x.owner ≠ .aliasOf i := by
  have key : ∀ o, (Designation.aliasEntry i).takes o = false ↔ o ≠ .aliasOf i := by
    intro o
    cases o with
    | primary j => exact ⟨fun _ => nofun, fun _ => rfl⟩
    | aliasOf j =>
      exact (beq_eq_false_iff_ne (a := i) (b := j)).trans
        ⟨fun h => fun c => h (Owner.aliasOf.inj c).symm, fun h c => h (c ▸ rfl)⟩
    | management => exact ⟨fun _ => nofun, fun _ => rfl⟩
  rw [mem_removeEntries, key]

/-- The remove of the MANAGEMENT entry (R29). -/
theorem mem_removeEntries_management (d : List Entry) (x : Entry) :
    x ∈ removeEntries .managementEntry d ↔ x ∈ d ∧ x.owner ≠ .management := by
  have key : ∀ o, Designation.managementEntry.takes o = false ↔ o ≠ .management := by
    intro o
    cases o with
    | primary j => exact ⟨fun _ => nofun, fun _ => rfl⟩
    | aliasOf j => exact ⟨fun _ => nofun, fun _ => rfl⟩
    | management => exact ⟨nofun, fun h => absurd rfl h⟩
  rw [mem_removeEntries, key]

end Sys2Proof.Machine
end

