-- ==== Sys2Proof/Tests/Slice0.lean ====
section
/-! SUPPORT. Small tests: the ill-formed terms that the check refuses, the codes of the tables, single commands on
small states, and for every statement with hypotheses concrete states that meet them, clause by clause. -/

namespace Sys2Proof.Tests

open Sys2Proof Sys2Proof.Machine Sys2Proof.Claims

/-! ### Well-formedness -/

theorem test_illformed_request_codes :
    WellFormed (.unknownRequestCode 0x0001#16) = false ∧ WellFormed (.unknownRequestCode 0xFF11#16) = false := by
  decide

theorem test_illformed_control_codes :
    WellFormed (.unassignedControlCode 0x0001#16) = false ∧ WellFormed (.unassignedControlCode 0x4206#16) = false := by
  decide

theorem test_illformed_link_codes :
    WellFormed (.unassignedLinkCode 0x0F#8) = false ∧ WellFormed (.unassignedLinkCode 0x2B#8) = false ∧
    WellFormed (.unassignedLinkCode 0x3C#8) = false ∧ WellFormed (.unassignedLinkCode 0x7F#8) = false := by decide

theorem test_illformed_register_writes :
    ∀ loc ∈ [0x01#5, 0x02#5, 0x0A#5, 0x0B#5, 0x0D#5, 0x15#5, 0x16#5], WellFormed (.registerWrite loc 0#16) = false := by
  decide

theorem test_wellformed_neighbours :
    WellFormed (.unknownRequestCode 0x0000#16) = true ∧ WellFormed (.unknownRequestCode 0x0012#16) = true ∧
    WellFormed (.unassignedControlCode 0x0000#16) = true ∧ WellFormed (.unassignedControlCode 0x0007#16) = true ∧
    WellFormed (.unassignedLinkCode 0x13#8) = true ∧ WellFormed (.unassignedLinkCode 0x3D#8) = true ∧
    WellFormed (.unassignedLinkCode 0x80#8) = true ∧ WellFormed (.registerWrite 0x05#5 0#16) = true := by decide

/-! ### Codes -/

theorem test_units_of_section_4_4 :
    decodeUnit 0x00#8 = .signal 0#4 ∧ decodeUnit 0x0F#8 = .signal 15#4 ∧ decodeUnit 0x10#8 = .nameSource ∧
    decodeUnit 0x11#8 = .nameSink ∧ decodeUnit 0x12#8 = .retag ∧ decodeUnit 0x13#8 = .unassigned ∧
    decodeUnit 0x18#8 = .dropSource ∧ decodeUnit 0x19#8 = .dropSinks ∧ decodeUnit 0x20#8 = .go ∧
    decodeUnit 0x21#8 = .query ∧ decodeUnit 0x28#8 = .groupPoll 0#2 ∧ decodeUnit 0x2B#8 = .groupPoll 3#2 ∧
    decodeUnit 0x2C#8 = .unassigned ∧ decodeUnit 0x3C#8 = .releasePoll ∧ decodeUnit 0x80#8 = .unassigned := by
  decide

theorem test_assign_poll_5B :
    decodeUnit 0x5B#8 = .assignPoll { group := 1#2, line := 3#3, polarity := .inverted } ∧
    (PollAssignment.toByte { group := 1#2, line := 3#3, polarity := .inverted } = 0x5B#8) := by decide

theorem test_request_codes :
    decodeRequest 0x01#8 = some .create ∧ decodeRequest 0x0E#8 = some .confirm ∧
    decodeRequest 0x11#8 = some .setOptions ∧ decodeRequest 0x12#8 = none ∧ decodeRequest 0x00#8 = none := by decide

theorem test_locations :
    decodeLocation 0x00#5 = .status ∧ decodeLocation 0x08#5 = .param 3 ∧ decodeLocation 0x0D#5 = .config ∧
    decodeLocation 0x1A#5 = .outcount ∧ decodeLocation 0x1B#5 = .unassigned ∧ decodeLocation 0x1F#5 = .unassigned := by
  decide

/-! ### Small states -/

/-- An ACTIVE record at generation 5, with two tags and no options. -/
def station : Record :=
  { Record.cleared 5#8 with state := .active, primaryTag := 0x1234#16, aliasTag := some 0x2345#16, status := 0x5A#8 }

/-- The record's handle in slot 3: the word 0503H. -/
def handle3 : Handle := { slot := 3, gen := 5#8 }

/-- The part right after reset with one record in slot 3 and the parameters given. -/
def partWith (r : Record) (p0 p1 p2 p3 : Word) : State :=
  { State.reset with records := State.reset.records.set 3 r, port.params := #v[p0, p1, p2, p3] }

/-- The same part with PARAM0 naming the record. -/
def named (r : Record) (p1 : Word) : State := partWith r 0x0503#16 p1 0#16 0#16

/-- The part ONLINE with one record in slot 3. -/
def online (r : Record) : State := { partWith r 0#16 0#16 0#16 0#16 with link.online := true }

/-- The part ONLINE with the record as its source. -/
def sourced (r : Record) : State := { online r with link.source := .record handle3 }

/-- The part ONLINE with the record as its one sink. -/
def sinked (r : Record) : State := { online r with link.sinks := [handle3] }

/-- The part in DATA phase. -/
def inData (s : State) : State := { s with link.phase := .data }

/-- An inbound session with no end character. -/
def plainSession : InboundSession := { lead := handle3, mode := .none, endChar := none }

/-- The part in DATA phase with an open inbound session and the entries given. -/
def receiving (es : List InEntry) : State :=
  { inData (sinked station) with data.session := some plainSession, data.inFifo := es }

/-- An inbound entry. -/
def someEntry : InEntry := { value := 0x41#8, byLine := false, byChar := false }

/-- A held data unit. -/
def heldFor (c : HoldCause) : Held := { unit := dataUnit 0x42#8 false, cause := c }

/-- A projection of the next state of a command. -/
def after {α : Type} (c : Instr) (s : State) (f : State → α) : Option α :=
  match exec c s with
  | .next t => some (f t)
  | .fault _ => none
  | .refused _ => none

/-! ### Single commands -/

theorem test_create_takes_slot_0 :
    after .create (partWith station 0x0777#16 0#16 0#16 0#16)
      (fun t => (t.freeList.head?, (t.record 0).state, (t.record 0).primaryTag, t.request.isSome)) =
    some (some 1, .pending, 0x0777#16, true) := by decide

theorem test_call_joins_queue :
    after .call (named station 0x0033#16)
      (fun t => (t.calls.queue, (t.record 3).call, (t.record 3).status, t.port.resultValue)) =
    some ([handle3], .calling, 0x33#8, 0x0503#16) := by decide

theorem test_signal_reaches_sink :
    after (.signal 2#4) (sinked station) (fun t => ((t.record 3).signals, (t.record 3).notices, t.notice.attention)) =
    some (0x0004#16, 0x10#8, [handle3]) := by decide

theorem test_go_opens_session :
    after .go (sinked station) (fun t => (t.link.phase, t.data.session.map InboundSession.lead, t.notice.devnotice)) =
    some (.data, some handle3, 0x0040#13) := by decide

theorem test_inbound_unit_with_end :
    after (.inboundUnitOffer 0x7E#8 true) (receiving [])
      (fun t => (t.data.inFifo, t.link.phase, t.data.session, t.notice.devnotice)) =
    some ([{ value := 0x7E#8, byLine := true, byChar := false }], .command, none, 0x0120#13) := by decide

theorem test_stale_handle :
    after .setStatus (partWith station 0x0603#16 0#16 0#16 0#16) (fun t => (t.port.result, t.port.resultValue)) =
    some (0x0006#16, 0xFFFF#16) := by decide

theorem test_attention_read :
    after .attentionRead
      { named { station with notices := 0x11#8, signals := 0x0004#16 } 0#16 with notice.attention := [handle3] }
      (fun t => (t.port.readData, t.notice.attnKinds, t.notice.attnSignals, t.notice.attention)) =
    some (0x0503#16, 0x11#8, 0x0004#16, []) := by decide

theorem test_status_byte_of_answer :
    after (.statusUnitOffer true) { inData (sourced station) with calls.answer := .status handle3 .status }
      (fun t => t.link.offered.map Offered.value) = some (some 0x5A#8) := by decide

/-! ### Witnesses: steps, reset, shared operations -/

theorem witness_StepRunsFrontCommand :
    ({ State.reset with pending := [.online, .arm] } : State).pending = .online :: [.arm] := rfl

theorem witness_EmptyQueueIdles : State.reset.pending = [] := rfl

theorem witness_ResetReachesEveryBlock : (online station).port.resetHeld = false ∧ 16 ≤ 16 ∧ 15 < 16 := by decide

theorem witness_PartHeldInResetWhileAsserted :
    (resetPart true (online station)).port.resetHeld = true ∧ (resetPart true (online station)).HeldInReset ∧
    exec (.resetInput 16) (online station) = .next (resetPart true (online station)) ∧
    (let s : State := { resetPart true (online station) with pending := [.resetRelease] }
    s.HeldInReset ∧ step s = .next (resetPart false (online station))) :=
  ⟨rfl, rfl, rfl, rfl, rfl⟩

theorem witness_StaleHandleWords :
    (named station 0#16).slotOf 0x0503#16 = some 3 ∧ (named station 0#16).slotOf 0x0603#16 = none ∧
    (named station 0#16).slotOf 0x00BF#16 = none ∧ (named station 0#16).slotOf 0x00C0#16 = none := by decide

/-- An assignment to group 1, line 3. -/
def someLine : PollAssignment := { group := 1#2, line := 3#3, polarity := .normal }

theorem witness_DriveUpdateFollowsTable :
    ({ station with poll := some someLine, hostFlag := true } : Record).drive = some 0x0B#5 ∧
    ({ station with poll := some { someLine with polarity := .inverted } } : Record).drive = some 0x0B#5 ∧
    ({ station with poll := some someLine } : Record).drive = none ∧ (2 : Slot) ≠ 3 := by decide

theorem witness_PostingRecordNotice :
    (∃ k : NoticeKind, ({ named station 0#16 with notice.noticeMask := 0#8 } : State).notice.noticeMask &&& k.bit = 0#8) ∧
    ¬InService State.reset 3 ∧
    ((named station 0#16).notice.noticeMask &&& NoticeKind.signalled.bit ≠ 0#8 ∧ InService (named station 0#16) 3) ∧
    ((named station 0#16).record 3).notices = 0#8 := by
  refine ⟨⟨.signalled, by decide⟩, ?_, ⟨by decide, ?_⟩, by decide⟩ <;> unfold InService <;> decide

/-- A directory of three entries. -/
def threeEntries : List Entry :=
  [{ tag := 1#16, owner := .primary 0 }, { tag := 5#16, owner := .aliasOf 0 }, { tag := 9#16, owner := .management }]

/-- A full directory: 256 entries in order of tag. -/
def fullDirectory : List Entry := (List.range 256).map fun n => { tag := BitVec.ofNat 16 (n + 1), owner := .primary 0 }

theorem witness_DirectoryOperationsOnOrderedDirectory :
    threeEntries.Pairwise (fun a b => a.tag < b.tag) ∧
    (let es : List Entry := [{ tag := 5#16, owner := .management }]
    es.Pairwise (fun a b => a.tag ≠ b.tag) ∧ ∃ e ∈ es, ∃ x ∈ threeEntries, x.tag = e.tag) ∧
    (let es : List Entry := [{ tag := 6#16, owner := .primary 7 }, { tag := 2#16, owner := .aliasOf 7 }]
    es.Pairwise (fun a b => a.tag ≠ b.tag) ∧ (∀ e ∈ es, ∀ x ∈ threeEntries, x.tag ≠ e.tag) ∧
      threeEntries.length + es.length ≤ 256) ∧
    (∃ x ∈ threeEntries, x.tag = 9#16) ∧ (∀ x ∈ threeEntries, x.tag ≠ 7#16) ∧
    threeEntries.countP (fun x => x.owner = .aliasOf 0) = 1 := by decide

theorem witness_full_directory :
    fullDirectory.Pairwise (fun a b => a.tag < b.tag) ∧
    (∀ e ∈ [({ tag := 0x0700#16, owner := .primary 7 } : Entry)], ∀ x ∈ fullDirectory, x.tag ≠ e.tag) ∧
    256 < fullDirectory.length + [({ tag := 0x0700#16, owner := .primary 7 } : Entry)].length := by
  refine ⟨?_, ?_, ?_⟩
  · refine List.pairwise_map.mpr ((List.pairwise_lt_range (n := 256)).imp_of_mem fun {a b} ha hb h => ?_)
    rw [List.mem_range] at ha hb
    show (BitVec.ofNat 16 (a + 1)).toNat < (BitVec.ofNat 16 (b + 1)).toNat
    simp only [BitVec.toNat_ofNat]
    omega
  · intro e he x hx
    obtain rfl := List.mem_singleton.mp he
    obtain ⟨n, hn, rfl⟩ := List.mem_map.mp hx
    rw [List.mem_range] at hn
    intro h
    have := congrArg BitVec.toNat h
    simp only [BitVec.toNat_ofNat] at this
    omega
  · simp [fullDirectory]

/-- A lookup in flight for the link. -/
def lookingUp (role : Role) (discarded : Bool) : Option Flight := some (.link (.lookup role 0x1234#16) discarded)

theorem witness_ClaimsAreTakenInOrder :
    State.reset.engine.flight = none ∧
    ({ State.reset with engine.flight := lookingUp .source false } : State).engine.flight ≠ none ∧
    (let e : Engine := { flight := none, linkClaim := some (.lookup .sink 1#16), requestClaim := some (.lookup 1#16) }
    e.linkClaim = some (.lookup .sink 1#16)) ∧
    (let e : Engine := { flight := none, linkClaim := none, requestClaim := some (.lookup 1#16) }
    e.linkClaim = none ∧ e.requestClaim = some (.lookup 1#16)) ∧
    State.reset.engine.linkClaim = none ∧ State.reset.engine.requestClaim = none ∧ State.reset.port.stretched = none ∧
    ({ State.reset with port.stretched := some { winsel := 0x0200#16, winfield := 0#8 } } : State).port.stretched =
      some { winsel := 0x0200#16, winfield := 0#8 } := by decide

/-! ### Witnesses: requests -/

/-- The part with a FIND in flight. -/
def finding : State :=
  { named station 0#16 with
    request := some { kind := .find, params := #v[0x1234#16, 0#16, 0#16, 0#16] }
    engine.flight := some (.request (.lookup 0x1234#16)) }

theorem witness_RequestWhileBusyIsRefused : finding.port.resetHeld = false ∧ finding.request ≠ none := by decide

theorem witness_UnknownRequestCodeEndsAtOnce :
    Ready State.reset ∧ WellFormed (.unknownRequestCode 0x0012#16) = true := ⟨⟨rfl, rfl⟩, by decide⟩

theorem witness_StaleHandleEndsRequest :
    Instr.retag ∈ handleRequests ∧ Ready (partWith station 0x0603#16 0#16 0#16 0#16) ∧
    (partWith station 0x0603#16 0#16 0#16 0#16).slotOf ((partWith station 0x0603#16 0#16 0#16 0#16).param 0) = none :=
  ⟨by decide, ⟨rfl, rfl⟩, by decide⟩

/-- A RETIRING record. -/
def leaving : Record := { station with state := .retiring }

theorem named_ready (r : Record) (p : Word) : Ready (named r p) := ⟨rfl, rfl⟩

theorem named_slot_station : (named station 0#16).slotOf ((named station 0#16).param 0) = some 3 := by decide

theorem named_slot_leaving : (named leaving 0#16).slotOf ((named leaving 0#16).param 0) = some 3 := by decide

/-- The first checks after the handle, each failed by a RETIRING record. -/
theorem witness_wrong_states :
    TurnedAway (named leaving 0#16) 3 .retag .wrongState ∧ TurnedAway (named leaving 0#16) 3 .setAlias .wrongState ∧
    TurnedAway (named leaving 0#16) 3 .clearAlias .wrongState ∧ TurnedAway (named leaving 0#16) 3 .suspend .wrongState ∧
    TurnedAway (named leaving 0#16) 3 .resume .wrongState ∧ TurnedAway (named leaving 0#16) 3 .setOptions .wrongState ∧
    TurnedAway (named leaving 0#16) 3 .setStatus .wrongState ∧ TurnedAway (named leaving 0#16) 3 .call .wrongState ∧
    TurnedAway (named leaving 0#16) 3 .withdraw .wrongState ∧ TurnedAway (named leaving 0#16) 3 .setPoll .wrongState ∧
    TurnedAway (named leaving 0#16) 3 .clearPoll .wrongState ∧ TurnedAway (named leaving 0#16) 3 .setFlag .wrongState := by
  have h : ¬InService (named leaving 0#16) 3 := by unfold InService; decide
  exact ⟨.retagState h, .setAliasState h, .clearAliasState h, .suspendState (by decide), .resumeState (by decide),
    .setOptionsState h, .setStatusState h, .callState (by decide), .withdrawQuiet (by decide), .setPollState h,
    .clearPollState h, .setFlagState h⟩

/-- The later checks, each at the edge of its range. -/
theorem witness_later_checks :
    TurnedAway (named station 0#16) 3 .retag .badRequest ∧ TurnedAway (named station 0x2345#16) 3 .retag .badRequest ∧
    TurnedAway (named station 0#16) 3 .setAlias .badRequest ∧
    TurnedAway (named { station with aliasTag := none } 0#16) 3 .clearAlias .wrongState ∧
    TurnedAway (named station 0x0080#16) 3 .setOptions .badRequest ∧
    TurnedAway (named station 4#16) 3 .setPoll .badRequest ∧ TurnedAway (named station 0#16) 3 .clearPoll .wrongState ∧
    TurnedAway (named station 2#16) 3 .setFlag .badRequest ∧
    TurnedAway (named { station with options := 0x08#7 } 1#16) 3 .setFlag .wrongState ∧
    TurnedAway (named station 2#16) 3 .confirm .badRequest ∧ TurnedAway (named station 1#16) 3 .confirm .late := by
  have h : ∀ p, InService (named station p) 3 := fun p => Or.inl rfl
  refine ⟨.retagTag (h _) (by decide), .retagTag (h _) (by decide), .setAliasTag (h _) (by decide),
    .clearAliasNone (Or.inl (by decide)) (by decide), .setOptionsRange (h _) (by decide),
    .setPollRange (h _) (by decide), .clearPollNone (h _) (by decide), .setFlagRange (h _) (by decide),
    .setFlagFromCall (Or.inl (by decide)) (by decide) (by decide), .confirmRange (by decide),
    .confirmLate (by decide) fun c e => (by cases e)⟩

theorem witness_named_checks :
    (let s : State := { named station 0#16 with link.source := .record handle3 }
    Ready s ∧ s.slotOf (s.param 0) = some 3 ∧ TurnedAway s 3 .retire .named ∧ TurnedAway s 3 .suspend .named) ∧
    (let s : State := { named station 0#16 with link.sinks := [handle3] }
    TurnedAway s 3 .retire .named) ∧
    (let s : State :=
      { named station 0#16 with link.confirm := some { handle := handle3, role := .sink, timer := 1#8 } }
    TurnedAway s 3 .retire .named) :=
  ⟨⟨⟨rfl, rfl⟩, by decide, .retireNamed (by decide) (Or.inl (by decide)),
      .suspendNamed (by decide) (by decide) (Or.inl (by decide))⟩,
    .retireNamed (by decide) (Or.inr (Or.inl (by decide))),
    .retireNamed (by decide) (Or.inr (Or.inr ⟨_, rfl, by decide⟩))⟩

theorem witness_AcceptanceChecksEndRequests :
    CreateOutOfRange (partWith station 0#16 0#16 0#16 0#16) ∧ CreateOutOfRange (partWith station 7#16 7#16 0#16 0#16) ∧
    CreateOutOfRange (partWith station 7#16 0#16 0x0080#16 0#16) ∧
    CreateOutOfRange (partWith station 7#16 0#16 0#16 0x3F00#16) ∧
    CreateOutOfRange (partWith station 7#16 0#16 0#16 0x8000#16) ∧
    (¬CreateOutOfRange (partWith station 7#16 0#16 0#16 0x4000#16) ∧
      ({ partWith station 7#16 0#16 0#16 0x4000#16 with freeList := [] } : State).freeList = []) ∧
    (partWith station 0#16 0#16 0#16 0#16).param 0 = 0#16 ∧
    (let s : State :=
      { partWith station 0#16 0#16 0#16 0#16 with managementTag := some 9#16, link.source := .management }
    tagIn (s.param 0) ≠ s.managementTag ∧ s.link.source = .management) := by
  unfold CreateOutOfRange
  decide

theorem witness_CreateTakesHeadSlot :
    (let s : State := { partWith station 0x0777#16 0#16 0#16 0x7F00#16 with freeList := [191, 0] }
    Ready s ∧ ¬CreateOutOfRange s ∧ s.freeList = 191 :: [0]) :=
  ⟨⟨rfl, rfl⟩, by unfold CreateOutOfRange; decide, rfl⟩

/-- A RETIRE that may detach is not turned away. -/
theorem not_turnedAway_retire {s : State} {i : Slot} (h : s.param 1 ≠ 0#16) (r : ResultCode) :
    ¬TurnedAway s i .retire r
  | .retireNamed e _ => h e

/-- A SUSPEND of an ACTIVE record that may detach is not turned away. -/
theorem not_turnedAway_suspend {s : State} {i : Slot} (hs : (s.record i).state = .active) (h : s.param 1 ≠ 0#16)
    (r : ResultCode) : ¬TurnedAway s i .suspend r
  | .suspendState e => e hs
  | .suspendNamed _ e _ => h e

/-- A RETAG in service to a tag that is neither null nor the alias is not turned away. -/
theorem not_turnedAway_retag {s : State} {i : Slot} (hs : InService s i)
    (h : ¬(s.param 1 = 0#16 ∨ (s.record i).aliasTag = some (s.param 1))) (r : ResultCode) : ¬TurnedAway s i .retag r
  | .retagState e => e hs
  | .retagTag _ e => h e

theorem witness_RetireAndSuspendDetach :
    (∀ r, ¬TurnedAway (named station 1#16) 3 .retire r) ∧ (∀ r, ¬TurnedAway (named station 1#16) 3 .suspend r) ∧
    Ready (named station 1#16) ∧ (named station 1#16).slotOf ((named station 1#16).param 0) = some 3 :=
  ⟨not_turnedAway_retire (by decide), not_turnedAway_suspend (by decide) (by decide), ⟨rfl, rfl⟩, by decide⟩

theorem witness_ResumeAndSetOptionsChangeRecord :
    ((named { station with state := .suspended } 0#16).record 3).state = .suspended ∧
    (named { station with state := .suspended } 0#16).slotOf 0x0503#16 = some 3 ∧
    (named station 0x417F#16).slotOf ((named station 0x417F#16).param 0) = some 3 ∧ InService (named station 0x417F#16) 3 ∧
    ((named station 0x417F#16).param 1).getLsbD 7 = false :=
  ⟨by decide, by decide, by decide, Or.inl (by decide), by decide⟩

theorem witness_TagRequestsClaimTheirOperation :
    (∀ r, ¬TurnedAway (named station 0x1234#16) 3 .retag r) ∧ (∀ r, ¬TurnedAway (named station 0x3456#16) 3 .retag r) ∧
    InService (named station 0x1234#16) 3 ∧
    (named station 0x1234#16).param 1 = ((named station 0x1234#16).record 3).primaryTag ∧
    (named station 0x3456#16).param 1 ≠ ((named station 0x3456#16).record 3).primaryTag ∧
    ((named station 0x2345#16).record 3).aliasTag = some ((named station 0x2345#16).param 1) ∧
    ((named { station with aliasTag := none } 0x3456#16).record 3).aliasTag = none ∧
    (((named station 0x3456#16).record 3).aliasTag = some 0x2345#16 ∧ 0x2345#16 ≠ (named station 0x3456#16).param 1) := by
  exact ⟨not_turnedAway_retag (Or.inl (by decide)) (by decide), not_turnedAway_retag (Or.inl (by decide)) (by decide),
    Or.inl (by decide), by decide⟩

theorem witness_FindAndManagementTagClaims :
    (let s := partWith station 7#16 0#16 0#16 0#16
    Ready s ∧ s.param 0 ≠ 0#16 ∧ s.link.source ≠ .management ∧ s.managementTag = none) ∧
    (let s : State := { partWith station 7#16 0#16 0#16 0#16 with managementTag := some 7#16 }
    tagIn (s.param 0) = s.managementTag) ∧
    (let s : State := { partWith station 7#16 0#16 0#16 0#16 with managementTag := some 8#16 }
    s.managementTag = some 8#16 ∧ s.param 0 ≠ 0#16 ∧ s.param 0 ≠ 8#16) ∧
    (let s : State := { partWith station 0#16 0#16 0#16 0#16 with managementTag := some 8#16 }
    s.managementTag ≠ none ∧ s.param 0 = 0#16) :=
  ⟨⟨⟨rfl, rfl⟩, by decide⟩, by decide, by decide, by decide⟩

theorem witness_StatusCallWithdraw :
    ((named station 0#16).record 3).state = .active ∧ ((named station 0#16).record 3).call = .quiet ∧
    ((named { station with call := .calling } 0#16).record 3).call = .calling ∧
    (named { station with call := .calling } 0#16).slotOf 0x0503#16 = some 3 := by decide

theorem witness_SetPollAndSetFlag :
    (let s := partWith station 0x0503#16 3#16 7#16 1#16
    Ready s ∧ InService s 3 ∧ s.slotOf (s.param 0) = some 3 ∧ s.param 1 = (3#2).setWidth 16 ∧
      s.param 2 = (7#3).setWidth 16 ∧ s.param 3 = 1#16) ∧
    (let s := named station 1#16
    s.param 1 = (if true then 1#16 else 0#16) ∧ (s.record 3).options.getLsbD 3 = false) :=
  ⟨⟨⟨rfl, rfl⟩, Or.inl (by decide), by decide⟩, by decide⟩

theorem witness_ClearPollRemovesAssignment :
    (let s := named { station with poll := some someLine } 0#16
    Ready s ∧ s.slotOf (s.param 0) = some 3 ∧ InService s 3 ∧ (s.record 3).poll ≠ none) ∧
    (partWith station 0x0003#16 0#16 0#16 0#16).slotOf ((partWith station 0x0003#16 0#16 0#16 0#16).param 0) = none ∧
    ¬InService (named leaving 0#16) 3 ∧ ((named station 0#16).record 3).poll = none :=
  ⟨⟨⟨rfl, rfl⟩, by decide, Or.inl (by decide), by decide⟩, by decide, by unfold InService; decide, by decide⟩

/-- The part with a confirm pending for the record, its TAG-LO held. -/
def confirming (role : Role) (timer : Byte) (decision : Word) : State :=
  { named station decision with
    link.confirm := some { handle := handle3, role := role, timer := timer }
    link.held := some { unit := controlUnit 0x34#8, cause := .confirm } }

theorem witness_ConfirmAcceptAppliesNaming :
    ∀ role, Ready (confirming role 20#8 1#16) ∧
      (confirming role 20#8 1#16).slotOf ((confirming role 20#8 1#16).param 0) = some 3 ∧
      (confirming role 20#8 1#16).link.confirm = some { handle := handle3, role := role, timer := 20#8 } ∧
      handle3 = (confirming role 20#8 1#16).handleOf 3 ∧ (confirming role 20#8 1#16).param 1 = 1#16 :=
  fun role => ⟨⟨rfl, rfl⟩, by cases role <;> decide, rfl, by cases role <;> decide, by cases role <;> decide⟩

theorem witness_ConfirmRefusalAndExpiryReject :
    (confirming .sink 1#8 0#16).param 1 = 0#16 ∧
    (confirming .sink 1#8 0#16).link.confirm = some { handle := handle3, role := .sink, timer := 1#8 } ∧ 1#8 ≠ 0#8 ∧
    State.reset.link.confirm = none ∧
    (confirming .sink 0#8 0#16).link.confirm = some { handle := handle3, role := .sink, timer := 0#8 } := by decide

/-! ### Witnesses: CONTROL commands and the port -/

theorem witness_OnlineAndOffline :
    State.reset.port.resetHeld = false ∧ State.reset.link.online = false ∧ (online station).link.online = true ∧
    (online station).port.resetHeld = false := by decide

theorem witness_ArmResumeAndFlush :
    (receiving []).data.paused = false ∧
    (let s : State := { receiving [] with data.paused := true }
    s.data.paused = true ∧ s.link.held = none) ∧
    (let s : State := { receiving (List.replicate 31 someEntry) with data.paused := true, link.held := some (heldFor .pause) }
    s.link.held = some (heldFor .pause) ∧ s.data.session = some plainSession ∧ s.data.inFifo.length < 32 ∧
      s.data.inFifo ≠ [] ∧ s.link.offered = none) ∧
    (let s : State := { receiving (List.replicate 32 someEntry) with data.paused := true, link.held := some (heldFor .pause) }
    32 ≤ s.data.inFifo.length ∧ s.data.paused = true) ∧
    (let s : State := { receiving (List.replicate 32 someEntry) with link.held := some (heldFor .room) }
    s.data.inFifo ≠ [] ∧ s.data.session = some plainSession ∧ s.data.paused = false ∧ s.link.offered = none) ∧
    (let s : State := { sinked station with data.inFifo := [someEntry], link.held := some (heldFor .drain) }
    s.data.inFifo ≠ [] ∧ (heldFor .drain).cause = .drain) ∧
    WellFormed (.unassignedControlCode 0x0007#16) = true := by decide

/-- The holds of a tag unit, and a pause that ends or stays with one of them or with a GO held. -/
theorem witness_holds_that_stay :
    HeldForNaming (heldFor .lookup).cause ∧ HeldForNaming (heldFor .confirm).cause ∧
    HeldForNaming (heldFor .replace).cause ∧
    ∀ c,
      (let s : State := { receiving [someEntry] with data.paused := true, link.held := some (heldFor c) }
      s.data.paused = true ∧ s.link.held = some (heldFor c) ∧ s.data.inFifo = someEntry :: [] ∧
        s.port.resetHeld = false) :=
  ⟨.inl rfl, .inr (.inl rfl), .inr (.inr rfl), fun _ => ⟨rfl, rfl, rfl, rfl⟩⟩

/-- The part's own unit, held by the part itself for room or pause, with and without another receiver (R161). -/
def selfHeld (c : HoldCause) (otherHold : Bool) : State :=
  { receiving (List.replicate 32 someEntry) with
    link.source := .record handle3
    link.offered := some { kind := .outbound true, value := 0x42#8, endFlag := false, otherHold := otherHold }
    link.held := some (heldFor c)
    data.paused := c == .pause
    data.outFifo := [{ value := 0x42#8, endMark := false }] }

/-- The read that makes room takes the part's own unit on the link at once when nobody else holds it (R161). -/
theorem test_own_unit_held_for_room :
    after .indataRead (selfHeld .room false) (fun t => (t.data.inFifo.length, t.data.outFifo, t.link.offered, t.link.held)) =
      some (32, [], none, none) := by decide

theorem witness_own_units_held :
    ∀ b, ((selfHeld .room b).link.held = some (heldFor .room) ∧ (selfHeld .room b).data.session = some plainSession ∧
        (selfHeld .room b).data.paused = false ∧
        (selfHeld .room b).data.inFifo = someEntry :: List.replicate 31 someEntry ∧
        (selfHeld .room b).link.offered = some (ownUnit (.outbound true) 0x42#8 false b)) ∧
      (selfHeld .pause b).link.held = some (heldFor .pause) ∧ (selfHeld .pause b).data.paused = true ∧
        32 ≤ (selfHeld .pause b).data.inFifo.length := by decide

theorem witness_AttentionAndDevnoticeReads :
    ({ named station 0#16 with notice.attention := [handle3] } : State).notice.attention = handle3 :: [] ∧
    State.reset.notice.attention = [] ∧ State.reset.port.resetHeld = false := by decide

theorem witness_InboundEntriesAreTaken :
    (receiving []).data.inFifo = [] ∧ (receiving [someEntry]).data.inFifo = someEntry :: [] ∧
    (receiving [someEntry]).link.held = none ∧
    (let s : State := { receiving (List.replicate 32 someEntry) with link.held := some (heldFor .room) }
    s.data.inFifo = someEntry :: List.replicate 31 someEntry ∧ s.data.session = some plainSession ∧
      s.data.paused = false ∧ s.link.offered = none ∧ (List.replicate 31 someEntry).length < 32) ∧
    (let s : State := { receiving [someEntry] with data.paused := true, link.held := some (heldFor .pause) }
    s.data.inFifo = someEntry :: [] ∧ s.link.held = some (heldFor .pause) ∧ s.data.paused = true) ∧
    (let s : State := { sinked station with data.inFifo := [someEntry], link.held := some (heldFor .drain) }
    s.data.inFifo = someEntry :: [] ∧ s.link.held = some (heldFor .drain)) ∧
    (let s : State := { sinked station with data.inFifo := [someEntry, someEntry], link.held := some (heldFor .drain) }
    s.data.inFifo = someEntry :: [someEntry] ∧ [someEntry] ≠ []) := by decide

/-- An outbound entry. -/
def outEntry : OutEntry := { value := 0x61#8, endMark := false }

theorem witness_OutboundEntriesAreWritten :
    (let s : State := { sourced station with data.outFifo := List.replicate 31 outEntry }
    s.link.source = .record handle3 ∧ s.data.outFifo.length < 32) ∧
    (∀ h, (online station).link.source ≠ .record h) ∧
    32 ≤ ({ sourced station with data.outFifo := List.replicate 32 outEntry } : State).data.outFifo.length :=
  ⟨by decide, fun h e => (by cases e), by decide⟩

theorem witness_WindataReadWaitsForTheEngine :
    (let s : State :=
      { State.reset with
        engine.flight := lookingUp .source false
        port.select := { winsel := 0x0103#16, winfield := 3#8 } }
    s.port.select.waits = true ∧ s.engine.flight ≠ none) ∧
    (let s : State := { State.reset with port.select := { winsel := 0x0103#16, winfield := 5#8 } }
    s.port.select.waits = false) ∧
    State.reset.engine.flight = none ∧ 0x04#8 ≤ hiByte 0x0400#16 := by decide

theorem witness_RegisterWritesStore :
    State.reset.port.resetHeld = false ∧ 250#8 < loByte 0x00FB#16 ∧ ¬250#8 < loByte 0x00FA#16 := by decide

/-! ### Witnesses: units of the link -/

theorem online_decodes (r : Record) : Decodes (online r) := ⟨⟨rfl, rfl⟩, ⟨rfl, rfl, rfl, rfl⟩, rfl, rfl⟩

theorem witness_ControlUnitsTakenAtOnce :
    Decodes (sourced station) ∧ (sourced station).link.source = .record handle3 ∧ Decodes (sinked station) ∧
    (∀ h, (sinked station).link.source ≠ .record h) ∧ WellFormed (.unassignedLinkCode 0x13#8) = true :=
  ⟨⟨⟨rfl, rfl⟩, ⟨rfl, rfl, rfl, rfl⟩, rfl, rfl⟩, rfl, ⟨⟨rfl, rfl⟩, ⟨rfl, rfl, rfl, rfl⟩, rfl, rfl⟩,
    fun h e => (by cases e), by decide⟩

/-- The part in a control sequence. -/
def inSequence (s : State) (x : Sequence) : State := { s with link.sequence := x }

theorem witness_ControlSequencesAdvance :
    ∀ x, Unoccupied (inSequence (sourced station) x) ∧ Attends (inSequence (sourced station) x) ∧
      (inSequence (sourced station) x).link.phase = .command ∧ (inSequence (sourced station) x).link.sequence = x :=
  fun _ => ⟨⟨rfl, rfl⟩, ⟨rfl, rfl, rfl, rfl⟩, rfl, rfl⟩

/-- Every row of R110 has a state that it applies to. -/
theorem witness_retag_rows :
    (∃ u, RetagRow (online station) 7#16 u) ∧
    (∃ u, RetagRow { online station with link.source := .management } 7#16 u) ∧
    (∃ u, RetagRow (sourced station) 0x1234#16 u) ∧ (∃ u, RetagRow (sourced station) 7#16 u) ∧
    (∃ u, RetagRow (sourced { station with options := 0x02#7 }) 0x2345#16 u) ∧
    (∃ u, RetagRow (sourced { station with options := 0x02#7 }) 7#16 u) :=
  ⟨⟨_, .noSource rfl⟩, ⟨_, .management rfl⟩, ⟨_, .same handle3 rfl (by decide)⟩,
    ⟨_, .forbidden handle3 rfl (by decide) (by decide)⟩, ⟨_, .forbidden handle3 rfl (by decide) (by decide)⟩,
    ⟨_, .replace handle3 rfl (by decide) (by decide) (by decide) (by decide)⟩⟩

theorem witness_GoBeginsDataPhase :
    Decodes (sinked station) ∧ (sinked station).data.inFifo = [] ∧ (online station).link.sinks = [] ∧
    (let s : State := { sinked station with data.inFifo := [someEntry] }
    Decodes s ∧ s.link.sinks ≠ [] ∧ s.data.inFifo ≠ []) :=
  ⟨⟨⟨rfl, rfl⟩, ⟨rfl, rfl, rfl, rfl⟩, rfl, rfl⟩, rfl, rfl,
    ⟨⟨rfl, rfl⟩, ⟨rfl, rfl, rfl, rfl⟩, rfl, rfl⟩, by decide, by decide⟩

theorem witness_OffersOfOtherStations :
    offers (.tagHi 0x12#8) = some (controlUnit 0x12#8) ∧ offers (.inboundUnitOffer 0x12#8 true) = some (dataUnit 0x12#8 true) ∧
    ¬Unoccupied (confirming .sink 1#8 0#16) ∧ ¬Unoccupied (selfHeld .room true) ∧
    (Unoccupied (online station) ∧ Attends (online station) ∧ (online station).link.phase = .command) ∧
    (let s := inData (online station)
    Unoccupied s ∧ Attends s ∧ s.link.phase = .data ∧ s.data.session = none) ∧
    (Unoccupied State.reset ∧ ¬Attends State.reset ∧ State.reset.link.online = false) ∧
    (let s : State := { online station with lines.plq := true }
    Unoccupied s ∧ ¬Attends s ∧ s.link.online = true) ∧
    (¬Attends { online station with lines.stop := true } ∧ ¬Attends { online station with lines.clear := true }) := by
  unfold Unoccupied Attends; decide

/-- The part with an offer of another sender standing, ONLINE in a phase, with PLQ as given. -/
def facing (phase : Phase) (plq : Bool) (u : LinkUnit) (d : Standing) : State :=
  { online station with
    link.phase := phase, lines.plq := plq, lines.foreign := some { unit := u, standing := d } }

/-- A unit with END that the part attended to before PLQ and that is taken during it ends the phase, and the answer to
the poll starts; one that waits for the release of PLQ is not seen (R72, R82, R141). -/
theorem test_take_during_plq :
    (after (.dataUnitSeen 0x7E#8 true) (facing .data true (dataUnit 0x7E#8 true) .attended)
      (fun t => (t.link.phase, t.answersPoll)) = some (.command, true)) ∧
    (after (.dataUnitSeen 0x7E#8 true) (facing .data true (dataUnit 0x7E#8 true) .waiting)
      (fun t => (t.link.phase, t.answersPoll)) = some (.data, false)) := by decide

theorem witness_TakesOfOtherStations :
    takes (.controlUnitInDataPhase 0x20#8) = some (controlUnit 0x20#8) ∧
    takes (.dataUnitInCommandPhase 0x20#8 true) = some (dataUnit 0x20#8 true) ∧
    takes (.dataUnitSeen 0x20#8 true) = some (dataUnit 0x20#8 true) ∧
    (∀ phase plq u, Unoccupied (facing phase plq u .attended) ∧ (∃ t, TakeSeen (facing phase plq u .attended) u t) ∧
      (∃ t, TakeUnseen (facing phase plq u .waiting) u t) ∧ ∃ t, TakeUnseen (facing phase plq u .ignored) u t) ∧
    (∀ phase u, ∃ t, TakeSeen (facing phase false u .over) u t) ∧
    (∀ phase u, ∃ t, TakeUnseen (facing phase true u .over) u t) ∧
    (∃ t, TakeSeen (facing .data false (dataUnit 1#8 true) .attended) (dataUnit 2#8 true) t) ∧
    ∃ t, TakeUnseen State.reset (dataUnit 2#8 true) t := by
  refine ⟨rfl, rfl, rfl, fun _ _ _ => ⟨⟨rfl, rfl⟩, ⟨_, .attended ⟨rfl, by decide⟩⟩, ⟨_, .waiting ⟨rfl, by decide⟩⟩,
    _, .ignored ⟨rfl, by decide⟩⟩, fun _ _ => ⟨_, .atOnce ?_ ⟨rfl, rfl, rfl, rfl⟩⟩, fun _ _ => ⟨_, .atOnce ?_ ?_⟩,
    ⟨_, .atOnce ?_ ⟨rfl, rfl, rfl, rfl⟩⟩, _, .atOnce ?_ ?_⟩
  · rintro d ⟨e, h⟩; cases e; exact h rfl
  · rintro d ⟨e, h⟩; cases e; exact h rfl
  · rintro ⟨_, h, _⟩; cases h
  · rintro d ⟨e, -⟩; cases e
  · rintro d ⟨e, -⟩; cases e
  · rintro ⟨h, _⟩; cases h

theorem witness_InboundUnitsAreTaken :
    (let s := receiving (List.replicate 31 someEntry)
    Unoccupied s ∧ Attends s ∧ s.link.phase = .data ∧ s.data.session = some plainSession ∧ s.data.paused = false ∧
      s.data.inFifo.length < 32) ∧
    32 ≤ (receiving (List.replicate 32 someEntry)).data.inFifo.length ∧
    ({ receiving [] with data.paused := true } : State).data.paused = true ∧
    (let s : State := { receiving [] with link.held := some (heldFor .pause) }
    s.link.held = some (heldFor .pause) ∧ s.data.paused = false ∧ s.link.offered = none) ∧
    (∀ b, (let s : State := { selfHeld .room b with data.inFifo := [] }
    s.link.held = some (heldFor .room) ∧ s.link.offered = some (ownUnit (.outbound true) 0x42#8 false b) ∧
      s.data.session = some plainSession ∧ s.data.paused = false ∧ s.data.inFifo.length < 32)) :=
  ⟨⟨⟨rfl, rfl⟩, ⟨rfl, rfl, rfl, rfl⟩, rfl, rfl, rfl, by decide⟩, by decide, rfl, ⟨rfl, rfl, rfl⟩,
    fun _ => ⟨rfl, rfl, rfl, rfl, by show 0 < 32; decide⟩⟩

/-- A unit held for room, with the FIFO full and no pause in effect, and one held for pause during one. -/
theorem witness_ChannelsFit : ∀ b, (selfHeld .room b).ChannelsFit ∧ (selfHeld .pause b).ChannelsFit := by
  intro b
  refine ⟨⟨⟨fun _ => ⟨handle3, rfl⟩, fun _ => ⟨rfl, rfl⟩, fun h => (by cases h)⟩,
      ⟨fun h => (by cases h), fun _ => ⟨rfl, rfl, by show 32 ≤ (List.replicate 32 someEntry).length; decide⟩, fun h => (by cases h), fun h => (by cases h)⟩⟩,
    ⟨⟨fun _ => ⟨handle3, rfl⟩, fun _ => ⟨rfl, rfl⟩, fun _ => rfl⟩,
      ⟨fun h => (by cases h), fun h => (by cases h), fun _ => rfl, fun h => (by cases h)⟩⟩⟩

/-- The part sending its one outbound entry. -/
def sending : State := { inData (sourced station) with link.sending := true, data.outFifo := [outEntry] }

theorem sending_mayOffer : MayOffer sending := ⟨⟨rfl, rfl, rfl, rfl⟩, rfl, ⟨rfl, rfl⟩, rfl⟩

/-- The sending part with an inbound session open, with or without a pause. -/
def selfSending (es : List InEntry) (paused : Bool) : State :=
  { sending with data.session := some plainSession, data.inFifo := es, data.paused := paused }

theorem selfSending_mayOffer (es : List InEntry) (paused : Bool) : MayOffer (selfSending es paused) :=
  ⟨⟨rfl, rfl, rfl, rfl⟩, rfl, ⟨rfl, rfl⟩, rfl⟩

/-- Every way in which an offered unit goes on has a state, for a unit of every kind. -/
theorem witness_OwnOffered :
    ∀ o : Offered,
      (o.otherHold = true → ∃ u, OwnOffered sending o u) ∧ (o.otherHold = false → ∃ u, OwnOffered sending o u) ∧
      (∃ u, OwnOffered (selfSending (List.replicate 31 someEntry) false) o u) ∧
      (∃ u, OwnOffered (selfSending (List.replicate 32 someEntry) false) o u) ∧
      ∃ u, OwnOffered (selfSending [] true) o u :=
  fun _ => ⟨fun h => ⟨_, .stands rfl h⟩, fun h => ⟨_, .taken rfl h⟩, ⟨_, .delivered plainSession rfl rfl (by decide)⟩,
    ⟨_, .full plainSession rfl rfl (by decide)⟩, _, .paused plainSession rfl rfl⟩

theorem witness_OutboundUnitsAreOffered :
    sending.link.sending = true ∧ sending.link.source = .record handle3 ∧ sending.data.outFifo = outEntry :: [] ∧
    ∀ es b, (selfSending es b).link.sending = true ∧ (selfSending es b).link.source = .record handle3 ∧
      (selfSending es b).data.outFifo = outEntry :: [] := ⟨rfl, rfl, rfl, fun _ _ => ⟨rfl, rfl, rfl⟩⟩

/-- The part with a unit of its own on the link, held by another receiver. -/
def offering (kind : OfferKind) (e : Bool) : State :=
  { sending with link.offered := some { kind := kind, value := 0x61#8, endFlag := e, otherHold := true } }

theorem witness_OutboundUnitsAreTaken :
    (∀ b, (offering (.outbound b) true).link.offered =
        some { kind := .outbound b, value := 0x61#8, endFlag := true, otherHold := true } ∧
      (offering (.outbound b) true).link.held = none) ∧
    ({ offering (.outbound true) true with link.held := some (heldFor .room) } : State).link.held ≠ none :=
  ⟨fun _ => ⟨rfl, rfl⟩, by decide⟩

/-- The part with an answer in progress. -/
def answering (a : Answer) : State := { inData (sourced station) with calls.answer := a }

theorem answering_mayOffer (a : Answer) : MayOffer (answering a) :=
  ⟨⟨rfl, rfl, rfl, rfl⟩, rfl, ⟨rfl, rfl⟩, rfl⟩

theorem witness_StatusAnswerUnits :
    (∀ next, (answering (.status handle3 next)).data.session = none ∧
      (answering (.status handle3 next)).calls.answer = .status handle3 next) ∧
    (∀ next, (let s : State := { selfSending [] true with calls.answer := .status handle3 next }
      MayOffer s ∧ s.calls.answer = .status handle3 next ∧ s.data.session = some plainSession)) ∧
    (let s : State := { offering .status false with calls.answer := .status handle3 .status }
    s.link.offered = some { kind := .status, value := 0x61#8, endFlag := false, otherHold := true } ∧ s.link.held = none ∧
      ∃ next, s.calls.answer = .status handle3 next) ∧
    (let s : State := { offering .condition true with calls.answer := .status handle3 .condition }
    s.link.offered = some { kind := .condition, value := 0x61#8, endFlag := true, otherHold := true } ∧
      ∃ next, s.calls.answer = .status handle3 next) ∧
    (∀ kind e, (let s : State := { offering kind e with link.held := some (heldFor .room) }
      s.link.offered = some { kind := kind, value := 0x61#8, endFlag := e, otherHold := true } ∧ s.link.held ≠ none)) :=
  ⟨fun _ => ⟨rfl, rfl⟩, fun _ => ⟨⟨⟨rfl, rfl, rfl, rfl⟩, rfl, ⟨rfl, rfl⟩, rfl⟩, rfl, rfl⟩, ⟨rfl, rfl, _, rfl⟩,
    ⟨rfl, _, rfl⟩, fun _ _ => ⟨rfl, fun h => nomatch h⟩⟩

theorem witness_RosterAnswerUnits :
    MayOffer (answering (.roster [0x1234#16] 2)) ∧ (answering (.roster [0x1234#16] 2)).data.session = none ∧
    (rosterBytes [0x1234#16])[2]? = some 0x34#8 ∧ (rosterBytes [])[0]? = some 0x00#8 ∧
    (let s : State := { selfSending [] true with calls.answer := .roster [0x1234#16] 2 }
    MayOffer s ∧ s.data.session = some plainSession ∧ s.calls.answer = .roster [0x1234#16] 2) ∧
    (let s : State := { offering .roster true with calls.answer := .roster [] 0 }
    s.link.held = none ∧ s.calls.answer = .roster [] 0) :=
  ⟨answering_mayOffer _, rfl, by decide, by decide, ⟨⟨⟨rfl, rfl, rfl, rfl⟩, rfl, ⟨rfl, rfl⟩, rfl⟩, rfl, rfl⟩, rfl, rfl⟩

theorem witness_WithdrawalsAndReleases :
    State.reset.link.held = none ∧ (confirming .sink 1#8 0#16).link.held ≠ none ∧
    (∀ f, State.reset.lines.foreign = some f → f.standing ≠ .waiting) ∧
    (∀ f, (facing .command true (dataUnit 1#8 true) .attended).lines.foreign = some f → f.standing ≠ .waiting) ∧
    (let s : State := { facing .command true (dataUnit 1#8 true) .waiting with lines.stop := true }
    ¬Attends { s with lines.plq := false } ∧ ¬Attends { s with lines.stop := false }) ∧
    ¬Attends { State.reset with lines.plq := false } ∧
    (∀ u : LinkUnit,
      (let s := facing .command true u .waiting
      Unoccupied s ∧ s.link.reject = false ∧ s.lines.foreign = some { unit := u, standing := .waiting } ∧
        Attends { s with lines.plq := false }) ∧
      (let s : State := { facing .command false u .waiting with lines.stop := true }
      Attends { s with lines.stop := false }) ∧
      (let s : State := { facing .command false u .waiting with lines.clear := true }
      Attends { s with lines.clear := false })) := by
  refine ⟨rfl, by decide, fun f e => (by cases e), fun f e => ?_, ⟨?_, ?_⟩, ?_, fun _ =>
    ⟨⟨⟨rfl, rfl⟩, rfl, rfl, ⟨rfl, rfl, rfl, rfl⟩⟩, ⟨rfl, rfl, rfl, rfl⟩, ⟨rfl, rfl, rfl, rfl⟩⟩⟩
  · cases e; decide
  · rintro ⟨_, _, h, _⟩; cases h
  · rintro ⟨_, h, _⟩; cases h
  · rintro ⟨h, _⟩; cases h

theorem witness_StopAndClear : (receiving []).link.online = true ∧ State.reset.link.online = false := by decide

/-! ### Witnesses: completions -/

/-- The part with a lookup in flight for a held TAG-LO, and a directory that names the record and the management
station. -/
def resolving (r : Record) (role : Role) (tag : Word) : State :=
  { online r with
    directory :=
      [{ tag := 0x0009#16, owner := .management }, { tag := 0x1234#16, owner := .primary 3 },
       { tag := 0x2345#16, owner := .aliasOf 3 }]
    managementTag := some 0x0009#16
    engine.flight := some (.link (.lookup role tag) false)
    link.held := some { unit := controlUnit 0x34#8, cause := .lookup } }

/-- Every row of R96 has a state that it applies to. -/
theorem witness_NameSourceIsResolved :
    (∃ u, SourceRow (resolving station .source 7#16) (resolving station .source 7#16)
      (lookupTag 7#16 (resolving station .source 7#16).directory) u) ∧
    (∃ u, SourceRow (resolving leaving .source 0x1234#16) (resolving leaving .source 0x1234#16) (some (.primary 3)) u) ∧
    (∃ u, SourceRow (resolving station .source 9#16) (resolving station .source 9#16)
      (lookupTag 9#16 (resolving station .source 9#16).directory) u) ∧
    (∃ u, SourceRow (resolving { station with state := .suspended } .source 0x1234#16)
      (resolving { station with state := .suspended } .source 0x1234#16) (some (.primary 3)) u) ∧
    (∃ u, SourceRow (sourced station) (sourced station) (some (.aliasOf 3)) u) ∧
    (∃ u, SourceRow (resolving { station with options := 0x01#7 } .source 0x1234#16)
      (resolving { station with options := 0x01#7 } .source 0x1234#16) (some (.primary 3)) u) ∧
    (∃ u, SourceRow (resolving station .source 0x1234#16) (resolving station .source 0x1234#16)
      (lookupTag 0x1234#16 (resolving station .source 0x1234#16).directory) u) ∧
    (resolving station .source 7#16).engine.flight = some (.link (.lookup .source 7#16) false) ∧
    ({ State.reset with engine.flight := lookingUp .source true } : State).engine.flight =
      some (.link (.lookup .source 0x1234#16) true) := by
  have e1 : lookupTag 7#16 (resolving station .source 7#16).directory = none := by decide
  have e2 : lookupTag 9#16 (resolving station .source 9#16).directory = some .management := by decide
  have e3 : lookupTag 0x1234#16 (resolving station .source 0x1234#16).directory = some (.primary 3) := by decide
  rw [e1, e2, e3]
  exact ⟨⟨_, .noEntry⟩, ⟨_, .retiring _ 3 rfl (by decide)⟩, ⟨_, .management⟩, ⟨_, .suspended _ 3 rfl (by decide)⟩,
    ⟨_, .current _ 3 rfl (by decide) (show _ = _ by decide)⟩,
    ⟨_, .confirm _ 3 rfl (by decide) (fun h => nomatch h) (by decide)⟩,
    ⟨_, .applied _ 3 rfl (by decide) (fun h => nomatch h) (by decide)⟩, rfl, rfl⟩

/-- The rows of R97 have a state each; the list is full at 16. -/
theorem witness_NameSinkIsResolved :
    (∃ u, SinkRow (resolving station .sink 7#16) none u) ∧
    (∃ u, SinkRow (resolving leaving .sink 0x1234#16) (some (.primary 3)) u) ∧
    (∃ u, SinkRow (resolving station .sink 9#16) (some .management) u) ∧
    (∃ u, SinkRow (resolving { station with state := .suspended } .sink 0x1234#16) (some (.primary 3)) u) ∧
    (∃ u, SinkRow (sinked station) (some (.aliasOf 3)) u) ∧
    (∃ u, SinkRow { online station with link.sinks := List.replicate 16 { handle3 with slot := 4 } } (some (.primary 3)) u) ∧
    (∃ u, SinkRow { online { station with options := 0x01#7 } with link.sinks := List.replicate 15 { handle3 with slot := 4 } }
      (some (.primary 3)) u) ∧
    (∃ u, SinkRow { online station with link.sinks := List.replicate 15 { handle3 with slot := 4 } } (some (.primary 3)) u) ∧
    (resolving station .sink 7#16).engine.flight = some (.link (.lookup .sink 7#16) false) :=
  ⟨⟨_, .noEntry⟩, ⟨_, .retiring _ 3 rfl (by decide)⟩, ⟨_, .management⟩, ⟨_, .suspended _ 3 rfl (by decide)⟩,
    ⟨_, .already _ 3 rfl (by decide) (by decide)⟩, ⟨_, .full _ 3 rfl (by decide) (by decide) (by decide)⟩,
    ⟨_, .confirm _ 3 rfl (by decide) (by decide) (by decide) (by decide)⟩,
    ⟨_, .applied _ 3 rfl (by decide) (by decide) (by decide) (by decide)⟩, rfl⟩

/-- A completion whose change is made, and one that fails, for each operation. -/
theorem witness_changes :
    (insertEntries [{ tag := 7#16, owner := .primary 3 }] [] = .made [{ tag := 7#16, owner := .primary 3 }]) ∧
    (insertEntries [{ tag := 7#16, owner := .primary 3 }] [{ tag := 7#16, owner := .management }] = .failed .tagTaken) ∧
    (replaceEntry (.primary 3) 7#16 [{ tag := 5#16, owner := .primary 3 }] = .made [{ tag := 7#16, owner := .primary 3 }]) ∧
    (replaceEntry (.primary 3) 7#16 [{ tag := 5#16, owner := .primary 3 }, { tag := 7#16, owner := .management }] =
      .failed .tagTaken) ∧
    (replaceEntry (.aliasOf 3) 7#16 [{ tag := 5#16, owner := .aliasOf 3 }] = .made [{ tag := 7#16, owner := .aliasOf 3 }]) ∧
    (replaceEntry .management 7#16 [{ tag := 5#16, owner := .management }] = .made [{ tag := 7#16, owner := .management }]) ∧
    (removeEntries .managementEntry [{ tag := 5#16, owner := .management }] = []) := by decide

theorem witness_LinkRetagReplaceCompletes :
    ∀ discarded, ({ State.reset with engine.flight := some (.link (.replace 3 7#16) discarded) } : State).engine.flight =
      some (.link (.replace 3 7#16) discarded) := fun _ => rfl

/-- The part with a request of the kind given in flight. -/
def busyWith (kind : DirectoryRequest) (op : Operation) : State :=
  { named station 7#16 with
    request := some { kind := kind, params := #v[0x0503#16, 7#16, 0#16, 0#16] }
    engine.flight := some (.request op) }

theorem witness_requests_complete :
    ∀ kind op, (busyWith kind op).request = some { kind := kind, params := #v[0x0503#16, 7#16, 0#16, 0#16] } ∧
      (busyWith kind op).engine.flight = some (.request op) := fun _ _ => ⟨rfl, rfl⟩

theorem witness_find_results :
    lookupTag 9#16 (resolving station .source 9#16).directory = some .management ∧
    lookupTag 0x1234#16 (resolving station .source 9#16).directory = some (.primary 3) ∧
    lookupTag 0x2345#16 (resolving station .source 9#16).directory = some (.aliasOf 3) ∧
    lookupTag 7#16 (resolving station .source 9#16).directory = none := by decide

/-! ### Witnesses: what the host and the link see, invariants -/

/-- The notice unit in PULSE mode with its condition true. -/
def pulsing (armed pulse : Bool) : State :=
  { State.reset with
    notice.mode := .pulse, notice.masterEnable := true, notice.devnotice := 1#13, notice.devnoticeEnable := 1#13
    notice.armed := armed, notice.pulse := pulse }

theorem witness_InterruptOutput :
    State.reset.notice.mode = .level ∧
    ((pulsing true false).notice.mode = .pulse ∧ (pulsing true false).notice.armed = true ∧
      (pulsing true false).notice.pulse = false ∧ interruptCondition (pulsing true false) = true) ∧
    (pulsing false false).notice.armed = false ∧ (pulsing true true).notice.pulse = true ∧
    interruptCondition State.reset = false := by decide

theorem witness_StatusShowsTenConditions : (online station).port.resetHeld = false ∧ 10 ≤ 15 ∧ 8 < 9 := by decide

theorem witness_PollLinesFollowTheCounters :
    (let s : State := { online station with lines.plq := true }
    s.lines.plq = true ∧ s.link.phase = .command ∧ s.link.online = true ∧ s.link.offered = none) ∧
    State.reset.lines.plq = false := by decide

/-- Registers read in small states: the words of SOURCE, LEAD, INCOUNT, INDATA and INTCTL, and an assigned location. -/
theorem witness_RegistersAndLinesShowTheState :
    (receiving [someEntry]).port.resetHeld = false ∧ (sourced station).readLocation 0x17#5 = 0x0503#16 ∧
    (receiving [someEntry]).readLocation 0x18#5 = 0x0503#16 ∧ (receiving [someEntry]).readLocation 0x19#5 = 1#16 ∧
    (receiving [someEntry]).readLocation 0x14#5 = 0x8041#16 ∧ State.reset.readLocation 0x0B#5 = 0x0008#16 ∧
    State.reset.readLocation 0x0D#5 = 0x0014#16 ∧ 0x1F#5 ∈ [0x01#5, 0x02#5, 0x15#5, 0x16#5, 0x1B#5, 0x1F#5] := by decide

theorem witness_WindowShowsSelectedField :
    (∃ i : Slot, i.val = (191#8 : Byte).toNat) ∧ 192 ≤ (192#8 : Byte).toNat ∧ 0x07#8 ≤ (0x07#8 : Byte) ∧
    (sourced station).role 3 = .source ∧ (sinked station).role 3 = .sink 0 ∧ (online station).role 3 = .none ∧
    ({ online station with link.sinks := [{ handle3 with slot := 4 }, handle3] } : State).role 3 = .sink 1 :=
  ⟨⟨191, rfl⟩, by decide⟩

/-- The five invariants have a state: the part after RESET-PART, whose step idles. -/
theorem witness_invariants :
    (resetPart false (online station)).Coherent ∧ (resetPart false (online station)).CountersFit ∧
    (resetPart false (online station)).FifosFit ∧ (resetPart false (online station)).ChannelsFit ∧
    (resetPart false (online station)).PulseSettled ∧
    step (resetPart false (online station)) = .next (resetPart false (online station)) :=
  ⟨resetPart_coherent _ _, (resetPart_bounds _ _).1, (resetPart_bounds _ _).2, resetPart_channels _ _,
    fun h => (by cases h), rfl⟩

end Sys2Proof.Tests
end

section
/-! Every step keeps the tables, the directory, the engine and the link coherent: first what the ends of a command
and the accesses of the bus do to the conditions, then each group of commands, then every command and the step. -/

namespace Sys2Proof.Machine

variable {s u : State}

/-! ### Outcomes -/

/-- Every next state of an outcome meets a condition. -/
def Leads (P : State → Prop) (o : Host.Outcome State Fault Refusal) : Prop := ∀ t, o = .next t → P t

theorem leads_next {P : State → Prop} (h : P s) : Leads P (.next s) := by
  rintro t ⟨⟩
  exact h

/-- A bus write leads where its effect does, or nowhere while RESET is held (R190). -/
theorem leads_busWrite {P : State → Prop} {f : State → State} (h : P s) (hf : P (startPulse (f s))) :
    Leads P (busWrite f s) := by
  unfold busWrite
  split
  · exact leads_next h
  · exact leads_next hf

/-- A bus read leads where its effect does, or to the answer 0000H while RESET is held (R190). -/
theorem leads_busRead {P : State → Prop} {f : State → State} (h : P (present 0#16 s)) (hf : P (startPulse (f s))) :
    Leads P (busRead f s) := by
  unfold busRead
  split
  · exact leads_next h
  · exact leads_next hf

/-! ### Blocks outside the conditions -/

/-- No condition reads the port. -/
theorem State.Coherent.withPort (w : s.Coherent) (p : BusPort) : ({ s with port := p } : State).Coherent :=
  w.congr rfl rfl rfl rfl rfl rfl rfl rfl rfl rfl rfl rfl rfl rfl rfl

/-- Of the Notice Unit the conditions read the attention list alone (R172). -/
theorem State.Coherent.withNotice (w : s.Coherent) (n : NoticeUnit) (h : n.attention = s.notice.attention) :
    ({ s with notice := n } : State).Coherent :=
  w.congr rfl rfl rfl rfl rfl rfl rfl rfl rfl rfl rfl rfl h rfl rfl

/-- No condition reads the Data Channels. -/
theorem State.Coherent.withData (w : s.Coherent) (d : DataChannels) : ({ s with data := d } : State).Coherent :=
  w.congr rfl rfl rfl rfl rfl rfl rfl rfl rfl rfl rfl rfl rfl rfl rfl

/-- No condition reads the queue of commands. -/
theorem State.Coherent.withPending (w : s.Coherent) (l : List Instr) : ({ s with pending := l } : State).Coherent :=
  w.congr rfl rfl rfl rfl rfl rfl rfl rfl rfl rfl rfl rfl rfl rfl rfl

theorem State.Coherent.startPulse (w : s.Coherent) : (startPulse s).Coherent := by
  unfold Machine.startPulse
  split
  · exact w.withNotice _ rfl
  · exact w

/-! ### The ends of a command -/

theorem State.Coherent.leads_done (w : s.Coherent) : Leads State.Coherent (done s) := leads_next w.startPulse

theorem State.Coherent.leads_write (w : s.Coherent) {f : State → State} (hf : (f s).Coherent) :
    Leads State.Coherent (busWrite f s) := leads_busWrite w hf.startPulse

theorem State.Coherent.leads_read (w : s.Coherent) {f : State → State} (hf : (f s).Coherent) :
    Leads State.Coherent (busRead f s) := leads_busRead (w.present _) hf.startPulse

/-- A REQUEST write: its body runs with no request in flight (R191). -/
theorem State.Coherent.leads_request (w : s.Coherent) {body : State → State}
    (h : s.request = none → (body s).Coherent) : Leads State.Coherent (busWrite (Machine.startRequest body) s) :=
  w.leads_write (w.startRequest body h)

/-! ### CONTROL commands -/

theorem State.Coherent.leads_online (w : s.Coherent) : Leads State.Coherent (execOnline s) := by
  unfold execOnline
  split
  · exact leads_next w
  · rename_i h
    exact w.leads_write (w.goOnline (Bool.not_eq_true _ ▸ h))

theorem State.Coherent.leads_offline (w : s.Coherent) : Leads State.Coherent (execOffline s) := by
  unfold execOffline
  split
  · exact w.leads_write w.goOffline
  · exact leads_next w

theorem State.Coherent.leads_resetPart (w : s.Coherent) : Leads State.Coherent (execResetPart s) := by
  unfold execResetPart
  split
  · exact leads_next w
  · exact leads_next (resetPart_coherent _ _)

theorem State.Coherent.leads_arm (w : s.Coherent) : Leads State.Coherent (execArm s) :=
  w.leads_write (w.withNotice { s.notice with armed := true } rfl)

theorem State.Coherent.leads_resumeInbound (w : s.Coherent) : Leads State.Coherent (execResumeInbound s) := by
  unfold execResumeInbound
  split
  · exact w.leads_write (w.withData { s.data with paused := false }).serveHeldData
  · exact leads_next w

theorem State.Coherent.leads_flushInbound (w : s.Coherent) : Leads State.Coherent (execFlushInbound s) := by
  unfold execFlushInbound
  split
  · exact leads_next w
  · exact w.leads_write (w.withData { s.data with inFifo := [] }).afterDrain

theorem State.Coherent.leads_controlByte (w : s.Coherent) (c : Byte) :
    Leads State.Coherent (execControlByte c s) := by
  unfold execControlByte
  split
  · exact w.leads_resetPart
  · exact w.leads_online
  · exact w.leads_offline
  · exact w.leads_arm
  · exact w.leads_resumeInbound
  · exact w.leads_flushInbound
  · exact leads_next w

theorem State.Coherent.leads_resetInput (w : s.Coherent) (n : Nat) :
    Leads State.Coherent (execResetInput n s) := by
  unfold execResetInput
  split
  · exact leads_next (resetPart_coherent _ _)
  · exact leads_next w

/-! ### Reads and writes of the port -/

/-- The take of the head of the attention list is the record's leaving of the list, shown in three registers (R173). -/
theorem takeAttention_cons (w : s.AttentionFits) {h : Handle} {rest : List Handle}
    (e : s.notice.attention = h :: rest) :
    takeAttention s =
      present h.word
        { dropNotices h.slot s with
          notice.attnKinds := (s.record h.slot).notices
          notice.attnSignals := (s.record h.slot).signals } := by
  have hcur : s.handleOf h.slot = h := ((w.noticed h).mp (e ▸ List.mem_cons_self)).1
  have hnot : h ∉ rest := (List.nodup_cons.mp (e ▸ w.once)).1
  have hrest : s.notice.attention.filter (· ≠ s.handleOf h.slot) = rest := by
    rw [e, hcur, List.filter_cons_of_neg (by simp), List.filter_eq_self]
    exact fun a ha => decide_eq_true fun c => hnot (c ▸ ha)
  unfold takeAttention dropNotices
  rw [hrest]
  simp only [e]

theorem State.Coherent.takeAttention (w : s.Coherent) : (takeAttention s).Coherent := by
  cases e : s.notice.attention with
  | nil =>
    unfold Machine.takeAttention
    rw [e]
    exact (w.withNotice { s.notice with attnKinds := 0#8, attnSignals := 0#16 } rfl).present _
  | cons h rest =>
    rw [takeAttention_cons w.tables.attention e]
    exact ((w.dropNotices h.slot).withNotice
      { (Machine.dropNotices h.slot s).notice with
        attnKinds := (s.record h.slot).notices
        attnSignals := (s.record h.slot).signals } rfl).present _

theorem State.Coherent.readWindow (w : s.Coherent) : (readWindow s).Coherent := by
  unfold Machine.readWindow
  split
  · exact w.withPort { s.port with stretched := some s.port.select }
  · exact w.present _

theorem State.Coherent.takeDevnotice (w : s.Coherent) : (takeDevnotice s).Coherent :=
  (w.withNotice { s.notice with devnotice := 0#13 } rfl).present _

theorem State.Coherent.writeConfig (w : s.Coherent) (x : Word) : (writeConfig x s).Coherent := w.withPort _

theorem State.Coherent.writeIntctl (w : s.Coherent) (x : Word) : (writeIntctl x s).Coherent := w.withNotice _ rfl

theorem State.Coherent.writeDevnoticeEnable (w : s.Coherent) (x : Word) : (writeDevnoticeEnable x s).Coherent :=
  w.withNotice _ rfl

theorem State.Coherent.postTerminalCount (w : s.Coherent) (tc : Bool) : (postTerminalCount tc s).Coherent := by
  unfold Machine.postTerminalCount
  split
  · exact w.postDevice _
  · exact w

/-- A write to any location of the port (R185). -/
theorem State.Coherent.leads_registerWrite (w : s.Coherent) (loc : BitVec 5) (x : Word) :
    Leads State.Coherent (execRegisterWrite loc x s) := by
  unfold execRegisterWrite
  cases decodeLocation loc with
  | param n => exact w.leads_write (w.withPort _)
  | noticeMask => exact w.leads_write (w.withNotice _ rfl)
  | winsel => exact w.leads_write (w.withPort _)
  | winfield => exact w.leads_write (w.withPort _)
  | control => exact w.leads_controlByte _
  | request => exact w.leads_request fun hn => w.runRequestByte hn _
  | devnoticeEnable => exact w.leads_write (w.writeDevnoticeEnable x)
  | intctl => exact w.leads_write (w.writeIntctl x)
  | config => exact w.leads_write (w.writeConfig x)
  | outdata => exact w.leads_write (w.writeOut _ _)
  | outdataEnd => exact w.leads_write (w.writeOut _ _)
  | _ => exact leads_next w

theorem State.Coherent.leads_dackIn (w : s.Coherent) (strobe : Strobe) (tc : Bool) :
    Leads State.Coherent (execDackIn strobe tc s) := by
  unfold execDackIn
  split
  · exact leads_next w
  · cases strobe with
    | read => exact (w.readIn.postTerminalCount tc).leads_done
    | write => exact leads_next w

theorem State.Coherent.leads_dackOut (w : s.Coherent) (strobe : Strobe) (tc : Bool) (x : Word) :
    Leads State.Coherent (execDackOut strobe tc x s) := by
  unfold execDackOut
  split
  · exact leads_next w
  · cases strobe with
    | read => exact leads_next (w.present _)
    | write => exact ((w.writeOut _ _).postTerminalCount tc).leads_done

/-! ### Units of the link -/

/-- A unit of another sender, offered on a link that carries none (R69). -/
theorem State.Coherent.leads_offer (w : s.Coherent) (x : LinkUnit) : Leads State.Coherent (offerCommand x s) := by
  unfold offerCommand
  split
  · exact leads_next w
  · rename_i h
    exact (w.foreignOffer (Bool.not_eq_true _ ▸ h) x).leads_done

/-- A unit that the part does not hold, taken on the link (R72). -/
theorem State.Coherent.leads_take (w : s.Coherent) (x : LinkUnit) : Leads State.Coherent (takeCommand x s) := by
  unfold takeCommand
  split
  · exact leads_next w
  · rename_i h
    exact (w.foreignTake (Bool.not_eq_true _ ▸ h) x).leads_done

/-- The part's offer of the unit that is due (R71). -/
theorem State.Coherent.leads_offerDue (w : s.Coherent) (kind : OfferKind) (due : Option (Byte × Bool)) (o : Bool) :
    Leads State.Coherent (offerDue kind due o s) := by
  unfold offerDue
  split
  · exact leads_next w
  · split
    · rename_i h
      exact (w.offerUnit _ h).leads_done
    · exact leads_next w

/-- The other stations' release of an offered unit (R71). -/
theorem State.Coherent.leads_taken (w : s.Coherent) (isKind : OfferKind → Bool) :
    Leads State.Coherent (takenCommand isKind s) := by
  unfold takenCommand
  split
  · exact leads_next w
  · split
    · exact (w.releaseOthers _).leads_done
    · exact leads_next w

/-! ### Lines of the link -/

theorem State.Coherent.leads_offerWithdrawn (w : s.Coherent) : Leads State.Coherent (execOfferWithdrawn s) := by
  unfold execOfferWithdrawn
  split
  · exact leads_next w
  · have w1 := w.relined { s.lines with foreign := none } nofun
    exact State.Coherent.leads_done (w1.congr rfl rfl rfl rfl rfl rfl rfl rfl rfl rfl rfl rfl rfl rfl rfl)

/-- A line changes while the standing offer stays as it is. -/
theorem State.Coherent.withLine (w : s.Coherent) {l : LinkLines} (h : l.foreign = s.lines.foreign) :
    ({ s with lines := l } : State).Coherent :=
  w.relined l (h ▸ w.hold.standing)

/-- The assertion of STOP or CLEAR ends the offer that stands (R67). -/
theorem State.Coherent.leads_stopAsserted (w : s.Coherent) : Leads State.Coherent (execStopAsserted s) := by
  unfold execStopAsserted
  dsimp only
  split
  · exact (w.stopLink.relined { (Machine.stopLink s).lines with stop := true, foreign := none } nofun).leads_done
  · exact (w.relined { s.lines with stop := true, foreign := none } nofun).leads_done

theorem State.Coherent.leads_clearAsserted (w : s.Coherent) : Leads State.Coherent (execClearAsserted s) := by
  unfold execClearAsserted
  dsimp only
  split
  · exact (w.clearLink.relined { (Machine.clearLink s).lines with clear := true, foreign := none } nofun).leads_done
  · exact (w.relined { s.lines with clear := true, foreign := none } nofun).leads_done

/-! ### Completions of directory operations -/

theorem State.Coherent.leads_nameSourceLookup (w : s.Coherent) :
    Leads State.Coherent (execNameSourceLookupComplete s) := by
  unfold execNameSourceLookupComplete
  split
  · rename_i tag discarded hf
    exact (w.finishLookup hf (w.tables.resolveSource _) (resolveSource_keepsLives s _)
      (resolveSource_resolved _) (resolveSource_lines s _) (resolveSource_online s _)).leads_done
  · exact leads_next w

theorem State.Coherent.leads_nameSinkLookup (w : s.Coherent) :
    Leads State.Coherent (execNameSinkLookupComplete s) := by
  unfold execNameSinkLookupComplete
  split
  · rename_i tag discarded hf
    exact (w.finishLookup hf (w.tables.resolveSink _) (resolveSink_keepsLives s _)
      (resolveSink_resolved _) (resolveSink_lines s _) (resolveSink_online s _)).leads_done
  · exact leads_next w

theorem State.Coherent.leads_linkReplace (w : s.Coherent) :
    Leads State.Coherent (execLinkRetagReplaceComplete s) := by
  unfold execLinkRetagReplaceComplete
  split
  · rename_i i tag discarded hf
    exact (w.finishReplace hf).leads_done
  · exact leads_next w

/-- The completion of the operation of a request of one kind; with another kind in flight nothing happens. -/
theorem State.Coherent.leads_completeRequest (w : s.Coherent) {α : Type} {pick : DirectoryRequest → Option α}
    {body : α → Vector Word 4 → Operation → State → State}
    (h : ∀ q op a, s.request = some q → s.engine.flight = some (.request op) → pick q.kind = some a →
      (finishOperation (body a q.params op s)).Coherent) :
    Leads State.Coherent (completeRequest pick body s) := by
  unfold completeRequest
  split
  · rename_i q op hq hf
    split
    · rename_i a ha
      exact (h q op a hq hf ha).leads_done
    · exact leads_next w
  · exact leads_next w

theorem DirectoryRequest.createSlot_eq_some {k : DirectoryRequest} {i : Slot} :
    k.createSlot = some i ↔ k = .create i := by
  cases k <;> simp [DirectoryRequest.createSlot]

theorem DirectoryRequest.retireSlot_eq_some {k : DirectoryRequest} {i : Slot} :
    k.retireSlot = some i ↔ k = .retire i := by
  cases k <;> simp [DirectoryRequest.retireSlot]

theorem DirectoryRequest.retagSlot_eq_some {k : DirectoryRequest} {i : Slot} :
    k.retagSlot = some i ↔ k = .retag i := by
  cases k <;> simp [DirectoryRequest.retagSlot]

theorem DirectoryRequest.setAliasSlot_eq_some {k : DirectoryRequest} {i : Slot} :
    k.setAliasSlot = some i ↔ k = .setAlias i := by
  cases k <;> simp [DirectoryRequest.setAliasSlot]

theorem DirectoryRequest.clearAliasSlot_eq_some {k : DirectoryRequest} {i : Slot} :
    k.clearAliasSlot = some i ↔ k = .clearAlias i := by
  cases k <;> simp [DirectoryRequest.clearAliasSlot]

theorem DirectoryRequest.isFind_eq_some {k : DirectoryRequest} : k.isFind = some () ↔ k = .find := by
  cases k <;> simp [DirectoryRequest.isFind]

theorem DirectoryRequest.isSetManagementTag_eq_some {k : DirectoryRequest} :
    k.isSetManagementTag = some () ↔ k = .setManagementTag := by
  cases k <;> simp [DirectoryRequest.isSetManagementTag]

theorem State.Coherent.leads_createInsertComplete (w : s.Coherent) :
    Leads State.Coherent (execCreateInsertComplete s) := by
  unfold execCreateInsertComplete
  refine w.leads_completeRequest fun q op a hq hf hk => ?_
  exact w.finishCreate hf hq (DirectoryRequest.createSlot_eq_some.mp hk)

theorem State.Coherent.leads_retireRemoveComplete (w : s.Coherent) :
    Leads State.Coherent (execRetireRemoveComplete s) := by
  unfold execRetireRemoveComplete
  refine w.leads_completeRequest fun q op a hq hf hk => ?_
  exact w.finishRetire hf hq (DirectoryRequest.retireSlot_eq_some.mp hk)

theorem State.Coherent.leads_retagReplaceComplete (w : s.Coherent) :
    Leads State.Coherent (execRetagReplaceComplete s) := by
  unfold execRetagReplaceComplete
  refine w.leads_completeRequest fun q op a hq hf hk => ?_
  exact w.finishRetag hf hq (DirectoryRequest.retagSlot_eq_some.mp hk)

theorem State.Coherent.leads_setAliasComplete (w : s.Coherent) : Leads State.Coherent (execSetAliasComplete s) := by
  unfold execSetAliasComplete
  refine w.leads_completeRequest fun q op a hq hf hk => ?_
  exact w.finishSetAlias hf hq (DirectoryRequest.setAliasSlot_eq_some.mp hk)

theorem State.Coherent.leads_clearAliasComplete (w : s.Coherent) : Leads State.Coherent (execClearAliasComplete s) := by
  unfold execClearAliasComplete
  refine w.leads_completeRequest fun q op a hq hf hk => ?_
  exact w.finishClearAlias hf hq (DirectoryRequest.clearAliasSlot_eq_some.mp hk)

theorem State.Coherent.leads_findLookupComplete (w : s.Coherent) : Leads State.Coherent (execFindLookupComplete s) := by
  unfold execFindLookupComplete
  refine w.leads_completeRequest fun q op a hq hf hk => ?_
  exact w.finishFind hf hq (DirectoryRequest.isFind_eq_some.mp hk)

theorem State.Coherent.leads_setManagementTagComplete (w : s.Coherent) :
    Leads State.Coherent (execSetManagementTagComplete s) := by
  unfold execSetManagementTagComplete
  refine w.leads_completeRequest fun q op a hq hf hk => ?_
  exact w.finishSetManagementTag hf hq (DirectoryRequest.isSetManagementTag_eq_some.mp hk)

/-! ### Timers -/

theorem State.Coherent.leads_confirmTimer (w : s.Coherent) : Leads State.Coherent (execConfirmTimerExpiry s) := by
  unfold execConfirmTimerExpiry
  split
  · exact leads_next w
  · rename_i c hc
    split
    · exact leads_next w
    · exact ((w.refuseConfirm (hc ▸ rfl)).postDevice _).leads_done

theorem State.Coherent.leads_pulseEnd (w : s.Coherent) : Leads State.Coherent (execIntPulseEnd s) := by
  unfold execIntPulseEnd
  split
  · exact (w.withNotice { s.notice with pulse := false } rfl).leads_done
  · exact leads_next w

/-! ### Every command -/

/-- Every command keeps the conditions. -/
theorem State.Coherent.leads_exec (w : s.Coherent) (c : Instr) : Leads State.Coherent (exec c s) := by
  cases c with
  | create => exact w.leads_request w.runCreate
  | retire => exact w.leads_request w.runRetire
  | retag => exact w.leads_request w.runRetag
  | setAlias => exact w.leads_request w.runSetAlias
  | clearAlias => exact w.leads_request w.runClearAlias
  | suspend => exact w.leads_request w.runSuspend
  | resume => exact w.leads_request w.runResume
  | setStatus => exact w.leads_request w.runSetStatus
  | call => exact w.leads_request w.runCall
  | withdraw => exact w.leads_request w.runWithdraw
  | setPoll => exact w.leads_request w.runSetPoll
  | clearPoll => exact w.leads_request w.runClearPoll
  | setFlag => exact w.leads_request w.runSetFlag
  | confirm => exact w.leads_request w.runConfirm
  | find => exact w.leads_request w.runFind
  | setManagementTag => exact w.leads_request w.runSetManagementTag
  | setOptions => exact w.leads_request w.runSetOptions
  | unknownRequestCode x => exact w.leads_request fun hn => w.runRequestByte hn _
  | resetPart => exact w.leads_resetPart
  | online => exact w.leads_online
  | offline => exact w.leads_offline
  | arm => exact w.leads_arm
  | resumeInbound => exact w.leads_resumeInbound
  | flushInbound => exact w.leads_flushInbound
  | unassignedControlCode x => exact w.leads_controlByte _
  | attentionRead => exact w.leads_read w.takeAttention
  | devnoticeRead => exact w.leads_read w.takeDevnotice
  | indataRead => exact w.leads_read w.readIn
  | outdata x => exact w.leads_write (w.writeOut _ _)
  | outdataEnd x => exact w.leads_write (w.writeOut _ _)
  | windataRead => exact w.leads_read w.readWindow
  | configWrite x => exact w.leads_write (w.writeConfig x)
  | intctlWrite x => exact w.leads_write (w.writeIntctl x)
  | devnoticeEnableWrite x => exact w.leads_write (w.writeDevnoticeEnable x)
  | registerWrite loc x => exact w.leads_registerWrite loc x
  | resetInput n => exact w.leads_resetInput n
  | resetRelease => exact leads_next (w.withPort _)
  | dackIn strobe tc => exact w.leads_dackIn strobe tc
  | dackOut strobe tc x => exact w.leads_dackOut strobe tc x
  | signal => exact w.leads_offer _
  | nameSource => exact w.leads_offer _
  | nameSink => exact w.leads_offer _
  | linkRetag => exact w.leads_offer _
  | tagHi => exact w.leads_offer _
  | tagLo => exact w.leads_offer _
  | dropSource => exact w.leads_offer _
  | dropSinks => exact w.leads_offer _
  | go => exact w.leads_offer _
  | query => exact w.leads_offer _
  | groupPoll => exact w.leads_offer _
  | assignPoll => exact w.leads_offer _
  | releasePoll => exact w.leads_offer _
  | unassignedLinkCode => exact w.leads_offer _
  | controlUnitInDataPhase => exact w.leads_take _
  | dataUnitInCommandPhase => exact w.leads_take _
  | dataUnitSeen => exact w.leads_take _
  | inboundUnitOffer => exact w.leads_offer _
  | inboundUnitTake => exact w.serveHeldData.leads_done
  | outboundUnitOffer => exact w.leads_offerDue _ _ _
  | outboundUnitTaken => exact w.leads_taken OfferKind.isOutbound
  | statusUnitOffer => exact w.leads_offerDue _ _ _
  | statusUnitTaken => exact w.leads_taken (· == .status)
  | conditionUnitOffer => exact w.leads_offerDue _ _ _
  | conditionUnitTaken => exact w.leads_taken (· == .condition)
  | rosterUnitOffer => exact w.leads_offerDue _ _ _
  | rosterUnitTaken => exact w.leads_taken (· == .roster)
  | offerWithdrawn => exact w.leads_offerWithdrawn
  | plqAsserted => exact (w.withLine (l := { s.lines with plq := true }) rfl).leads_done
  | plqReleased => exact (w.withLine (l := { s.lines with plq := false }) rfl).attendStanding.leads_done
  | stopAsserted => exact w.leads_stopAsserted
  | stopReleased => exact (w.withLine (l := { s.lines with stop := false }) rfl).attendStanding.leads_done
  | clearAsserted => exact w.leads_clearAsserted
  | clearReleased => exact (w.withLine (l := { s.lines with clear := false }) rfl).attendStanding.leads_done
  | nameSourceLookupComplete => exact w.leads_nameSourceLookup
  | nameSinkLookupComplete => exact w.leads_nameSinkLookup
  | linkRetagReplaceComplete => exact w.leads_linkReplace
  | createInsertComplete => exact w.leads_createInsertComplete
  | retireRemoveComplete => exact w.leads_retireRemoveComplete
  | retagReplaceComplete => exact w.leads_retagReplaceComplete
  | setAliasComplete => exact w.leads_setAliasComplete
  | clearAliasComplete => exact w.leads_clearAliasComplete
  | findLookupComplete => exact w.leads_findLookupComplete
  | setManagementTagComplete => exact w.leads_setManagementTagComplete
  | confirmTimerExpiry => exact w.leads_confirmTimer
  | intPulseEnd => exact w.leads_pulseEnd

/-- A step leads where its front command does on the state with the queue's rest; with an empty queue it idles. -/
theorem leads_step {P : State → Prop} (h : P s)
    (hc : ∀ c rest, Leads P (exec c { s with pending := rest })) : Leads P (step s) := by
  unfold step
  split
  · exact leads_next h
  · exact hc _ _

end Sys2Proof.Machine

namespace Sys2Proof.Claims

open Sys2Proof.Machine

/-- Settles O59: each command keeps the conditions together (`State.Coherent.leads_exec`), and no condition reads the
queue, which is all that a step changes besides. -/
theorem stepsKeepTablesCoherent : Obligations.StepsKeepTablesCoherent := by
  intro s t w e
  exact leads_step w (fun c rest => (w.withPending rest).leads_exec c) t e

end Sys2Proof.Claims
end

section
/-! The words of handles (R9, R10), and the requests on records and slots: a stale handle, CREATE, RESUME, SET-OPTIONS
and the completions of CREATE and RETIRE. -/

namespace Sys2Proof.Machine

variable {s : State}

/-! ### Bytes of a word -/

@[simp] theorem loByte_wordOf (h l : Byte) : loByte (wordOf h l) = l := BitVec.setWidth_append_eq_right

@[simp] theorem hiByte_wordOf (h l : Byte) : hiByte (wordOf h l) = h := BitVec.extractLsb'_append_eq_left

/-- A word is its high byte and its low byte. -/
@[simp] theorem wordOf_hiByte_loByte (w : Word) : wordOf (hiByte w) (loByte w) = w := by
  have h : loByte w = w.extractLsb' 0 8 := BitVec.setWidth_eq_extractLsb' (by decide)
  rw [h]
  exact BitVec.extractLsb'_append_extractLsb' (w := 8) (len := 8)

theorem toNat_wordOf (h l : Byte) : (wordOf h l).toNat = h.toNat * 256 + l.toNat := by
  unfold wordOf
  rw [BitVec.toNat_append, ← Nat.shiftLeft_add_eq_or_of_lt l.isLt, Nat.shiftLeft_eq]

/-! ### Handles -/

/-- A slot as the low byte of a word. -/
theorem toNat_slotByte (i : Slot) : (BitVec.ofNat 8 i.val).toNat = i.val := by
  have h : i.val < 192 := i.isLt
  rw [BitVec.toNat_ofNat]
  omega

theorem slotOfNat_eq_some_iff {n : Nat} {i : Slot} : slotOfNat n = some i ↔ i.val = n := by
  unfold slotOfNat
  split
  · rw [Option.some_inj, Fin.ext_iff]
    exact eq_comm
  · rename_i h
    exact ⟨nofun, fun e => absurd (e ▸ i.isLt) h⟩

theorem slotOfNat_eq_none_iff {n : Nat} : slotOfNat n = none ↔ 192 ≤ n := by
  unfold slotOfNat
  split
  · rename_i h
    exact ⟨nofun, fun e => absurd h (Nat.not_lt.mpr e)⟩
  · rename_i h
    exact ⟨fun _ => Nat.not_lt.mp h, fun _ => rfl⟩

/-- The slot a handle word names: the one of its slot part, not FREE and of its generation (R10). -/
theorem slotOf_eq_some_iff {w : Word} {i : Slot} :
    s.slotOf w = some i ↔
      i.val = (loByte w).toNat ∧ (s.record i).state ≠ .free ∧ (s.record i).generation = hiByte w := by
  unfold State.slotOf slotPart
  cases h : slotOfNat (loByte w).toNat with
  | none =>
    refine ⟨nofun, fun c => ?_⟩
    rw [slotOfNat_eq_some_iff.mpr c.1] at h
    cases h
  | some j =>
    have hj := slotOfNat_eq_some_iff.mp h
    rw [← hj, ← Fin.ext_iff]
    dsimp only
    split
    · rename_i c
      refine ⟨nofun, ?_⟩
      rintro ⟨rfl, hs, hg⟩
      exact absurd c (not_or.mpr ⟨hs, not_not.mpr hg⟩)
    · rename_i c
      obtain ⟨hs, hg⟩ := not_or.mp c
      refine ⟨?_, fun e => congrArg some e.1.symm⟩
      rintro ⟨rfl⟩
      exact ⟨rfl, hs, not_not.mp hg⟩

/-- A stale handle word: its slot part is no slot, or its slot is FREE, or of another generation (R10). -/
theorem slotOf_eq_none_iff {w : Word} :
    s.slotOf w = none ↔
      192 ≤ (loByte w).toNat ∨
        ∃ i : Slot, i.val = (loByte w).toNat ∧
          ((s.record i).state = .free ∨ (s.record i).generation ≠ hiByte w) := by
  rw [Option.eq_none_iff_forall_ne_some]
  constructor
  · intro h
    by_cases hn : 192 ≤ (loByte w).toNat
    · exact Or.inl hn
    · refine Or.inr ⟨⟨(loByte w).toNat, Nat.not_le.mp hn⟩, rfl, ?_⟩
      by_contra c
      obtain ⟨hs, hg⟩ := not_or.mp c
      exact h _ (slotOf_eq_some_iff.mpr ⟨rfl, hs, not_not.mp hg⟩)
  · rintro h i e
    obtain ⟨hi, hs, hg⟩ := slotOf_eq_some_iff.mp e
    rcases h with hn | ⟨j, hj, c⟩
    · have : i.val < 192 := i.isLt
      omega
    · obtain rfl : i = j := Fin.ext (hi.trans hj.symm)
      exact c.elim hs (· hg)

/-- A word that names a slot is the word of the handle of the record there (R9, R10). -/
theorem eq_word_of_slotOf {w : Word} {i : Slot} (h : s.slotOf w = some i) : w = (s.handleOf i).word := by
  obtain ⟨hi, -, hg⟩ := slotOf_eq_some_iff.mp h
  have hl : BitVec.ofNat 8 i.val = loByte w := BitVec.eq_of_toNat_eq ((toNat_slotByte i).trans hi)
  unfold Handle.word State.handleOf
  rw [hg, hl, wordOf_hiByte_loByte]

/-! ### Requests -/

/-- A request's body on the record its handle names (R10). -/
theorem onRecord_of_slotOf {i : Slot} (body : Slot → State → State) (h : s.slotOf (s.param 0) = some i) :
    onRecord body s = body i s := by
  unfold onRecord
  rw [h]

/-- A stale handle ends the request with STALE (R10). -/
theorem onRecord_of_stale (body : Slot → State → State) (h : s.slotOf (s.param 0) = none) :
    onRecord body s = failRequest .stale s := by
  unfold onRecord
  rw [h]

theorem inService_iff {i : Slot} : (s.record i).inService = true ↔ Claims.InService s i := by
  unfold Record.inService Claims.InService
  rw [Bool.or_eq_true, beq_iff_eq, beq_iff_eq]

/-! ### CREATE -/

theorem optionsOf_eq_some {w : Word} (h : w.getLsbD 7 ≠ true) : optionsOf w = some (w.setWidth 7) := if_neg h

/-- A poll byte of 00H or of 40H to 7FH is in range (R193). -/
theorem pollByteOf_eq_some {b : Byte} (h : b = 0x00#8 ∨ (0x40#8 ≤ b ∧ b ≤ 0x7F#8)) :
    pollByteOf b = some (if b = 0x00#8 then none else some (.ofByte b)) := by
  unfold pollByteOf
  split
  · rfl
  · rename_i hb
    rw [if_pos (h.resolve_left hb)]

/-- The entries of a CREATE, by its two tag words (R44). -/
theorem createEntries_param (s : State) (i : Slot) :
    createEntries i (s.param 0) (tagOrNone (s.param 1)) = Claims.createdEntries s i := by
  unfold createEntries tagOrNone Claims.createdEntries
  by_cases h : s.param 1 = 0#16
  · rw [if_pos h, if_pos h]
  · rw [if_neg h, if_neg h]

/-- An accepted CREATE starts on the head slot of the free list (R13, R43). -/
theorem runCreate_of_accepted {i : Slot} {rest : List Slot} (h : ¬Claims.CreateOutOfRange s)
    (hf : s.freeList = i :: rest) :
    runCreate s =
      startCreate i rest ((s.param 2).setWidth 7)
        (if hiByte (s.param 3) = 0x00#8 then none else some (.ofByte (hiByte (s.param 3)))) s := by
  obtain ⟨htag, h⟩ := not_or.mp h
  obtain ⟨hsecond, h⟩ := not_or.mp h
  obtain ⟨hopt, hpoll⟩ := not_or.mp h
  unfold runCreate
  rw [if_neg htag, if_neg hsecond, optionsOf_eq_some hopt, pollByteOf_eq_some (not_not.mp hpoll), hf]

/-- The first stages of a CREATE: the PENDING record of its parameters, and the claim of its insert (R44). -/
theorem startCreate_eq_staged (s : State) (i : Slot) (rest : List Slot) :
    startCreate i rest ((s.param 2).setWidth 7)
        (if hiByte (s.param 3) = 0x00#8 then none else some (.ofByte (hiByte (s.param 3)))) s =
      Claims.staged (.create i) (.insert (Claims.createdEntries s i))
        ({ s with freeList := rest }.updRecord i fun _ => Claims.createdRecord s (s.record i).generation) := by
  unfold startCreate
  dsimp only
  rw [createEntries_param]
  rfl

/-! ### Completions -/

/-- A completion of the operation of the request in flight, when that request is of the command's kind (R31). -/
theorem completeRequest_of_pick {α : Type} {pick : DirectoryRequest → Option α}
    {body : α → Vector Word 4 → Operation → State → State} {q : Request} {op : Operation} {a : α}
    (hq : s.request = some q) (hf : s.engine.flight = some (.request op)) (hk : pick q.kind = some a) :
    completeRequest pick body s = done (finishOperation (body a q.params op s)) := by
  unfold completeRequest
  rw [hq, hf]
  dsimp only
  rw [hk]

theorem execCreateInsertComplete_of_flight {i : Slot} {params : Vector Word 4} {op : Operation}
    (hq : s.request = some { kind := .create i, params := params }) (hf : s.engine.flight = some (.request op)) :
    execCreateInsertComplete s =
      done (finishOperation (changeDirectory op (createMade i) (createFailed i) s)) := by
  unfold execCreateInsertComplete
  rw [completeRequest_of_pick (pick := DirectoryRequest.createSlot) hq hf rfl]

theorem execRetireRemoveComplete_of_flight {i : Slot} {params : Vector Word 4} {op : Operation}
    (hq : s.request = some { kind := .retire i, params := params }) (hf : s.engine.flight = some (.request op)) :
    execRetireRemoveComplete s =
      done (finishOperation (changeDirectory op (retireMade i params) failRequest s)) := by
  unfold execRetireRemoveComplete
  rw [completeRequest_of_pick (pick := DirectoryRequest.retireSlot) hq hf rfl]

theorem changeDirectory_of_made {op : Operation} {d : List Entry} (made : State → State)
    (failed : ResultCode → State → State) (h : op.change s.directory = .made d) :
    changeDirectory op made failed s = made { s with directory := d } := by
  unfold changeDirectory
  rw [h]

theorem changeDirectory_of_failed {op : Operation} {r : ResultCode} (made : State → State)
    (failed : ResultCode → State → State) (h : op.change s.directory = .failed r) :
    changeDirectory op made failed s = failed r s := by
  unfold changeDirectory
  rw [h]

end Sys2Proof.Machine

namespace Sys2Proof.Claims

open Sys2Proof.Machine

variable {s : State}

/-- A REQUEST write that is served by an idle Request Engine runs its body (R190, R191). -/
theorem busWrite_startRequest (h : Ready s) (body : State → State) :
    busWrite (startRequest body) s = .next (startPulse (body s)) := by
  obtain ⟨hheld, hidle⟩ := h
  unfold busWrite startRequest
  rw [hheld, hidle]
  rfl

/-- Each request whose PARAM0 is a handle runs on the record that the handle names (R10, R194). -/
theorem exec_handleRequest {c : Instr} (h : c ∈ handleRequests) :
    ∃ body : Slot → State → State, ∀ s, exec c s = busWrite (startRequest (onRecord body)) s := by
  simp only [handleRequests, List.mem_cons, List.not_mem_nil, or_false] at h
  rcases h with rfl | rfl | rfl | rfl | rfl | rfl | rfl | rfl | rfl | rfl | rfl | rfl | rfl | rfl <;>
    exact ⟨_, fun _ => rfl⟩

/-- Settles O7. -/
theorem staleHandleWords : Obligations.StaleHandleWords := by
  refine ⟨fun h => ?_, fun s w => slotOf_eq_none_iff, fun s w i => eq_word_of_slotOf⟩
  unfold Handle.word
  rw [toNat_wordOf, toNat_slotByte]

/-- Settles O15: every such request is a body run by `onRecord`, which a stale handle ends before the body runs. -/
theorem staleHandleEndsRequest : Obligations.StaleHandleEndsRequest := by
  intro s c hc hready hstale
  obtain ⟨body, hexec⟩ := exec_handleRequest hc
  unfold Answers
  rw [hexec, busWrite_startRequest hready, onRecord_of_stale body hstale]
  rfl

/-- Settles O17. -/
theorem createTakesHeadSlot : Obligations.CreateTakesHeadSlot := by
  intro s i rest hready hrange hfree
  unfold Answers
  rw [← startCreate_eq_staged, ← runCreate_of_accepted hrange hfree]
  exact busWrite_startRequest hready runCreate

/-- Settles O19: each of the two passes its checks, and its change is the one its rule gives (R58, R59). -/
theorem resumeAndSetOptionsChangeRecord : Obligations.ResumeAndSetOptionsChangeRecord := by
  intro s i hready hslot
  constructor
  · intro hstate
    refine (busWrite_startRequest hready runResume).trans ?_
    unfold runResume
    rw [onRecord_of_slotOf _ hslot, if_neg (not_not.mpr hstate)]
    rfl
  · intro hserving hrange
    refine (busWrite_startRequest hready runSetOptions).trans ?_
    unfold runSetOptions
    rw [onRecord_of_slotOf _ hslot, if_neg (by simp [inService_iff.mpr hserving]),
      optionsOf_eq_some (Bool.eq_false_iff.mp hrange)]
    rfl

/-- Settles O48: the insert of a CREATE is made or fails, and the remove of a RETIRE is made. -/
theorem createAndRetireComplete : Obligations.CreateAndRetireComplete := by
  refine ⟨fun s i params es hq hf => ⟨fun d hd => ?_, fun r hr => ?_⟩, fun s i params what hq hf => ?_⟩
  · refine (execCreateInsertComplete_of_flight hq hf).trans ?_
    rw [changeDirectory_of_made (op := .insert es) _ _ hd]
    rfl
  · refine (execCreateInsertComplete_of_flight hq hf).trans ?_
    rw [changeDirectory_of_failed (op := .insert es) _ _ hr]
    rfl
  · refine (execRetireRemoveComplete_of_flight hq hf).trans ?_
    rw [changeDirectory_of_made _ _ rfl]
    rfl

end Sys2Proof.Claims
end

section
/-! What the indirect window shows (R17, R197 to R199), and the state right after reset (R18, R25, R36, R89, R190). -/

namespace Sys2Proof.Machine

variable {s : State}

/-! ### The link role -/

theorem role_eq_source_iff {i : Slot} : s.role i = .source ↔ s.link.source = .record (s.handleOf i) := by
  unfold State.role
  split
  · rename_i h
    exact ⟨fun _ => h, fun _ => rfl⟩
  · rename_i h
    refine ⟨fun c => ?_, fun c => absurd c h⟩
    split at c <;> cases c

/-- The role of a record that is not the part source is its place in the sink list (R17). -/
theorem role_of_not_source {i : Slot} (h : s.link.source ≠ .record (s.handleOf i)) :
    s.role i = ((s.link.sinks.idxOf? (s.handleOf i)).map LinkRole.sink).getD .none := by
  unfold State.role
  rw [if_neg h]
  cases s.link.sinks.idxOf? (s.handleOf i) <;> rfl

/-- The first place of a member, read at the places of the list. -/
theorem idxOf?_eq_some_iff_getElem? {α : Type} [DecidableEq α] {l : List α} {a : α} {p : Nat} :
    l.idxOf? a = some p ↔ l[p]? = some a ∧ ∀ q, q < p → l[q]? ≠ some a := by
  rw [List.idxOf?_eq_some_iff]
  constructor
  · rintro ⟨hp, e, hfirst⟩
    refine ⟨List.getElem?_eq_some_iff.mpr ⟨hp, e⟩, fun q hq c => hfirst q hq ?_⟩
    exact (List.getElem?_eq_some_iff.mp c).2
  · rintro ⟨e, hfirst⟩
    obtain ⟨hp, e⟩ := List.getElem?_eq_some_iff.mp e
    exact ⟨hp, e, fun q hq c => hfirst q hq (List.getElem?_eq_some_iff.mpr ⟨_, c⟩)⟩

theorem role_eq_sink_iff {i : Slot} {p : Nat} :
    s.role i = .sink p ↔
      s.link.source ≠ .record (s.handleOf i) ∧ s.link.sinks[p]? = some (s.handleOf i) ∧
        ∀ q, q < p → s.link.sinks[q]? ≠ some (s.handleOf i) := by
  rw [← idxOf?_eq_some_iff_getElem?]
  by_cases h : s.link.source = .record (s.handleOf i)
  · rw [role_eq_source_iff.mpr h]
    exact ⟨nofun, fun c => absurd h c.1⟩
  · rw [role_of_not_source h]
    cases s.link.sinks.idxOf? (s.handleOf i) <;> simp [h]

theorem role_eq_none_iff {i : Slot} :
    s.role i = .none ↔ s.link.source ≠ .record (s.handleOf i) ∧ s.handleOf i ∉ s.link.sinks := by
  by_cases h : s.link.source = .record (s.handleOf i)
  · rw [role_eq_source_iff.mpr h]
    exact ⟨nofun, fun c => absurd h c.1⟩
  · rw [role_of_not_source h, ← List.idxOf?_eq_none_iff]
    cases s.link.sinks.idxOf? (s.handleOf i) <;> simp [h]

/-! ### The objects of the window -/

section
variable (s : State) (index field : Byte)

/-- The record in the slot of the index (R198). -/
theorem window_records :
    s.window { winsel := wordOf 0x01#8 index, winfield := field } =
      ((slotOfNat index.toNat).map fun i => s.recordField i field).getD 0#16 := by
  unfold State.window
  rw [hiByte_wordOf, loByte_wordOf]
  rfl

/-- The directory entry at the index (R199). -/
theorem window_directory :
    s.window { winsel := wordOf 0x02#8 index, winfield := field } =
      (s.directory[index.toNat]?.map fun e => s.entryField e field).getD 0#16 := by
  unfold State.window
  rw [hiByte_wordOf, loByte_wordOf]
  rfl

/-- The slot numbers of the free list, from its head (R199). -/
theorem window_freeList :
    s.window { winsel := wordOf 0x03#8 index, winfield := field } =
      (s.freeList[index.toNat]?.map fun i => listField (BitVec.ofNat 16 i.val) field).getD 0#16 := by
  unfold State.window
  rw [hiByte_wordOf, loByte_wordOf]
  rfl

/-- The handles of the sink list (R199). -/
theorem window_sinks :
    s.window { winsel := wordOf 0x04#8 index, winfield := field } =
      (s.link.sinks[index.toNat]?.map fun h => listField h.word field).getD 0#16 := by
  unfold State.window
  rw [hiByte_wordOf, loByte_wordOf]
  rfl

/-- The handles of the call queue (R199). -/
theorem window_queue :
    s.window { winsel := wordOf 0x05#8 index, winfield := field } =
      (s.calls.queue[index.toNat]?.map fun h => listField h.word field).getD 0#16 := by
  unfold State.window
  rw [hiByte_wordOf, loByte_wordOf]
  rfl

/-- The handles of the attention list (R199). -/
theorem window_attention :
    s.window { winsel := wordOf 0x06#8 index, winfield := field } =
      (s.notice.attention[index.toNat]?.map fun h => listField h.word field).getD 0#16 := by
  unfold State.window
  rw [hiByte_wordOf, loByte_wordOf]
  rfl

/-- A code of no object shows 0000H (R197). -/
theorem window_outside {code : Byte} (h : code = 0x00#8 ∨ 0x07#8 ≤ code) :
    s.window { winsel := wordOf code index, winfield := field } = 0#16 := by
  have hcode : code.toNat = 0 ∨ 7 ≤ code.toNat := h.imp (congrArg BitVec.toNat) id
  unfold State.window
  rw [hiByte_wordOf, loByte_wordOf]
  dsimp only
  split
  case h_7 => rfl
  all_goals omega

end

/-! ### Field numbers -/

/-- A field is one of the first `k`, or its number is `k` or greater. -/
theorem field_cases {P : Byte → Prop} (k : Nat) (known : ∀ n, n < k → P (BitVec.ofNat 8 n))
    (other : ∀ b : Byte, k ≤ b.toNat → P b) (b : Byte) : P b := by
  by_cases h : b.toNat < k
  · have e := known b.toNat h
    rwa [BitVec.ofNat_toNat, BitVec.setWidth_eq] at e
  · exact other b (Nat.not_lt.mp h)

/-- A field numbered `k` or greater is none of the first `k`. -/
theorem field_ne {k : Nat} {b : Byte} (h : k ≤ b.toNat) (n : Nat) (hn : n < k) : b ≠ BitVec.ofNat 8 n := by
  rintro rfl
  rw [BitVec.toNat_ofNat] at h
  exact absurd (h.trans (Nat.mod_le n _)) (Nat.not_le.mpr hn)

/-- The fields of a list object: VALID, then the value (R199). -/
theorem listField_eq (w : Word) (field : Byte) :
    listField w field = if field = 0#8 then 1#16 else if field = 1#8 then w else 0#16 := by
  induction field using field_cases 2 with
  | known n hn => interval_cases n <;> rfl
  | other b hb =>
    rw [if_neg (field_ne hb 0 (by decide)), if_neg (field_ne hb 1 (by decide))]
    unfold listField
    split
    case h_3 => rfl
    all_goals omega

/-- An entry has four fields (R199). -/
theorem entryField_of_le (s : State) (e : Entry) {field : Byte} (h : 4 ≤ field.toNat) :
    s.entryField e field = 0#16 := by
  unfold State.entryField
  split
  case h_5 => rfl
  all_goals omega

/-- A record has fourteen fields (R198). -/
theorem recordField_of_le (s : State) (i : Slot) {field : Byte} (h : 14 ≤ field.toNat) :
    s.recordField i field = 0#16 := by
  unfold State.recordField
  dsimp only
  split
  case h_15 => rfl
  all_goals omega

/-! ### Values of fields -/

/-- The HANDLE of an entry, by its slot (R38, R199). -/
theorem ownerWord_eq (s : State) (o : Owner) :
    s.ownerWord o = (match Claims.ownerSlot o with | none => 0xFFFE#16 | some i => (s.handleOf i).word) := by
  cases o <;> rfl

/-- The CALL field (R198). -/
theorem boolWord_calling (c : CallState) : boolWord (c == .calling) = if c = .calling then 1#16 else 0#16 := by
  cases c <;> rfl

/-- The poll byte as the word of the POLL field (R198). -/
theorem setWidth_toByte (a : PollAssignment) :
    a.toByte.setWidth 16 =
      0x40#16 + a.group.setWidth 16 * 16#16 + (if a.polarity = .inverted then 8#16 else 0#16) + a.line.setWidth 16 := by
  obtain ⟨group, line, polarity⟩ := a
  revert group line
  cases polarity <;> decide

theorem pollWord_eq (p : Option PollAssignment) :
    pollWord p =
      (match p with
       | none => 0#16
       | some a =>
         0x40#16 + a.group.setWidth 16 * 16#16 + (if a.polarity = .inverted then 8#16 else 0#16) +
           a.line.setWidth 16) := by
  cases p with
  | none => rfl
  | some a => exact setWidth_toByte a

/-- The words of a list, as a list object shows them (R199). -/
theorem listObject_eq {α : Type} (l : List α) (word : α → Word) (n : Nat) (field : Byte) :
    (l[n]?.map fun a => listField (word a) field).getD 0#16 =
      (match (l.map word)[n]? with
       | none => 0#16
       | some w => if field = 0#8 then 1#16 else if field = 1#8 then w else 0#16) := by
  rw [List.getElem?_map]
  cases l[n]? with
  | none => rfl
  | some a => exact listField_eq (word a) field

/-! ### Reset -/

/-- RESET-PART leaves the state right after reset as it is (R190). -/
theorem resetPart_reset : resetPart false State.reset = State.reset := by
  unfold resetPart
  rfl

theorem reset_freeList_val : State.reset.freeList.map (fun i : Slot => i.val) = List.range 192 :=
  List.map_coe_finRange_eq_range

theorem reset_counters (p : PollPoint) : Counters.at State.reset.counters p = 0 := by
  simp [Counters.at, State.reset, Vector.get_eq_getElem]

theorem reset_readLocation (loc : BitVec 5) : State.reset.readLocation loc = Claims.resetWord loc := by
  revert loc
  decide

end Sys2Proof.Machine

namespace Sys2Proof.Claims

open Sys2Proof.Machine

/-- Settles O55: the role by the place in the sink list, and each object by its code, its list and its fields. -/
theorem windowShowsSelectedField : Obligations.WindowShowsSelectedField := by
  refine ⟨fun s i => ⟨role_eq_source_iff, fun p => role_eq_sink_iff, role_eq_none_iff⟩, fun s code index field => ?_⟩
  refine ⟨?_, ?_, ?_, ?_, ?_, ?_, ?_, fun h => window_outside s index field h⟩
  · rintro rfl i hi
    refine (window_records s index field).trans ?_
    rw [slotOfNat_eq_some_iff.mpr hi]
    show s.recordField i field = _
    induction field using field_cases 14 with
    | known n hn =>
      match n, hn with
      | 8, _ => exact boolWord_calling _
      | 10, _ => exact pollWord_eq _
      | 0, _ | 1, _ | 2, _ | 3, _ | 4, _ | 5, _ | 6, _ | 7, _ | 9, _ | 11, _ | 12, _ | 13, _ => rfl
    | other b hb =>
      rw [recordField_of_le s i hb]
      simp only [field_ne hb, Nat.reduceLT, if_false]
  · rintro rfl hi
    refine (window_records s index field).trans ?_
    rw [slotOfNat_eq_none_iff.mpr hi]
    rfl
  · rintro rfl
    refine (window_directory s index field).trans ?_
    cases s.directory[index.toNat]? with
    | none => rfl
    | some e =>
      show s.entryField e field = _
      induction field using field_cases 4 with
      | known n hn =>
        match n, hn with
        | 3, _ => exact ownerWord_eq s e.owner
        | 0, _ | 1, _ | 2, _ => rfl
      | other b hb =>
        rw [entryField_of_le s e hb]
        simp only [field_ne hb, Nat.reduceLT, if_false]
  · rintro rfl
    exact (window_freeList s index field).trans (listObject_eq _ _ _ _)
  · rintro rfl
    exact (window_sinks s index field).trans (listObject_eq _ _ _ _)
  · rintro rfl
    exact (window_queue s index field).trans (listObject_eq _ _ _ _)
  · rintro rfl
    exact (window_attention s index field).trans (listObject_eq _ _ _ _)

/-- Settles O4: the records by `State.reset_record`, the counters and the registers each for all places at once. -/
theorem resetLeavesTheSpecValues : Obligations.ResetLeavesTheSpecValues :=
  ⟨State.reset_record, reset_freeList_val, rfl, rfl, rfl, rfl, rfl, rfl, rfl, rfl, rfl, rfl, rfl, rfl, rfl, rfl, rfl,
    rfl, reset_counters, rfl, rfl, rfl, rfl, rfl, rfl, rfl, reset_readLocation⟩

/-- Settles O60: the state right after reset is what RESET-PART makes of it, and in LEVEL mode no pulse is due. -/
theorem resetIsCoherent : Obligations.ResetIsCoherent := by
  have hcoherent := resetPart_coherent false State.reset
  have hbounds := resetPart_bounds false State.reset
  have hchannels := resetPart_channels false State.reset
  rw [resetPart_reset] at hcoherent hbounds hchannels
  exact ⟨hcoherent, hbounds.1, hbounds.2, hchannels, nofun⟩

end Sys2Proof.Claims
end

section
/-! The Tag Directory (R27 to R30), the claims of the Directory Engine (R33), and the read of WINDATA that waits for it
(R37, R186). -/

namespace Sys2Proof.Machine

variable {s : State}

/-! ### Insert and replace -/

theorem holdsTag_eq_true {t : Word} {d : List Entry} : holdsTag t d = true ↔ ∃ x ∈ d, x.tag = t := by
  simp only [holdsTag, List.any_eq_true, beq_iff_eq]

/-- An insert fails with TAG-TAKEN when a tag of it stands in the directory (R28). -/
theorem insertEntries_of_taken {es d : List Entry} (h : ∃ e ∈ es, ∃ x ∈ d, x.tag = e.tag) :
    insertEntries es d = .failed .tagTaken := by
  obtain ⟨e, he, hx⟩ := h
  exact if_pos (List.any_eq_true.mpr ⟨e, he, holdsTag_eq_true.mpr hx⟩)

/-- An insert of tags that do not stand in the directory is decided by the room (R28). -/
theorem insertEntries_of_fresh {es d : List Entry} (h : ∀ e ∈ es, ∀ x ∈ d, x.tag ≠ e.tag) :
    insertEntries es d =
      if 256 < d.length + es.length then .failed .directoryFull else .made (placeEntries es d) := by
  refine if_neg fun c => ?_
  obtain ⟨e, he, ht⟩ := List.any_eq_true.mp c
  obtain ⟨x, hx, e'⟩ := holdsTag_eq_true.mp ht
  exact h e he x hx e'

/-- A replace by a tag that stands in the directory fails with TAG-TAKEN (R30). -/
theorem replaceEntry_of_taken (target : Owner) {t : Word} {d : List Entry} (h : ∃ x ∈ d, x.tag = t) :
    replaceEntry target t d = .failed .tagTaken := if_pos (holdsTag_eq_true.mpr h)

/-- A replace by a new tag places the target's entry anew (R30). -/
theorem replaceEntry_of_fresh {target : Owner} {t : Word} {d : List Entry} (h : ∀ x ∈ d, x.tag ≠ t)
    (hp : ∃ x ∈ d, x.owner = target) :
    replaceEntry target t d =
      .made (placeEntry { tag := t, owner := target } (d.filter fun e => e.owner != target)) := by
  obtain ⟨y, hy, ho⟩ := hp
  have hfree : ¬holdsTag t d = true := Bool.eq_false_iff.mp (holdsTag_eq_false.mpr h)
  have hstands : d.any (fun e => e.owner == target) = true := List.any_eq_true.mpr ⟨y, hy, beq_iff_eq.mpr ho⟩
  exact (if_neg hfree).trans (if_pos hstands)

/-- Without the entries of one owner a directory is shorter by their number. -/
theorem length_filter_owner (target : Owner) (d : List Entry) :
    (d.filter fun e => e.owner != target).length + d.countP (fun e => e.owner = target) = d.length := by
  have hrest : d.countP (fun e => e.owner != target) = d.countP (fun e => decide ¬decide (e.owner = target) = true) :=
    List.countP_congr fun e _ => by simp only [bne_iff_ne, decide_eq_true_eq, ne_eq]
  rw [← List.countP_eq_length_filter, hrest, Nat.add_comm, ← List.length_eq_countP_add_countP]

/-! ### Claims -/

theorem sendLinkClaim_of_free (c : LinkClaim) (h : s.engine.flight = none) :
    sendLinkClaim c s = { s with engine.flight := some (.link c false) } := by
  unfold sendLinkClaim
  rw [h]

theorem sendLinkClaim_of_busy (c : LinkClaim) (h : s.engine.flight ≠ none) :
    sendLinkClaim c s = { s with engine.linkClaim := some c } := by
  unfold sendLinkClaim
  split
  · rename_i hn
    exact absurd hn h
  · rfl

theorem sendRequestClaim_of_free (op : Operation) (h : s.engine.flight = none) :
    sendRequestClaim op s = { s with engine.flight := some (.request op) } := by
  unfold sendRequestClaim
  rw [h]

theorem sendRequestClaim_of_busy (op : Operation) (h : s.engine.flight ≠ none) :
    sendRequestClaim op s = { s with engine.requestClaim := some op } := by
  unfold sendRequestClaim
  split
  · rename_i hn
    exact absurd hn h
  · rfl

theorem answerStretched_of_none (h : s.port.stretched = none) : answerStretched s = s := by
  unfold answerStretched
  rw [h]

theorem answerStretched_of_some {x : Selection} (h : s.port.stretched = some x) :
    answerStretched s = { s with port.readData := s.window x, port.stretched := none } := by
  unfold answerStretched
  rw [h]
  rfl

/-! ### The read of WINDATA -/

theorem exec_windataRead (h : s.port.resetHeld = false) :
    exec .windataRead s = .next (startPulse (readWindow s)) := if_neg (Bool.eq_false_iff.mp h)

theorem readWindow_of_waits (hw : s.port.select.waits = true) (hf : s.engine.flight ≠ none) :
    readWindow s = { s with port.stretched := some s.port.select } :=
  if_pos ⟨hw, Option.isSome_iff_ne_none.mpr hf⟩

theorem readWindow_of_not_waits (h : s.port.select.waits = false ∨ s.engine.flight = none) :
    readWindow s = { s with port.readData := s.window s.port.select } := by
  refine if_neg ?_
  rintro ⟨hw, hf⟩
  rcases h with h | h
  · exact Bool.eq_false_iff.mp h hw
  · exact Option.isSome_iff_ne_none.mp hf h

/-- The bytes numbered below `k`, as a list. -/
theorem toNat_lt_iff_mem (b : Byte) (k : Nat) (hk : k ≤ 256) :
    b.toNat < k ↔ b ∈ (List.range k).map (BitVec.ofNat 8) := by
  rw [List.mem_map]
  constructor
  · intro h
    exact ⟨b.toNat, List.mem_range.mpr h, BitVec.ofNat_toNat .. |>.trans (BitVec.setWidth_eq b)⟩
  · rintro ⟨n, hn, rfl⟩
    have := List.mem_range.mp hn
    rw [BitVec.toNat_ofNat]
    omega

section
variable {x : Selection}

theorem waits_record (h : hiByte x.winsel = 0x01#8) :
    x.waits = true ↔ x.winfield ∈ [0#8, 2#8, 3#8, 4#8] := by
  unfold Selection.waits
  rw [h]
  simp only [BitVec.toNat_ofNat, Nat.reducePow, Nat.reduceMod, Bool.or_eq_true, beq_iff_eq, List.mem_cons,
    List.not_mem_nil, or_false, or_assoc]

theorem waits_entry (h : hiByte x.winsel = 0x02#8) :
    x.waits = true ↔ x.winfield ∈ [0#8, 1#8, 2#8, 3#8] := by
  unfold Selection.waits
  rw [h]
  exact decide_eq_true_iff.trans (toNat_lt_iff_mem x.winfield 4 (by decide))

theorem waits_free (h : hiByte x.winsel = 0x03#8) : x.waits = true ↔ x.winfield ∈ [0#8, 1#8] := by
  unfold Selection.waits
  rw [h]
  exact decide_eq_true_iff.trans (toNat_lt_iff_mem x.winfield 2 (by decide))

theorem waits_other (h : hiByte x.winsel = 0x00#8 ∨ 0x04#8 ≤ hiByte x.winsel) : x.waits = false := by
  have hcode : (hiByte x.winsel).toNat = 0 ∨ 4 ≤ (hiByte x.winsel).toNat := h.imp (congrArg BitVec.toNat) id
  unfold Selection.waits
  split
  case h_4 => rfl
  all_goals omega

end

end Sys2Proof.Machine

namespace Sys2Proof.Claims

open Sys2Proof.Machine

/-- Settles O11: an insert and a replace by their tags and the room, each made one by the entries it places. -/
theorem directoryOperationsOnOrderedDirectory : Obligations.DirectoryOperationsOnOrderedDirectory := by
  intro d hd
  refine ⟨fun t o => lookupTag_iff hd t o, fun es hes => ⟨insertEntries_of_taken, fun hfresh hfull => ?_,
    fun hfresh hroom => ?_⟩, fun what => hd.sublist (removeEntries_sublist what d),
    fun i x => mem_removeEntries_slot i d x, fun i x => mem_removeEntries_second i d x,
    fun x => mem_removeEntries_management d x, fun target t => replaceEntry_of_taken target,
    fun target t hfresh honce => ?_⟩
  · rw [insertEntries_of_fresh hfresh, if_pos hfull]
  · obtain ⟨hsorted, hlength, hmem⟩ := placeEntries_spec es d hd (List.pairwise_map.mpr hes) hfresh
    refine ⟨placeEntries es d, ?_, hsorted, hmem, hlength⟩
    rw [insertEntries_of_fresh hfresh, if_neg (Nat.not_lt.mpr hroom)]
  · have hstands : ∃ x ∈ d, x.owner = target := by
      obtain ⟨x, hx, ho⟩ := List.countP_pos_iff.mp (honce ▸ Nat.one_pos)
      exact ⟨x, hx, of_decide_eq_true ho⟩
    have hmade := replaceEntry_of_fresh hfresh hstands
    obtain ⟨hsorted, -, hmem⟩ := replaceEntry_made hd hstands hmade
    refine ⟨_, hmade, hsorted, hmem, ?_⟩
    rw [length_placeEntry, ← length_filter_owner target d, honce]

/-- Settles O12. -/
theorem claimsAreTakenInOrder : Obligations.ClaimsAreTakenInOrder := by
  refine ⟨fun s c => ⟨sendLinkClaim_of_free c, sendLinkClaim_of_busy c⟩,
    fun s op => ⟨sendRequestClaim_of_free op, sendRequestClaim_of_busy op⟩,
    fun e c hl => ?_, fun e op hl hr => ?_, fun e hl hr => ?_, fun s h => ?_, fun s x h => ?_⟩
  · unfold Engine.takeNext
    rw [hl]
  · unfold Engine.takeNext
    rw [hl, hr]
  · unfold Engine.takeNext
    rw [hl, hr]
  · unfold finishOperation
    rw [answerStretched_of_none h]
  · unfold finishOperation
    rw [answerStretched_of_some h]

/-- Settles O32. -/
theorem windataReadWaitsForTheEngine : Obligations.WindataReadWaitsForTheEngine := by
  refine ⟨fun s hheld => ⟨fun hw hf => ?_, fun h => ?_⟩,
    fun x => ⟨waits_record, waits_entry, waits_free, waits_other⟩⟩
  · unfold Answers
    rw [exec_windataRead hheld, readWindow_of_waits hw hf]
  · unfold Answers
    rw [exec_windataRead hheld, readWindow_of_not_waits h]

end Sys2Proof.Claims
end

section
/-! The acceptance checks of every request (R39, R40, R42, R43, R49, R53 to R59, R103, R116 to R118, R137 to R139), and
FIND and SET-MANAGEMENT-TAG with their completions (R39, R40). -/

namespace Sys2Proof.Machine

variable {s : State}

/-! ### Words in their ranges -/

theorem optionsOf_eq_none {w : Word} (h : w.getLsbD 7 = true) : optionsOf w = none := if_pos h

/-- A poll byte outside 00H and 40H to 7FH is out of range (R193). -/
theorem pollByteOf_eq_none {b : Byte} (h : ¬(b = 0x00#8 ∨ (0x40#8 ≤ b ∧ b ≤ 0x7F#8))) : pollByteOf b = none := by
  obtain ⟨hzero, hrange⟩ := not_or.mp h
  exact (if_neg hzero).trans (if_neg hrange)

theorem pollOfWords_eq_none {group line polarity : Word}
    (h : 4 ≤ group.toNat ∨ 8 ≤ line.toNat ∨ 2 ≤ polarity.toNat) : pollOfWords group line polarity = none :=
  if_neg (by omega)

theorem zeroOrOne_eq_none {w : Word} (h : 2 ≤ w.toNat) : zeroOrOne w = none := by
  unfold zeroOrOne
  rw [if_neg, if_neg]
  · rintro rfl
    exact absurd h (by decide)
  · rintro rfl
    exact absurd h (by decide)

theorem zeroOrOne_eq_some {w : Word} (h : w.toNat < 2) : ∃ b, zeroOrOne w = some b := by
  unfold zeroOrOne
  by_cases h0 : w = 0#16
  · exact ⟨false, if_pos h0⟩
  · have h1 : w = 1#16 := by
      have h0' : w.toNat ≠ 0 := fun c => h0 (BitVec.eq_of_toNat_eq c)
      exact BitVec.eq_of_toNat_eq (show w.toNat = 1 by omega)
    exact ⟨true, (if_neg h0).trans (if_pos h1)⟩

/-! ### Records -/

theorem inService_eq_false {i : Slot} (h : ¬Claims.InService s i) : (s.record i).inService = false :=
  Bool.eq_false_iff.mpr fun c => h (inService_iff.mp c)

theorem inService_ne_false {i : Slot} (h : Claims.InService s i) : ¬(s.record i).inService = false :=
  fun c => Bool.eq_false_iff.mp c (inService_iff.mpr h)

/-- A record is named: source, sink, or of the pending confirm (R49). -/
theorem isNamed_of_named {i : Slot} (h : Claims.Named s i) : s.isNamed i = true := by
  unfold State.isNamed
  rw [Bool.or_eq_true, Bool.or_eq_true, beq_iff_eq, decide_eq_true_eq, beq_iff_eq, or_assoc]
  refine h.imp_right (Or.imp_right ?_)
  rintro ⟨c, hc, hh⟩
  rw [hc, Option.map_some, hh]

/-! ### CREATE -/

/-- A CREATE with a word out of range fails with BAD-REQUEST (R43, checks 1 to 3). -/
theorem runCreate_of_outOfRange (h : Claims.CreateOutOfRange s) : runCreate s = failRequest .badRequest s := by
  unfold runCreate
  by_cases htag : s.param 0 = 0#16
  · exact if_pos htag
  by_cases hsecond : s.param 1 ≠ 0#16 ∧ s.param 1 = s.param 0
  · exact (if_neg htag).trans (if_pos hsecond)
  rw [if_neg htag, if_neg hsecond]
  rcases (h.resolve_left htag).resolve_left hsecond with hopt | hpoll
  · rw [optionsOf_eq_none hopt]
  · rw [pollByteOf_eq_none hpoll]
    cases optionsOf (s.param 2) <;> rfl

/-- A CREATE in range fails with NO-SLOT when no slot is free (R43, check 4). -/
theorem runCreate_of_noSlot (h : ¬Claims.CreateOutOfRange s) (hf : s.freeList = []) :
    runCreate s = failRequest .noSlot s := by
  obtain ⟨htag, h⟩ := not_or.mp h
  obtain ⟨hsecond, h⟩ := not_or.mp h
  obtain ⟨hopt, hpoll⟩ := not_or.mp h
  unfold runCreate
  rw [if_neg htag, if_neg hsecond, optionsOf_eq_some hopt, pollByteOf_eq_some (not_not.mp hpoll), hf]

/-! ### FIND and SET-MANAGEMENT-TAG -/

/-- The value of a tag that is 0000H for none (R40, R193). -/
theorem managementValue_tagOrNone (w : Word) :
    managementValue (tagOrNone w) = if w = 0#16 then 0xFFFF#16 else 0xFFFE#16 := by
  unfold tagOrNone
  split <;> rfl

theorem managementValue_eq (t : Option Word) : managementValue t = if t = none then 0xFFFF#16 else 0xFFFE#16 := by
  cases t <;> rfl

theorem tagOrNone_of_ne {w : Word} (h : w ≠ 0#16) : tagOrNone w = some w := if_neg h

theorem tagOrNone_zero : tagOrNone 0#16 = none := if_pos rfl

/-- SET-MANAGEMENT-TAG of another tag fails while the management station is the part source (R40). -/
theorem runSetManagementTag_of_named (h : tagOrNone (s.param 0) ≠ s.managementTag)
    (hs : s.link.source = .management) : runSetManagementTag s = failRequest .named s :=
  (if_neg h).trans (if_pos hs)

/-- SET-MANAGEMENT-TAG of another tag claims the operation of the two tags (R40). -/
theorem runSetManagementTag_of_claim {given : Option Word} (hgiven : tagOrNone (s.param 0) = given)
    (h : given ≠ s.managementTag) (hs : s.link.source ≠ .management) :
    runSetManagementTag s =
      Claims.staged .setManagementTag (managementOperation s.managementTag given) s := by
  subst hgiven
  exact (if_neg h).trans (if_neg hs)

theorem execFindLookupComplete_of_flight {params : Vector Word 4} {tag : Word}
    (hq : s.request = some { kind := .find, params := params }) (hf : s.engine.flight = some (.request (.lookup tag))) :
    execFindLookupComplete s = done (finishOperation (findMade (.lookup tag) s)) := by
  unfold execFindLookupComplete
  rw [completeRequest_of_pick (pick := DirectoryRequest.isFind) hq hf rfl]

/-- The lookup of a FIND finds the owner of the tag (R39). -/
theorem findMade_of_found {tag : Word} {o : Owner} (h : lookupTag tag s.directory = some o) :
    findMade (.lookup tag) s = endRequest .ok (s.ownerWord o) s := by
  unfold findMade
  dsimp only
  rw [h]

theorem findMade_of_absent {tag : Word} (h : lookupTag tag s.directory = none) :
    findMade (.lookup tag) s = failRequest .notFound s := by
  unfold findMade
  dsimp only
  rw [h]

theorem execSetManagementTagComplete_of_flight {params : Vector Word 4} {op : Operation}
    (hq : s.request = some { kind := .setManagementTag, params := params })
    (hf : s.engine.flight = some (.request op)) :
    execSetManagementTagComplete s =
      done (finishOperation (changeDirectory op (managementMade params) failRequest s)) := by
  unfold execSetManagementTagComplete
  rw [completeRequest_of_pick (pick := DirectoryRequest.isSetManagementTag) hq hf rfl]

/-- The management tag and the result of a SET-MANAGEMENT-TAG that is made (R40). -/
theorem managementMade_eq (params : Vector Word 4) (s : State) :
    managementMade params s =
      endRequest .ok (if params.get 0 = 0#16 then 0xFFFF#16 else 0xFFFE#16)
        { s with managementTag := Claims.tagIn (params.get 0) } := by
  unfold managementMade
  dsimp only
  rw [managementValue_tagOrNone]
  rfl

end Sys2Proof.Machine

namespace Sys2Proof.Claims

open Sys2Proof.Machine

variable {s : State}

/-- A request on a record whose body fails a check ends with that check's result (R42, R194). -/
theorem answers_of_failedCheck {body : Slot → State → State} {c : Instr} {i : Slot} {r : ResultCode}
    (hexec : exec c s = busWrite (startRequest (onRecord body)) s) (hready : Ready s)
    (hslot : s.slotOf (s.param 0) = some i) (hbody : body i s = failRequest r s) :
    Answers c s (endRequest r 0xFFFF#16 s) := by
  unfold Answers
  rw [hexec, busWrite_startRequest hready, onRecord_of_slotOf body hslot, hbody]
  rfl

/-- The checks of the requests on records, each after those before it in its rule. -/
theorem answers_of_turnedAway {i : Slot} {c : Instr} {r : ResultCode} (hready : Ready s)
    (hslot : s.slotOf (s.param 0) = some i) (h : TurnedAway s i c r) : Answers c s (endRequest r 0xFFFF#16 s) := by
  cases h with
  | retireNamed hforce hnamed =>
    exact answers_of_failedCheck rfl hready hslot (if_pos ⟨hforce, isNamed_of_named hnamed⟩)
  | retagState hs => exact answers_of_failedCheck rfl hready hslot (if_pos (inService_eq_false hs))
  | retagTag hs htag =>
    exact answers_of_failedCheck rfl hready hslot ((if_neg (inService_ne_false hs)).trans (if_pos htag))
  | setAliasState hs => exact answers_of_failedCheck rfl hready hslot (if_pos (inService_eq_false hs))
  | setAliasTag hs htag =>
    exact answers_of_failedCheck rfl hready hslot ((if_neg (inService_ne_false hs)).trans (if_pos htag))
  | clearAliasState hs => exact answers_of_failedCheck rfl hready hslot (if_pos (.inl (inService_eq_false hs)))
  | clearAliasNone hs hnone => exact answers_of_failedCheck rfl hready hslot (if_pos (.inr hnone))
  | suspendState hs => exact answers_of_failedCheck rfl hready hslot (if_pos hs)
  | suspendNamed hs hforce hnamed =>
    exact answers_of_failedCheck rfl hready hslot
      ((if_neg (not_not.mpr hs)).trans (if_pos ⟨hforce, isNamed_of_named hnamed⟩))
  | resumeState hs => exact answers_of_failedCheck rfl hready hslot (if_pos hs)
  | setOptionsState hs => exact answers_of_failedCheck rfl hready hslot (if_pos (inService_eq_false hs))
  | setOptionsRange hs hrange =>
    exact answers_of_failedCheck rfl hready hslot
      ((if_neg (inService_ne_false hs)).trans (by rw [optionsOf_eq_none hrange]))
  | setStatusState hs => exact answers_of_failedCheck rfl hready hslot (if_pos (inService_eq_false hs))
  | callState hs => exact answers_of_failedCheck rfl hready hslot (if_pos hs)
  | withdrawQuiet hquiet => exact answers_of_failedCheck rfl hready hslot (if_pos hquiet)
  | setPollState hs => exact answers_of_failedCheck rfl hready hslot (if_pos (inService_eq_false hs))
  | setPollRange hs hrange =>
    exact answers_of_failedCheck rfl hready hslot
      ((if_neg (inService_ne_false hs)).trans (by rw [pollOfWords_eq_none hrange]))
  | clearPollState hs => exact answers_of_failedCheck rfl hready hslot (if_pos (.inl (inService_eq_false hs)))
  | clearPollNone hs hnone => exact answers_of_failedCheck rfl hready hslot (if_pos (.inr hnone))
  | setFlagState hs => exact answers_of_failedCheck rfl hready hslot (if_pos (inService_eq_false hs))
  | setFlagRange hs hrange =>
    exact answers_of_failedCheck rfl hready hslot
      ((if_neg (inService_ne_false hs)).trans (by rw [zeroOrOne_eq_none hrange]))
  | setFlagFromCall hs hrange hcall =>
    obtain ⟨b, hb⟩ := zeroOrOne_eq_some hrange
    refine answers_of_failedCheck rfl hready hslot ((if_neg (inService_ne_false hs)).trans ?_)
    rw [hb]
    exact if_pos hcall
  | confirmRange hrange =>
    refine answers_of_failedCheck rfl hready hslot ?_
    rw [zeroOrOne_eq_none hrange]
  | confirmLate hrange hlate =>
    obtain ⟨b, hb⟩ := zeroOrOne_eq_some hrange
    refine answers_of_failedCheck rfl hready hslot ?_
    rw [hb]
    cases hc : s.link.confirm with
    | none => rfl
    | some c => exact if_neg (hlate c hc)

/-- Settles O16. -/
theorem acceptanceChecksEndRequests : Obligations.AcceptanceChecksEndRequests := by
  refine ⟨fun s i c r hready hslot => answers_of_turnedAway hready hslot, fun s hready hrange => ?_,
    fun s hready hrange hfree => ?_, fun s hready htag => ?_, fun s hready htag hsource => ?_⟩
  · refine (busWrite_startRequest hready runCreate).trans ?_
    rw [runCreate_of_outOfRange hrange]
    rfl
  · refine (busWrite_startRequest hready runCreate).trans ?_
    rw [runCreate_of_noSlot hrange hfree]
    rfl
  · refine (busWrite_startRequest hready runFind).trans ?_
    unfold runFind
    rw [if_pos htag]
    rfl
  · refine (busWrite_startRequest hready runSetManagementTag).trans ?_
    rw [runSetManagementTag_of_named htag hsource]
    rfl

/-- A SET-MANAGEMENT-TAG that claims its operation (R40, R42). -/
theorem answers_setManagementTag_of_claim {given : Option Word} (hready : Ready s)
    (hgiven : tagOrNone (s.param 0) = given) (h : given ≠ s.managementTag) (hsource : s.link.source ≠ .management) :
    Answers .setManagementTag s (staged .setManagementTag (managementOperation s.managementTag given) s) := by
  unfold Answers
  rw [← runSetManagementTag_of_claim hgiven h hsource]
  exact busWrite_startRequest hready runSetManagementTag

/-- Settles O21: the claim of SET-MANAGEMENT-TAG by the present and the given tag. -/
theorem findAndManagementTagClaims : Obligations.FindAndManagementTagClaims := by
  intro s hready
  refine ⟨fun htag => ?_, fun hsame => ?_, fun hsource => ⟨fun hnone htag => ?_, fun t hsome htag hne => ?_,
    fun hsome htag => ?_⟩⟩
  · refine (busWrite_startRequest hready runFind).trans ?_
    unfold runFind
    rw [if_neg htag]
    rfl
  · refine (busWrite_startRequest hready runSetManagementTag).trans ?_
    rw [← managementValue_eq]
    exact congrArg (fun u => Host.Outcome.next (startPulse u)) (if_pos hsame)
  · have hclaim := answers_setManagementTag_of_claim hready (tagOrNone_of_ne htag) (by rw [hnone]; nofun) hsource
    rwa [hnone] at hclaim
  · have hclaim := answers_setManagementTag_of_claim hready (tagOrNone_of_ne htag)
      (by rw [hsome]; exact fun c => hne (Option.some.inj c)) hsource
    rwa [hsome] at hclaim
  · have hclaim := answers_setManagementTag_of_claim hready (htag ▸ tagOrNone_zero) hsome.symm hsource
    obtain ⟨t, ht⟩ := Option.ne_none_iff_exists'.mp hsome
    rwa [ht] at hclaim

/-- A SET-MANAGEMENT-TAG whose change to the directory is made (R40). -/
theorem answers_setManagementTagComplete_of_made {params : Vector Word 4} {op : Operation} {d : List Entry}
    (hq : s.request = some { kind := .setManagementTag, params := params })
    (hf : s.engine.flight = some (.request op)) (hd : op.change s.directory = .made d) :
    Answers .setManagementTagComplete s
      (finishOperation
        (endRequest .ok (if params.get 0 = 0#16 then 0xFFFF#16 else 0xFFFE#16)
          { s with directory := d, managementTag := tagIn (params.get 0) })) := by
  refine (execSetManagementTagComplete_of_flight hq hf).trans ?_
  rw [changeDirectory_of_made _ _ hd, managementMade_eq]
  rfl

/-- A SET-MANAGEMENT-TAG whose change to the directory fails (R28, R30, R31). -/
theorem answers_setManagementTagComplete_of_failed {params : Vector Word 4} {op : Operation} {r : ResultCode}
    (hq : s.request = some { kind := .setManagementTag, params := params })
    (hf : s.engine.flight = some (.request op)) (hr : op.change s.directory = .failed r) :
    Answers .setManagementTagComplete s (finishOperation (endRequest r 0xFFFF#16 s)) := by
  refine (execSetManagementTagComplete_of_flight hq hf).trans ?_
  rw [changeDirectory_of_failed _ _ hr]
  rfl

/-- Settles O50: a FIND by what its lookup finds, a SET-MANAGEMENT-TAG by what its operation makes of the directory. -/
theorem findAndManagementTagComplete : Obligations.FindAndManagementTagComplete := by
  refine fun s params => ⟨fun tag hq hf => ⟨fun i hfound => ?_, fun hfound => ?_, fun habsent => ?_⟩,
    fun op hq hf => ⟨fun d hmade => ?_, fun r hfailed => ?_⟩⟩
  · refine (execFindLookupComplete_of_flight hq hf).trans ?_
    rcases hfound with hfound | hfound <;>
      (rw [findMade_of_found hfound]; rfl)
  · refine (execFindLookupComplete_of_flight hq hf).trans ?_
    rw [findMade_of_found hfound]
    rfl
  · refine (execFindLookupComplete_of_flight hq hf).trans ?_
    rw [findMade_of_absent habsent]
    rfl
  · refine answers_setManagementTagComplete_of_made hq hf ?_
    rcases hmade with ⟨es, rfl, h⟩ | ⟨tag, rfl, h⟩ | ⟨rfl, h⟩
    · exact h
    · exact h
    · exact congrArg Change.made h
  · refine answers_setManagementTagComplete_of_failed hq hf ?_
    rcases hfailed with ⟨es, rfl, h⟩ | ⟨tag, rfl, h⟩
    · exact h
    · exact h

end Sys2Proof.Claims
end

section
/-! STOP and CLEAR asserted (R83 to R86), and the completions of the link's directory operations: the rows of R96 and
R97, and the replace of a director RETAG (R111). -/

namespace Sys2Proof.Machine

variable {s t u : State}

/-! ### STOP and CLEAR -/

/-- A link operation in flight has its result discarded; a request's goes on (R35). -/
theorem map_discard_flight (s : State) :
    s.engine.flight.map Flight.discard = (Claims.linkAbandoned s).engine.flight := by
  unfold Claims.linkAbandoned
  match s.engine.flight with
  | none => rfl
  | some (.link c b) => rfl
  | some (.request op) => rfl

/-- What STOP, CLEAR and OFFLINE do alike, as one state. -/
theorem abandonLink_eq (s : State) : abandonLink s = Claims.linkAbandoned s := by
  unfold abandonLink withdrawLinkClaim Claims.linkAbandoned
  dsimp only
  rw [map_discard_flight]
  cases s.link.confirm <;> rfl

/-- STOP while ONLINE: STOPPED is posted when it closes an open inbound session (R83, R162). -/
theorem stopLink_eq (s : State) :
    stopLink s =
      { Claims.linkAbandoned s with
        notice.devnotice :=
          if s.data.session.isSome then (Claims.linkAbandoned s).notice.devnotice ||| 0x0002#13
          else (Claims.linkAbandoned s).notice.devnotice } := by
  unfold stopLink postStopped
  rw [abandonLink_eq]
  cases s.data.session.isSome <;> rfl

/-- CLEAR while ONLINE (R85). -/
theorem clearLink_eq (s : State) :
    clearLink s =
      { Claims.namingEmptied (Claims.linkAbandoned s) with
        link.clearSeen := true
        notice.devnotice := (Claims.linkAbandoned s).notice.devnotice ||| 0x0001#13 } := by
  unfold clearLink
  rw [abandonLink_eq]
  rfl

/-! ### The part source -/

theorem unbacked_eq (o : Offered) : o.unbacked = Claims.unbackedOffer o := by
  obtain ⟨kind, v, e, h⟩ := o
  cases kind <;> rfl

theorem answerAfterRelease_eq (s : State) : answerAfterRelease s.link.offered s.calls.answer = Claims.answerLeft s := by
  unfold Claims.answerLeft
  cases s.calls.answer with
  | none => rfl
  | roster tags p => rfl
  | status h next => cases s.link.offered <;> rfl

theorem releaseSource_eq (s : State) : releaseSource s = Claims.sourceReleased s := by
  unfold releaseSource Claims.sourceReleased
  rw [answerAfterRelease_eq, show Offered.unbacked = Claims.unbackedOffer from funext unbacked_eq]

theorem unnameSource_eq (s : State) : unnameSource s = Claims.sourceUnnamed s := by
  unfold unnameSource Claims.sourceUnnamed
  cases s.link.source with
  | none => rfl
  | record h => exact congrArg (postRecord .unnamed h.slot) (releaseSource_eq s)
  | management => rfl

theorem applySink_eq (i : Slot) (s : State) : applySink i s = Claims.namedSink i s := by
  unfold applySink Claims.namedSink releaseIfSource
  rw [releaseSource_eq]
  split <;> rfl

/-! ### The lookup of a NAME-SOURCE -/

theorem isCurrentSource_iff {found : Option Owner} :
    isCurrentSource s found = true ↔ Claims.IsCurrentSource s found := by
  match found with
  | none => exact ⟨nofun, nofun⟩
  | some .management => exact beq_iff_eq
  | some (.primary i) => exact beq_iff_eq
  | some (.aliasOf i) => exact beq_iff_eq

/-- The resolution for an entry of a record, after step 1 of R96. -/
theorem resolveSource_of_ownerSlot {o : Owner} {i : Slot} (h : Claims.ownerSlot o = some i) :
    resolveSource (some o) s =
      sourceOutcome (isCurrentSource s (some o)) i
        (if isCurrentSource s (some o) then s else unnameSource s) := by
  cases o with
  | primary j =>
    cases h
    rfl
  | aliasOf j =>
    cases h
    rfl
  | management => cases h

section
variable {current : Bool} {i : Slot}

theorem sourceOutcome_of_retiring (h : (s.record i).state = .retiring) :
    sourceOutcome current i s = Claims.taken s := by
  unfold sourceOutcome
  rw [h]
  rfl

theorem sourceOutcome_of_suspended (h : (s.record i).state = .suspended) :
    sourceOutcome current i s = Claims.refused s := by
  unfold sourceOutcome
  rw [h]
  rfl

theorem sourceOutcome_of_current (h : (s.record i).state = .active) :
    sourceOutcome true i s = Claims.taken s := by
  unfold sourceOutcome
  rw [h]
  rfl

theorem sourceOutcome_of_confirm (h : (s.record i).state = .active) (ho : (s.record i).options.getLsbD 0 = true) :
    sourceOutcome false i s = Claims.confirmOpened .source i s := by
  unfold sourceOutcome
  rw [h]
  exact if_pos ho

theorem sourceOutcome_of_applied (h : (s.record i).state = .active) (ho : (s.record i).options.getLsbD 0 = false) :
    sourceOutcome false i s = Claims.taken (Claims.namedSource i s) := by
  unfold sourceOutcome
  rw [h]
  exact if_neg (Bool.eq_false_iff.mp ho)

end

/-- The resolution of a NAME-SOURCE by the row of R96 that applies after its step 1. -/
theorem resolveSource_of_row {found : Option Owner} (ht : (if isCurrentSource s found then s else unnameSource s) = t)
    (row : Claims.SourceRow s t found u) : resolveSource found s = u := by
  cases row with
  | noEntry => exact congrArg takeHeld ht
  | management =>
    unfold resolveSource
    dsimp only
    rw [ht]
    rfl
  | retiring o i ho hs => rw [resolveSource_of_ownerSlot ho, ht, sourceOutcome_of_retiring hs]
  | suspended o i ho hs => rw [resolveSource_of_ownerSlot ho, ht, sourceOutcome_of_suspended hs]
  | current o i ho hs hc =>
    rw [resolveSource_of_ownerSlot ho, ht, isCurrentSource_iff.mpr hc, sourceOutcome_of_current hs]
  | confirm o i ho hs hc hopt =>
    rw [resolveSource_of_ownerSlot ho, ht, Bool.eq_false_iff.mpr (mt isCurrentSource_iff.mp hc),
      sourceOutcome_of_confirm hs hopt]
  | applied o i ho hs hc hopt =>
    rw [resolveSource_of_ownerSlot ho, ht, Bool.eq_false_iff.mpr (mt isCurrentSource_iff.mp hc),
      sourceOutcome_of_applied hs hopt]

theorem execNameSourceLookupComplete_of_flight {tag : Word} {discarded : Bool}
    (h : s.engine.flight = some (.link (.lookup .source tag) discarded)) :
    execNameSourceLookupComplete s =
      done (finishOperation (if discarded then s else resolveSource (lookupTag tag s.directory) s)) := by
  unfold execNameSourceLookupComplete
  rw [h]

/-! ### The lookup of a NAME-SINK -/

theorem resolveSink_of_ownerSlot {o : Owner} {i : Slot} (h : Claims.ownerSlot o = some i) :
    resolveSink (some o) s = sinkOutcome i s := by
  cases o with
  | primary j =>
    cases h
    rfl
  | aliasOf j =>
    cases h
    rfl
  | management => cases h

section
variable {i : Slot}

theorem sinkOutcome_of_retiring (h : (s.record i).state = .retiring) : sinkOutcome i s = Claims.taken s := by
  unfold sinkOutcome
  rw [h]
  rfl

theorem sinkOutcome_of_suspended (h : (s.record i).state = .suspended) : sinkOutcome i s = Claims.refused s := by
  unfold sinkOutcome
  rw [h]
  rfl

theorem sinkOutcome_of_already (h : (s.record i).state = .active) (hm : s.handleOf i ∈ s.link.sinks) :
    sinkOutcome i s = Claims.taken s := by
  unfold sinkOutcome
  rw [h]
  exact if_pos hm

theorem sinkOutcome_of_full (h : (s.record i).state = .active) (hm : s.handleOf i ∉ s.link.sinks)
    (hl : 16 ≤ s.link.sinks.length) : sinkOutcome i s = Claims.refused s := by
  unfold sinkOutcome
  rw [h]
  exact (if_neg hm).trans (if_pos hl)

theorem sinkOutcome_of_room (h : (s.record i).state = .active) (hm : s.handleOf i ∉ s.link.sinks)
    (hl : s.link.sinks.length < 16) :
    sinkOutcome i s =
      if (s.record i).options.getLsbD 0 then Claims.confirmOpened .sink i s
      else Claims.taken (Claims.namedSink i s) := by
  unfold sinkOutcome
  rw [h, ← applySink_eq]
  exact (if_neg hm).trans (if_neg (Nat.not_le.mpr hl))

end

/-- The resolution of a NAME-SINK by the row of R97 that applies. -/
theorem resolveSink_of_row {found : Option Owner} (row : Claims.SinkRow s found u) : resolveSink found s = u := by
  cases row with
  | noEntry => rfl
  | management => rfl
  | retiring o i ho hs => rw [resolveSink_of_ownerSlot ho, sinkOutcome_of_retiring hs]
  | suspended o i ho hs => rw [resolveSink_of_ownerSlot ho, sinkOutcome_of_suspended hs]
  | already o i ho hs hm => rw [resolveSink_of_ownerSlot ho, sinkOutcome_of_already hs hm]
  | full o i ho hs hm hl => rw [resolveSink_of_ownerSlot ho, sinkOutcome_of_full hs hm hl]
  | confirm o i ho hs hm hl hopt => rw [resolveSink_of_ownerSlot ho, sinkOutcome_of_room hs hm hl, if_pos hopt]
  | applied o i ho hs hm hl hopt =>
    rw [resolveSink_of_ownerSlot ho, sinkOutcome_of_room hs hm hl, if_neg (Bool.eq_false_iff.mp hopt)]

theorem execNameSinkLookupComplete_of_flight {tag : Word} {discarded : Bool}
    (h : s.engine.flight = some (.link (.lookup .sink tag) discarded)) :
    execNameSinkLookupComplete s =
      done (finishOperation (if discarded then s else resolveSink (lookupTag tag s.directory) s)) := by
  unfold execNameSinkLookupComplete
  rw [h]

/-! ### The replace of a director RETAG -/

theorem execLinkRetagReplaceComplete_of_flight {i : Slot} {tag : Word} {discarded : Bool}
    (h : s.engine.flight = some (.link (.replace i tag) discarded)) :
    execLinkRetagReplaceComplete s = done (finishOperation (completeLinkReplace i tag discarded s)) := by
  unfold execLinkRetagReplaceComplete
  rw [h]

end Sys2Proof.Machine

namespace Sys2Proof.Claims

open Sys2Proof.Machine

/-- Settles O44: ONLINE the link is abandoned as one state; OFFLINE the line and the standing offer alone change. -/
theorem stopAndClear : Obligations.StopAndClear := by
  refine fun s => ⟨fun honline => ⟨?_, ?_⟩, fun hoffline => ⟨?_, ?_⟩⟩
  · show execStopAsserted s = _
    unfold execStopAsserted
    rw [if_pos honline, stopLink_eq]
    rfl
  · show execClearAsserted s = _
    unfold execClearAsserted
    rw [if_pos honline, clearLink_eq]
    rfl
  · show execStopAsserted s = _
    unfold execStopAsserted
    rw [if_neg (Bool.eq_false_iff.mp hoffline)]
    rfl
  · show execClearAsserted s = _
    unfold execClearAsserted
    rw [if_neg (Bool.eq_false_iff.mp hoffline)]
    rfl

/-- Settles O45: step 1 of R96 gives the state the row applies to. -/
theorem nameSourceIsResolved : Obligations.NameSourceIsResolved := by
  refine fun s tag => ⟨fun hflight => ⟨fun u hcurrent row => ?_, fun u hother row => ?_⟩, fun hflight =>
    execNameSourceLookupComplete_of_flight hflight⟩
  · refine (execNameSourceLookupComplete_of_flight hflight).trans ?_
    rw [← resolveSource_of_row (if_pos (isCurrentSource_iff.mpr hcurrent)) row]
    rfl
  · refine (execNameSourceLookupComplete_of_flight hflight).trans ?_
    have hstep : (if isCurrentSource s (lookupTag tag s.directory) then s else unnameSource s) = sourceUnnamed s :=
      (if_neg (mt isCurrentSource_iff.mp hother)).trans (unnameSource_eq s)
    rw [← resolveSource_of_row hstep row]
    rfl

/-- Settles O46. -/
theorem nameSinkIsResolved : Obligations.NameSinkIsResolved := by
  refine fun s tag => ⟨fun hflight u row => ?_, fun hflight => execNameSinkLookupComplete_of_flight hflight⟩
  refine (execNameSinkLookupComplete_of_flight hflight).trans ?_
  rw [← resolveSink_of_row row]
  rfl

/-- Settles O47: the replace is made or fails, and only a result that is not discarded takes or refuses the unit. -/
theorem linkRetagReplaceCompletes : Obligations.LinkRetagReplaceCompletes := by
  refine fun s i tag d discarded hflight => ⟨fun hmade => ?_, fun hfailed => ?_⟩
  · refine (execLinkRetagReplaceComplete_of_flight hflight).trans ?_
    unfold completeLinkReplace
    rw [hmade]
    rfl
  · refine (execLinkRetagReplaceComplete_of_flight hflight).trans ?_
    unfold completeLinkReplace
    rw [hfailed]
    rfl

end Sys2Proof.Claims
end

section
/-! The record lifecycle past its checks: the detachments of RETIRE and SUSPEND (R47 to R51, R57), the tag requests with
their completions (R53, R55, R56), and the link take of an outbound unit (R61, R71, R148, R160, R161). -/

namespace Sys2Proof.Machine

variable {s : State}

/-! ### Two changes of one record -/

/-- Two changes of one record commute, when they commute on its fields and one of them keeps its drive. -/
theorem State.updRecord_comm_of_drive (s : State) (i : Slot) {f g : Record → Record} (hcomm : ∀ r, f (g r) = g (f r))
    (hdrive : ∀ r, (g r).drive = r.drive) :
    (s.updRecord i g).updRecord i f = (s.updRecord i f).updRecord i g := by
  rw [s.updRecord_updRecord i g f (.inl (hdrive _)), s.updRecord_updRecord i f g (.inr (hdrive _)), funext hcomm]

theorem State.handleOf_updRecord (s : State) (i : Slot) {g : Record → Record}
    (hgen : ∀ r, (g r).generation = r.generation) : (s.updRecord i g).handleOf i = s.handleOf i :=
  State.handleOf_congr (by rw [State.record_updRecord, if_pos rfl, hgen])

/-! ### Detachment -/

theorem named_of_isNamed {i : Slot} (h : s.isNamed i = true) : Claims.Named s i := by
  unfold State.isNamed at h
  rw [Bool.or_eq_true, Bool.or_eq_true, beq_iff_eq, decide_eq_true_eq, beq_iff_eq, or_assoc] at h
  exact h.imp_right (Or.imp_right Option.map_eq_some_iff.mp)

/-- The link part of a detachment as one state: the source role ends first, then the sink position, then the confirm
(R47). -/
theorem detachLink_eq (i : Slot) (s : State) : detachLink i s = Claims.detachedFromLink i s := by
  have hconfirm := releaseIfSource_confirm s (s.handleOf i)
  unfold detachLink refuseConfirmOf Claims.detachedFromLink Claims.confirmFor
  dsimp only
  rw [← releaseSource_eq, hconfirm]
  unfold releaseIfSource
  by_cases hc : s.link.confirm.map Confirm.handle = some (s.handleOf i)
  · rw [if_pos hc, beq_iff_eq.mpr hc]
    split <;> rfl
  · rw [if_neg hc, beq_eq_false_iff_ne.mpr hc]
    split <;> rfl

/-- Both parts of a detachment as one state (R47, R48). -/
theorem detach_eq (i : Slot) (leaves : SlotState) (s : State) : detach i leaves s = Claims.detached i leaves s := by
  unfold detach
  rw [detachLink_eq]
  unfold detachCalls Claims.detached Claims.detachedFromLink
  dsimp only
  split <;> rfl

/-- A detachment leaves the registers of the port. -/
theorem detached_port (i : Slot) (leaves : SlotState) (s : State) : (Claims.detached i leaves s).port = s.port := by
  show (Claims.detachedFromLink i s).port = s.port
  unfold Claims.detachedFromLink
  dsimp only
  split <;> rfl

/-- The link part of a detachment and a change of the record's fields that keeps its generation. -/
theorem detachedFromLink_updRecord (s : State) (i : Slot) {g : Record → Record}
    (hgen : ∀ r, (g r).generation = r.generation) :
    Claims.detachedFromLink i (s.updRecord i g) = (Claims.detachedFromLink i s).updRecord i g := by
  unfold Claims.detachedFromLink
  rw [s.handleOf_updRecord i hgen]
  dsimp only
  rw [s.updRecord_link]
  split <;> rfl

/-- A detachment and a change of the record's fields that the detachment neither reads nor writes. -/
theorem detached_updRecord (s : State) (i : Slot) (leaves : SlotState) {g : Record → Record}
    (hgen : ∀ r, (g r).generation = r.generation) (hdrive : ∀ r, (g r).drive = r.drive)
    (hcomm : ∀ r, { g r with state := leaves, call := .quiet } = g { r with state := leaves, call := .quiet }) :
    Claims.detached i leaves (s.updRecord i g) = (Claims.detached i leaves s).updRecord i g := by
  unfold Claims.detached
  rw [detachedFromLink_updRecord s i hgen, s.handleOf_updRecord i hgen, State.updRecord_comm_of_drive _ i hcomm hdrive]
  rfl

/-- The record leaves the attention list, and its sets are emptied (R50). -/
theorem dropNotices_eq (i : Slot) (s : State) :
    dropNotices i s =
      ({ s with notice.attention := s.notice.attention.filter (· ≠ s.handleOf i) } : State).updRecord i
        fun r => { r with notices := 0#8, signals := 0#16 } := rfl

/-- The sets of a record are emptied before its detachment or after it: they are no part of what drives (R50, R132). -/
theorem detach_dropNotices (i : Slot) (leaves : SlotState) (s : State) :
    detach i leaves (dropNotices i s) =
      (Claims.detached i leaves { s with notice.attention := s.notice.attention.filter (· ≠ s.handleOf i) }).updRecord i
        fun r => { r with notices := 0#8, signals := 0#16 } := by
  rw [detach_eq, dropNotices_eq, detached_updRecord] <;>
    exact fun _ => rfl

/-! ### Completions of the tag requests -/

theorem execRetagReplaceComplete_of_flight {i : Slot} {params : Vector Word 4} {op : Operation}
    (hq : s.request = some { kind := .retag i, params := params }) (hf : s.engine.flight = some (.request op)) :
    execRetagReplaceComplete s =
      done (finishOperation (changeDirectory op (retagMade i params) failRequest s)) := by
  unfold execRetagReplaceComplete
  rw [completeRequest_of_pick (pick := DirectoryRequest.retagSlot) hq hf rfl]

theorem execSetAliasComplete_of_flight {i : Slot} {params : Vector Word 4} {op : Operation}
    (hq : s.request = some { kind := .setAlias i, params := params }) (hf : s.engine.flight = some (.request op)) :
    execSetAliasComplete s =
      done (finishOperation (changeDirectory op (setAliasMade i params) failRequest s)) := by
  unfold execSetAliasComplete
  rw [completeRequest_of_pick (pick := DirectoryRequest.setAliasSlot) hq hf rfl]

theorem execClearAliasComplete_of_flight {i : Slot} {params : Vector Word 4} {op : Operation}
    (hq : s.request = some { kind := .clearAlias i, params := params }) (hf : s.engine.flight = some (.request op)) :
    execClearAliasComplete s =
      done (finishOperation (changeDirectory op (clearAliasMade i params) failRequest s)) := by
  unfold execClearAliasComplete
  rw [completeRequest_of_pick (pick := DirectoryRequest.clearAliasSlot) hq hf rfl]

/-! ### The link take of an outbound unit -/

/-- The end of a DATA phase as one state (R76, R158). -/
theorem endPhase_eq (s : State) : endPhase s = Claims.phaseEnded s := by
  unfold endPhase Claims.phaseEnded
  cases s.data.session <;> rfl

/-- The take of a backed unit removes the head entry (R148). -/
theorem removeOutHead_true (s : State) : removeOutHead true s = Claims.headRemoved s := by
  unfold removeOutHead Claims.headRemoved
  match s.data.outFifo with
  | [] => rfl
  | [_] => rfl
  | _ :: _ :: _ => rfl

/-- The take of a unit whose entry was flushed removes nothing (R61). -/
theorem removeOutHead_false (s : State) : removeOutHead false s = s := rfl

/-- The link take of a unit of the part, with what its owning block does (R71, R73). -/
theorem linkTake_eq {o : Offered} {f : State → State} (hf : ∀ t, ownerTake o t = f t) (s : State) :
    linkTake o s = Claims.linkTake o.endFlag f s := by
  unfold linkTake Claims.linkTake
  dsimp only
  rw [hf, endPhase_eq]

/-- The other stations release HOLD on a unit that the part does not hold: it is taken (R71). -/
theorem releaseOthers_of_unheld (o : Offered) (h : s.link.held = none) :
    releaseOthers o s =
      linkTake { o with otherHold := false } { s with link.offered := some { o with otherHold := false } } := by
  refine if_pos ⟨?_, rfl⟩
  show s.link.held.isNone = true
  rw [h]
  rfl

/-- While the part holds the unit itself the take waits (R161). -/
theorem releaseOthers_of_held (o : Offered) (h : s.link.held ≠ none) :
    releaseOthers o s = { s with link.offered := some { o with otherHold := false } } :=
  if_neg fun c => h (Option.isNone_iff_eq_none.mp c.1)

theorem takenCommand_of_offered {isKind : OfferKind → Bool} {o : Offered} (ho : s.link.offered = some o)
    (hk : isKind o.kind = true) : takenCommand isKind s = done (releaseOthers o s) := by
  unfold takenCommand
  rw [ho]
  exact if_pos hk

/-- A unit of the part that it does not hold is taken at the release of the other stations' HOLD (R71, R73). -/
theorem takenCommand_of_unheld {isKind : OfferKind → Bool} {o : Offered} {f : State → State}
    (ho : s.link.offered = some o) (hk : isKind o.kind = true) (hheld : s.link.held = none)
    (hf : ∀ t, ownerTake { o with otherHold := false } t = f t) :
    takenCommand isKind s = done (Claims.linkTake o.endFlag f s) := by
  rw [takenCommand_of_offered ho hk, releaseOthers_of_unheld o hheld, linkTake_eq hf]
  rfl

end Sys2Proof.Machine

namespace Sys2Proof.Claims

open Sys2Proof.Machine

variable {s : State}

/-- An accepted request on a record answers what its body makes of that record (R10, R42). -/
theorem answers_of_body {body : Slot → State → State} {c : Instr} {i : Slot} {u : State}
    (hexec : exec c s = busWrite (startRequest (onRecord body)) s) (hready : Ready s)
    (hslot : s.slotOf (s.param 0) = some i) (hbody : body i s = u) : Answers c s u := by
  unfold Answers
  rw [hexec, busWrite_startRequest hready, onRecord_of_slotOf body hslot, hbody]

/-- Settles O18: each of the two passes its checks, and its detachment is the one state that its rule gives. -/
theorem retireAndSuspendDetach : Obligations.RetireAndSuspendDetach := by
  refine fun s i hready hslot => ⟨fun hpass => ?_, fun hpass => ?_⟩
  · have hfree : ¬(s.param 1 = 0#16 ∧ s.isNamed i = true) :=
      fun c => hpass _ (.retireNamed c.1 (named_of_isNamed c.2))
    refine answers_of_body rfl hready hslot ((if_neg hfree).trans ?_)
    rw [detach_dropNotices]
    rfl
  · have hactive : (s.record i).state = .active := not_not.mp fun c => hpass _ (.suspendState c)
    have hfree : ¬(s.param 1 = 0#16 ∧ s.isNamed i = true) :=
      fun c => hpass _ (.suspendNamed hactive c.1 (named_of_isNamed c.2))
    refine answers_of_body rfl hready hslot ((if_neg (not_not.mpr hactive)).trans ((if_neg hfree).trans ?_))
    rw [detach_eq]
    unfold okHandle State.param
    rw [detached_port]

/-- Settles O20: each of the three past its checks, by the tag that the record holds. -/
theorem tagRequestsClaimTheirOperation : Obligations.TagRequestsClaimTheirOperation := by
  intro s i hready hslot hservice
  have hserving := inService_ne_false hservice
  refine ⟨fun hpass => ?_, fun htag => ⟨fun hsame => ?_, fun hnone => ?_, fun t hsome hne => ?_⟩, fun hsome => ?_⟩
  · have htag : ¬(s.param 1 = 0#16 ∨ (s.record i).aliasTag = some (s.param 1)) :=
      fun c => hpass _ (.retagTag hservice c)
    refine ⟨fun hsame => ?_, fun hne => ?_⟩
    · exact answers_of_body rfl hready hslot ((if_neg hserving).trans ((if_neg htag).trans (if_pos hsame)))
    · exact answers_of_body rfl hready hslot ((if_neg hserving).trans ((if_neg htag).trans (if_neg hne)))
  · exact answers_of_body rfl hready hslot ((if_neg hserving).trans ((if_neg htag).trans (if_pos hsame)))
  · have hne : (s.record i).aliasTag ≠ some (s.param 1) := by rw [hnone]; nofun
    refine answers_of_body rfl hready hslot ((if_neg hserving).trans ((if_neg htag).trans ((if_neg hne).trans ?_)))
    rw [hnone]
    rfl
  · have hne : (s.record i).aliasTag ≠ some (s.param 1) := by rw [hsome]; exact fun c => hne (Option.some.inj c)
    refine answers_of_body rfl hready hslot ((if_neg hserving).trans ((if_neg htag).trans ((if_neg hne).trans ?_)))
    rw [hsome]
    rfl
  · exact answers_of_body rfl hready hslot (if_neg (not_or.mpr ⟨hserving, hsome⟩))

/-- Settles O40: the unit is taken when the part does not hold it, with the head entry when that still backs it. -/
theorem outboundUnitsAreTaken : Obligations.OutboundUnitsAreTaken := by
  rintro s ⟨kind, value, endFlag, otherHold⟩ ho
  refine ⟨fun hheld hkind => ?_, fun hheld hkind => ?_, fun b hheld hkind => ?_⟩
  · obtain rfl : kind = .outbound true := hkind
    exact takenCommand_of_unheld ho rfl hheld removeOutHead_true
  · obtain rfl : kind = .outbound false := hkind
    exact takenCommand_of_unheld ho rfl hheld removeOutHead_false
  · obtain rfl : kind = .outbound b := hkind
    refine (takenCommand_of_offered ho rfl).trans ?_
    rw [releaseOthers_of_held _ hheld]
    rfl

/-- Settles O49: the operation of each of the three is made or fails, by what it makes of the directory. -/
theorem tagRequestsComplete : Obligations.TagRequestsComplete := by
  refine fun s i params => ⟨fun tag hq hf => ⟨fun d hmade => ?_, fun r hfailed => ?_⟩,
    fun op hq hf => ⟨fun d hmade => ?_, fun r hfailed => ?_⟩, fun what hq hf => ?_⟩
  · refine (execRetagReplaceComplete_of_flight hq hf).trans ?_
    rw [changeDirectory_of_made (op := .replace (.primary i) tag) _ _ hmade]
    rfl
  · refine (execRetagReplaceComplete_of_flight hq hf).trans ?_
    rw [changeDirectory_of_failed (op := .replace (.primary i) tag) _ _ hfailed]
    rfl
  · have hchange : op.change s.directory = .made d := by
      rcases hmade with ⟨es, rfl, h⟩ | ⟨tag, rfl, h⟩
      · exact h
      · exact h
    refine (execSetAliasComplete_of_flight hq hf).trans ?_
    rw [changeDirectory_of_made _ _ hchange]
    rfl
  · have hchange : op.change s.directory = .failed r := by
      rcases hfailed with ⟨es, rfl, h⟩ | ⟨tag, rfl, h⟩
      · exact h
      · exact h
    refine (execSetAliasComplete_of_flight hq hf).trans ?_
    rw [changeDirectory_of_failed _ _ hchange]
    rfl
  · refine (execClearAliasComplete_of_flight hq hf).trans ?_
    rw [changeDirectory_of_made _ _ rfl]
    rfl

end Sys2Proof.Claims
end

section
/-! How the part meets the offers and the takes of other stations (R68, R72, R82, R84, R86 to R88), the withdrawal of
OFFER and the release of the director's lines (R70, R82), ONLINE and OFFLINE (R87, R88), and reset (R89, R190). -/

namespace Sys2Proof.Machine

variable {s t : State} {c : Instr} {u : LinkUnit}

/-! ### Attending and the free link -/

theorem State.attends_iff : s.attends = true ↔ Claims.Attends s := by
  unfold State.attends Claims.Attends
  simp only [Bool.and_eq_true, Bool.not_eq_true', and_assoc]

theorem State.occupied_eq_false_iff : s.occupied = false ↔ Claims.Unoccupied s := by
  unfold State.occupied Claims.Unoccupied
  rw [Bool.or_eq_false_iff, Option.isSome_eq_false_iff, Option.isSome_eq_false_iff, Option.isNone_iff_eq_none,
    Option.isNone_iff_eq_none]

/-! ### Offers -/

/-- The value of an ASSIGN-POLL unit by its fields (section 4.4). -/
theorem toByte_eq (a : PollAssignment) :
    a.toByte =
      0x40#8 + a.group.setWidth 8 * 16#8 + (if a.polarity = .inverted then 8#8 else 0#8) + a.line.setWidth 8 := by
  obtain ⟨group, line, polarity⟩ := a
  revert group line
  cases polarity <;> decide

/-- Each command of another sender that offers a unit is the one offer command. -/
theorem exec_of_offers (h : Claims.offers c = some u) (s : State) : exec c s = offerCommand u s := by
  cases c with
  | assignPoll a =>
    cases h
    rw [← toByte_eq]
    rfl
  | signal _ | nameSource | nameSink | linkRetag | tagHi _ | tagLo _ | dropSource | dropSinks | go | query
  | groupPoll _ | releasePoll | unassignedLinkCode _ | inboundUnitOffer _ _ =>
    cases h
    rfl
  | _ => cases h

/-- No unit of another sender is offered on a link that carries one of the part (log entry 2). -/
theorem offerCommand_of_occupied (u : LinkUnit) (h : ¬Claims.Unoccupied s) : offerCommand u s = .next s :=
  if_pos (Bool.not_eq_false _ ▸ mt State.occupied_eq_false_iff.mp h)

theorem offerCommand_of_unoccupied (u : LinkUnit) (h : Claims.Unoccupied s) :
    offerCommand u s = done (foreignOffer u s) :=
  if_neg (Bool.eq_false_iff.mp (State.occupied_eq_false_iff.mpr h))

theorem foreignOffer_of_attends (u : LinkUnit) (h : Claims.Attends s) :
    foreignOffer u s = attendOffer u (Claims.offeredBy u s) := if_pos (State.attends_iff.mpr h)

/-- An offer that the part does not attend to waits while ONLINE, and is never attended to while OFFLINE (R82, R88). -/
theorem foreignOffer_of_not_attends (u : LinkUnit) (h : ¬Claims.Attends s) :
    foreignOffer u s =
      { s with
        lines.foreign := some { unit := u, standing := if s.link.online then .waiting else .ignored }
        link.reject := false } := if_neg (mt State.attends_iff.mp h)

/-- An offer that the part attends to, on a free link. -/
theorem exec_of_attended (h : Claims.offers c = some u) (hfree : Claims.Unoccupied s) (ha : Claims.Attends s) :
    exec c s = done (attendOffer u (Claims.offeredBy u s)) := by
  rw [exec_of_offers h, offerCommand_of_unoccupied u hfree, foreignOffer_of_attends u ha]

/-- The part takes no part in a control unit of DATA phase and in a data unit outside an inbound session (R68). -/
theorem attendOffer_of_no_part
    (h : (u.kind = .control ∧ s.link.phase = .data) ∨
      (u.kind = .data ∧ (s.link.phase = .command ∨ s.data.session = none))) : attendOffer u s = s := by
  unfold attendOffer
  rcases h with ⟨hk, hp⟩ | ⟨hk, hp | hs⟩
  · rw [hk, hp]
  · rw [hk, hp]
  · rw [hk, hs]
    cases s.link.phase <;> rfl

/-! ### Takes -/

/-- Each command that reports the take of a unit the part does not hold is the one take command. -/
theorem exec_of_takes (h : Claims.takes c = some u) (s : State) : exec c s = takeCommand u s := by
  cases c with
  | controlUnitInDataPhase _ | dataUnitInCommandPhase _ _ | dataUnitSeen _ _ =>
    cases h
    rfl
  | _ => cases h

theorem takeCommand_of_occupied (u : LinkUnit) (h : ¬Claims.Unoccupied s) : takeCommand u s = .next s :=
  if_pos (Bool.not_eq_false _ ▸ mt State.occupied_eq_false_iff.mp h)

theorem takeCommand_of_unoccupied (u : LinkUnit) (h : Claims.Unoccupied s) :
    takeCommand u s = done (foreignTake u s) :=
  if_neg (Bool.eq_false_iff.mp (State.occupied_eq_false_iff.mpr h))

theorem standingOf_of_standsOffered {d : Standing} (h : Claims.StandsOffered s u d) : s.standingOf u = some d := by
  obtain ⟨hforeign, hd⟩ := h
  unfold State.standingOf
  rw [hforeign]
  exact if_pos ⟨rfl, hd⟩

theorem standingOf_of_offeredWithTake (h : Claims.OfferedWithTake s u) : s.standingOf u = none := by
  unfold State.standingOf
  split
  · next f hf =>
    refine if_neg fun ⟨hu, hd⟩ => h f.standing ⟨?_, hd⟩
    rw [hf, ← hu]
  · rfl

/-- The take of an offer that stands changes the lines alone; the part sees it when it attended to the offer. -/
theorem foreignTake_of_standsOffered {d : Standing} (h : Claims.StandsOffered s u d) :
    foreignTake u s =
      if d = .attended then seeTake u (Claims.linkTaken u s) else Claims.linkTaken u s := by
  have hd := standingOf_of_standsOffered h
  unfold foreignTake State.seesTake takeOffer
  rw [hd]
  cases d <;> rfl

/-- The take of a unit that is offered with it; the part sees it when it attends at that moment. -/
theorem foreignTake_of_offeredWithTake (h : Claims.OfferedWithTake s u) :
    foreignTake u s =
      if s.attends then seeTake u { Claims.linkTaken u s with link.reject := false }
      else { Claims.linkTaken u s with link.reject := false } := by
  unfold foreignTake State.seesTake takeOffer
  rw [standingOf_of_offeredWithTake h]
  rfl

theorem foreignTake_of_seen (h : Claims.TakeSeen s u t) : foreignTake u s = seeTake u t := by
  cases h with
  | attended hs => exact foreignTake_of_standsOffered hs
  | atOnce hs ha => exact (foreignTake_of_offeredWithTake hs).trans (if_pos (State.attends_iff.mpr ha))

theorem foreignTake_of_unseen (h : Claims.TakeUnseen s u t) : foreignTake u s = t := by
  cases h with
  | waiting hs => exact foreignTake_of_standsOffered hs
  | ignored hs => exact foreignTake_of_standsOffered hs
  | atOnce hs ha => exact (foreignTake_of_offeredWithTake hs).trans (if_neg (mt State.attends_iff.mp ha))

/-- Until the part acts on it a take changes the lines alone, and REJECT. -/
theorem takeSeen_keeps (h : Claims.TakeSeen s u t) :
    t.link.held = s.link.held ∧ t.link.phase = s.link.phase ∧ t.data.session = s.data.session := by
  cases h <;> exact ⟨rfl, rfl, rfl⟩

/-- The end of a DATA phase with no inbound session (R73). -/
theorem endPhase_of_closed (h : s.data.session = none) :
    endPhase s = { s with link.phase := .command, link.sending := false } := by
  unfold endPhase
  rw [h]

/-- With no unit held a take leaves clear-seen clear, and nothing else (R86). -/
theorem takeHeld_of_none (h : s.link.held = none) : takeHeld s = { s with link.clearSeen := false } := by
  unfold takeHeld
  rw [← h]

theorem seeTake_control_data (hheld : s.link.held = none) (hk : u.kind = .control) (hp : s.link.phase = .data) :
    seeTake u s = { s with link.clearSeen := false } := by
  unfold seeTake
  rw [hk, hp]
  exact takeHeld_of_none hheld

theorem seeTake_control_command (hk : u.kind = .control) (hp : s.link.phase = .command) : seeTake u s = s := by
  unfold seeTake
  rw [hk, hp]

theorem seeTake_data_command (hheld : s.link.held = none) (hk : u.kind = .data) (hp : s.link.phase = .command) :
    seeTake u s = { s with link.sequence := .none, link.clearSeen := false } := by
  unfold seeTake
  rw [hk, hp]
  exact takeHeld_of_none (s := { s with link.sequence := .none }) hheld

theorem seeTake_data_closed (hheld : s.link.held = none) (hk : u.kind = .data) (hp : s.link.phase = .data)
    (hs : s.data.session = none) :
    seeTake u s =
      if u.endFlag then { s with link.phase := .command, link.sending := false, link.clearSeen := false }
      else { s with link.clearSeen := false } := by
  have hend : endPhase { s with link.clearSeen := false } =
      { s with link.phase := .command, link.sending := false, link.clearSeen := false } := endPhase_of_closed hs
  unfold seeTake
  rw [hk, hp, hs, takeHeld_of_none hheld, hend]
  rfl

theorem seeTake_data_open (hk : u.kind = .data) (hp : s.link.phase = .data) (hs : s.data.session ≠ none) :
    seeTake u s = s := by
  unfold seeTake
  rw [hk, hp]
  exact if_pos (Option.isSome_iff_ne_none.mpr hs)

/-! ### Releases of the lines -/

theorem attendStanding_eq_self
    (h : (∀ f, s.lines.foreign = some f → f.standing ≠ .waiting) ∨ ¬Claims.Attends s) : attendStanding s = s := by
  unfold attendStanding
  split
  · next f hf =>
    refine if_neg fun ⟨hw, ha⟩ => ?_
    exact h.elim (fun hnone => hnone f hf hw) fun hnot => hnot (State.attends_iff.mp ha)
  · rfl

/-- An offer that waits is treated as offered once the part attends (R82, R84, R86). -/
theorem attendStanding_of_waiting (h : s.lines.foreign = some { unit := u, standing := .waiting })
    (ha : Claims.Attends s) :
    attendStanding s = attendOffer u { s with lines.foreign := some { unit := u, standing := .attended } } := by
  unfold attendStanding
  rw [h]
  exact if_pos ⟨rfl, State.attends_iff.mpr ha⟩

/-- After a release the unit that waits is treated as its command would offer it. -/
theorem done_attendStanding_of_waiting (hc : Claims.offers c = some u) (hfree : Claims.Unoccupied s)
    (hreject : s.link.reject = false) (hw : s.lines.foreign = some { unit := u, standing := .waiting })
    (ha : Claims.Attends s) : done (attendStanding s) = exec c s := by
  rw [exec_of_attended hc hfree ha, attendStanding_of_waiting hw ha]
  unfold Claims.offeredBy
  rw [← hreject]

/-! ### ONLINE and OFFLINE -/

theorem execOnline_of_offline (hr : s.port.resetHeld = false) (h : s.link.online = false) :
    execOnline s = done (goOnline s) := (if_neg (Bool.eq_false_iff.mp h)).trans (if_neg (Bool.eq_false_iff.mp hr))

theorem execOffline_of_online (hr : s.port.resetHeld = false) (h : s.link.online = true) :
    execOffline s = done (goOffline s) := (if_pos h).trans (if_neg (Bool.eq_false_iff.mp hr))

/-- OFFLINE while ONLINE (R87). -/
theorem goOffline_eq (s : State) :
    goOffline s =
      { Claims.namingEmptied (Claims.linkAbandoned s) with
        link.online := false
        link.clearSeen := false
        lines.foreign := Claims.neverAttended s } := by
  unfold goOffline
  rw [abandonLink_eq]
  rfl

end Sys2Proof.Machine

namespace Sys2Proof.Claims

open Sys2Proof.Machine

/-- Settles O5. -/
theorem resetReachesEveryBlock : Obligations.ResetReachesEveryBlock := by
  refine ⟨fun s hr => ?_, fun s n hn => ?_, fun s n hn => ?_, fun s => rfl⟩
  · exact if_neg (Bool.eq_false_iff.mp hr)
  · exact if_pos hn
  · exact if_neg (Nat.not_le.mpr hn)

/-- Settles O27. -/
theorem onlineAndOffline : Obligations.OnlineAndOffline := by
  refine fun s hr => ⟨fun hoff => ?_, fun hon => ?_, fun hon => ?_, fun hoff => ?_⟩
  · exact execOnline_of_offline hr hoff
  · exact if_pos hon
  · refine (execOffline_of_online hr hon).trans ?_
    rw [goOffline_eq]
    rfl
  · exact if_neg (Bool.eq_false_iff.mp hoff)

/-- Settles O37: an offer by whether the link is free, the part attends and takes part; a take by whether the part sees
it, then by the kind of the unit and the phase. -/
theorem offersAndTakesOfOtherStations : Obligations.OffersAndTakesOfOtherStations := by
  refine ⟨fun s c u hc => ⟨fun hbusy => ?_, fun hfree ha => ?_, fun hfree ha hpart => ?_⟩,
    fun s c u hc => ⟨fun hbusy => ?_, fun hfree t hunseen => ?_, fun hfree t hseen => ?_⟩⟩
  · rw [exec_of_offers hc, offerCommand_of_occupied u hbusy]
  · rw [Answers, exec_of_offers hc, offerCommand_of_unoccupied u hfree, foreignOffer_of_not_attends u ha]
    rfl
  · exact (exec_of_attended hc hfree ha).trans (congrArg done (attendOffer_of_no_part (s := offeredBy u s) hpart))
  · rw [exec_of_takes hc, takeCommand_of_occupied u hbusy]
  · rw [Answers, exec_of_takes hc, takeCommand_of_unoccupied u hfree, foreignTake_of_unseen hunseen]
    rfl
  · obtain ⟨hheld, hphase, hsession⟩ := takeSeen_keeps hseen
    have hnone : t.link.held = none := hheld.trans hfree.1
    have hexec : exec c s = done (seeTake u t) := by
      rw [exec_of_takes hc, takeCommand_of_unoccupied u hfree, foreignTake_of_seen hseen]
    rw [← hphase, ← hsession]
    refine ⟨fun hk hp => ?_, fun hk hp => ?_, fun hk hp => ?_, fun hk hp hs => ?_, fun hk hp hs => ?_⟩
    · exact hexec.trans (congrArg done (seeTake_control_data hnone hk hp))
    · exact hexec.trans (congrArg done (seeTake_control_command hk hp))
    · exact hexec.trans (congrArg done (seeTake_data_command hnone hk hp))
    · exact hexec.trans (congrArg done (seeTake_data_closed hnone hk hp hs))
    · exact hexec.trans (congrArg done (seeTake_data_open hk hp hs))

/-- Settles O43: each of the three releases lets an offer that waits be attended to, or leaves the line alone. -/
theorem withdrawalsAndReleases : Obligations.WithdrawalsAndReleases := by
  refine ⟨fun s hheld => ?_, fun s hheld => ?_, fun s => rfl, fun s => ⟨fun h => ?_, fun h => ?_, fun h => ?_⟩,
    fun s c u hc hfree hreject hw => ⟨fun ha => ?_, fun ha => ?_, fun ha => ?_⟩⟩
  · exact if_neg (Bool.eq_false_iff.mp (Option.isSome_eq_false_iff.mpr (Option.isNone_iff_eq_none.mpr hheld)))
  · exact if_pos (Option.isSome_iff_ne_none.mpr hheld)
  · exact congrArg done (attendStanding_eq_self (s := { s with lines.plq := false }) h)
  · exact congrArg done (attendStanding_eq_self (s := { s with lines.stop := false }) h)
  · exact congrArg done (attendStanding_eq_self (s := { s with lines.clear := false }) h)
  · exact done_attendStanding_of_waiting (s := { s with lines.plq := false }) hc hfree hreject hw ha
  · exact done_attendStanding_of_waiting (s := { s with lines.stop := false }) hc hfree hreject hw ha
  · exact done_attendStanding_of_waiting (s := { s with lines.clear := false }) hc hfree hreject hw ha

end Sys2Proof.Claims
end

section
/-! The control units of COMMAND phase: those taken at once (R77, R78, R98, R99, R112, R119, R134, R135), the control
sequences (R79, R95, R110), and GO (R75, R150 to R152). -/

namespace Sys2Proof.Machine

variable {s : State} {v : Byte}

/-! ### What the units do -/

theorem decodeUnit_signal (c : BitVec 4) : decodeUnit (c.setWidth 8) = .signal c := by
  revert c
  decide

theorem decodeUnit_groupPoll (g : BitVec 2) : decodeUnit (0x28#8 + g.setWidth 8) = .groupPoll g := by
  revert g
  decide

theorem decodeUnit_assignPoll (a : PollAssignment) : decodeUnit a.toByte = .assignPoll a := by
  obtain ⟨group, line, polarity⟩ := a
  revert group line
  cases polarity <;> decide

theorem decodeUnit_unassigned (h : isUnassignedUnit v = true) : decodeUnit v = .unassigned := by
  revert v
  decide

section
variable {u : LinkUnit}

theorem decodeTake_of_signal {c : BitVec 4} (h : decodeUnit u.value = .signal c) :
    decodeTake u s = Claims.overSinks (Claims.signalled c) (takeHeld s) := by
  unfold decodeTake
  rw [h]
  rfl

theorem decodeTake_of_groupPoll {g : BitVec 2} (h : decodeUnit u.value = .groupPoll g) :
    decodeTake u s = { takeHeld s with link.pollGroup := g } := by
  unfold decodeTake
  rw [h]

theorem decodeTake_of_assignPoll {a : PollAssignment} (h : decodeUnit u.value = .assignPoll a) :
    decodeTake u s = Claims.overSinks (Claims.assigned a) (takeHeld s) := by
  unfold decodeTake
  rw [h]
  rfl

theorem decodeTake_of_unassigned (h : decodeUnit u.value = .unassigned) : decodeTake u s = takeHeld s := by
  unfold decodeTake
  rw [h]

end

theorem armQuery_of_record {h : Handle} (hs : s.link.source = .record h) :
    armQuery s = { s with link.queryArmed := true } := by
  unfold armQuery
  rw [hs]

theorem armQuery_of_no_record (hs : ∀ h, s.link.source ≠ .record h) : armQuery s = s := by
  unfold armQuery
  split
  · next h hsource => exact absurd hsource (hs h)
  · rfl
  · rfl

/-! ### Control units in COMMAND phase -/

/-- A control unit that the part attends to in COMMAND phase goes to the control sequence (R77, R79). -/
theorem exec_of_controlUnit {c : Instr} (hc : Claims.offers c = some (controlUnit v)) (hfree : Claims.Unoccupied s)
    (ha : Claims.Attends s) (hp : s.link.phase = .command) :
    exec c s = done (receiveControl (controlUnit v) (Claims.offeredBy (controlUnit v) s)) := by
  have hcommand : (Claims.offeredBy (controlUnit v) s).link.phase = .command := hp
  rw [exec_of_attended hc hfree ha, attendOffer, hcommand]
  rfl

theorem receiveControl_of_none (u : LinkUnit) (h : s.link.sequence = .none) : receiveControl u s = decodeTake u s := by
  unfold receiveControl
  rw [h]

theorem receiveControl_of_awaitHi (u : LinkUnit) {o : Opening} (h : s.link.sequence = .awaitHi o) :
    receiveControl u s = takeHeld { s with link.sequence := .awaitLo o u.value } := by
  unfold receiveControl
  rw [h]

theorem receiveControl_of_awaitLo (u : LinkUnit) {o : Opening} {hi : Byte} (h : s.link.sequence = .awaitLo o hi) :
    receiveControl u s = resolveSequence o (hi ++ u.value) u { s with link.sequence := .none } := by
  unfold receiveControl
  rw [h]
  rfl

/-- The TAG-LO of a RETAG by the row of R110 that applies. -/
theorem resolveRetag_of_row {tag : Word} {u : State} (row : Claims.RetagRow s tag u) : resolveRetag tag s = u := by
  unfold resolveRetag
  cases row with
  | noSource hs =>
    rw [hs]
    rfl
  | management hs =>
    rw [hs]
    rfl
  | same h hs htag =>
    rw [hs]
    exact if_pos htag
  | forbidden h hs htag hforbidden =>
    rw [hs]
    refine (if_neg htag).trans (if_pos ?_)
    rw [Bool.or_eq_true, Bool.or_eq_true, Bool.not_eq_true', beq_iff_eq, beq_iff_eq, or_assoc]
    exact hforbidden
  | replace h hs htag hoption hnull hother =>
    rw [hs]
    refine (if_neg htag).trans (if_neg ?_)
    rw [Bool.or_eq_true, Bool.or_eq_true, Bool.not_eq_true', beq_iff_eq, beq_iff_eq]
    rintro ((hc | hc) | hc)
    · exact Bool.eq_false_iff.mp hc hoption
    · exact hnull hc
    · exact hother hc

/-! ### GO -/

theorem answerAtGo_eq (s : State) : answerAtGo s = Claims.answerBegun s := by
  unfold answerAtGo Claims.answerBegun
  cases s.link.source <;> rfl

/-- The take of GO, as one state (R75, R152). -/
theorem takeGo_eq (s : State) : takeGo s = Claims.goTaken s := by
  unfold takeGo Claims.goTaken sendsEntriesAtGo
  dsimp only
  rw [answerAtGo_eq]
  cases s.link.sinks with
  | nil => cases s.link.source <;> rfl
  | cons lead rest => cases s.link.source <;> rfl

theorem receiveGo_of_taken (u : LinkUnit) (h : s.link.sinks = [] ∨ s.data.inFifo = []) :
    receiveGo u s = Claims.goTaken s := by
  refine (if_neg fun ⟨hsinks, hfifo⟩ => ?_).trans (takeGo_eq s)
  exact h.elim hsinks hfifo

theorem receiveGo_of_drain (u : LinkUnit) (hsinks : s.link.sinks ≠ []) (hfifo : s.data.inFifo ≠ []) :
    receiveGo u s = Claims.holding u .drain s := if_pos ⟨hsinks, hfifo⟩

end Sys2Proof.Machine

namespace Sys2Proof.Claims

open Sys2Proof.Machine

variable {s u : State} {c : Instr} {v : Byte}

/-- A control unit that is decoded answers what its code does (R77). -/
theorem answers_of_decodes (h : Decodes s) (hc : offers c = some (controlUnit v))
    (hu : decodeTake (controlUnit v) (offeredBy (controlUnit v) s) = u) : Answers c s u := by
  obtain ⟨hfree, ha, hp, hsequence⟩ := h
  rw [Answers, exec_of_controlUnit hc hfree ha hp, receiveControl_of_none (s := offeredBy _ s) _ hsequence, hu]
  rfl

/-- Settles O34: each unit by its code. -/
theorem controlUnitsTakenAtOnce : Obligations.ControlUnitsTakenAtOnce := by
  refine fun s h => ⟨fun c => ?_, fun r hsource => ?_, fun hsource => ?_, fun g => ?_, ?_, ?_, fun a => ?_, ?_,
    fun v hv => ?_⟩
  · exact answers_of_decodes h rfl (decodeTake_of_signal (u := controlUnit _) (decodeUnit_signal c))
  · exact answers_of_decodes h rfl (armQuery_of_record (s := unitTaken 0x21#8 s) hsource)
  · exact answers_of_decodes h rfl (armQuery_of_no_record (s := unitTaken 0x21#8 s) hsource)
  · exact answers_of_decodes h rfl (decodeTake_of_groupPoll (u := controlUnit _) (decodeUnit_groupPoll g))
  · exact answers_of_decodes h rfl (unnameSource_eq (unitTaken 0x18#8 s))
  · exact answers_of_decodes h rfl rfl
  · refine answers_of_decodes h rfl ?_
    rw [← toByte_eq]
    exact decodeTake_of_assignPoll (u := controlUnit _) (decodeUnit_assignPoll a)
  · exact answers_of_decodes h rfl rfl
  · exact answers_of_decodes h rfl (decodeTake_of_unassigned (u := controlUnit _) (decodeUnit_unassigned hv))

/-- Settles O35: an opening unit is decoded, and a tag unit goes on with the sequence in progress. -/
theorem controlSequencesAdvance : Obligations.ControlSequencesAdvance := by
  refine ⟨fun s h => ⟨?_, ?_, ?_⟩, fun s v hfree ha hp => ?_⟩
  · exact answers_of_decodes h rfl rfl
  · exact answers_of_decodes h rfl rfl
  · exact answers_of_decodes h rfl rfl
  · have htag {c : Instr} (hc : offers c = some (controlUnit v)) := exec_of_controlUnit hc hfree ha hp
    refine ⟨fun o hs => ?_, fun hi hs => ?_, fun hi hs => ?_, fun hi u hs row => ?_⟩
    · exact (htag rfl).trans (congrArg done (receiveControl_of_awaitHi (s := offeredBy _ s) _ hs))
    · exact (htag rfl).trans (congrArg done (receiveControl_of_awaitLo (s := offeredBy _ s) _ hs))
    · exact (htag rfl).trans (congrArg done (receiveControl_of_awaitLo (s := offeredBy _ s) _ hs))
    · refine (htag rfl).trans (congrArg done ?_)
      exact (receiveControl_of_awaitLo (s := offeredBy _ s) _ hs).trans (resolveRetag_of_row row)

/-- Settles O36. -/
theorem goBeginsDataPhase : Obligations.GoBeginsDataPhase := by
  refine fun s h => ⟨fun htaken => ?_, fun hsinks hfifo => ?_⟩
  · exact answers_of_decodes h rfl (receiveGo_of_taken (s := offeredBy _ s) _ htaken)
  · exact answers_of_decodes h rfl (receiveGo_of_drain (s := offeredBy _ s) _ hsinks hfifo)

end Sys2Proof.Claims
end

section
/-! The data units: the part as receiver (R153, R154, R158), its own offers with their link take (R71, R122, R124, R128,
R147, R148), and the two together in an open inbound session (R159, R161). -/

namespace Sys2Proof.Machine

variable {s t : State} {x : InboundSession} {o : Offered}

/-! ### The link take of a unit of the part -/

theorem takeCondition_eq {h : Handle} {next : AnswerUnit} (ha : s.calls.answer = .status h next) (v : Byte) :
    takeCondition v s = Claims.conditionTaken h (v.getLsbD 0) s := by
  unfold takeCondition Claims.conditionTaken answerCall
  rw [ha]
  cases v.getLsbD 0 with
  | false => exact (if_neg fun c => Bool.false_ne_true c.1).symm
  | true =>
    simp only [true_and]
    rfl

theorem withAnswer_self {a : Answer} (h : s.calls.answer = a) : { s with calls.answer := a } = s := by
  rw [← h]

/-- What the owning block does at the link take of a unit, by its kind and the answer in progress (R71). -/
theorem ownerTake_eq (o : Offered) (s : State) : ownerTake o s = Claims.ownerEffect o s := by
  obtain ⟨kind, v, e, b⟩ := o
  cases kind with
  | outbound backed =>
    cases backed with
    | true => exact removeOutHead_true s
    | false => rfl
  | status =>
    unfold ownerTake afterStatusUnit Claims.ownerEffect
    cases h : s.calls.answer with
    | none => exact withAnswer_self h
    | status r next => rfl
    | roster tags p => exact withAnswer_self h
  | condition =>
    unfold ownerTake Claims.ownerEffect
    cases h : s.calls.answer with
    | none =>
      unfold takeCondition
      rw [h]
    | status r next => exact takeCondition_eq h v
    | roster tags p =>
      unfold takeCondition
      rw [h]
  | roster =>
    unfold ownerTake afterRosterUnit Claims.ownerEffect
    cases h : s.calls.answer with
    | none => exact withAnswer_self h
    | status r next => exact withAnswer_self h
    | roster tags p => rfl

theorem linkTake_eq_ownTaken (o : Offered) (s : State) : linkTake o s = Claims.ownTaken o s :=
  linkTake_eq (ownerTake_eq o) s

/-- With no hold of the part an offered unit is taken unless another station holds it (R71). -/
theorem takeIfUnheld_of_offered (ho : s.link.offered = some o) (hheld : s.link.held = none) :
    takeIfUnheld s = if o.otherHold then s else Claims.ownTaken o s := by
  unfold takeIfUnheld
  rw [ho, hheld, ← linkTake_eq_ownTaken]
  dsimp only
  cases o.otherHold <;> rfl

theorem takeIfUnheld_of_none (ho : s.link.offered = none) : takeIfUnheld s = s := by
  unfold takeIfUnheld
  rw [ho]

/-! ### The take of a data unit -/

theorem entryOf_eq (x : InboundSession) (u : LinkUnit) : entryOf x u = Claims.inboundEntry x u := by
  unfold entryOf Claims.inboundEntry
  congr 1
  rw [Bool.eq_iff_iff]
  simp only [Bool.and_eq_true, decide_eq_true_eq, beq_iff_eq]

/-- The append of an inbound entry, as one state (R153). -/
theorem appendIn_eq (e : InEntry) (s : State) :
    appendIn e s =
      { s with
        data.inFifo := s.data.inFifo ++ [e]
        notice.devnotice := if s.data.inFifo = [] then s.notice.devnotice ||| 0x0020#13 else s.notice.devnotice } := by
  unfold appendIn
  dsimp only
  split <;> rfl

/-- The part's take of a data unit, as one state (R153, R154, R158). -/
theorem takeData_eq (x : InboundSession) (u : LinkUnit) (s : State) : takeData x u s = Claims.received x u s := by
  unfold takeData Claims.received
  dsimp only
  rw [entryOf_eq, appendIn_eq, endPhase_eq]
  rfl

theorem phaseEnded_offered (s : State) : (Claims.phaseEnded s).link.offered = s.link.offered := by
  unfold Claims.phaseEnded
  split <;> rfl

theorem received_offered (x : InboundSession) (u : LinkUnit) (s : State) :
    (Claims.received x u s).link.offered = s.link.offered := by
  unfold Claims.received
  dsimp only
  split
  · exact phaseEnded_offered _
  · split <;> rfl

/-- The part's take of a data unit, with the link take of its own offer (R159). -/
theorem takeIfUnheld_takeData (x : InboundSession) (u : LinkUnit) (s : State) :
    takeIfUnheld (takeData x u s) = Claims.partTakes x u s := by
  have hheld : (takeData x u s).link.held = none := takeData_held s x u
  unfold Claims.partTakes
  rw [takeData_eq] at hheld ⊢
  cases ho : s.link.offered with
  | none => exact takeIfUnheld_of_none ((received_offered x u s).trans ho)
  | some o => exact takeIfUnheld_of_offered ((received_offered x u s).trans ho) hheld

/-! ### Held data units -/

section
variable {h : Held} (hheld : s.link.held = some h) (hsession : s.data.session = some x)
  (hcause : h.cause = .room ∨ h.cause = .pause)
include hheld hsession hcause

theorem serveHeldData_of_paused (hp : s.data.paused = true) :
    serveHeldData s = Claims.holding h.unit .pause s := by
  unfold serveHeldData
  rw [hheld, hsession, hp]
  exact if_pos hcause

theorem serveHeldData_of_room (hp : s.data.paused = false) (hroom : s.data.inFifo.length < 32) :
    serveHeldData s = Claims.partTakes x h.unit s := by
  unfold serveHeldData
  rw [hheld, hsession, hp, ← takeIfUnheld_takeData]
  exact (if_pos hcause).trans (if_pos hroom)

theorem serveHeldData_of_full (hp : s.data.paused = false) (hfull : 32 ≤ s.data.inFifo.length) :
    serveHeldData s = Claims.holding h.unit .room s := by
  unfold serveHeldData
  rw [hheld, hsession, hp]
  exact (if_pos hcause).trans (if_neg (Nat.not_lt.mpr hfull))

end

/-- In a state whose holds are due no take of a held unit is (log entry 4). -/
theorem serveHeldData_of_channelsFit (w : s.ChannelsFit) : serveHeldData s = s := by
  cases hheld : s.link.held with
  | none => exact serveHeldData_none hheld
  | some h =>
    obtain ⟨unit, cause⟩ := h
    have hholding : Claims.holding unit cause s = s := by
      unfold Claims.holding
      rw [← hheld]
    have hcause : s.holdCause = some cause := by rw [State.holdCause, hheld, Option.map_some]
    rcases serveHeldData_changes s with hself | hroom | hpause
    · exact hself
    · obtain rfl : cause = .room := Option.some.inj (hcause.symm.trans hroom)
      obtain ⟨hopen, hp, hfull⟩ := w.holds.room hroom
      obtain ⟨x, hx⟩ := Option.isSome_iff_exists.mp hopen
      exact (serveHeldData_of_full hheld hx (.inl rfl) hp hfull).trans hholding
    · obtain rfl : cause = .pause := Option.some.inj (hcause.symm.trans hpause)
      have hp := w.holds.pause hpause
      obtain ⟨x, hx⟩ := Option.isSome_iff_exists.mp (w.sessions.paused hp)
      exact (serveHeldData_of_paused hheld hx (.inr rfl) hp).trans hholding

/-! ### Data units at their offer -/

section
variable (hsession : s.data.session = some x)
include hsession

/-- A unit of an open inbound session is held for the pause in effect (R153, R154). -/
theorem receiveData_of_paused (u : LinkUnit) (hp : s.data.paused = true) :
    receiveData u s = Claims.holding u .pause s := by
  unfold receiveData
  rw [hp]
  exact serveHeldData_of_paused (s := Claims.holding u .pause s) rfl hsession (.inr rfl) hp

/-- A unit of an open inbound session is taken at its offer (R153). -/
theorem receiveData_of_room (u : LinkUnit) (hp : s.data.paused = false) (hroom : s.data.inFifo.length < 32) :
    receiveData u s = Claims.partTakes x u s := by
  unfold receiveData
  rw [hp]
  exact serveHeldData_of_room (s := Claims.holding u .room s) rfl hsession (.inl rfl) hp hroom

/-- A unit of an open inbound session is held until the FIFO has room (R153). -/
theorem receiveData_of_full (u : LinkUnit) (hp : s.data.paused = false) (hfull : 32 ≤ s.data.inFifo.length) :
    receiveData u s = Claims.holding u .room s := by
  unfold receiveData
  rw [hp]
  exact serveHeldData_of_full (s := Claims.holding u .room s) rfl hsession (.inl rfl) hp hfull

/-- A data unit of another sender that the part attends to in an open inbound session is received (R68). -/
theorem exec_inboundUnitOffer {v : Byte} {e : Bool} (hfree : Claims.Unoccupied s) (ha : Claims.Attends s)
    (hphase : s.link.phase = .data) :
    exec (.inboundUnitOffer v e) s = done (receiveData (dataUnit v e) (Claims.offeredBy (dataUnit v e) s)) := by
  have hdata : (Claims.offeredBy (dataUnit v e) s).link.phase = .data := hphase
  have hopen : (Claims.offeredBy (dataUnit v e) s).data.session = some x := hsession
  rw [exec_of_attended rfl hfree ha, attendOffer, hdata, hopen]
  rfl

end

/-! ### Offers of the part -/

theorem State.mayOffer_of_mayOffer (h : Claims.MayOffer s) : s.mayOffer = true := by
  obtain ⟨⟨honline, hplq, hstop, hclear⟩, hphase, ⟨hheld, hoffered⟩, hforeign⟩ := h
  unfold State.mayOffer
  rw [honline, hplq, hstop, hclear, hphase, hheld, hoffered, hforeign]
  rfl

/-- A unit of the part at its offer, by who holds it (R71, R159, R161). -/
theorem offerUnit_of_ownOffered (hheld : s.link.held = none) (h : Claims.OwnOffered s o t) : offerUnit o s = t := by
  unfold offerUnit
  cases h with
  | stands hs ho =>
    rw [hs]
    refine (takeIfUnheld_of_offered (s := { s with link.offered := some o }) rfl hheld).trans ?_
    rw [ho]
    rfl
  | taken hs ho =>
    rw [hs]
    refine (takeIfUnheld_of_offered (s := { s with link.offered := some o }) rfl hheld).trans ?_
    rw [ho]
    rfl
  | delivered x hs hp hroom =>
    rw [hs]
    exact receiveData_of_room (s := { s with link.offered := some o }) hs _ hp hroom
  | paused x hs hp =>
    rw [hs]
    exact receiveData_of_paused (s := { s with link.offered := some o }) hs _ hp
  | full x hs hp hfull =>
    rw [hs]
    exact receiveData_of_full (s := { s with link.offered := some o }) hs _ hp hfull

/-- The unit that is due is offered when the part may offer (R71). -/
theorem offerDue_of_ownOffered {kind : OfferKind} {due : Option (Byte × Bool)} {v : Byte} {e b : Bool}
    (hmay : Claims.MayOffer s) (hdue : due = some (v, e)) (h : Claims.OwnOffered s (Claims.ownUnit kind v e b) t) :
    offerDue kind due b s = done t := by
  have hoffer : s.mayOffer = true := State.mayOffer_of_mayOffer hmay
  obtain ⟨-, -, ⟨hheld, -⟩, -⟩ := hmay
  unfold offerDue
  rw [hdue]
  exact (if_pos hoffer).trans (congrArg done (offerUnit_of_ownOffered hheld h))

/-- The head outbound entry is due while the part sends entries for its record source (R147). -/
theorem outboundDue_of_head {h : Handle} {e : OutEntry} {rest : List OutEntry} (hsending : s.link.sending = true)
    (hsource : s.link.source = .record h) (hfifo : s.data.outFifo = e :: rest) :
    outboundDue s = some (e.value, Claims.outboundEndFlag (s.record h.slot) e) := by
  unfold outboundDue
  rw [hsending, hsource, hfifo]
  rfl

end Sys2Proof.Machine

namespace Sys2Proof.Claims

open Sys2Proof.Machine

/-- Settles O38: at its offer a unit is received, and a held one is served, by the pause and the room of the FIFO. -/
theorem inboundUnitsAreTaken : Obligations.InboundUnitsAreTaken := by
  refine ⟨fun s x v e hfree ha hphase hsession => ?_, fun s x h hheld hcause hsession hp hroom => ?_, fun s w => ?_⟩
  · have hexec := exec_inboundUnitOffer hsession (v := v) (e := e) hfree ha hphase
    refine ⟨fun hp hroom => hexec.trans (congrArg done ?_), fun hp hfull => hexec.trans (congrArg done ?_),
      fun hp => hexec.trans (congrArg done ?_)⟩
    · rw [receiveData_of_room (s := offeredBy _ s) hsession _ hp hroom, partTakes,
        show (offeredBy (dataUnit v e) s).link.offered = none from hfree.2]
    · exact receiveData_of_full (s := offeredBy _ s) hsession _ hp hfull
    · exact receiveData_of_paused (s := offeredBy _ s) hsession _ hp
  · exact congrArg done (serveHeldData_of_room hheld hsession hcause hp hroom)
  · exact congrArg done (serveHeldData_of_channelsFit w)

/-- Settles O39: the head entry is the unit due, offered by who holds it. -/
theorem outboundUnitsAreOffered : Obligations.OutboundUnitsAreOffered :=
  fun _ _ _ _ _ _ hmay hsending hsource hfifo h =>
    offerDue_of_ownOffered hmay (outboundDue_of_head hsending hsource hfifo) h

end Sys2Proof.Claims
end

section
/-! CONFIRM and the expiry of the confirm timer (R102 to R106), and what a read of each register presents, with the
lines SVC, DREQ-IN and DREQ-OUT (R91, R114, R145, R150, R165, R166, R185, R191, R192, R197, R200, R201). -/

namespace Sys2Proof.Machine

variable {s : State}

/-! ### Confirms -/

/-- Applying a naming leaves the registers of the port. -/
theorem applyNaming_port (role : Role) (i : Slot) (s : State) : (applyNaming role i s).port = s.port := by
  cases role with
  | source => exact postRecord_port _ _ _
  | sink =>
    refine (postRecord_port _ _ _).trans ?_
    unfold releaseIfSource
    split <;> rfl

theorem acceptConfirm_port (c : Confirm) (s : State) : (acceptConfirm c s).port = s.port := by
  unfold acceptConfirm
  rw [takeHeld_port, applyNaming_port]

/-- An accepted confirm for a source naming names its record (R93, R104). -/
theorem acceptConfirm_of_source {c : Confirm} {i : Slot} (hh : c.handle = s.handleOf i) (hr : c.role = .source) :
    acceptConfirm c s = Claims.taken (Claims.namedSource i { s with link.confirm := none }) := by
  unfold acceptConfirm
  rw [hr, hh]
  rfl

/-- An accepted confirm for a sink naming names its record (R94, R104). -/
theorem acceptConfirm_of_sink {c : Confirm} {i : Slot} (hh : c.handle = s.handleOf i) (hr : c.role = .sink) :
    acceptConfirm c s = Claims.taken (Claims.namedSink i { s with link.confirm := none }) := by
  unfold acceptConfirm
  rw [hr, hh, ← applySink_eq]
  rfl

/-- A confirm timer that runs expires (R106). -/
theorem execConfirmTimerExpiry_of_running {c : Confirm} (hc : s.link.confirm = some c) (ht : c.timer ≠ 0#8) :
    execConfirmTimerExpiry s = done (postDevice .confirmExpired (refuseConfirm s)) := by
  unfold execConfirmTimerExpiry
  rw [hc]
  exact if_neg ht

/-- With no confirm pending, or a window of 0, no timer runs (R102). -/
theorem execConfirmTimerExpiry_of_stopped
    (h : s.link.confirm = none ∨ ∃ c, s.link.confirm = some c ∧ c.timer = 0#8) :
    execConfirmTimerExpiry s = .next s := by
  unfold execConfirmTimerExpiry
  rcases h with hnone | ⟨c, hc, ht⟩
  · rw [hnone]
  · rw [hc]
    exact if_pos ht

/-! ### Layouts of the registers -/

/-- INTCTL is four flags, from bit 0 upwards (R201). -/
theorem intctlWord_eq_concat (n : NoticeUnit) :
    n.intctlWord =
      ((((0#12).concat n.armed).concat n.attentionEnable).concat (n.mode == .pulse)).concat n.masterEnable := rfl

/-- CONFIG is three flags over the byte of the confirm window (R200). -/
theorem configWord_eq_append (p : BusPort) :
    p.configWord = (((0#5).concat p.endOnTc).concat p.dmaOut).concat p.dmaIn ++ p.confirmWindow := rfl

theorem loByte_configWord (p : BusPort) : loByte p.configWord = p.confirmWindow :=
  BitVec.setWidth_append_eq_right

/-- The bits of INTCTL (R201). -/
theorem getLsbD_intctlWord (n : NoticeUnit) :
    n.intctlWord.getLsbD 0 = n.masterEnable ∧ n.intctlWord.getLsbD 1 = (n.mode == .pulse) ∧
      n.intctlWord.getLsbD 2 = n.attentionEnable ∧ n.intctlWord.getLsbD 3 = n.armed ∧
      ∀ k, n.intctlWord.getLsbD (k + 4) = false := by
  rw [intctlWord_eq_concat]
  simp only [BitVec.getLsbD_concat_zero, BitVec.getLsbD_concat_succ, BitVec.getLsbD_zero, implies_true,
    and_self]

/-- The bits of CONFIG above its low byte (R200). -/
theorem getLsbD_configWord (p : BusPort) :
    p.configWord.getLsbD 8 = p.dmaIn ∧ p.configWord.getLsbD 9 = p.dmaOut ∧ p.configWord.getLsbD 10 = p.endOnTc ∧
      ∀ k, p.configWord.getLsbD (k + 11) = false := by
  have hflags (k : Nat) :
      p.configWord.getLsbD (k + 8) = ((((0#5).concat p.endOnTc).concat p.dmaOut).concat p.dmaIn).getLsbD k := by
    rw [configWord_eq_append, BitVec.getLsbD_append, if_neg (Nat.not_lt.mpr (Nat.le_add_left 8 k)),
      Nat.add_sub_cancel]
  refine ⟨(hflags 0).trans ?_, (hflags 1).trans ?_, (hflags 2).trans ?_, fun k => (hflags (k + 3)).trans ?_⟩ <;>
    simp only [BitVec.getLsbD_concat_zero, BitVec.getLsbD_concat_succ, BitVec.getLsbD_zero]

/-- The bits from `n` upwards, counted from `n`. -/
theorem forall_le_of_forall_add {n : Nat} {P : Nat → Prop} (h : ∀ k, P (k + n)) (m : Nat) (hm : n ≤ m) : P m := by
  obtain ⟨k, rfl⟩ := Nat.exists_eq_add_of_le' hm
  exact h k

/-- INDATA as the statements write its word (R201). -/
theorem inEntry_word_eq (e : InEntry) : e.word = Claims.indataWord e := by
  have hflags : ∀ byChar byLine : Bool,
      (1#1 ++ 0#5 ++ BitVec.ofBool byChar ++ BitVec.ofBool byLine).setWidth 16 <<< 8 =
        (if byLine then 0x0100#16 else 0x0000#16) ||| ((if byChar then 0x0200#16 else 0x0000#16) ||| 0x8000#16) := by
    decide
  refine (BitVec.setWidth_eq _).symm.trans (BitVec.setWidth_append_eq_shiftLeft_setWidth_or.trans ?_)
  rw [hflags, BitVec.or_comm, Claims.indataWord, BitVec.or_assoc, BitVec.or_assoc]

/-! ### What a read presents -/

/-- While RESET is not held, a read shows what it shows of the served port (R190). -/
theorem readLocation_of_served (h : s.port.resetHeld = false) (loc : BitVec 5) :
    s.readLocation loc = State.readLocation { s with port.resetHeld := false } loc := by
  rw [← h]

/-- ATTENTION shows the head of the attention list (R173). -/
theorem readLocation_attention (h : s.port.resetHeld = false) :
    s.readLocation 0x0E#5 = (match s.notice.attention with | [] => 0xFFFF#16 | a :: _ => a.word) := by
  refine (readLocation_of_served h _).trans ?_
  show (s.notice.attention.head?.map Handle.word).getD noneWord = _
  cases s.notice.attention <;> rfl

/-- INDATA shows the head inbound entry (R156). -/
theorem readLocation_indata (h : s.port.resetHeld = false) :
    s.readLocation 0x14#5 = (match s.data.inFifo with | [] => 0#16 | e :: _ => Claims.indataWord e) := by
  refine (readLocation_of_served h _).trans ?_
  show (s.data.inFifo.head?.map InEntry.word).getD 0#16 = _
  cases s.data.inFifo with
  | nil => rfl
  | cons e rest => exact inEntry_word_eq e

/-- SOURCE shows the part source (R91). -/
theorem readLocation_source (h : s.port.resetHeld = false) :
    s.readLocation 0x17#5 =
      (match s.link.source with | .none => 0xFFFF#16 | .record a => a.word | .management => 0xFFFE#16) := by
  refine (readLocation_of_served h _).trans ?_
  show s.sourceWord = _
  unfold State.sourceWord
  cases s.link.source <;> rfl

/-- LEAD shows the lead of the inbound session (R150). -/
theorem readLocation_lead (h : s.port.resetHeld = false) :
    s.readLocation 0x18#5 = (match s.data.session with | none => 0xFFFF#16 | some x => x.lead.word) := by
  refine (readLocation_of_served h _).trans ?_
  show s.leadWord = _
  unfold State.leadWord
  cases s.data.session <;> rfl

/-- The write registers and the unassigned locations present 0000H (R185). -/
theorem readLocation_of_unread (h : s.port.resetHeld = false) :
    ∀ loc ∈ [0x01#5, 0x02#5, 0x15#5, 0x16#5, 0x1B#5, 0x1C#5, 0x1D#5, 0x1E#5, 0x1F#5], s.readLocation loc = 0#16 := by
  simp only [List.forall_mem_cons, readLocation_of_served h]
  exact ⟨rfl, rfl, rfl, rfl, rfl, rfl, rfl, rfl, rfl, nofun⟩

/-! ### The lines -/

/-- The outbound session is open while the part source is a record (R145). -/
theorem outSessionOpen_iff : s.outSessionOpen = true ↔ ∃ h, s.link.source = .record h := by
  unfold State.outSessionOpen
  cases s.link.source with
  | none => exact ⟨nofun, nofun⟩
  | record h => exact ⟨fun _ => ⟨h, rfl⟩, fun _ => rfl⟩
  | management => exact ⟨nofun, nofun⟩

/-- A list holds something, as the lines ask it. -/
theorem not_isEmpty_eq_true_iff {α : Type} {l : List α} : (!l.isEmpty) = true ↔ l ≠ [] := by
  rw [Bool.not_eq_true', List.isEmpty_eq_false_iff]

theorem svc_iff : s.svc = true ↔ s.link.online = true ∧ s.calls.queue ≠ [] := by
  rw [State.svc, Bool.and_eq_true, not_isEmpty_eq_true_iff]

theorem dreqIn_iff : s.dreqIn = true ↔ s.port.dmaIn = true ∧ s.data.inFifo ≠ [] := by
  rw [State.dreqIn, Bool.and_eq_true, not_isEmpty_eq_true_iff]

theorem dreqOut_iff :
    s.dreqOut = true ↔ s.port.dmaOut = true ∧ (∃ h, s.link.source = .record h) ∧ s.data.outFifo.length < 32 := by
  rw [State.dreqOut, Bool.and_eq_true, Bool.and_eq_true, outSessionOpen_iff, decide_eq_true_iff, and_assoc]

end Sys2Proof.Machine

namespace Sys2Proof.Claims

open Sys2Proof.Machine

variable {s : State}

/-- A CONFIRM with a decision in range answers the confirm pending for its record (R103). -/
theorem answers_confirm_of_pending {i : Slot} {c : Confirm} {accept : Bool} (hready : Ready s)
    (hslot : s.slotOf (s.param 0) = some i) (hc : s.link.confirm = some c) (hh : c.handle = s.handleOf i)
    (hdecision : zeroOrOne (s.param 1) = some accept) :
    Answers .confirm s (endRequest .ok (s.param 0) (if accept then acceptConfirm c s else refuseConfirm s)) := by
  refine answers_of_body rfl hready hslot ?_
  rw [hdecision, hc]
  refine (if_pos hh).trans ?_
  cases accept with
  | false => rfl
  | true =>
    show endRequest .ok ((acceptConfirm c s).port.params.get 0) _ = _
    rw [acceptConfirm_port]
    rfl

/-- Settles O25. -/
theorem confirmAcceptAppliesNaming : Obligations.ConfirmAcceptAppliesNaming := by
  intro s i c hready hslot hc hh haccept
  have hanswers := answers_confirm_of_pending hready hslot hc hh (accept := true) (by rw [haccept]; rfl)
  refine ⟨fun hrole => ?_, fun hrole => ?_⟩
  · rw [← acceptConfirm_of_source hh hrole]
    exact hanswers
  · rw [← acceptConfirm_of_sink hh hrole]
    exact hanswers

/-- Settles O26: the answer that refuses, and the timer by whether it runs. -/
theorem confirmRefusalAndExpiryReject : Obligations.ConfirmRefusalAndExpiryReject := by
  refine ⟨fun s i c hready hslot hc hh hrefuse => ?_, fun s c hc ht => ?_, fun s h => ?_⟩
  · exact answers_confirm_of_pending hready hslot hc hh (accept := false) (by rw [hrefuse]; rfl)
  · exact execConfirmTimerExpiry_of_running hc ht
  · exact execConfirmTimerExpiry_of_stopped h

/-- Settles O54: a register that shows one piece of the state as it stands is read off the served port, and the others
have a lemma each. -/
theorem registersAndLinesShowTheState : Obligations.RegistersAndLinesShowTheState := by
  refine ⟨fun s h => ?_, fun s => ⟨svc_iff, dreqIn_iff, dreqOut_iff⟩⟩
  have hserved := readLocation_of_served h
  have hintctl : s.readLocation 0x0B#5 = s.notice.intctlWord := hserved _
  have hconfig : s.readLocation 0x0D#5 = s.port.configWord := hserved _
  obtain ⟨hmaster, hmode, hattention, harmed, hrest⟩ := getLsbD_intctlWord s.notice
  obtain ⟨hdmaIn, hdmaOut, hendOnTc, hzero⟩ := getLsbD_configWord s.port
  rw [hintctl, hconfig]
  exact ⟨hserved _, hserved _, hserved _, hserved _, hserved _, hserved _, hserved _, hserved _,
    ⟨hmaster, hmode ▸ beq_iff_eq, hattention, harmed, forall_le_of_forall_add hrest⟩, hserved _,
    ⟨loByte_configWord _, hdmaIn, hdmaOut, hendOnTc, forall_le_of_forall_add hzero⟩, readLocation_attention h,
    hserved _, hserved _, hserved _, hserved _, hserved _, readLocation_indata h, readLocation_source h,
    readLocation_lead h, hserved _, hserved _, readLocation_of_unread h⟩

end Sys2Proof.Claims
end

section
/-! The requests on the status and the call of a record (R116 to R118), and the units of a status answer and of a roster
answer, offered (R122, R123, R127, R159) and taken (R122, R124, R128, R161). -/

namespace Sys2Proof.Machine

variable {s t : State} {o : Offered}

/-! ### CALL -/

/-- A CALL from QUIET stores the status and raises the call as one change of the record: the status is no part of what
drives (R117, R132). -/
theorem joinQueue_withStatus (s : State) (i : Slot) (v : Byte) :
    joinQueue i (s.updRecord i fun r => { r with status := v }) =
      { s.updRecord i (fun r => { r with status := v, call := .calling }) with
        calls.queue := s.calls.queue ++ [s.handleOf i] } := by
  have hhandle : (s.updRecord i fun r => { r with status := v }).handleOf i = s.handleOf i :=
    s.handleOf_updRecord i fun _ => rfl
  unfold joinQueue
  rw [s.updRecord_updRecord i _ _ (.inl rfl), hhandle, State.updRecord_calls]

/-! ### The units due -/

theorem statusDue_of_answer {h : Handle} (ha : s.calls.answer = .status h .status) :
    statusDue s = some ((s.record h.slot).status, false) := by
  unfold statusDue
  rw [ha]

theorem conditionDue_of_answer {h : Handle} (ha : s.calls.answer = .status h .condition) :
    conditionDue s = some (Claims.conditionByte (s.record h.slot), true) := by
  unfold conditionDue
  rw [ha]
  rfl

/-- A roster is the count and two units for each tag (section 6.5). -/
theorem length_rosterBytes (tags : List Word) : (Claims.rosterBytes tags).length = 1 + 2 * tags.length := by
  have hpairs : (tags.flatMap fun t => [hiByte t, loByte t]).length = 2 * tags.length := by
    induction tags with
    | nil => rfl
    | cons t rest ih =>
      simp only [List.flatMap_cons, List.length_append, List.length_cons, List.length_nil, ih]
      omega
  rw [Claims.rosterBytes, List.length_cons, hpairs, Nat.add_comm]

/-- The unit at the position is due, with END on the last of the roster (R128). -/
theorem rosterUnitDue_of_answer {tags : List Word} {p : Nat} {v : Byte} (ha : s.calls.answer = .roster tags p)
    (hv : (Claims.rosterBytes tags)[p]? = some v) :
    rosterUnitDue s = some (v, decide (p + 1 = 1 + 2 * tags.length)) := by
  unfold rosterUnitDue
  rw [ha, ← length_rosterBytes]
  exact congrArg (Option.map _) hv

/-! ### The effects of the Call Unit at a link take -/

theorem ownerEffect_of_status {h : Handle} {next : AnswerUnit} (hk : o.kind = .status)
    (ha : t.calls.answer = .status h next) :
    Claims.ownerEffect o t =
      { t with calls.answer := if t.link.source = .record h then .status h .condition else .none } := by
  unfold Claims.ownerEffect
  rw [hk, ha]

theorem ownerEffect_of_condition {h : Handle} {next : AnswerUnit} (hk : o.kind = .condition)
    (ha : t.calls.answer = .status h next) :
    Claims.ownerEffect o t = Claims.conditionTaken h (o.value.getLsbD 0) t := by
  unfold Claims.ownerEffect
  rw [hk, ha]

theorem ownerEffect_of_roster {tags : List Word} {p : Nat} (hk : o.kind = .roster)
    (ha : t.calls.answer = .roster tags p) :
    Claims.ownerEffect o t = { t with calls.answer := if o.endFlag then .none else .roster tags (p + 1) } := by
  unfold Claims.ownerEffect
  rw [hk, ha]

/-! ### Takes of units of the part -/

/-- The link take of a unit by what its owning block does on the state with OFFER withdrawn (R71, R73). -/
theorem ownTaken_of_ownerEffect {f : State → State}
    (hf : Claims.ownerEffect o { s with link.offered := none } = f { s with link.offered := none }) :
    Claims.ownTaken o s = Claims.linkTake o.endFlag f s := by
  unfold Claims.ownTaken Claims.linkTake
  rw [hf]

/-- A unit without END leaves the phase as it is: its link take is what its owning block does (R71, R73). -/
theorem ownTaken_of_no_end (hend : o.endFlag = false) :
    Claims.ownTaken o s = Claims.ownerEffect o { s with link.offered := none } := by
  unfold Claims.ownTaken Claims.linkTake
  rw [hend]
  rfl

section
variable {k : OfferKind} (ho : s.link.offered = some o) (hk : o.kind = k)
include ho hk

theorem takenCommand_of_kind : takenCommand (· == k) s = done (releaseOthers o s) :=
  takenCommand_of_offered ho (beq_iff_eq.mpr hk)

/-- The other stations release HOLD on a unit that the part does not hold: its link take is made (R71). -/
theorem takenCommand_eq_ownTaken (hheld : s.link.held = none) :
    takenCommand (· == k) s = done (Claims.ownTaken o s) := by
  rw [takenCommand_of_kind ho hk, releaseOthers_of_unheld o hheld, linkTake_eq_ownTaken]
  rfl

/-- While the part holds its unit itself, the release of the other stations' HOLD takes nothing (R161). -/
theorem takenCommand_of_held (hheld : s.link.held ≠ none) :
    takenCommand (· == k) s = done { s with link.offered := some { o with otherHold := false } } := by
  rw [takenCommand_of_kind ho hk, releaseOthers_of_held o hheld]

end

end Sys2Proof.Machine

namespace Sys2Proof.Claims

open Sys2Proof.Machine

/-- Settles O22: each of the three past its checks, and CALL by the call state that it finds. -/
theorem statusCallWithdraw : Obligations.StatusCallWithdraw := by
  intro s i hready hslot
  have not_quiet : (s.record i).call = .calling → (s.record i).call ≠ .quiet := fun h c => nomatch h.symm.trans c
  refine ⟨fun hservice => ?_, fun hactive hquiet => ?_, fun hactive hcalling => ?_, fun hcalling => ?_⟩
  · exact answers_of_body rfl hready hslot (if_neg (inService_ne_false hservice))
  · refine answers_of_body rfl hready hslot ((if_neg (not_not.mpr hactive)).trans ((if_pos hquiet).trans ?_))
    rw [joinQueue_withStatus]
    rfl
  · exact answers_of_body rfl hready hslot ((if_neg (not_not.mpr hactive)).trans (if_neg (not_quiet hcalling)))
  · exact answers_of_body rfl hready hslot (if_neg (not_quiet hcalling))

/-- Settles O41: each unit is the one due at its offer; at its take the part does not hold it and the Call Unit acts, or
the take waits. -/
theorem statusAnswerUnits : Obligations.StatusAnswerUnits := by
  refine ⟨fun s u h b hmay ha => offerDue_of_ownOffered hmay (statusDue_of_answer ha),
    fun s u h b hmay ha => offerDue_of_ownOffered hmay (conditionDue_of_answer ha),
    fun s o h ho hheld => ⟨fun hkind hend ⟨next, ha⟩ => ?_, fun hkind hend ⟨next, ha⟩ => ?_⟩,
    fun s o ho hheld => ⟨fun hkind => ?_, fun hkind => ?_⟩⟩
  · refine (takenCommand_eq_ownTaken ho hkind hheld).trans (congrArg done ?_)
    exact (ownTaken_of_no_end hend).trans (ownerEffect_of_status hkind ha)
  · refine (takenCommand_eq_ownTaken ho hkind hheld).trans (congrArg done ?_)
    rw [ownTaken_of_ownerEffect (ownerEffect_of_condition hkind ha), hend]
  · exact takenCommand_of_held ho hkind hheld
  · exact takenCommand_of_held ho hkind hheld

/-- Settles O42: the unit at the position is the one due; at its take the part does not hold it and the roster advances
or ends, or the take waits. -/
theorem rosterAnswerUnits : Obligations.RosterAnswerUnits := by
  refine ⟨fun s u tags p v b hmay ha hv => offerDue_of_ownOffered hmay (rosterUnitDue_of_answer ha hv),
    fun s o tags p ho hheld hkind ha => ?_, fun s o ho hheld hkind => ?_⟩
  · refine (takenCommand_eq_ownTaken ho hkind hheld).trans (congrArg done ?_)
    exact ownTaken_of_ownerEffect (ownerEffect_of_roster hkind ha)
  · exact takenCommand_of_held ho hkind hheld

end Sys2Proof.Claims
end

section
/-! The group poll map (chapter 7): every command keeps the assertion counters at the records that drive there (R132,
R133), what the drive update makes of one counter, the requests on a poll assignment and on the host flag (R137 to R139),
and the answer to a group poll (R140). -/

namespace Sys2Proof.Machine

variable {s t : State}

/-! ### The ends of a command -/

theorem next_bounds (s : State) : Leads s.Bounds (.next s) := leads_next (.refl s)

theorem State.Bounds.leads_done (a : s.Bounds t) : Leads s.Bounds (done t) :=
  leads_next (a.trans (startPulse_bounds t))

theorem present_bounds (s : State) (w : Word) : s.Bounds (present w s) := .of_eq rfl rfl rfl rfl

/-- A bus write keeps the bounds when its effect does (R190). -/
theorem busWrite_bounds {f : State → State} (h : s.Bounds (f s)) : Leads s.Bounds (busWrite f s) :=
  leads_busWrite (.refl s) (h.trans (startPulse_bounds _))

/-- A bus read keeps the bounds when its effect does (R190). -/
theorem busRead_bounds {f : State → State} (h : s.Bounds (f s)) : Leads s.Bounds (busRead f s) :=
  leads_busRead (present_bounds s _) (h.trans (startPulse_bounds _))

/-- A REQUEST write keeps the bounds when the request's body does; a refused one posts a notice (R191). -/
theorem request_bounds {body : State → State} (h : s.Bounds (body s)) :
    Leads s.Bounds (busWrite (startRequest body) s) := by
  refine busWrite_bounds ?_
  unfold startRequest
  split
  · exact postDevice_bounds s _
  · exact h

theorem runRequestByte_bounds (s : State) (c : Byte) : s.Bounds (runRequestByte c s) := by
  unfold runRequestByte
  split
  · exact runRequest_bounds s _
  · exact failRequest_bounds s _

/-! ### CONTROL commands -/

/-- The reset of the part meets the bounds whatever went before (R133, R164, R190). -/
theorem resetPart_reaches_bounds (b : Bool) (s : State) : s.Bounds (resetPart b s) :=
  have ⟨hcounters, hfifos⟩ := resetPart_bounds b s
  ⟨fun _ => hcounters, fun _ => hfifos⟩

theorem execOnline_bounds (s : State) : Leads s.Bounds (execOnline s) := by
  unfold execOnline
  split
  · exact next_bounds s
  · exact busWrite_bounds (goOnline_bounds s)

theorem execOffline_bounds (s : State) : Leads s.Bounds (execOffline s) := by
  unfold execOffline
  split
  · exact busWrite_bounds (goOffline_bounds s)
  · exact next_bounds s

theorem execResetPart_bounds (s : State) : Leads s.Bounds (execResetPart s) := by
  unfold execResetPart
  split
  · exact next_bounds s
  · exact leads_next (resetPart_reaches_bounds _ s)

theorem execArm_bounds (s : State) : Leads s.Bounds (execArm s) := busWrite_bounds (.of_eq rfl rfl rfl rfl)

theorem execResumeInbound_bounds (s : State) : Leads s.Bounds (execResumeInbound s) := by
  have hresumed : s.Bounds { s with data.paused := false } := .of_eq rfl rfl rfl rfl
  unfold execResumeInbound
  split
  · exact busWrite_bounds (hresumed.trans (serveHeldData_bounds _))
  · exact next_bounds s

theorem execFlushInbound_bounds (s : State) : Leads s.Bounds (execFlushInbound s) := by
  have hflushed : s.Bounds { s with data.inFifo := [] } := .of_le rfl rfl le_rfl (Nat.zero_le _)
  unfold execFlushInbound
  split
  · exact next_bounds s
  · exact busWrite_bounds (hflushed.trans (afterDrain_bounds _))

theorem execControlByte_bounds (s : State) (c : Byte) : Leads s.Bounds (execControlByte c s) := by
  unfold execControlByte
  split
  · exact execResetPart_bounds s
  · exact execOnline_bounds s
  · exact execOffline_bounds s
  · exact execArm_bounds s
  · exact execResumeInbound_bounds s
  · exact execFlushInbound_bounds s
  · exact next_bounds s

theorem execResetInput_bounds (s : State) (n : Nat) : Leads s.Bounds (execResetInput n s) := by
  unfold execResetInput
  split
  · exact leads_next (resetPart_reaches_bounds _ s)
  · exact next_bounds s

/-! ### Reads and writes of the port -/

/-- The take of the head of the attention list empties two sets of one record, which are no part of what drives
(R132, R173). -/
theorem takeAttention_bounds (s : State) : s.Bounds (takeAttention s) := by
  unfold takeAttention
  split
  · exact .of_eq rfl rfl rfl rfl
  · next h rest _ =>
    exact (updRecord_bounds s h.slot fun r => { r with notices := 0#8, signals := 0#16 }).trans
      (.of_eq rfl rfl rfl rfl)

theorem readWindow_bounds (s : State) : s.Bounds (readWindow s) := by
  unfold readWindow
  split
  · exact .of_eq rfl rfl rfl rfl
  · exact present_bounds s _

theorem State.Bounds.postTerminalCount (a : s.Bounds t) (tc : Bool) : s.Bounds (postTerminalCount tc t) := by
  unfold Machine.postTerminalCount
  split
  · exact a.trans (postDevice_bounds t _)
  · exact a

/-- A write to any location of the port (R185). -/
theorem execRegisterWrite_bounds (s : State) (loc : BitVec 5) (x : Word) :
    Leads s.Bounds (execRegisterWrite loc x s) := by
  unfold execRegisterWrite
  cases decodeLocation loc with
  | control => exact execControlByte_bounds s _
  | request => exact request_bounds (runRequestByte_bounds s _)
  | outdata => exact busWrite_bounds (writeOut_bounds s _ _)
  | outdataEnd => exact busWrite_bounds (writeOut_bounds s _ _)
  | param n => exact busWrite_bounds (.of_eq rfl rfl rfl rfl)
  | noticeMask => exact busWrite_bounds (.of_eq rfl rfl rfl rfl)
  | winsel => exact busWrite_bounds (.of_eq rfl rfl rfl rfl)
  | winfield => exact busWrite_bounds (.of_eq rfl rfl rfl rfl)
  | devnoticeEnable => exact busWrite_bounds (.of_eq rfl rfl rfl rfl)
  | intctl => exact busWrite_bounds (.of_eq rfl rfl rfl rfl)
  | config => exact busWrite_bounds (.of_eq rfl rfl rfl rfl)
  | _ => exact next_bounds s

theorem execDackIn_bounds (s : State) (strobe : Strobe) (tc : Bool) :
    Leads s.Bounds (execDackIn strobe tc s) := by
  unfold execDackIn
  split
  · exact next_bounds s
  · cases strobe with
    | read => exact ((readIn_bounds s).postTerminalCount tc).leads_done
    | write => exact next_bounds s

theorem execDackOut_bounds (s : State) (strobe : Strobe) (tc : Bool) (x : Word) :
    Leads s.Bounds (execDackOut strobe tc x s) := by
  unfold execDackOut
  split
  · exact next_bounds s
  · cases strobe with
    | read => exact leads_next (present_bounds s _)
    | write => exact ((writeOut_bounds s _ _).postTerminalCount tc).leads_done

/-! ### Units and lines of the link -/

theorem offerCommand_bounds (s : State) (x : LinkUnit) : Leads s.Bounds (offerCommand x s) := by
  unfold offerCommand
  split
  · exact next_bounds s
  · exact (foreignOffer_bounds s x).leads_done

theorem takeCommand_bounds (s : State) (x : LinkUnit) : Leads s.Bounds (takeCommand x s) := by
  unfold takeCommand
  split
  · exact next_bounds s
  · exact (foreignTake_bounds s x).leads_done

theorem offerDue_bounds (s : State) (kind : OfferKind) (due : Option (Byte × Bool)) (o : Bool) :
    Leads s.Bounds (offerDue kind due o s) := by
  unfold offerDue
  split
  · exact next_bounds s
  · split
    · exact (offerUnit_bounds s _).leads_done
    · exact next_bounds s

theorem takenCommand_bounds (s : State) (isKind : OfferKind → Bool) : Leads s.Bounds (takenCommand isKind s) := by
  unfold takenCommand
  split
  · exact next_bounds s
  · split
    · exact (releaseOthers_bounds s _).leads_done
    · exact next_bounds s

/-- A change of the lines alone. -/
theorem State.Bounds.withLines (a : s.Bounds t) (l : LinkLines) : s.Bounds { t with lines := l } :=
  a.trans (.of_eq rfl rfl rfl rfl)

theorem execOfferWithdrawn_bounds (s : State) : Leads s.Bounds (execOfferWithdrawn s) := by
  unfold execOfferWithdrawn
  split
  · exact next_bounds s
  · exact State.Bounds.leads_done (.of_eq rfl rfl rfl rfl)

/-- The release of a line, after which the part attends to an offer that waited for it (R82, R84, R86). -/
theorem lineReleased_bounds (s : State) (l : LinkLines) : s.Bounds (attendStanding { s with lines := l }) :=
  ((State.Bounds.refl s).withLines l).trans (attendStanding_bounds _)

theorem execStopAsserted_bounds (s : State) : Leads s.Bounds (execStopAsserted s) := by
  unfold execStopAsserted
  dsimp only
  split
  · exact ((stopLink_bounds s).withLines _).leads_done
  · exact ((State.Bounds.refl s).withLines _).leads_done

theorem execClearAsserted_bounds (s : State) : Leads s.Bounds (execClearAsserted s) := by
  unfold execClearAsserted
  dsimp only
  split
  · exact ((clearLink_bounds s).withLines _).leads_done
  · exact ((State.Bounds.refl s).withLines _).leads_done

/-! ### Completions and timers -/

/-- The end of a completion after an operation that keeps the bounds (R33, R37). -/
theorem State.Bounds.leads_finish (a : s.Bounds t) : Leads s.Bounds (done (finishOperation t)) :=
  (a.trans (finishOperation_bounds t)).leads_done

theorem execNameSourceLookupComplete_bounds (s : State) : Leads s.Bounds (execNameSourceLookupComplete s) := by
  unfold execNameSourceLookupComplete
  split
  · refine State.Bounds.leads_finish ?_
    split
    · exact .refl s
    · exact resolveSource_bounds s _
  · exact next_bounds s

theorem execNameSinkLookupComplete_bounds (s : State) : Leads s.Bounds (execNameSinkLookupComplete s) := by
  unfold execNameSinkLookupComplete
  split
  · refine State.Bounds.leads_finish ?_
    split
    · exact .refl s
    · exact resolveSink_bounds s _
  · exact next_bounds s

theorem execLinkRetagReplaceComplete_bounds (s : State) : Leads s.Bounds (execLinkRetagReplaceComplete s) := by
  unfold execLinkRetagReplaceComplete
  split
  · exact (completeLinkReplace_bounds s _ _ _).leads_finish
  · exact next_bounds s

theorem completeRequest_bounds (s : State) {α : Type} (pick : DirectoryRequest → Option α)
    {body : α → Vector Word 4 → Operation → State → State} (h : ∀ a params op, s.Bounds (body a params op s)) :
    Leads s.Bounds (completeRequest pick body s) := by
  unfold completeRequest
  split
  · split
    · exact (h _ _ _).leads_finish
    · exact next_bounds s
  · exact next_bounds s

/-- A request's change to the directory, whose failure ends the request and changes nothing else (R30, R31). -/
theorem changeOrFail_bounds (s : State) (op : Operation) {made : State → State} (h : ∀ t : State, t.Bounds (made t)) :
    s.Bounds (changeDirectory op made failRequest s) :=
  changeDirectory_bounds s op _ _ h fun r => failRequest_bounds s r

theorem execConfirmTimerExpiry_bounds (s : State) : Leads s.Bounds (execConfirmTimerExpiry s) := by
  unfold execConfirmTimerExpiry
  split
  · exact next_bounds s
  · split
    · exact next_bounds s
    · exact ((refuseConfirm_bounds s).trans (postDevice_bounds _ _)).leads_done

theorem execIntPulseEnd_bounds (s : State) : Leads s.Bounds (execIntPulseEnd s) := by
  unfold execIntPulseEnd
  split
  · exact State.Bounds.leads_done (.of_eq rfl rfl rfl rfl)
  · exact next_bounds s

/-! ### Every command -/

/-- Every command keeps the counters at the driving records, and the FIFOs within their depth. -/
theorem exec_bounds (s : State) (c : Instr) : Leads s.Bounds (exec c s) := by
  cases c with
  | create => exact request_bounds (runRequest_bounds s .create)
  | retire => exact request_bounds (runRequest_bounds s .retire)
  | retag => exact request_bounds (runRequest_bounds s .retag)
  | setAlias => exact request_bounds (runRequest_bounds s .setAlias)
  | clearAlias => exact request_bounds (runRequest_bounds s .clearAlias)
  | suspend => exact request_bounds (runRequest_bounds s .suspend)
  | resume => exact request_bounds (runRequest_bounds s .resume)
  | setStatus => exact request_bounds (runRequest_bounds s .setStatus)
  | call => exact request_bounds (runRequest_bounds s .call)
  | withdraw => exact request_bounds (runRequest_bounds s .withdraw)
  | setPoll => exact request_bounds (runRequest_bounds s .setPoll)
  | clearPoll => exact request_bounds (runRequest_bounds s .clearPoll)
  | setFlag => exact request_bounds (runRequest_bounds s .setFlag)
  | confirm => exact request_bounds (runRequest_bounds s .confirm)
  | find => exact request_bounds (runRequest_bounds s .find)
  | setManagementTag => exact request_bounds (runRequest_bounds s .setManagementTag)
  | setOptions => exact request_bounds (runRequest_bounds s .setOptions)
  | unknownRequestCode x => exact request_bounds (runRequestByte_bounds s _)
  | resetPart => exact execResetPart_bounds s
  | online => exact execOnline_bounds s
  | offline => exact execOffline_bounds s
  | arm => exact execArm_bounds s
  | resumeInbound => exact execResumeInbound_bounds s
  | flushInbound => exact execFlushInbound_bounds s
  | unassignedControlCode x => exact execControlByte_bounds s _
  | attentionRead => exact busRead_bounds (takeAttention_bounds s)
  | devnoticeRead => exact busRead_bounds (.of_eq rfl rfl rfl rfl)
  | indataRead => exact busRead_bounds (readIn_bounds s)
  | outdata x => exact busWrite_bounds (writeOut_bounds s _ _)
  | outdataEnd x => exact busWrite_bounds (writeOut_bounds s _ _)
  | windataRead => exact busRead_bounds (readWindow_bounds s)
  | configWrite x => exact busWrite_bounds (.of_eq rfl rfl rfl rfl)
  | intctlWrite x => exact busWrite_bounds (.of_eq rfl rfl rfl rfl)
  | devnoticeEnableWrite x => exact busWrite_bounds (.of_eq rfl rfl rfl rfl)
  | registerWrite loc x => exact execRegisterWrite_bounds s loc x
  | resetInput n => exact execResetInput_bounds s n
  | resetRelease => exact leads_next (.of_eq rfl rfl rfl rfl)
  | dackIn strobe tc => exact execDackIn_bounds s strobe tc
  | dackOut strobe tc x => exact execDackOut_bounds s strobe tc x
  | signal => exact offerCommand_bounds s _
  | nameSource => exact offerCommand_bounds s _
  | nameSink => exact offerCommand_bounds s _
  | linkRetag => exact offerCommand_bounds s _
  | tagHi => exact offerCommand_bounds s _
  | tagLo => exact offerCommand_bounds s _
  | dropSource => exact offerCommand_bounds s _
  | dropSinks => exact offerCommand_bounds s _
  | go => exact offerCommand_bounds s _
  | query => exact offerCommand_bounds s _
  | groupPoll => exact offerCommand_bounds s _
  | assignPoll => exact offerCommand_bounds s _
  | releasePoll => exact offerCommand_bounds s _
  | unassignedLinkCode => exact offerCommand_bounds s _
  | controlUnitInDataPhase => exact takeCommand_bounds s _
  | dataUnitInCommandPhase => exact takeCommand_bounds s _
  | dataUnitSeen => exact takeCommand_bounds s _
  | inboundUnitOffer => exact offerCommand_bounds s _
  | inboundUnitTake => exact (serveHeldData_bounds s).leads_done
  | outboundUnitOffer => exact offerDue_bounds s _ _ _
  | outboundUnitTaken => exact takenCommand_bounds s OfferKind.isOutbound
  | statusUnitOffer => exact offerDue_bounds s _ _ _
  | statusUnitTaken => exact takenCommand_bounds s (· == .status)
  | conditionUnitOffer => exact offerDue_bounds s _ _ _
  | conditionUnitTaken => exact takenCommand_bounds s (· == .condition)
  | rosterUnitOffer => exact offerDue_bounds s _ _ _
  | rosterUnitTaken => exact takenCommand_bounds s (· == .roster)
  | offerWithdrawn => exact execOfferWithdrawn_bounds s
  | plqAsserted => exact ((State.Bounds.refl s).withLines { s.lines with plq := true }).leads_done
  | plqReleased => exact (lineReleased_bounds s { s.lines with plq := false }).leads_done
  | stopAsserted => exact execStopAsserted_bounds s
  | stopReleased => exact (lineReleased_bounds s { s.lines with stop := false }).leads_done
  | clearAsserted => exact execClearAsserted_bounds s
  | clearReleased => exact (lineReleased_bounds s { s.lines with clear := false }).leads_done
  | nameSourceLookupComplete => exact execNameSourceLookupComplete_bounds s
  | nameSinkLookupComplete => exact execNameSinkLookupComplete_bounds s
  | linkRetagReplaceComplete => exact execLinkRetagReplaceComplete_bounds s
  | createInsertComplete =>
    exact completeRequest_bounds s _ fun i _ op =>
      changeDirectory_bounds s op _ _ (createMade_bounds i) fun r => createFailed_bounds i r s
  | retireRemoveComplete =>
    exact completeRequest_bounds s _ fun i p op => changeOrFail_bounds s op (retireMade_bounds i p)
  | retagReplaceComplete =>
    exact completeRequest_bounds s _ fun i p op => changeOrFail_bounds s op (retagMade_bounds i p)
  | setAliasComplete =>
    exact completeRequest_bounds s _ fun i p op => changeOrFail_bounds s op (setAliasMade_bounds i p)
  | clearAliasComplete =>
    exact completeRequest_bounds s _ fun i p op => changeOrFail_bounds s op (clearAliasMade_bounds i p)
  | findLookupComplete => exact completeRequest_bounds s _ fun _ _ op => findMade_bounds s op
  | setManagementTagComplete =>
    exact completeRequest_bounds s _ fun _ p op => changeOrFail_bounds s op (managementMade_bounds p)
  | confirmTimerExpiry => exact execConfirmTimerExpiry_bounds s
  | intPulseEnd => exact execIntPulseEnd_bounds s

/-! ### Drives and counters -/

/-- The place where a record drives is that of its assignment (R132). -/
theorem Record.drive_of_poll {r : Record} {a : PollAssignment} (h : r.poll = some a) :
    r.drive =
      if r.state = .active ∧ (r.pollFlag = true ↔ a.polarity = .normal) then some (pollPoint a) else none := by
  unfold Record.drive
  rw [h]

/-- A record without an assignment drives nowhere (R132). -/
theorem Record.drive_of_no_poll {r : Record} (h : r.poll = none) : r.drive = none := by
  unfold Record.drive
  rw [h]

/-- The flag and the polarity agree (R132). -/
theorem flag_agrees_iff (flag : Bool) (p : Polarity) :
    (flag = true ↔ p = .normal) ↔ flag = true ∧ p = .normal ∨ flag = false ∧ p = .inverted := by
  cases flag <;> cases p <;> decide

/-- When a record drives, and where (R132). -/
theorem Record.drive_eq_some_iff {r : Record} {p : PollPoint} :
    r.drive = some p ↔
      r.state = .active ∧ ∃ a, r.poll = some a ∧ p = a.group ++ a.line ∧
        (r.pollFlag = true ∧ a.polarity = .normal ∨ r.pollFlag = false ∧ a.polarity = .inverted) := by
  cases hpoll : r.poll with
  | none =>
    rw [Record.drive_of_no_poll hpoll]
    exact ⟨nofun, fun ⟨_, _, h, _⟩ => nomatch h⟩
  | some a =>
    rw [Record.drive_of_poll hpoll, Option.ite_none_right_eq_some, flag_agrees_iff]
    constructor
    · rintro ⟨⟨hstate, hagree⟩, hplace⟩
      exact ⟨hstate, a, rfl, (Option.some.inj hplace).symm, hagree⟩
    · rintro ⟨hstate, b, ⟨⟩, rfl, hagree⟩
      exact ⟨⟨hstate, hagree⟩, rfl⟩

/-- The table of R132 at one counter, as a loss at the place before and a gain at the place after. -/
theorem driveUpdate_at_eq_sub_add (before after : Option PollPoint) (c : Counters) (p : PollPoint) :
    (driveUpdate before after c).at p =
      if before = after then c.at p
      else (c.at p - if before = some p then 1 else 0) + if after = some p then 1 else 0 := by
  unfold driveUpdate
  split
  · rfl
  · rw [Counters.at_incr, Counters.at_decr]
    split <;> split <;> rfl

/-- A record that stops driving leaves the counter of its place (R132). -/
theorem driveUpdate_none_at (before : Option PollPoint) (c : Counters) (p : PollPoint) :
    (driveUpdate before none c).at p = if before = some p then c.at p - 1 else c.at p := by
  rw [driveUpdate_at, if_neg (fun h : none = some p => nomatch h)]
  cases before with
  | none => rfl
  | some q => rw [if_neg (fun h : some q = none => nomatch h)]

/-! ### Words of SET-POLL and SET-FLAG -/

/-- The words of a group and of a line with a polarity word in range give their assignment (R137, R193). -/
theorem pollOfWords_setWidth (g : BitVec 2) (l : BitVec 3) {w : Word} (hw : w.toNat < 2) :
    pollOfWords (g.setWidth 16) (l.setWidth 16) w =
      some { group := g, line := l, polarity := .ofBit (w.setWidth 1) } := by
  have hgroup : (g.setWidth 16).toNat < 4 := by
    rw [BitVec.toNat_setWidth_of_le (by decide)]
    exact g.isLt
  have hline : (l.setWidth 16).toNat < 8 := by
    rw [BitVec.toNat_setWidth_of_le (by decide)]
    exact l.isLt
  unfold pollOfWords
  rw [if_pos ⟨hgroup, hline, hw⟩, BitVec.setWidth_setWidth_of_le _ (by decide),
    BitVec.setWidth_setWidth_of_le _ (by decide), BitVec.setWidth_eq, BitVec.setWidth_eq]

/-- The word of a flag (R193). -/
theorem zeroOrOne_of_flag (b : Bool) : zeroOrOne (if b then 1#16 else 0#16) = some b := by
  cases b <;> decide

/-! ### The answer to a group poll -/

/-- The part answers a group poll under four conditions (R81). -/
theorem answersPoll_iff :
    s.answersPoll = true ↔
      s.lines.plq = true ∧ s.link.phase = .command ∧ s.link.online = true ∧ s.link.offered = none := by
  rw [State.answersPoll, Bool.and_eq_true, Bool.and_eq_true, Bool.and_eq_true, beq_iff_eq, Option.isNone_iff_eq_none,
    and_assoc, and_assoc]

theorem getLsbD_one_shiftLeft (n : Nat) {l : Nat} (hl : l < 8) : (1#8 <<< n).getLsbD l = decide (l = n) := by
  rw [BitVec.getLsbD_shiftLeft, BitVec.getLsbD_one]
  by_cases h : l = n
  · subst h
    simp [hl]
  · have hone : l < n ∨ l - n ≠ 0 := by omega
    rcases hone with hlt | hne
    · simp [h, hlt]
    · simp [h, hne]

/-- Setting one bit for each number of a list that passes a test: which bits are set afterwards. -/
theorem getLsbD_foldl_setBit (off : Nat → Prop) [DecidablePred off] {l : Nat} (hl : l < 8) :
    ∀ (ns : List Nat) (v : Byte),
      (ns.foldl (fun v n => if off n then v else v ||| 1#8 <<< n) v).getLsbD l = true ↔
        v.getLsbD l = true ∨ l ∈ ns ∧ ¬off l := by
  intro ns
  induction ns with
  | nil => exact fun v => ⟨.inl, fun h => h.resolve_right fun c => nomatch c.1⟩
  | cons n ns ih =>
    intro v
    rw [List.foldl_cons, ih, List.mem_cons]
    split
    · next hoff =>
      have hne : ¬off l → l ≠ n := fun h c => h (c ▸ hoff)
      tauto
    · next hon =>
      have hpass : l = n → ¬off l := fun c => c ▸ hon
      rw [BitVec.getLsbD_or, getLsbD_one_shiftLeft n hl, Bool.or_eq_true, decide_eq_true_iff]
      tauto

/-- A part that answers drives the line of each counter of the selected group that is not 0 (R140). -/
theorem getLsbD_pollLines (h : s.answersPoll = true) (l : BitVec 3) :
    s.pollLines.getLsbD l.toNat = true ↔ Counters.at s.counters (s.link.pollGroup ++ l) ≠ 0 := by
  unfold State.pollLines
  rw [if_pos h, getLsbD_foldl_setBit _ l.isLt, BitVec.ofNat_toNat, BitVec.setWidth_eq]
  have hmem : l.toNat ∈ List.range 8 := List.mem_range.mpr l.isLt
  simp [hmem]

/-- A part that does not answer drives no line (R140). -/
theorem pollLines_of_silent (h : ¬s.answersPoll = true) : s.pollLines = 0#8 := if_neg h

/-- STATUS is ten flags, from bit 0 upwards (R188). -/
theorem statusWord_eq_concat (s : State) :
    s.statusWord =
      ((((((((((0#6).concat s.lines.plq).concat s.link.clearSeen).concat s.data.session.isSome).concat
        s.outSessionOpen).concat s.data.paused).concat s.link.confirm.isSome).concat s.engine.flight.isSome).concat
        s.request.isSome).concat (s.link.phase == .data)).concat s.link.online := rfl

theorem getLsbD_statusWord_plq (s : State) : s.statusWord.getLsbD 9 = s.lines.plq := by
  rw [statusWord_eq_concat]
  simp only [BitVec.getLsbD_concat_succ, BitVec.getLsbD_concat_zero]

end Sys2Proof.Machine

namespace Sys2Proof.Claims

open Sys2Proof.Machine

/-- Settles O56: each command keeps the counters at the records that drive there (`exec_bounds`), and the queue, which is
all that a step changes besides, is no part of the condition. -/
theorem stepsKeepCounters : Obligations.StepsKeepCounters := by
  intro s t w e
  refine leads_step w (fun c rest u hu => ?_) t e
  have hrest : State.CountersFit { s with pending := rest } := w.congr rfl rfl
  exact (exec_bounds _ c u hu).counters hrest

/-- Settles O8: the flag and the frame are the definitions themselves, the drive and the counters have a lemma each. -/
theorem driveUpdateFollowsTable : Obligations.DriveUpdateFollowsTable := by
  refine ⟨fun _ => rfl, fun _ _ => Record.drive_eq_some_iff, fun c before after p =>
    driveUpdate_at_eq_sub_add before after c p, fun s i f => ⟨?_, fun j hj => ?_, rfl, rfl⟩⟩
  · rw [State.record_updRecord, if_pos rfl]
  · rw [State.record_updRecord, if_neg hj.symm]

/-- Settles O23: each of the two passes its checks, and its change is the one its rule gives (R137, R139). -/
theorem setPollAndSetFlag : Obligations.SetPollAndSetFlag := by
  refine fun s i hready hslot hservice => ⟨fun g l p hgroup hline hpolarity => ?_, fun b hflag hoption => ?_⟩
  · have hword : (s.param 3).toNat < 2 ∧ Polarity.ofBit ((s.param 3).setWidth 1) = p := by
      rw [hpolarity]
      cases p <;> decide
    obtain ⟨hrange, hback⟩ := hword
    refine answers_of_body rfl hready hslot ((if_neg (inService_ne_false hservice)).trans ?_)
    rw [hgroup, hline, pollOfWords_setWidth g l hrange, hback]
    rfl
  · refine answers_of_body rfl hready hslot ((if_neg (inService_ne_false hservice)).trans ?_)
    rw [hflag, zeroOrOne_of_flag]
    exact if_neg (Bool.eq_false_iff.mp hoption)

/-- Settles O24: the three checks in order, and the accepted request, after which the record drives nowhere. -/
theorem clearPollRemovesAssignment : Obligations.ClearPollRemovesAssignment := by
  refine fun s hready => ⟨fun hstale => ?_, fun i hslot => ⟨fun hservice => ?_, fun hservice hnone => ?_,
    fun hservice hpoll => ?_⟩⟩
  · exact staleHandleEndsRequest s .clearPoll (by decide) hready hstale
  · exact answers_of_turnedAway hready hslot (.clearPollState hservice)
  · exact answers_of_turnedAway hready hslot (.clearPollNone hservice hnone)
  · have haccepted : ¬((s.record i).inService = false ∨ (s.record i).poll = none) :=
      not_or.mpr ⟨inService_ne_false hservice, hpoll⟩
    refine ⟨s.updRecord i fun r => { r with poll := none },
      answers_of_body rfl hready hslot (if_neg haccepted), ?_, fun j hj => ?_, fun p => ?_, rfl⟩
    · rw [State.record_updRecord, if_pos rfl]
    · rw [State.record_updRecord, if_neg hj.symm]
    · have hdrive : Record.drive { s.record i with poll := none } = none := Record.drive_of_no_poll rfl
      unfold State.updRecord
      rw [State.setRecord_counters, hdrive, driveUpdate_none_at]

/-- Settles O53: while the part answers, each line by its counter; while it does not, none. -/
theorem pollLinesFollowTheCounters : Obligations.PollLinesFollowTheCounters := by
  intro s
  rw [← answersPoll_iff, getLsbD_statusWord_plq]
  refine ⟨fun l => ?_, pollLines_of_silent, Iff.rfl⟩
  by_cases h : s.answersPoll = true
  · rw [getLsbD_pollLines h, and_iff_right h]
  · rw [pollLines_of_silent h, BitVec.getLsbD_zero]
    exact ⟨nofun, fun c => absurd c.1 h⟩

end Sys2Proof.Claims
end

section
/-! The Data Channels (chapter 8): every command keeps the sessions and the holds as their rules give (R145, R150, R151,
R153, R154, R163); the operations of `Laws/Channels` say it of the parts of a command, and here the commands are put
together from them. -/

namespace Sys2Proof.Machine

variable {s t : State}

/-! ### The ends of a command -/

theorem State.ChannelsFit.startPulse (w : s.ChannelsFit) : (startPulse s).ChannelsFit :=
  w.same (startPulse_data s) (startPulse_link s)

theorem State.ChannelsFit.leads_done (w : s.ChannelsFit) : Leads State.ChannelsFit (done s) := leads_next w.startPulse

theorem State.ChannelsFit.leads_write (w : s.ChannelsFit) {f : State → State} (hf : (f s).ChannelsFit) :
    Leads State.ChannelsFit (busWrite f s) := leads_busWrite w hf.startPulse

theorem State.ChannelsFit.leads_read (w : s.ChannelsFit) {f : State → State} (hf : (f s).ChannelsFit) :
    Leads State.ChannelsFit (busRead f s) := leads_busRead (w.same rfl rfl) hf.startPulse

/-- A REQUEST write runs its body, or is refused with a notice (R191). -/
theorem State.ChannelsFit.leads_request (w : s.ChannelsFit) {body : State → State} (h : (body s).ChannelsFit) :
    Leads State.ChannelsFit (busWrite (startRequest body) s) := by
  refine w.leads_write ?_
  unfold startRequest
  split
  · exact w.same rfl rfl
  · exact h

theorem State.ChannelsFit.runRequestByte (w : s.ChannelsFit) (c : Byte) : (runRequestByte c s).ChannelsFit := by
  unfold Machine.runRequestByte
  split
  · exact w.runRequest _
  · exact w.endRequest _ _

/-! ### CONTROL commands -/

theorem State.ChannelsFit.leads_resetPart (w : s.ChannelsFit) : Leads State.ChannelsFit (execResetPart s) := by
  unfold execResetPart
  split
  · exact leads_next w
  · exact leads_next (resetPart_channels _ s)

/-- ONLINE acts only while OFFLINE, where no inbound session is open (R88, R163). -/
theorem State.ChannelsFit.leads_online (w : s.ChannelsFit) : Leads State.ChannelsFit (execOnline s) := by
  unfold execOnline
  split
  · exact leads_next w
  · next hoffline => exact w.leads_write (w.goOnline (Bool.eq_false_iff.mpr hoffline))

theorem State.ChannelsFit.leads_offline (w : s.ChannelsFit) : Leads State.ChannelsFit (execOffline s) := by
  unfold execOffline
  split
  · exact w.leads_write w.goOffline
  · exact leads_next w

theorem State.ChannelsFit.leads_arm (w : s.ChannelsFit) : Leads State.ChannelsFit (execArm s) :=
  w.leads_write (w.same rfl rfl)

theorem State.ChannelsFit.leads_resumeInbound (w : s.ChannelsFit) :
    Leads State.ChannelsFit (execResumeInbound s) := by
  unfold execResumeInbound
  split
  · exact w.leads_write w.resume
  · exact leads_next w

theorem State.ChannelsFit.leads_flushInbound (w : s.ChannelsFit) : Leads State.ChannelsFit (execFlushInbound s) := by
  unfold execFlushInbound
  split
  · exact leads_next w
  · exact w.leads_write (w.afterDrain rfl rfl rfl rfl)

theorem State.ChannelsFit.leads_controlByte (w : s.ChannelsFit) (c : Byte) :
    Leads State.ChannelsFit (execControlByte c s) := by
  unfold execControlByte
  split
  · exact w.leads_resetPart
  · exact w.leads_online
  · exact w.leads_offline
  · exact w.leads_arm
  · exact w.leads_resumeInbound
  · exact w.leads_flushInbound
  · exact leads_next w

theorem State.ChannelsFit.leads_resetInput (w : s.ChannelsFit) (n : Nat) :
    Leads State.ChannelsFit (execResetInput n s) := by
  unfold execResetInput
  split
  · exact leads_next (resetPart_channels _ s)
  · exact leads_next w

/-! ### Reads and writes of the port -/

theorem State.ChannelsFit.takeAttention (w : s.ChannelsFit) : (takeAttention s).ChannelsFit := by
  unfold Machine.takeAttention
  split <;> exact w.same rfl rfl

theorem State.ChannelsFit.readWindow (w : s.ChannelsFit) : (readWindow s).ChannelsFit := by
  unfold Machine.readWindow
  split <;> exact w.same rfl rfl

theorem State.ChannelsFit.postTerminalCount (w : s.ChannelsFit) (tc : Bool) : (postTerminalCount tc s).ChannelsFit := by
  unfold Machine.postTerminalCount
  split
  · exact w.same rfl rfl
  · exact w

/-- A write to any location of the port (R185). -/
theorem State.ChannelsFit.leads_registerWrite (w : s.ChannelsFit) (loc : BitVec 5) (x : Word) :
    Leads State.ChannelsFit (execRegisterWrite loc x s) := by
  unfold execRegisterWrite
  cases decodeLocation loc with
  | control => exact w.leads_controlByte _
  | request => exact w.leads_request (w.runRequestByte _)
  | outdata | outdataEnd => exact w.leads_write (w.writeOut _ _)
  | param _ | noticeMask | winsel | winfield | devnoticeEnable | intctl | config =>
    exact w.leads_write (w.same rfl rfl)
  | _ => exact leads_next w

theorem State.ChannelsFit.leads_dackIn (w : s.ChannelsFit) (strobe : Strobe) (tc : Bool) :
    Leads State.ChannelsFit (execDackIn strobe tc s) := by
  unfold execDackIn
  split
  · exact leads_next w
  · cases strobe with
    | read => exact (w.readIn.postTerminalCount tc).leads_done
    | write => exact leads_next w

theorem State.ChannelsFit.leads_dackOut (w : s.ChannelsFit) (strobe : Strobe) (tc : Bool) (x : Word) :
    Leads State.ChannelsFit (execDackOut strobe tc x s) := by
  unfold execDackOut
  split
  · exact leads_next w
  · cases strobe with
    | read => exact leads_next (w.same rfl rfl)
    | write => exact ((w.writeOut _ _).postTerminalCount tc).leads_done

/-! ### Units of the link -/

/-- A unit of another sender, offered on a link that carries none (R69). -/
theorem State.ChannelsFit.leads_offer (w : s.ChannelsFit) (u : LinkUnit) :
    Leads State.ChannelsFit (offerCommand u s) := by
  unfold offerCommand
  split
  · exact leads_next w
  · exact (w.foreignOffer u).leads_done

/-- A unit that the part does not hold, taken on the link (R72). -/
theorem State.ChannelsFit.leads_take (w : s.ChannelsFit) (u : LinkUnit) :
    Leads State.ChannelsFit (takeCommand u s) := by
  unfold takeCommand
  split
  · exact leads_next w
  · exact (w.foreignTake u).leads_done

/-- The part's offer of the unit that is due (R71). -/
theorem State.ChannelsFit.leads_offerDue (w : s.ChannelsFit) (kind : OfferKind) (due : Option (Byte × Bool))
    (o : Bool) : Leads State.ChannelsFit (offerDue kind due o s) := by
  unfold offerDue
  split
  · exact leads_next w
  · split
    · exact (w.offerUnit _).leads_done
    · exact leads_next w

/-- The other stations' release of an offered unit (R71). -/
theorem State.ChannelsFit.leads_taken (w : s.ChannelsFit) (isKind : OfferKind → Bool) :
    Leads State.ChannelsFit (takenCommand isKind s) := by
  unfold takenCommand
  split
  · exact leads_next w
  · split
    · exact (w.releaseOthers _).leads_done
    · exact leads_next w

/-! ### Lines of the link -/

/-- The lines that others drive are no part of the conditions. -/
theorem State.ChannelsFit.withLines (w : s.ChannelsFit) (l : LinkLines) : ({ s with lines := l } : State).ChannelsFit :=
  w.same rfl rfl

theorem State.ChannelsFit.leads_offerWithdrawn (w : s.ChannelsFit) :
    Leads State.ChannelsFit (execOfferWithdrawn s) := by
  unfold execOfferWithdrawn
  split
  · exact leads_next w
  · exact State.ChannelsFit.leads_done (w.congr rfl rfl rfl rfl rfl)

theorem State.ChannelsFit.leads_stopAsserted (w : s.ChannelsFit) : Leads State.ChannelsFit (execStopAsserted s) := by
  unfold execStopAsserted
  dsimp only
  split
  · exact (w.stopLink.withLines _).leads_done
  · exact (w.withLines _).leads_done

theorem State.ChannelsFit.leads_clearAsserted (w : s.ChannelsFit) : Leads State.ChannelsFit (execClearAsserted s) := by
  unfold execClearAsserted
  dsimp only
  split
  · exact (w.clearLink.withLines _).leads_done
  · exact (w.withLines _).leads_done

/-! ### Completions and timers -/

theorem State.ChannelsFit.leads_finish (w : s.ChannelsFit) :
    Leads State.ChannelsFit (done (Machine.finishOperation s)) :=
  w.finishOperation.leads_done

theorem State.ChannelsFit.leads_nameSourceLookup (w : s.ChannelsFit) :
    Leads State.ChannelsFit (execNameSourceLookupComplete s) := by
  unfold execNameSourceLookupComplete
  split
  · refine State.ChannelsFit.leads_finish ?_
    split
    · exact w
    · exact w.resolveSource _
  · exact leads_next w

theorem State.ChannelsFit.leads_nameSinkLookup (w : s.ChannelsFit) :
    Leads State.ChannelsFit (execNameSinkLookupComplete s) := by
  unfold execNameSinkLookupComplete
  split
  · refine State.ChannelsFit.leads_finish ?_
    split
    · exact w
    · exact w.resolveSink _
  · exact leads_next w

theorem State.ChannelsFit.leads_linkReplace (w : s.ChannelsFit) :
    Leads State.ChannelsFit (execLinkRetagReplaceComplete s) := by
  unfold execLinkRetagReplaceComplete
  split
  · exact (w.completeLinkReplace _ _ _).leads_finish
  · exact leads_next w

/-- The completion of the operation of a request of one kind. -/
theorem State.ChannelsFit.leads_completeRequest (w : s.ChannelsFit) {α : Type} {pick : DirectoryRequest → Option α}
    {body : α → Vector Word 4 → Operation → State → State} (h : ∀ a p op, (body a p op s).ChannelsFit) :
    Leads State.ChannelsFit (completeRequest pick body s) := by
  unfold completeRequest
  split
  · split
    · exact (h _ _ _).leads_finish
    · exact leads_next w
  · exact leads_next w

/-- A request's change to the directory, whose failure ends the request and changes nothing else (R30, R31). -/
theorem State.ChannelsFit.changeOrFail (w : s.ChannelsFit) (op : Operation) {made : State → State}
    (h : ∀ t : State, t.ChannelsFit → (made t).ChannelsFit) :
    (Machine.changeDirectory op made failRequest s).ChannelsFit :=
  w.changeDirectory op h fun _ => w.endRequest _ _

theorem State.ChannelsFit.leads_confirmTimer (w : s.ChannelsFit) :
    Leads State.ChannelsFit (execConfirmTimerExpiry s) := by
  unfold execConfirmTimerExpiry
  split
  · exact leads_next w
  · split
    · exact leads_next w
    · exact (w.refuseConfirm.same (t := postDevice .confirmExpired (Machine.refuseConfirm s)) rfl rfl).leads_done

theorem State.ChannelsFit.leads_pulseEnd (w : s.ChannelsFit) : Leads State.ChannelsFit (execIntPulseEnd s) := by
  unfold execIntPulseEnd
  split
  · exact State.ChannelsFit.leads_done (w.same rfl rfl)
  · exact leads_next w

/-! ### Every command -/

/-- Every command keeps the sessions and the holds of the Data Channels. -/
theorem State.ChannelsFit.leads_exec (w : s.ChannelsFit) (c : Instr) : Leads State.ChannelsFit (exec c s) := by
  cases c with
  | create => exact w.leads_request (w.runRequest .create)
  | retire => exact w.leads_request (w.runRequest .retire)
  | retag => exact w.leads_request (w.runRequest .retag)
  | setAlias => exact w.leads_request (w.runRequest .setAlias)
  | clearAlias => exact w.leads_request (w.runRequest .clearAlias)
  | suspend => exact w.leads_request (w.runRequest .suspend)
  | resume => exact w.leads_request (w.runRequest .resume)
  | setStatus => exact w.leads_request (w.runRequest .setStatus)
  | call => exact w.leads_request (w.runRequest .call)
  | withdraw => exact w.leads_request (w.runRequest .withdraw)
  | setPoll => exact w.leads_request (w.runRequest .setPoll)
  | clearPoll => exact w.leads_request (w.runRequest .clearPoll)
  | setFlag => exact w.leads_request (w.runRequest .setFlag)
  | confirm => exact w.leads_request (w.runRequest .confirm)
  | find => exact w.leads_request (w.runRequest .find)
  | setManagementTag => exact w.leads_request (w.runRequest .setManagementTag)
  | setOptions => exact w.leads_request (w.runRequest .setOptions)
  | unknownRequestCode _ => exact w.leads_request (w.runRequestByte _)
  | resetPart => exact w.leads_resetPart
  | online => exact w.leads_online
  | offline => exact w.leads_offline
  | arm => exact w.leads_arm
  | resumeInbound => exact w.leads_resumeInbound
  | flushInbound => exact w.leads_flushInbound
  | unassignedControlCode _ => exact w.leads_controlByte _
  | attentionRead => exact w.leads_read w.takeAttention
  | devnoticeRead => exact w.leads_read (w.same rfl rfl)
  | indataRead => exact w.leads_read w.readIn
  | windataRead => exact w.leads_read w.readWindow
  | outdata _ | outdataEnd _ => exact w.leads_write (w.writeOut _ _)
  | configWrite _ | intctlWrite _ | devnoticeEnableWrite _ => exact w.leads_write (w.same rfl rfl)
  | registerWrite loc x => exact w.leads_registerWrite loc x
  | resetInput n => exact w.leads_resetInput n
  | resetRelease => exact leads_next (w.same rfl rfl)
  | dackIn strobe tc => exact w.leads_dackIn strobe tc
  | dackOut strobe tc x => exact w.leads_dackOut strobe tc x
  | signal _ | nameSource | nameSink | linkRetag | tagHi _ | tagLo _ | dropSource | dropSinks | go | query
  | groupPoll _ | assignPoll _ | releasePoll | unassignedLinkCode _ | inboundUnitOffer _ _ => exact w.leads_offer _
  | controlUnitInDataPhase _ | dataUnitInCommandPhase _ _ | dataUnitSeen _ _ => exact w.leads_take _
  | inboundUnitTake => exact w.serveHeldData.leads_done
  | outboundUnitOffer _ | statusUnitOffer _ | conditionUnitOffer _ | rosterUnitOffer _ => exact w.leads_offerDue _ _ _
  | outboundUnitTaken => exact w.leads_taken OfferKind.isOutbound
  | statusUnitTaken => exact w.leads_taken (· == .status)
  | conditionUnitTaken => exact w.leads_taken (· == .condition)
  | rosterUnitTaken => exact w.leads_taken (· == .roster)
  | offerWithdrawn => exact w.leads_offerWithdrawn
  | plqAsserted => exact (w.withLines { s.lines with plq := true }).leads_done
  | plqReleased => exact (w.withLines { s.lines with plq := false }).attendStanding.leads_done
  | stopAsserted => exact w.leads_stopAsserted
  | stopReleased => exact (w.withLines { s.lines with stop := false }).attendStanding.leads_done
  | clearAsserted => exact w.leads_clearAsserted
  | clearReleased => exact (w.withLines { s.lines with clear := false }).attendStanding.leads_done
  | nameSourceLookupComplete => exact w.leads_nameSourceLookup
  | nameSinkLookupComplete => exact w.leads_nameSinkLookup
  | linkRetagReplaceComplete => exact w.leads_linkReplace
  | createInsertComplete =>
    exact w.leads_completeRequest fun i _ op => w.changeDirectory op (fun _ v => v.createMade i) (w.createFailed i)
  | retireRemoveComplete => exact w.leads_completeRequest fun i p op => w.changeOrFail op fun _ v => v.retireMade i p
  | retagReplaceComplete => exact w.leads_completeRequest fun i p op => w.changeOrFail op fun _ v => v.retagMade i p
  | setAliasComplete => exact w.leads_completeRequest fun i p op => w.changeOrFail op fun _ v => v.setAliasMade i p
  | clearAliasComplete => exact w.leads_completeRequest fun i p op => w.changeOrFail op fun _ v => v.clearAliasMade i p
  | findLookupComplete => exact w.leads_completeRequest fun _ _ op => w.findMade op
  | setManagementTagComplete =>
    exact w.leads_completeRequest fun _ p op => w.changeOrFail op fun _ v => v.managementMade p
  | confirmTimerExpiry => exact w.leads_confirmTimer
  | intPulseEnd => exact w.leads_pulseEnd

end Sys2Proof.Machine

namespace Sys2Proof.Claims

open Sys2Proof.Machine

/-- Settles O57: each command keeps the FIFOs within their depth (`exec_bounds`), and the sessions and the holds
(`State.ChannelsFit.leads_exec`); the queue, which is all that a step changes besides, is no part of either. -/
theorem stepsKeepDataChannels : Obligations.StepsKeepDataChannels := by
  refine ⟨fun s t w e => ?_, fun s t w e => ?_⟩
  · exact leads_step w (fun c rest u hu => (exec_bounds { s with pending := rest } c u hu).fifos w) t e
  · exact leads_step w (fun c rest => (w.same (t := { s with pending := rest }) rfl rfl).leads_exec c) t e

end Sys2Proof.Claims
end

section
/-! The FIFOs from the host's side: ARM and the commands on the inbound FIFO (R155, R157, R183), the takes of inbound
entries with what they set free (R151, R153, R156, R161, R165), and the writes of outbound entries (R146, R166,
R167). -/

namespace Sys2Proof.Machine

variable {s : State} {h : Held} {x : InboundSession}

/-! ### Accesses of a served port -/

theorem busWrite_of_served (hr : s.port.resetHeld = false) (f : State → State) : busWrite f s = done (f s) :=
  if_neg (Bool.eq_false_iff.mp hr)

theorem busRead_of_served (hr : s.port.resetHeld = false) (f : State → State) : busRead f s = done (f s) :=
  if_neg (Bool.eq_false_iff.mp hr)

theorem execArm_of_served (hr : s.port.resetHeld = false) : execArm s = done { s with notice.armed := true } :=
  busWrite_of_served hr _

theorem execDackIn_read (hr : s.port.resetHeld = false) (tc : Bool) :
    execDackIn .read tc s = done (postTerminalCount tc (readIn s)) := if_neg (Bool.eq_false_iff.mp hr)

/-- A write strobe on the inbound pair has no effect (R202). -/
theorem execDackIn_write (s : State) (tc : Bool) : execDackIn .write tc s = .next s := by
  unfold execDackIn
  split <;> rfl

theorem execDackOut_write (hr : s.port.resetHeld = false) (tc : Bool) (w : Word) :
    execDackOut .write tc w s = done (postTerminalCount tc (writeOut (loByte w) (s.port.endOnTc && tc) s)) :=
  if_neg (Bool.eq_false_iff.mp hr)

/-- A read strobe on the outbound pair presents 0000H, whatever TC is (R202). -/
theorem execDackOut_read (hr : s.port.resetHeld = false) (tc : Bool) (w : Word) :
    execDackOut .read tc w s = .next (present 0#16 s) := if_neg (Bool.eq_false_iff.mp hr)

/-! ### Holds that stay -/

theorem holding_self (hheld : s.link.held = some h) : Claims.holding h.unit h.cause s = s := by
  unfold Claims.holding
  rw [← hheld]

/-- A unit held for naming is held for none of the causes of the Data Channels (R69). -/
theorem ne_of_heldForNaming {c : HoldCause} (hc : Claims.HeldForNaming c) :
    c ≠ .room ∧ c ≠ .pause ∧ c ≠ .drain := by
  rcases hc with rfl | rfl | rfl <;> decide

/-- A unit held neither for room nor for pause is no data unit to serve (R153). -/
theorem serveHeldData_of_ne (hheld : s.link.held = some h) (hroom : h.cause ≠ .room) (hpause : h.cause ≠ .pause) :
    serveHeldData s = s := by
  have hcause : s.holdCause = some h.cause := by rw [State.holdCause, hheld, Option.map_some]
  rcases serveHeldData_changes s with hself | hc | hc
  · exact hself
  · exact absurd (Option.some.inj (hcause.symm.trans hc)) hroom
  · exact absurd (Option.some.inj (hcause.symm.trans hc)) hpause

/-- A unit held for the pause in effect stays held for it (R154). -/
theorem serveHeldData_of_pause (hheld : s.link.held = some h) (hc : h.cause = .pause) (hp : s.data.paused = true) :
    serveHeldData s = s := by
  cases hsession : s.data.session with
  | none =>
    unfold serveHeldData
    rw [hheld, hsession]
  | some x =>
    rw [serveHeldData_of_paused hheld hsession (.inr hc) hp, ← hc]
    exact holding_self hheld

/-! ### What entries set free when they leave the inbound FIFO -/

theorem afterDrain_of_none (hheld : s.link.held = none) : afterDrain s = s := by
  unfold afterDrain
  rw [hheld]

/-- A GO held for drain is taken once the FIFO is empty (R151). -/
theorem afterDrain_of_drained (hheld : s.link.held = some h) (hc : h.cause = .drain) (hempty : s.data.inFifo = []) :
    afterDrain s = Claims.goTaken s := by
  unfold afterDrain serveHeldGo
  rw [hheld, ← takeGo_eq]
  exact (if_pos hc).trans (if_pos ⟨hc, hempty⟩)

/-- A GO held for drain stays held while entries are left (R151). -/
theorem afterDrain_of_undrained (hheld : s.link.held = some h) (hc : h.cause = .drain) (hleft : s.data.inFifo ≠ []) :
    afterDrain s = s := by
  unfold afterDrain serveHeldGo
  rw [hheld]
  exact (if_pos hc).trans (if_neg fun ⟨_, hempty⟩ => hleft hempty)

theorem afterDrain_of_ne_drain (hheld : s.link.held = some h) (hc : h.cause ≠ .drain) :
    afterDrain s = serveHeldData s := by
  unfold afterDrain
  rw [hheld]
  exact if_neg hc

/-- A unit held for room is taken, and with it the part's own offer (R153, R161). -/
theorem afterDrain_of_room (hheld : s.link.held = some h) (hc : h.cause = .room) (hsession : s.data.session = some x)
    (hp : s.data.paused = false) (hroom : s.data.inFifo.length < 32) :
    afterDrain s = Claims.partTakes x h.unit s := by
  rw [afterDrain_of_ne_drain hheld (by rw [hc]; decide)]
  exact serveHeldData_of_room hheld hsession (.inl hc) hp hroom

/-- A unit held for naming, or for the pause in effect, stays held (R154). -/
theorem afterDrain_of_stays (hheld : s.link.held = some h)
    (hc : Claims.HeldForNaming h.cause ∨ h.cause = .pause ∧ s.data.paused = true) : afterDrain s = s := by
  rcases hc with hnaming | ⟨hpause, hp⟩
  · obtain ⟨hroom, hpause, hdrain⟩ := ne_of_heldForNaming hnaming
    exact (afterDrain_of_ne_drain hheld hdrain).trans (serveHeldData_of_ne hheld hroom hpause)
  · exact (afterDrain_of_ne_drain hheld (by rw [hpause]; decide)).trans (serveHeldData_of_pause hheld hpause hp)

/-! ### CONTROL commands on the inbound FIFO -/

theorem execResumeInbound_of_paused (hr : s.port.resetHeld = false) (hp : s.data.paused = true) :
    execResumeInbound s = done (serveHeldData { s with data.paused := false }) :=
  (if_pos hp).trans (busWrite_of_served hr _)

theorem execFlushInbound_of_empty (hempty : s.data.inFifo = []) : execFlushInbound s = .next s := by
  unfold execFlushInbound
  rw [hempty]

theorem execFlushInbound_of_entries (hr : s.port.resetHeld = false) (hentries : s.data.inFifo ≠ []) :
    execFlushInbound s = done (afterDrain { s with data.inFifo := [] }) := by
  unfold execFlushInbound
  split
  · next hempty => exact absurd hempty hentries
  · exact busWrite_of_served hr _

/-- The codes outside the table name no command (R189). -/
theorem decodeControl_of_not_isControlCode : ∀ c : Byte, (!isControlCode c) = true → decodeControl c = none := by
  decide

theorem execControlByte_of_not_isControlCode {c : Byte} (hc : (!isControlCode c) = true) (s : State) :
    execControlByte c s = .next s := by
  unfold execControlByte
  rw [decodeControl_of_not_isControlCode c hc]

/-! ### Reads and writes of entries -/

theorem readIn_of_nil (hfifo : s.data.inFifo = []) : readIn s = { s with port.readData := 0#16 } := by
  unfold readIn
  rw [hfifo]
  rfl

theorem readIn_of_cons {e : InEntry} {rest : List InEntry} (hfifo : s.data.inFifo = e :: rest) :
    readIn s = afterDrain { s with data.inFifo := rest, port.readData := Claims.indataWord e } := by
  unfold readIn
  rw [hfifo, ← inEntry_word_eq]
  rfl

/-- An entry is appended while the source is a record and the FIFO has room (R146). -/
theorem writeOut_of_room {a : Handle} (v : Byte) (mark : Bool) (hsource : s.link.source = .record a)
    (hroom : s.data.outFifo.length < 32) :
    writeOut v mark s = { s with data.outFifo := s.data.outFifo ++ [{ value := v, endMark := mark }] } :=
  if_pos ⟨outSessionOpen_iff.mpr ⟨a, hsource⟩, hroom⟩

/-- An entry is lost while the source is no record, or the FIFO is full (R146). -/
theorem writeOut_of_refused (v : Byte) (mark : Bool)
    (hrefused : (∀ a, s.link.source ≠ .record a) ∨ 32 ≤ s.data.outFifo.length) :
    writeOut v mark s = postDevice .outboundRefused s := by
  refine if_neg fun ⟨hopen, hroom⟩ => ?_
  obtain ⟨a, hsource⟩ := outSessionOpen_iff.mp hopen
  rcases hrefused with hno | hfull
  · exact hno a hsource
  · exact Nat.not_lt.mpr hfull hroom

end Sys2Proof.Machine

namespace Sys2Proof.Claims

open Sys2Proof.Machine

/-- Settles O28: RESUME-INBOUND by what is held once the pause is over, FLUSH-INBOUND by what is held once the FIFO is
empty. -/
theorem armResumeAndFlush : Obligations.ArmResumeAndFlush := by
  intro s hr
  have hresume (hp : s.data.paused = true) {u : State} (hu : serveHeldData { s with data.paused := false } = u) :
      Answers .resumeInbound s u := (execResumeInbound_of_paused hr hp).trans (congrArg done hu)
  have hflush (hentries : s.data.inFifo ≠ []) {u : State} (hu : afterDrain { s with data.inFifo := [] } = u) :
      Answers .flushInbound s u := (execFlushInbound_of_entries hr hentries).trans (congrArg done hu)
  refine ⟨execArm_of_served hr, fun hp => if_neg (Bool.eq_false_iff.mp hp), fun hp hheld => ?_,
    fun h hp hheld hc => ?_, fun h x hp hheld hc hsession => ⟨fun hroom => ?_, fun hfull => ?_⟩,
    execFlushInbound_of_empty, fun hentries hheld => ?_, fun h x hentries hheld hc hsession hp => ?_,
    fun h hentries hheld hc => ?_, fun h hentries hheld hc => ?_,
    fun w hw => execControlByte_of_not_isControlCode hw s⟩
  · exact hresume hp (serveHeldData_none hheld)
  · have hne : h.cause ≠ .room ∧ h.cause ≠ .pause := by
      rcases hc with hnaming | hdrain
      · obtain ⟨hroom, hpause, -⟩ := ne_of_heldForNaming hnaming
        exact ⟨hroom, hpause⟩
      · rw [hdrain]
        decide
    obtain ⟨hroom, hpause⟩ := hne
    exact hresume hp (serveHeldData_of_ne hheld hroom hpause)
  · exact hresume hp (serveHeldData_of_room hheld hsession (.inr hc) rfl hroom)
  · exact hresume hp (serveHeldData_of_full hheld hsession (.inr hc) rfl hfull)
  · exact hflush hentries (afterDrain_of_none hheld)
  · exact hflush hentries (afterDrain_of_room hheld hc hsession hp (by decide : ([] : List InEntry).length < 32))
  · exact hflush hentries (afterDrain_of_drained hheld hc rfl)
  · exact hflush hentries (afterDrain_of_stays hheld hc)

/-- Settles O30: the state that the take of the entry leaves is one for the read and for the acknowledge. -/
theorem inboundEntriesAreTaken : Obligations.InboundEntriesAreTaken := by
  intro s u hr hu
  have hread : readIn s = u := by
    rcases hu with ⟨hempty, rfl⟩ | ⟨e, rest, hfifo, hu⟩
    · exact readIn_of_nil hempty
    rw [readIn_of_cons hfifo]
    rcases hu with ⟨hheld, rfl⟩ | ⟨h, hheld, ⟨x, hc, hsession, hp, hroom, rfl⟩ | ⟨hc, hrest, rfl⟩ |
      ⟨hc, hrest, rfl⟩ | ⟨hc, hp, rfl⟩ | ⟨hc, rfl⟩⟩
    · exact afterDrain_of_none hheld
    · exact afterDrain_of_room hheld hc hsession hp hroom
    · exact afterDrain_of_drained hheld hc hrest
    · exact afterDrain_of_undrained hheld hc hrest
    · exact afterDrain_of_stays hheld (.inr ⟨hc, hp⟩)
    · exact afterDrain_of_stays hheld (.inl hc)
  have hdack (tc : Bool) : Answers (.dackIn .read tc) s (postTerminalCount tc u) := hread ▸ execDackIn_read hr tc
  exact ⟨hread ▸ busRead_of_served hr readIn, hdack false, hdack true, execDackIn_write s⟩

/-- Settles O31: an entry is appended or lost alike by the three writes, and the acknowledge adds what TC does. -/
theorem outboundEntriesAreWritten : Obligations.OutboundEntriesAreWritten := by
  intro s w hr
  have hwrite (mark : Bool) : busWrite (writeOut (loByte w) mark) s = done (writeOut (loByte w) mark s) :=
    busWrite_of_served hr _
  have hdack := execDackOut_write hr (w := w)
  refine ⟨fun a hsource hroom => ?_, fun hrefused => ?_, fun tc => execDackOut_read hr tc w⟩
  · simp only [writeOut_of_room _ _ hsource hroom] at hwrite hdack
    exact ⟨hwrite false, hwrite true, (hdack false).trans (by rw [Bool.and_false]; rfl),
      (hdack true).trans (by rw [Bool.and_true]; rfl)⟩
  · simp only [writeOut_of_refused _ _ hrefused] at hwrite hdack
    exact ⟨hwrite false, hwrite true, hdack false, hdack true⟩

end Sys2Proof.Claims
end

section
/-! Notices and the interrupt line (chapter 9): how a command ends for the Notice Unit, so that every step leaves no
pulse due (R182, R183); the interrupt condition and the start of a pulse (R180); the posting of a record notice (R169);
and the reads and writes of the port that act on notices and settings (R173, R177 to R179, R185). -/

namespace Sys2Proof.Machine

variable {s t : State}

/-! ### How a command ends -/

/-- How a command on a state ends for the Notice Unit: it leaves the unit as it is, or the interrupt condition is
evaluated after all its effects (R180, R182, log entry 16), or the part is reset (R190). -/
inductive State.Ends (s : State) : Host.Outcome State Fault Refusal → Prop where
  | keeps {t : State} (h : t.notice = s.notice) : s.Ends (.next t)
  | evaluates (u : State) : s.Ends (done u)
  | resets (held : Bool) : s.Ends (.next (resetPart held s))

theorem next_ends (s : State) : s.Ends (.next s) := .keeps rfl

theorem busWrite_ends (s : State) (f : State → State) : s.Ends (busWrite f s) := by
  unfold busWrite
  split
  · exact next_ends s
  · exact .evaluates _

theorem busRead_ends (s : State) (f : State → State) : s.Ends (busRead f s) := by
  unfold busRead
  split
  · exact .keeps (present_notice _ s)
  · exact .evaluates _

theorem execResetPart_ends (s : State) : s.Ends (execResetPart s) := by
  unfold execResetPart
  split
  · exact next_ends s
  · exact .resets false

theorem execOnline_ends (s : State) : s.Ends (execOnline s) := by
  unfold execOnline
  split
  · exact next_ends s
  · exact busWrite_ends s _

theorem execOffline_ends (s : State) : s.Ends (execOffline s) := by
  unfold execOffline
  split
  · exact busWrite_ends s _
  · exact next_ends s

theorem execArm_ends (s : State) : s.Ends (execArm s) := busWrite_ends s _

theorem execResumeInbound_ends (s : State) : s.Ends (execResumeInbound s) := by
  unfold execResumeInbound
  split
  · exact busWrite_ends s _
  · exact next_ends s

theorem execFlushInbound_ends (s : State) : s.Ends (execFlushInbound s) := by
  unfold execFlushInbound
  split
  · exact next_ends s
  · exact busWrite_ends s _

theorem execControlByte_ends (s : State) (c : Byte) : s.Ends (execControlByte c s) := by
  unfold execControlByte
  split
  · exact execResetPart_ends s
  · exact execOnline_ends s
  · exact execOffline_ends s
  · exact execArm_ends s
  · exact execResumeInbound_ends s
  · exact execFlushInbound_ends s
  · exact next_ends s

theorem execResetInput_ends (s : State) (periods : Nat) : s.Ends (execResetInput periods s) := by
  unfold execResetInput
  split
  · exact .resets true
  · exact next_ends s

/-- The locations whose write is disregarded: the registers that are read only, read to clear or read to take, and those
without a register (R185). -/
def disregardsWrite : Location → Bool
  | .status | .result | .resultValue | .devnotice | .attention | .attnKinds | .attnSignals | .windata | .indata
  | .source | .lead | .incount | .outcount | .unassigned => true
  | .control | .request | .param _ | .devnoticeEnable | .intctl | .noticeMask | .config | .winsel | .winfield
  | .outdata | .outdataEnd => false

/-- A location that disregards a write leaves the state as it is (R185). -/
theorem execRegisterWrite_of_disregards {loc : BitVec 5} (h : disregardsWrite (decodeLocation loc) = true) (w : Word)
    (s : State) : execRegisterWrite loc w s = .next s := by
  unfold execRegisterWrite
  revert h
  cases decodeLocation loc with
  | status | result | resultValue | devnotice | attention | attnKinds | attnSignals | windata | indata | source | lead
  | incount | outcount | unassigned => exact fun _ => rfl
  | _ => nofun

theorem execRegisterWrite_ends (s : State) (loc : BitVec 5) (w : Word) : s.Ends (execRegisterWrite loc w s) := by
  cases hdisregards : disregardsWrite (decodeLocation loc) with
  | true =>
    rw [execRegisterWrite_of_disregards hdisregards]
    exact next_ends s
  | false =>
    unfold execRegisterWrite
    revert hdisregards
    cases decodeLocation loc with
    | control => exact fun _ => execControlByte_ends s _
    | request | param _ | devnoticeEnable | intctl | noticeMask | config | winsel | winfield | outdata | outdataEnd =>
      exact fun _ => busWrite_ends s _
    | _ => nofun

theorem execDackIn_ends (s : State) (strobe : Strobe) (tc : Bool) : s.Ends (execDackIn strobe tc s) := by
  unfold execDackIn
  split
  · exact next_ends s
  · cases strobe with
    | read => exact .evaluates _
    | write => exact next_ends s

theorem execDackOut_ends (s : State) (strobe : Strobe) (tc : Bool) (w : Word) :
    s.Ends (execDackOut strobe tc w s) := by
  unfold execDackOut
  split
  · exact next_ends s
  · cases strobe with
    | read => exact .keeps (present_notice _ s)
    | write => exact .evaluates _

theorem offerCommand_ends (s : State) (u : LinkUnit) : s.Ends (offerCommand u s) := by
  unfold offerCommand
  split
  · exact next_ends s
  · exact .evaluates _

theorem takeCommand_ends (s : State) (u : LinkUnit) : s.Ends (takeCommand u s) := by
  unfold takeCommand
  split
  · exact next_ends s
  · exact .evaluates _

theorem offerDue_ends (s : State) (kind : OfferKind) (due : Option (Byte × Bool)) (otherHold : Bool) :
    s.Ends (offerDue kind due otherHold s) := by
  unfold offerDue
  split
  · exact next_ends s
  · split
    · exact .evaluates _
    · exact next_ends s

theorem takenCommand_ends (s : State) (isKind : OfferKind → Bool) : s.Ends (takenCommand isKind s) := by
  unfold takenCommand
  split
  · exact next_ends s
  · split
    · exact .evaluates _
    · exact next_ends s

theorem execOfferWithdrawn_ends (s : State) : s.Ends (execOfferWithdrawn s) := by
  unfold execOfferWithdrawn
  split
  · exact next_ends s
  · exact .evaluates _

theorem execNameSourceLookupComplete_ends (s : State) : s.Ends (execNameSourceLookupComplete s) := by
  unfold execNameSourceLookupComplete
  split
  · exact .evaluates _
  · exact next_ends s

theorem execNameSinkLookupComplete_ends (s : State) : s.Ends (execNameSinkLookupComplete s) := by
  unfold execNameSinkLookupComplete
  split
  · exact .evaluates _
  · exact next_ends s

theorem execLinkRetagReplaceComplete_ends (s : State) : s.Ends (execLinkRetagReplaceComplete s) := by
  unfold execLinkRetagReplaceComplete
  split
  · exact .evaluates _
  · exact next_ends s

theorem completeRequest_ends (s : State) {α : Type} (pick : DirectoryRequest → Option α)
    (body : α → Vector Word 4 → Operation → State → State) : s.Ends (completeRequest pick body s) := by
  unfold completeRequest
  split
  · split
    · exact .evaluates _
    · exact next_ends s
  · exact next_ends s

theorem execConfirmTimerExpiry_ends (s : State) : s.Ends (execConfirmTimerExpiry s) := by
  unfold execConfirmTimerExpiry
  split
  · exact next_ends s
  · split
    · exact next_ends s
    · exact .evaluates _

theorem execIntPulseEnd_ends (s : State) : s.Ends (execIntPulseEnd s) := by
  unfold execIntPulseEnd
  split
  · exact .evaluates _
  · exact next_ends s

/-- Every command ends in one of the three ways. -/
theorem exec_ends (s : State) (c : Instr) : s.Ends (exec c s) := by
  cases c with
  | create | retire | retag | setAlias | clearAlias | suspend | resume | setStatus | call | withdraw | setPoll
  | clearPoll | setFlag | confirm | find | setManagementTag | setOptions | unknownRequestCode _ | outdata _
  | outdataEnd _ | configWrite _ | intctlWrite _ | devnoticeEnableWrite _ => exact busWrite_ends s _
  | attentionRead | devnoticeRead | indataRead | windataRead => exact busRead_ends s _
  | resetPart => exact execResetPart_ends s
  | online => exact execOnline_ends s
  | offline => exact execOffline_ends s
  | arm => exact execArm_ends s
  | resumeInbound => exact execResumeInbound_ends s
  | flushInbound => exact execFlushInbound_ends s
  | unassignedControlCode _ => exact execControlByte_ends s _
  | registerWrite loc w => exact execRegisterWrite_ends s loc w
  | resetInput periods => exact execResetInput_ends s periods
  | resetRelease => exact .keeps rfl
  | dackIn strobe tc => exact execDackIn_ends s strobe tc
  | dackOut strobe tc w => exact execDackOut_ends s strobe tc w
  | signal _ | nameSource | nameSink | linkRetag | tagHi _ | tagLo _ | dropSource | dropSinks | go | query
  | groupPoll _ | assignPoll _ | releasePoll | unassignedLinkCode _ | inboundUnitOffer _ _ =>
    exact offerCommand_ends s _
  | controlUnitInDataPhase _ | dataUnitInCommandPhase _ _ | dataUnitSeen _ _ => exact takeCommand_ends s _
  | outboundUnitOffer _ | statusUnitOffer _ | conditionUnitOffer _ | rosterUnitOffer _ => exact offerDue_ends s _ _ _
  | outboundUnitTaken => exact takenCommand_ends s OfferKind.isOutbound
  | statusUnitTaken => exact takenCommand_ends s (· == .status)
  | conditionUnitTaken => exact takenCommand_ends s (· == .condition)
  | rosterUnitTaken => exact takenCommand_ends s (· == .roster)
  | inboundUnitTake | plqAsserted | plqReleased | stopAsserted | stopReleased | clearAsserted | clearReleased =>
    exact .evaluates _
  | offerWithdrawn => exact execOfferWithdrawn_ends s
  | nameSourceLookupComplete => exact execNameSourceLookupComplete_ends s
  | nameSinkLookupComplete => exact execNameSinkLookupComplete_ends s
  | linkRetagReplaceComplete => exact execLinkRetagReplaceComplete_ends s
  | createInsertComplete => exact (completeRequest_ends s _ _ : s.Ends (execCreateInsertComplete s))
  | retireRemoveComplete => exact (completeRequest_ends s _ _ : s.Ends (execRetireRemoveComplete s))
  | retagReplaceComplete => exact (completeRequest_ends s _ _ : s.Ends (execRetagReplaceComplete s))
  | setAliasComplete => exact (completeRequest_ends s _ _ : s.Ends (execSetAliasComplete s))
  | clearAliasComplete => exact (completeRequest_ends s _ _ : s.Ends (execClearAliasComplete s))
  | findLookupComplete => exact (completeRequest_ends s _ _ : s.Ends (execFindLookupComplete s))
  | setManagementTagComplete => exact (completeRequest_ends s _ _ : s.Ends (execSetManagementTagComplete s))
  | confirmTimerExpiry => exact execConfirmTimerExpiry_ends s
  | intPulseEnd => exact execIntPulseEnd_ends s

/-! ### No pulse is due -/

/-- Whether a pulse is due is a matter of the Notice Unit alone. -/
theorem State.PulseSettled.congr (w : s.PulseSettled) (h : t.notice = s.notice) : t.PulseSettled := by
  unfold State.PulseSettled interruptCondition
  rw [h]
  exact w

/-- After the evaluation of the condition no pulse is due: one that was due has started (R182). -/
theorem startPulse_settled (s : State) : (startPulse s).PulseSettled := by
  unfold startPulse
  split
  · exact fun _ _ _ => rfl
  · next hnotDue =>
    intro hmode harmed hcondition
    by_contra hpulse
    exact hnotDue ⟨hmode, harmed, Bool.eq_false_iff.mpr hpulse, hcondition⟩

/-- A reset selects LEVEL mode, in which no pulse is due (R184). -/
theorem resetPart_settled (held : Bool) (s : State) : (resetPart held s).PulseSettled := nofun

/-- Each of the three ends leaves no pulse due. -/
theorem State.PulseSettled.leads_ends (w : s.PulseSettled) {o : Host.Outcome State Fault Refusal} (h : s.Ends o) :
    Leads State.PulseSettled o := by
  cases h with
  | keeps h => exact leads_next (w.congr h)
  | evaluates u => exact leads_next (startPulse_settled u)
  | resets held => exact leads_next (resetPart_settled held s)

/-! ### The interrupt condition and the pulse -/

/-- The condition (R180). -/
theorem interruptCondition_iff :
    interruptCondition s = true ↔
      s.notice.masterEnable = true ∧
        ((s.notice.attentionEnable = true ∧ s.notice.attention ≠ []) ∨
          s.notice.devnotice &&& s.notice.devnoticeEnable ≠ 0#13) := by
  rw [interruptCondition, Bool.and_eq_true, Bool.or_eq_true, Bool.and_eq_true, not_isEmpty_eq_true_iff, bne_iff_ne]

theorem int_of_level (h : s.notice.mode = .level) : s.int = interruptCondition s := by
  rw [State.int, h]

theorem int_of_pulse (h : s.notice.mode = .pulse) : s.int = s.notice.pulse := by
  rw [State.int, h]

/-- In LEVEL mode no pulse starts, and the arm state stays (R181). -/
theorem startPulse_of_level (h : s.notice.mode = .level) : startPulse s = s :=
  if_neg fun ⟨hpulse, _⟩ => nomatch h.symm.trans hpulse

/-- A pulse that is due starts and disarms the unit (R182). -/
theorem startPulse_of_due (hmode : s.notice.mode = .pulse) (harmed : s.notice.armed = true)
    (hpulse : s.notice.pulse = false) (hcondition : interruptCondition s = true) :
    startPulse s = { s with notice.armed := false, notice.pulse := true } :=
  if_pos ⟨hmode, harmed, hpulse, hcondition⟩

/-- While the unit is disarmed, a pulse is in progress or the condition is false, none starts (R182). -/
theorem startPulse_of_not_due
    (h : s.notice.armed = false ∨ s.notice.pulse = true ∨ interruptCondition s = false) : startPulse s = s := by
  refine if_neg ?_
  rintro ⟨-, harmed, hpulse, hcondition⟩
  rcases h with hdisarmed | hbusy | hfalse
  · exact Bool.eq_false_iff.mp hdisarmed harmed
  · exact Bool.eq_false_iff.mp hpulse hbusy
  · exact Bool.eq_false_iff.mp hfalse hcondition

/-! ### Postings -/

/-- A posting changes the record it reaches and the attention list, and nothing else (R169). -/
theorem postRecord_frame (k : NoticeKind) (i : Slot) (s : State) :
    { postRecord k i s with records := s.records, notice.attention := s.notice.attention } = s := by
  refine (congrArg (fun c : Counters => ({ postRecord k i s with
    records := s.records, counters := c, notice.attention := s.notice.attention } : State))
    (postRecord_counters k i s)).trans ?_
  unfold postRecord
  split
  · rfl
  · dsimp only
    split <;> rfl

/-! ### The take of notices -/

/-- The head of the attention list is taken with its sets, which are emptied (R173). -/
theorem takeAttention_of_cons {h : Handle} {rest : List Handle} (hlist : s.notice.attention = h :: rest) :
    takeAttention s =
      { s.updRecord h.slot (fun r => { r with notices := 0#8, signals := 0#16 }) with
        notice.attention := rest
        notice.attnKinds := (s.record h.slot).notices
        notice.attnSignals := (s.record h.slot).signals
        port.readData := h.word } := by
  unfold takeAttention
  rw [hlist]
  rfl

/-- On an empty list FFFFH is returned and both registers become empty (R173). -/
theorem takeAttention_of_nil (hlist : s.notice.attention = []) :
    takeAttention s =
      { s with notice.attnKinds := 0#8, notice.attnSignals := 0#16, port.readData := 0xFFFF#16 } := by
  unfold takeAttention
  rw [hlist]
  rfl

end Sys2Proof.Machine

namespace Sys2Proof.Claims

open Sys2Proof.Machine

/-- Settles O58: each command ends in one of the three ways of `State.Ends`, none of which leaves a pulse due. -/
theorem stepsKeepPulseSettled : Obligations.StepsKeepPulseSettled := by
  intro s t w e
  refine leads_step w (fun c rest => ?_) t e
  have hrest : State.PulseSettled { s with pending := rest } := w.congr rfl
  exact hrest.leads_ends (exec_ends _ c)

/-- Settles O9: a posting is made when its kind is enabled and its record is in service, else it changes nothing. -/
theorem postingRecordNotice : Obligations.PostingRecordNotice := by
  refine ⟨rfl, fun k i s => ⟨fun hmasked => ?_, fun hout => ?_, fun hunmasked hservice => ?_⟩⟩
  · exact postRecord_of_not k i fun ⟨hunmasked, _⟩ => hunmasked hmasked
  · exact postRecord_of_not k i fun ⟨_, hservice⟩ => hout (inService_iff.mp hservice)
  · have hposts : s.posts k i := ⟨hunmasked, inService_iff.mpr hservice⟩
    refine ⟨?_, fun j hj => ?_, attention_postRecord k i hposts, postRecord_frame k i s⟩
    · rw [record_postRecord k i i hposts, if_pos rfl]
    · rw [record_postRecord k i j hposts, if_neg hj.symm]

/-- Settles O33: each write that stores is one update of a served port, and the other locations disregard it. -/
theorem registerWritesStore : Obligations.RegisterWritesStore := by
  intro s w hr
  have hstores (f : State → State) : busWrite f s = .next (startPulse (f s)) := busWrite_of_served hr f
  refine ⟨hstores (writeConfig w), hstores (writeIntctl w), hstores (writeDevnoticeEnable w),
    hstores (writeParam 0 w), hstores (writeParam 1 w), hstores (writeParam 2 w), hstores (writeParam 3 w),
    hstores (writeNoticeMask w), hstores (writeWinsel w), hstores (writeWinfield w), fun loc hloc => ?_⟩
  refine execRegisterWrite_of_disregards ?_ w s
  revert loc
  decide

/-- Settles O10: the end of a request and the codes are what `endRequest` and `ResultCode.word` write. -/
theorem requestEndWritesResult : Obligations.RequestEndWritesResult := ⟨fun _ _ _ => rfl, rfl⟩

/-- Settles O29: a read of ATTENTION by whether its list is empty, and a read of DEVNOTICE. -/
theorem attentionAndDevnoticeReads : Obligations.AttentionAndDevnoticeReads := by
  intro s hr
  have hattention {u : State} (hu : takeAttention s = u) : Answers .attentionRead s u :=
    (busRead_of_served hr takeAttention).trans (congrArg done hu)
  exact ⟨fun h rest hlist => hattention (takeAttention_of_cons hlist),
    fun hlist => hattention (takeAttention_of_nil hlist), busRead_of_served hr takeDevnotice⟩

/-- Settles O51: the condition, the output in each mode, when a pulse starts, and the command at its end. -/
theorem interruptOutput : Obligations.InterruptOutput :=
  ⟨fun _ => interruptCondition_iff, fun _ hlevel => ⟨int_of_level hlevel, startPulse_of_level hlevel⟩,
    fun _ => int_of_pulse, fun _ => startPulse_of_due, fun _ => startPulse_of_not_due,
    fun _ hpulse => if_pos hpulse, fun _ hidle => if_neg (Bool.eq_false_iff.mp hidle)⟩

end Sys2Proof.Claims
end

section
/-! The local bus port and the requests (chapter 10): the REQUEST write while BUSY and of an unknown code (R191, R192),
STATUS (R188), that every command completes and leaves the queue as it is, and the part while RESET stays asserted
(R190, R202). -/

namespace Sys2Proof.Machine

variable {s t : State}

/-! ### Completion with the queue kept -/

/-- A command's outcome on a state is a next state with the same queue: no fault and no refusal. -/
def State.KeepsQueue (s : State) (o : Host.Outcome State Fault Refusal) : Prop :=
  ∃ t, o = .next t ∧ t.pending = s.pending

theorem next_keepsQueue (h : t.pending = s.pending) : s.KeepsQueue (.next t) := ⟨t, rfl, h⟩

theorem done_keepsQueue (h : t.pending = s.pending) : s.KeepsQueue (done t) :=
  ⟨_, rfl, (startPulse_pending t).trans h⟩

theorem busWrite_keepsQueue {f : State → State} (h : (f s).pending = s.pending) : s.KeepsQueue (busWrite f s) := by
  unfold busWrite
  split
  · exact next_keepsQueue rfl
  · exact done_keepsQueue h

theorem busRead_keepsQueue {f : State → State} (h : (f s).pending = s.pending) : s.KeepsQueue (busRead f s) := by
  unfold busRead
  split
  · exact next_keepsQueue rfl
  · exact done_keepsQueue h

/-- A REQUEST write: its body leaves the queue, and so does its refusal (R191). -/
theorem request_keepsQueue {body : State → State} (h : (body s).pending = s.pending) :
    s.KeepsQueue (busWrite (startRequest body) s) := busWrite_keepsQueue (startRequest_pending body h)

theorem execResetPart_keepsQueue (s : State) : s.KeepsQueue (execResetPart s) := by
  unfold execResetPart
  split
  · exact next_keepsQueue rfl
  · exact next_keepsQueue (resetPart_pending false s)

theorem execOnline_keepsQueue (s : State) : s.KeepsQueue (execOnline s) := by
  unfold execOnline
  split
  · exact next_keepsQueue rfl
  · exact busWrite_keepsQueue (goOnline_pending s)

theorem execOffline_keepsQueue (s : State) : s.KeepsQueue (execOffline s) := by
  unfold execOffline
  split
  · exact busWrite_keepsQueue (goOffline_pending s)
  · exact next_keepsQueue rfl

theorem execArm_keepsQueue (s : State) : s.KeepsQueue (execArm s) := busWrite_keepsQueue rfl

theorem execResumeInbound_keepsQueue (s : State) : s.KeepsQueue (execResumeInbound s) := by
  unfold execResumeInbound
  split
  · exact busWrite_keepsQueue (serveHeldData_pending _)
  · exact next_keepsQueue rfl

theorem execFlushInbound_keepsQueue (s : State) : s.KeepsQueue (execFlushInbound s) := by
  unfold execFlushInbound
  split
  · exact next_keepsQueue rfl
  · exact busWrite_keepsQueue (afterDrain_pending _)

theorem execControlByte_keepsQueue (s : State) (c : Byte) : s.KeepsQueue (execControlByte c s) := by
  unfold execControlByte
  split
  · exact execResetPart_keepsQueue s
  · exact execOnline_keepsQueue s
  · exact execOffline_keepsQueue s
  · exact execArm_keepsQueue s
  · exact execResumeInbound_keepsQueue s
  · exact execFlushInbound_keepsQueue s
  · exact next_keepsQueue rfl

theorem execResetInput_keepsQueue (s : State) (periods : Nat) : s.KeepsQueue (execResetInput periods s) := by
  unfold execResetInput
  split
  · exact next_keepsQueue (resetPart_pending true s)
  · exact next_keepsQueue rfl

/-- A write to any location of the port (R185). -/
theorem execRegisterWrite_keepsQueue (s : State) (loc : BitVec 5) (w : Word) :
    s.KeepsQueue (execRegisterWrite loc w s) := by
  unfold execRegisterWrite
  cases decodeLocation loc with
  | control => exact execControlByte_keepsQueue s _
  | request => exact request_keepsQueue (runRequestByte_pending _ s)
  | outdata | outdataEnd => exact busWrite_keepsQueue (writeOut_pending _ _ s)
  | param _ | devnoticeEnable | intctl | noticeMask | config | winsel | winfield => exact busWrite_keepsQueue rfl
  | _ => exact next_keepsQueue rfl

theorem execDackIn_keepsQueue (s : State) (strobe : Strobe) (tc : Bool) : s.KeepsQueue (execDackIn strobe tc s) := by
  unfold execDackIn
  split
  · exact next_keepsQueue rfl
  · cases strobe with
    | read => exact done_keepsQueue ((postTerminalCount_pending tc _).trans (readIn_pending s))
    | write => exact next_keepsQueue rfl

theorem execDackOut_keepsQueue (s : State) (strobe : Strobe) (tc : Bool) (w : Word) :
    s.KeepsQueue (execDackOut strobe tc w s) := by
  unfold execDackOut
  split
  · exact next_keepsQueue rfl
  · cases strobe with
    | read => exact next_keepsQueue (present_pending _ s)
    | write => exact done_keepsQueue ((postTerminalCount_pending tc _).trans (writeOut_pending _ _ s))

theorem offerCommand_keepsQueue (s : State) (u : LinkUnit) : s.KeepsQueue (offerCommand u s) := by
  unfold offerCommand
  split
  · exact next_keepsQueue rfl
  · exact done_keepsQueue (foreignOffer_pending u s)

theorem takeCommand_keepsQueue (s : State) (u : LinkUnit) : s.KeepsQueue (takeCommand u s) := by
  unfold takeCommand
  split
  · exact next_keepsQueue rfl
  · exact done_keepsQueue (foreignTake_pending u s)

theorem offerDue_keepsQueue (s : State) (kind : OfferKind) (due : Option (Byte × Bool)) (otherHold : Bool) :
    s.KeepsQueue (offerDue kind due otherHold s) := by
  unfold offerDue
  split
  · exact next_keepsQueue rfl
  · split
    · exact done_keepsQueue (offerUnit_pending _ s)
    · exact next_keepsQueue rfl

theorem takenCommand_keepsQueue (s : State) (isKind : OfferKind → Bool) : s.KeepsQueue (takenCommand isKind s) := by
  unfold takenCommand
  split
  · exact next_keepsQueue rfl
  · split
    · exact done_keepsQueue (releaseOthers_pending _ s)
    · exact next_keepsQueue rfl

theorem execOfferWithdrawn_keepsQueue (s : State) : s.KeepsQueue (execOfferWithdrawn s) := by
  unfold execOfferWithdrawn
  split
  · exact next_keepsQueue rfl
  · exact done_keepsQueue (withdrawForeign_pending s)

/-- The release of a line, after which the part attends to an offer that waited for it (R82, R84, R86). -/
theorem lineReleased_keepsQueue (s : State) (l : LinkLines) :
    s.KeepsQueue (done (attendStanding { s with lines := l })) := done_keepsQueue (attendStanding_pending _)

theorem execStopAsserted_keepsQueue (s : State) : s.KeepsQueue (execStopAsserted s) := by
  unfold execStopAsserted
  dsimp only
  split
  · exact done_keepsQueue (stopLink_pending s)
  · exact done_keepsQueue rfl

theorem execClearAsserted_keepsQueue (s : State) : s.KeepsQueue (execClearAsserted s) := by
  unfold execClearAsserted
  dsimp only
  split
  · exact done_keepsQueue (clearLink_pending s)
  · exact done_keepsQueue rfl

/-- The end of a completion (R33, R37). -/
theorem finish_keepsQueue (h : t.pending = s.pending) : s.KeepsQueue (done (finishOperation t)) :=
  done_keepsQueue ((finishOperation_pending t).trans h)

theorem execNameSourceLookupComplete_keepsQueue (s : State) : s.KeepsQueue (execNameSourceLookupComplete s) := by
  unfold execNameSourceLookupComplete
  split
  · refine finish_keepsQueue ?_
    split
    · rfl
    · exact resolveSource_pending _ s
  · exact next_keepsQueue rfl

theorem execNameSinkLookupComplete_keepsQueue (s : State) : s.KeepsQueue (execNameSinkLookupComplete s) := by
  unfold execNameSinkLookupComplete
  split
  · refine finish_keepsQueue ?_
    split
    · rfl
    · exact resolveSink_pending _ s
  · exact next_keepsQueue rfl

theorem execLinkRetagReplaceComplete_keepsQueue (s : State) : s.KeepsQueue (execLinkRetagReplaceComplete s) := by
  unfold execLinkRetagReplaceComplete
  split
  · exact finish_keepsQueue (completeLinkReplace_pending _ _ _ s)
  · exact next_keepsQueue rfl

theorem completeRequest_keepsQueue (s : State) {α : Type} (pick : DirectoryRequest → Option α)
    {body : α → Vector Word 4 → Operation → State → State}
    (h : ∀ a params op, (body a params op s).pending = s.pending) : s.KeepsQueue (completeRequest pick body s) := by
  unfold completeRequest
  split
  · split
    · exact finish_keepsQueue (h _ _ _)
    · exact next_keepsQueue rfl
  · exact next_keepsQueue rfl

/-- A request's change to the directory, whose failure ends the request and changes nothing else (R30, R31). -/
theorem changeOrFail_pending (s : State) (op : Operation) {made : State → State}
    (h : ∀ t : State, (made t).pending = t.pending) : (changeDirectory op made failRequest s).pending = s.pending :=
  changeDirectory_pending op _ _ h fun r => failRequest_pending r s

theorem execConfirmTimerExpiry_keepsQueue (s : State) : s.KeepsQueue (execConfirmTimerExpiry s) := by
  unfold execConfirmTimerExpiry
  split
  · exact next_keepsQueue rfl
  · split
    · exact next_keepsQueue rfl
    · exact done_keepsQueue (refuseConfirm_pending s)

theorem execIntPulseEnd_keepsQueue (s : State) : s.KeepsQueue (execIntPulseEnd s) := by
  unfold execIntPulseEnd
  split
  · exact done_keepsQueue rfl
  · exact next_keepsQueue rfl

/-- Every command completes and leaves the queue as it is. -/
theorem exec_keepsQueue (s : State) (c : Instr) : s.KeepsQueue (exec c s) := by
  cases c with
  | create => exact request_keepsQueue (runRequest_pending .create s)
  | retire => exact request_keepsQueue (runRequest_pending .retire s)
  | retag => exact request_keepsQueue (runRequest_pending .retag s)
  | setAlias => exact request_keepsQueue (runRequest_pending .setAlias s)
  | clearAlias => exact request_keepsQueue (runRequest_pending .clearAlias s)
  | suspend => exact request_keepsQueue (runRequest_pending .suspend s)
  | resume => exact request_keepsQueue (runRequest_pending .resume s)
  | setStatus => exact request_keepsQueue (runRequest_pending .setStatus s)
  | call => exact request_keepsQueue (runRequest_pending .call s)
  | withdraw => exact request_keepsQueue (runRequest_pending .withdraw s)
  | setPoll => exact request_keepsQueue (runRequest_pending .setPoll s)
  | clearPoll => exact request_keepsQueue (runRequest_pending .clearPoll s)
  | setFlag => exact request_keepsQueue (runRequest_pending .setFlag s)
  | confirm => exact request_keepsQueue (runRequest_pending .confirm s)
  | find => exact request_keepsQueue (runRequest_pending .find s)
  | setManagementTag => exact request_keepsQueue (runRequest_pending .setManagementTag s)
  | setOptions => exact request_keepsQueue (runRequest_pending .setOptions s)
  | unknownRequestCode _ => exact request_keepsQueue (runRequestByte_pending _ s)
  | resetPart => exact execResetPart_keepsQueue s
  | online => exact execOnline_keepsQueue s
  | offline => exact execOffline_keepsQueue s
  | arm => exact execArm_keepsQueue s
  | resumeInbound => exact execResumeInbound_keepsQueue s
  | flushInbound => exact execFlushInbound_keepsQueue s
  | unassignedControlCode _ => exact execControlByte_keepsQueue s _
  | attentionRead => exact busRead_keepsQueue (takeAttention_pending s)
  | devnoticeRead => exact busRead_keepsQueue (takeDevnotice_pending s)
  | indataRead => exact busRead_keepsQueue (readIn_pending s)
  | windataRead => exact busRead_keepsQueue (readWindow_pending s)
  | outdata _ | outdataEnd _ => exact busWrite_keepsQueue (writeOut_pending _ _ s)
  | configWrite _ | intctlWrite _ | devnoticeEnableWrite _ => exact busWrite_keepsQueue rfl
  | registerWrite loc w => exact execRegisterWrite_keepsQueue s loc w
  | resetInput periods => exact execResetInput_keepsQueue s periods
  | resetRelease => exact next_keepsQueue rfl
  | dackIn strobe tc => exact execDackIn_keepsQueue s strobe tc
  | dackOut strobe tc w => exact execDackOut_keepsQueue s strobe tc w
  | signal _ | nameSource | nameSink | linkRetag | tagHi _ | tagLo _ | dropSource | dropSinks | go | query
  | groupPoll _ | assignPoll _ | releasePoll | unassignedLinkCode _ | inboundUnitOffer _ _ =>
    exact offerCommand_keepsQueue s _
  | controlUnitInDataPhase _ | dataUnitInCommandPhase _ _ | dataUnitSeen _ _ => exact takeCommand_keepsQueue s _
  | inboundUnitTake => exact done_keepsQueue (serveHeldData_pending s)
  | outboundUnitOffer _ | statusUnitOffer _ | conditionUnitOffer _ | rosterUnitOffer _ =>
    exact offerDue_keepsQueue s _ _ _
  | outboundUnitTaken => exact takenCommand_keepsQueue s OfferKind.isOutbound
  | statusUnitTaken => exact takenCommand_keepsQueue s (· == .status)
  | conditionUnitTaken => exact takenCommand_keepsQueue s (· == .condition)
  | rosterUnitTaken => exact takenCommand_keepsQueue s (· == .roster)
  | offerWithdrawn => exact execOfferWithdrawn_keepsQueue s
  | plqAsserted => exact done_keepsQueue rfl
  | plqReleased => exact lineReleased_keepsQueue s { s.lines with plq := false }
  | stopAsserted => exact execStopAsserted_keepsQueue s
  | stopReleased => exact lineReleased_keepsQueue s { s.lines with stop := false }
  | clearAsserted => exact execClearAsserted_keepsQueue s
  | clearReleased => exact lineReleased_keepsQueue s { s.lines with clear := false }
  | nameSourceLookupComplete => exact execNameSourceLookupComplete_keepsQueue s
  | nameSinkLookupComplete => exact execNameSinkLookupComplete_keepsQueue s
  | linkRetagReplaceComplete => exact execLinkRetagReplaceComplete_keepsQueue s
  | createInsertComplete =>
    exact completeRequest_keepsQueue s _ fun i _ op =>
      changeDirectory_pending op _ _ (createMade_pending i) fun r => createFailed_pending i r s
  | retireRemoveComplete =>
    exact completeRequest_keepsQueue s _ fun i p op => changeOrFail_pending s op (retireMade_pending i p)
  | retagReplaceComplete =>
    exact completeRequest_keepsQueue s _ fun i p op => changeOrFail_pending s op (retagMade_pending i p)
  | setAliasComplete =>
    exact completeRequest_keepsQueue s _ fun i p op => changeOrFail_pending s op (setAliasMade_pending i p)
  | clearAliasComplete =>
    exact completeRequest_keepsQueue s _ fun i p op => changeOrFail_pending s op (clearAliasMade_pending i p)
  | findLookupComplete => exact completeRequest_keepsQueue s _ fun _ _ op => findMade_pending op s
  | setManagementTagComplete =>
    exact completeRequest_keepsQueue s _ fun _ p op => changeOrFail_pending s op (managementMade_pending p)
  | confirmTimerExpiry => exact execConfirmTimerExpiry_keepsQueue s
  | intPulseEnd => exact execIntPulseEnd_keepsQueue s

/-! ### REQUEST writes -/

/-- The codes outside the table name no request (R192). -/
theorem decodeRequest_of_not_isRequestCode : ∀ c : Byte, (!isRequestCode c) = true → decodeRequest c = none := by
  decide

/-- An unknown code ends its request with BAD-REQUEST and FFFFH (R192). -/
theorem runRequestByte_of_not_isRequestCode {c : Byte} (hc : (!isRequestCode c) = true) (s : State) :
    runRequestByte c s = endRequest .badRequest 0xFFFF#16 s := by
  unfold runRequestByte
  rw [decodeRequest_of_not_isRequestCode c hc]
  rfl

/-- A REQUEST write while a request is in flight runs no body, and posts START-REFUSED (R191). -/
theorem busWrite_startRequest_of_busy (hr : s.port.resetHeld = false) (hbusy : s.request ≠ none)
    (body : State → State) : busWrite (startRequest body) s = done (postDevice .startRefused s) :=
  (busWrite_of_served hr _).trans (congrArg done (if_pos (Option.isSome_iff_ne_none.mpr hbusy)))

/-! ### STATUS -/

/-- The bits of STATUS (R188). -/
theorem getLsbD_statusWord (s : State) :
    s.statusWord.getLsbD 0 = s.link.online ∧ s.statusWord.getLsbD 1 = (s.link.phase == .data) ∧
      s.statusWord.getLsbD 2 = s.request.isSome ∧ s.statusWord.getLsbD 3 = s.engine.flight.isSome ∧
      s.statusWord.getLsbD 4 = s.link.confirm.isSome ∧ s.statusWord.getLsbD 5 = s.data.paused ∧
      s.statusWord.getLsbD 6 = s.outSessionOpen ∧ s.statusWord.getLsbD 7 = s.data.session.isSome ∧
      s.statusWord.getLsbD 8 = s.link.clearSeen ∧ ∀ k, s.statusWord.getLsbD (k + 10) = false := by
  rw [statusWord_eq_concat]
  simp only [BitVec.getLsbD_concat_zero, BitVec.getLsbD_concat_succ, BitVec.getLsbD_zero, implies_true, and_self]

/-- STATUS right after reset, with PLQ released (R185, log entry 13). -/
theorem reset_statusWord : State.reset.statusWord = 0#16 := rfl

/-! ### The port while RESET is held -/

theorem busWrite_of_held (hr : s.port.resetHeld = true) (f : State → State) : busWrite f s = .next s := if_pos hr

theorem busRead_of_held (hr : s.port.resetHeld = true) (f : State → State) :
    busRead f s = .next { s with port.readData := 0#16 } := if_pos hr

theorem execResetPart_of_held (hr : s.port.resetHeld = true) : execResetPart s = .next s := if_pos hr

theorem execOnline_of_held (hr : s.port.resetHeld = true) : execOnline s = .next s := by
  unfold execOnline
  rw [busWrite_of_held hr, ite_self]

theorem execOffline_of_held (hr : s.port.resetHeld = true) : execOffline s = .next s := by
  unfold execOffline
  rw [busWrite_of_held hr, ite_self]

theorem execArm_of_held (hr : s.port.resetHeld = true) : execArm s = .next s := busWrite_of_held hr _

theorem execResumeInbound_of_held (hr : s.port.resetHeld = true) : execResumeInbound s = .next s := by
  unfold execResumeInbound
  rw [busWrite_of_held hr, ite_self]

theorem execFlushInbound_of_held (hr : s.port.resetHeld = true) : execFlushInbound s = .next s := by
  unfold execFlushInbound
  split
  · rfl
  · exact busWrite_of_held hr _

/-- A CONTROL write of any code is disregarded (R190). -/
theorem execControlByte_of_held (hr : s.port.resetHeld = true) (c : Byte) : execControlByte c s = .next s := by
  unfold execControlByte
  split
  · exact execResetPart_of_held hr
  · exact execOnline_of_held hr
  · exact execOffline_of_held hr
  · exact execArm_of_held hr
  · exact execResumeInbound_of_held hr
  · exact execFlushInbound_of_held hr
  · rfl

/-- A write to any location is disregarded (R190). -/
theorem execRegisterWrite_of_held (hr : s.port.resetHeld = true) (loc : BitVec 5) (w : Word) :
    execRegisterWrite loc w s = .next s := by
  unfold execRegisterWrite
  cases decodeLocation loc with
  | control => exact execControlByte_of_held hr _
  | request | param _ | devnoticeEnable | intctl | noticeMask | config | winsel | winfield | outdata | outdataEnd =>
    exact busWrite_of_held hr _
  | _ => rfl

theorem readLocation_of_held (hr : s.port.resetHeld = true) (loc : BitVec 5) : s.readLocation loc = 0#16 := if_pos hr

theorem execDackIn_of_held (hr : s.port.resetHeld = true) (strobe : Strobe) (tc : Bool) :
    execDackIn strobe tc s = .next s := if_pos hr

theorem execDackOut_of_held (hr : s.port.resetHeld = true) (strobe : Strobe) (tc : Bool) (w : Word) :
    execDackOut strobe tc w s = .next s := if_pos hr

/-! ### The part while it holds its reset values -/

/-- The part at its reset values while RESET is held, by what they leave open: the word last presented, the lines that
others drive, and the queue. -/
def resetHolding (x : Word) (l : LinkLines) (q : List Instr) : State :=
  { State.reset with port.resetHeld := true, port.readData := x, lines := l, pending := q }

theorem State.heldInReset_iff : s.HeldInReset ↔ ∃ x l q, s = resetHolding x l q := by
  constructor
  · exact fun w => ⟨s.port.readData, s.lines, s.pending, w⟩
  · rintro ⟨x, l, q, rfl⟩
    rfl

theorem resetPart_heldInReset (s : State) : (resetPart true s).HeldInReset := rfl

namespace State.HeldInReset

theorem port_resetHeld (w : s.HeldInReset) : s.port.resetHeld = true := by
  obtain ⟨_, _, _, rfl⟩ := State.heldInReset_iff.mp w
  rfl

theorem request (w : s.HeldInReset) : s.request = none := by
  obtain ⟨_, _, _, rfl⟩ := State.heldInReset_iff.mp w
  rfl

theorem engine (w : s.HeldInReset) : s.engine = State.reset.engine := by
  obtain ⟨_, _, _, rfl⟩ := State.heldInReset_iff.mp w
  rfl

theorem link (w : s.HeldInReset) : s.link = State.reset.link := by
  obtain ⟨_, _, _, rfl⟩ := State.heldInReset_iff.mp w
  rfl

theorem notice (w : s.HeldInReset) : s.notice = State.reset.notice := by
  obtain ⟨_, _, _, rfl⟩ := State.heldInReset_iff.mp w
  rfl

theorem flight (w : s.HeldInReset) : s.engine.flight = none := by rw [w.engine]; rfl

theorem online (w : s.HeldInReset) : s.link.online = false := by rw [w.link]; rfl

theorem phase (w : s.HeldInReset) : s.link.phase = .command := by rw [w.link]; rfl

theorem held (w : s.HeldInReset) : s.link.held = none := by rw [w.link]; rfl

theorem offered (w : s.HeldInReset) : s.link.offered = none := by rw [w.link]; rfl

theorem confirm (w : s.HeldInReset) : s.link.confirm = none := by rw [w.link]; rfl

theorem unoccupied (w : s.HeldInReset) : Claims.Unoccupied s := ⟨w.held, w.offered⟩

/-- An OFFLINE part attends to no offer (R68). -/
theorem not_attends (w : s.HeldInReset) : ¬Claims.Attends s :=
  fun ⟨honline, _⟩ => Bool.eq_false_iff.mp w.online honline

theorem withReadData (w : s.HeldInReset) (x : Word) : ({ s with port.readData := x } : State).HeldInReset := by
  obtain ⟨_, _, _, rfl⟩ := State.heldInReset_iff.mp w
  rfl

theorem withLines (w : s.HeldInReset) (l : LinkLines) : ({ s with lines := l } : State).HeldInReset := by
  obtain ⟨_, _, _, rfl⟩ := State.heldInReset_iff.mp w
  rfl

theorem withPending (w : s.HeldInReset) (q : List Instr) : ({ s with pending := q } : State).HeldInReset := by
  obtain ⟨_, _, _, rfl⟩ := State.heldInReset_iff.mp w
  rfl

/-- The part drives no REJECT that an offer or its withdrawal could drop (R70). -/
theorem withoutReject (w : s.HeldInReset) (l : LinkLines) :
    ({ s with link.reject := false, lines := l } : State).HeldInReset := by
  obtain ⟨_, _, _, rfl⟩ := State.heldInReset_iff.mp w
  rfl

/-- No control sequence is in progress that a take could discard, and clear-seen is clear (R72, R86). -/
theorem withoutSequence (w : s.HeldInReset) :
    ({ s with link.sequence := .none, link.clearSeen := false } : State).HeldInReset := by
  obtain ⟨_, _, _, rfl⟩ := State.heldInReset_iff.mp w
  rfl

/-- An OFFLINE part answers no group poll (R81). -/
theorem pollLines (w : s.HeldInReset) : s.pollLines = 0#8 := by
  refine pollLines_of_silent fun hanswers => ?_
  obtain ⟨-, -, honline, -⟩ := answersPoll_iff.mp hanswers
  exact Bool.eq_false_iff.mp w.online honline

/-! ### What each command makes of it -/

theorem leads_next (w : s.HeldInReset) {o : Host.Outcome State Fault Refusal} (h : o = .next s) :
    Leads State.HeldInReset o := h ▸ Machine.leads_next w

/-- The reset selects LEVEL mode, in which no pulse starts (R184). -/
theorem leads_done (w : s.HeldInReset) : Leads State.HeldInReset (done s) := by
  have hlevel : s.notice.mode = .level := by rw [w.notice]; rfl
  exact w.leads_next (congrArg Host.Outcome.next (startPulse_of_level hlevel))

theorem leads_busRead (w : s.HeldInReset) (f : State → State) : Leads State.HeldInReset (busRead f s) :=
  (w.withReadData 0#16).leads_next (busRead_of_held w.port_resetHeld f)

theorem leads_resetInput (w : s.HeldInReset) (periods : Nat) : Leads State.HeldInReset (execResetInput periods s) := by
  unfold execResetInput
  split
  · exact Machine.leads_next (resetPart_heldInReset s)
  · exact Machine.leads_next w

theorem leads_offer (w : s.HeldInReset) (u : LinkUnit) : Leads State.HeldInReset (offerCommand u s) := by
  rw [offerCommand_of_unoccupied u w.unoccupied, foreignOffer_of_not_attends u w.not_attends]
  exact (w.withoutReject _).leads_done

theorem takeOffer (w : s.HeldInReset) (u : LinkUnit) : (takeOffer u s).HeldInReset := by
  unfold Machine.takeOffer
  split
  · exact w.withLines _
  · exact w.withoutReject _

theorem seeTake (w : s.HeldInReset) (u : LinkUnit) : (seeTake u s).HeldInReset := by
  cases hk : u.kind with
  | control =>
    rw [seeTake_control_command hk w.phase]
    exact w
  | data =>
    rw [seeTake_data_command w.held hk w.phase]
    exact w.withoutSequence

/-- A take may be seen, of an offer that the part attended to before, and finds nothing to act on (R72). -/
theorem leads_take (w : s.HeldInReset) (u : LinkUnit) : Leads State.HeldInReset (takeCommand u s) := by
  rw [takeCommand_of_unoccupied u w.unoccupied]
  unfold foreignTake
  split
  · exact ((w.takeOffer u).seeTake u).leads_done
  · exact (w.takeOffer u).leads_done

/-- An OFFLINE part offers no unit (R71). -/
theorem leads_offerDue (w : s.HeldInReset) (kind : OfferKind) (due : Option (Byte × Bool)) (otherHold : Bool) :
    Leads State.HeldInReset (offerDue kind due otherHold s) := by
  have hmay : ¬s.mayOffer = true := by simp [State.mayOffer, w.online]
  unfold offerDue
  split
  · exact Machine.leads_next w
  · exact w.leads_next (if_neg hmay)

theorem leads_taken (w : s.HeldInReset) (isKind : OfferKind → Bool) :
    Leads State.HeldInReset (takenCommand isKind s) := by
  unfold takenCommand
  rw [w.offered]
  exact Machine.leads_next w

theorem leads_offerWithdrawn (w : s.HeldInReset) : Leads State.HeldInReset (execOfferWithdrawn s) := by
  unfold execOfferWithdrawn
  rw [w.held]
  exact (w.withoutReject _).leads_done

/-- A line that is released finds no offer to attend to (R84, R86). -/
theorem leads_lineReleased (w : s.HeldInReset) (l : LinkLines) :
    Leads State.HeldInReset (done (attendStanding { s with lines := l })) := by
  rw [attendStanding_eq_self (.inr (w.withLines l).not_attends)]
  exact (w.withLines l).leads_done

/-- STOP is watched only while ONLINE (R83). -/
theorem leads_stopAsserted (w : s.HeldInReset) : Leads State.HeldInReset (execStopAsserted s) := by
  unfold execStopAsserted
  rw [w.online]
  exact (w.withLines _).leads_done

/-- CLEAR is watched only while ONLINE (R85). -/
theorem leads_clearAsserted (w : s.HeldInReset) : Leads State.HeldInReset (execClearAsserted s) := by
  unfold execClearAsserted
  rw [w.online]
  exact (w.withLines _).leads_done

theorem serveHeldData (w : s.HeldInReset) : (serveHeldData s).HeldInReset := by
  unfold Machine.serveHeldData
  rw [w.held]
  exact w

theorem leads_nameSourceLookup (w : s.HeldInReset) : Leads State.HeldInReset (execNameSourceLookupComplete s) := by
  unfold execNameSourceLookupComplete
  rw [w.flight]
  exact Machine.leads_next w

theorem leads_nameSinkLookup (w : s.HeldInReset) : Leads State.HeldInReset (execNameSinkLookupComplete s) := by
  unfold execNameSinkLookupComplete
  rw [w.flight]
  exact Machine.leads_next w

theorem leads_linkReplace (w : s.HeldInReset) : Leads State.HeldInReset (execLinkRetagReplaceComplete s) := by
  unfold execLinkRetagReplaceComplete
  rw [w.flight]
  exact Machine.leads_next w

theorem leads_completeRequest (w : s.HeldInReset) {α : Type} (pick : DirectoryRequest → Option α)
    (body : α → Vector Word 4 → Operation → State → State) :
    Leads State.HeldInReset (completeRequest pick body s) := by
  unfold completeRequest
  rw [w.request]
  exact Machine.leads_next w

theorem leads_confirmTimer (w : s.HeldInReset) : Leads State.HeldInReset (execConfirmTimerExpiry s) := by
  unfold execConfirmTimerExpiry
  rw [w.confirm]
  exact Machine.leads_next w

theorem leads_pulseEnd (w : s.HeldInReset) : Leads State.HeldInReset (execIntPulseEnd s) := by
  unfold execIntPulseEnd
  rw [w.notice]
  exact Machine.leads_next w

/-- Every command but the release keeps the reset values. -/
theorem leads_exec (w : s.HeldInReset) {c : Instr} (hc : c ≠ .resetRelease) : Leads State.HeldInReset (exec c s) := by
  have hr := w.port_resetHeld
  cases c with
  | create | retire | retag | setAlias | clearAlias | suspend | resume | setStatus | call | withdraw | setPoll
  | clearPoll | setFlag | confirm | find | setManagementTag | setOptions | unknownRequestCode _ | outdata _
  | outdataEnd _ | configWrite _ | intctlWrite _ | devnoticeEnableWrite _ => exact w.leads_next (busWrite_of_held hr _)
  | resetPart => exact w.leads_next (execResetPart_of_held hr)
  | online => exact w.leads_next (execOnline_of_held hr)
  | offline => exact w.leads_next (execOffline_of_held hr)
  | arm => exact w.leads_next (execArm_of_held hr)
  | resumeInbound => exact w.leads_next (execResumeInbound_of_held hr)
  | flushInbound => exact w.leads_next (execFlushInbound_of_held hr)
  | unassignedControlCode _ => exact w.leads_next (execControlByte_of_held hr _)
  | attentionRead | devnoticeRead | indataRead | windataRead => exact w.leads_busRead _
  | registerWrite loc x => exact w.leads_next (execRegisterWrite_of_held hr loc x)
  | resetInput periods => exact w.leads_resetInput periods
  | resetRelease => exact absurd rfl hc
  | dackIn strobe tc => exact w.leads_next (execDackIn_of_held hr strobe tc)
  | dackOut strobe tc x => exact w.leads_next (execDackOut_of_held hr strobe tc x)
  | signal _ | nameSource | nameSink | linkRetag | tagHi _ | tagLo _ | dropSource | dropSinks | go | query
  | groupPoll _ | assignPoll _ | releasePoll | unassignedLinkCode _ | inboundUnitOffer _ _ => exact w.leads_offer _
  | controlUnitInDataPhase _ | dataUnitInCommandPhase _ _ | dataUnitSeen _ _ => exact w.leads_take _
  | inboundUnitTake => exact w.serveHeldData.leads_done
  | outboundUnitOffer _ | statusUnitOffer _ | conditionUnitOffer _ | rosterUnitOffer _ => exact w.leads_offerDue _ _ _
  | outboundUnitTaken => exact w.leads_taken OfferKind.isOutbound
  | statusUnitTaken => exact w.leads_taken (· == .status)
  | conditionUnitTaken => exact w.leads_taken (· == .condition)
  | rosterUnitTaken => exact w.leads_taken (· == .roster)
  | offerWithdrawn => exact w.leads_offerWithdrawn
  | plqAsserted => exact (w.withLines { s.lines with plq := true }).leads_done
  | plqReleased => exact w.leads_lineReleased { s.lines with plq := false }
  | stopAsserted => exact w.leads_stopAsserted
  | stopReleased => exact w.leads_lineReleased { s.lines with stop := false }
  | clearAsserted => exact w.leads_clearAsserted
  | clearReleased => exact w.leads_lineReleased { s.lines with clear := false }
  | nameSourceLookupComplete => exact w.leads_nameSourceLookup
  | nameSinkLookupComplete => exact w.leads_nameSinkLookup
  | linkRetagReplaceComplete => exact w.leads_linkReplace
  | createInsertComplete => exact (w.leads_completeRequest _ _ : Leads State.HeldInReset (execCreateInsertComplete s))
  | retireRemoveComplete => exact (w.leads_completeRequest _ _ : Leads State.HeldInReset (execRetireRemoveComplete s))
  | retagReplaceComplete => exact (w.leads_completeRequest _ _ : Leads State.HeldInReset (execRetagReplaceComplete s))
  | setAliasComplete => exact (w.leads_completeRequest _ _ : Leads State.HeldInReset (execSetAliasComplete s))
  | clearAliasComplete => exact (w.leads_completeRequest _ _ : Leads State.HeldInReset (execClearAliasComplete s))
  | findLookupComplete => exact (w.leads_completeRequest _ _ : Leads State.HeldInReset (execFindLookupComplete s))
  | setManagementTagComplete =>
    exact (w.leads_completeRequest _ _ : Leads State.HeldInReset (execSetManagementTagComplete s))
  | confirmTimerExpiry => exact w.leads_confirmTimer
  | intPulseEnd => exact w.leads_pulseEnd

end State.HeldInReset

end Sys2Proof.Machine

namespace Sys2Proof.Claims

open Sys2Proof.Machine

/-- Each of the seventeen requests is a REQUEST write with a body of its own (R191, R194). -/
theorem exec_request {c : Instr} (h : c ∈ requests) :
    ∃ body : State → State, ∀ s, exec c s = busWrite (startRequest body) s := by
  rcases List.mem_append.mp h with hhandle | hother
  · obtain ⟨body, hexec⟩ := exec_handleRequest hhandle
    exact ⟨onRecord body, hexec⟩
  · simp only [List.mem_cons, List.not_mem_nil, or_false] at hother
    rcases hother with rfl | rfl | rfl
    · exact ⟨runCreate, fun _ => rfl⟩
    · exact ⟨runFind, fun _ => rfl⟩
    · exact ⟨runSetManagementTag, fun _ => rfl⟩

/-- The requests and the six CONTROL commands are disregarded while RESET is held (R190). -/
theorem exec_busWrites_of_held {s : State} (hr : s.port.resetHeld = true) {c : Instr} (hc : c ∈ busWrites) :
    exec c s = .next s := by
  rcases List.mem_append.mp hc with hrequest | hcontrol
  · obtain ⟨body, hexec⟩ := exec_request hrequest
    exact (hexec s).trans (busWrite_of_held hr _)
  · simp only [List.mem_cons, List.not_mem_nil, or_false] at hcontrol
    rcases hcontrol with rfl | rfl | rfl | rfl | rfl | rfl
    · exact execResetPart_of_held hr
    · exact execOnline_of_held hr
    · exact execOffline_of_held hr
    · exact execArm_of_held hr
    · exact execResumeInbound_of_held hr
    · exact execFlushInbound_of_held hr

/-- Settles O3. -/
theorem everyCommandCompletesAndKeepsQueue : Obligations.EveryCommandCompletesAndKeepsQueue :=
  fun c s => exec_keepsQueue s c

/-- Settles O13: each request, and the unknown code too, is a REQUEST write, which is refused whatever its body. -/
theorem requestWhileBusyIsRefused : Obligations.RequestWhileBusyIsRefused := by
  refine fun s hr hbusy => ⟨fun c hc => ?_, fun w => busWrite_startRequest_of_busy hr hbusy _⟩
  obtain ⟨body, hexec⟩ := exec_request hc
  exact (hexec s).trans (busWrite_startRequest_of_busy hr hbusy body)

/-- Settles O14. -/
theorem unknownRequestCodeEndsAtOnce : Obligations.UnknownRequestCodeEndsAtOnce := by
  intro s w hready hunknown
  rw [← runRequestByte_of_not_isRequestCode hunknown]
  exact busWrite_startRequest hready _

/-- Settles O52: each condition by its bit of STATUS, and after reset the whole word is 0000H. -/
theorem statusShowsTenConditions : Obligations.StatusShowsTenConditions := by
  refine ⟨fun s hr => readLocation_of_served hr _, fun s => ?_, fun n _ => ?_⟩
  · obtain ⟨honline, hphase, hrequest, hflight, hconfirm, hpaused, hsource, hsession, hclear, hzero⟩ :=
      getLsbD_statusWord s
    rw [honline, hphase, hrequest, hflight, hconfirm, hpaused, hsource, hsession, hclear, getLsbD_statusWord_plq]
    exact ⟨.rfl, beq_iff_eq, Option.isSome_iff_ne_none, Option.isSome_iff_ne_none, Option.isSome_iff_ne_none, .rfl,
      outSessionOpen_iff, Option.isSome_iff_ne_none, .rfl, .rfl, forall_le_of_forall_add hzero⟩
  · rw [reset_statusWord, BitVec.getLsbD_zero]

/-- Settles O6: the port disregards its cycles by the lemmas on a held port, every command but the release keeps the
reset values (`State.HeldInReset.leads_exec`), and the lines are read off them. -/
theorem partHeldInResetWhileAsserted : Obligations.PartHeldInResetWhileAsserted := by
  refine ⟨fun s hr => ?_, fun s t n hn e => ?_, fun s t w e => ?_, fun s w => ?_⟩
  · have hwrite (f : State → State) : busWrite f s = .next s := busWrite_of_held hr f
    have hread (f : State → State) : busRead f s = .next { s with port.readData := 0#16 } := busRead_of_held hr f
    refine ⟨fun c hc => exec_busWrites_of_held hr hc, fun w => ?_, execRegisterWrite_of_held hr, ?_,
      readLocation_of_held hr,
      fun strobe tc w => ⟨execDackIn_of_held hr strobe tc, execDackOut_of_held hr strobe tc w⟩⟩
    · exact ⟨hwrite _, execControlByte_of_held hr _, hwrite _, hwrite _, hwrite _, hwrite _, hwrite _⟩
    · simp only [List.forall_mem_cons]
      exact ⟨hread _, hread _, hread _, hread _, nofun⟩
  · have hreset : exec (.resetInput n) s = .next (resetPart true s) := if_pos hn
    cases hreset.symm.trans e
    exact resetPart_heldInReset s
  · refine leads_step (P := fun t => t.HeldInReset ∨ t.port.resetHeld = false) (.inl w) (fun c rest u hu => ?_) t e
    by_cases hc : c = .resetRelease
    · subst hc
      cases hu
      exact .inr rfl
    · exact .inl ((w.withPending rest).leads_exec hc u hu)
  · have hpoll := w.pollLines
    obtain ⟨x, l, q, rfl⟩ := State.heldInReset_iff.mp w
    exact ⟨rfl, rfl, rfl, rfl, rfl, hpoll, rfl, rfl, rfl⟩

end Sys2Proof.Claims
end

section
/-! The queue (log entries 6 and 26): the two branches of `step`, one for each shape of the queue. -/

namespace Sys2Proof.Claims

open Sys2Proof.Machine

/-- Settles O1: a queue with a front selects the branch of `step` that runs it. -/
theorem stepRunsFrontCommand : Obligations.StepRunsFrontCommand := by
  intro c rest s hfront
  rw [step, hfront]

/-- Settles O2: an empty queue selects the idle branch of `step`. -/
theorem emptyQueueIdles : Obligations.EmptyQueueIdles := by
  intro s hempty
  rw [step, hempty]

end Sys2Proof.Claims
end
